-- ==== Sys2Proof/Word.lean ====
section
/-! DEFINITION. The words of the links: bytes, wire sequences and request tags. Physical quantities are exact
integers (`Int`) in the units of file 00, saturated where a rule names a bound. -/

namespace Sys2Proof

/-- One character of a link. -/
abbrev Byte := BitVec 8

/-- The 16-bit wire sequence of a Sample Frame, echoed in Drive Frames (file 00, sample numbering). -/
abbrev Seq := BitVec 16

/-- The 16-bit tag that the console chooses for a request (R156). -/
abbrev Tag := BitVec 16

end Sys2Proof
end

