-- ==== Sys2Proof/Syntax.lean ====
section
/-! DEFINITION. The commands of the part, one constructor per row of spec/opcode_table.json, and the data that their
operands carry: what arrives on the links, on the STORE port and at the pins. Commands without operands are steps in
which a block takes what already waits for it (a message on a path, a timer). -/

namespace Sys2Proof

/-- The three links (file 00). -/
inductive Link where
  | front | drive | console
  deriving DecidableEq, Repr

/-- The two measuring arms of the extensometer. -/
inductive ArmId where
  | a | b
  deriving DecidableEq, Repr

/-- The blocks of the part; `drive` is the Drive Port, which stands within MS. -/
inductive Block where
  | inlet | mc | drive | ms | es | te | cr | sp
  deriving DecidableEq, Repr

/-- The blocks that raise the fault events of R76. -/
inductive FaultSource where
  | inlet | mc | drive
  deriving DecidableEq, Repr

/-- The blocks that send MS a load outcome (R29, R47). -/
inductive OutcomeSource where
  | mc | te
  deriving DecidableEq, Repr

/-- The blocks whose status notices CP keeps besides SP's (R169). -/
inductive NoticeSource where
  | ms | es | cr
  deriving DecidableEq, Repr

/-- The Frame Table (R25, section 11.5), in the order of its fields. -/
structure FrameTable where
  fMax : Int
  vMax : Int
  travelMin : Int
  travelMax : Int
  compliance : Int
  rangesInUse : Int
  jogForceLimit : Int
  deriving DecidableEq, Repr

/-- A Range Table: zero offset and breakpoints, each a count relative to zero and a force (R27). -/
structure RangeTable where
  zeroOffset : Int
  points : List (Int × Int)
  deriving DecidableEq, Repr

/-- A calibration table as a LOAD names it. Range codes are those of the request and may lie outside 0 … 3 (R27). -/
inductive TableRef where
  | frame | crosshead | arm (i : ArmId) | range (code : Nat)
  deriving DecidableEq, Repr

/-- The content of a calibration LOAD: a table body or the removal mark (R29, section 11.5). -/
inductive CalLoad where
  | frame (t : FrameTable)
  | crosshead (scale : Int)
  | arm (i : ArmId) (gain : Int)
  | range (code : Nat) (t : RangeTable)
  | remove (t : TableRef)
  deriving DecidableEq, Repr

/-- A segment as a Program LOAD carries it: codes not yet checked (R44, section 11.5). -/
structure RawSegment where
  mode : Nat
  endKind : Nat
  endSense : Nat
  endAction : Nat
  rate : Int
  endValue : Int
  fallback : Option Int
  gain : Option Int
  deriving DecidableEq, Repr

/-- A Test Program as a LOAD carries it (R43, section 11.5). `label` holds the 16 label characters. -/
structure RawProgram where
  labelLength : Nat
  label : List Byte
  l0 : Int
  lc : Int
  lp : Int
  s0 : Int
  fitted : Nat
  autoTare : Nat
  autoArm : Nat
  autoPosition : Nat
  kStrain : Int
  kForce : Int
  criterion : Nat
  removalStrain : Int
  removalTimeout : Int
  slip : Int
  segments : List RawSegment
  deriving DecidableEq, Repr

/-- The Evaluation Parameters (section 3.2). -/
structure EvalParams where
  yieldDrop : Int
  yieldMinForce : Int
  yieldWindowEnd : Int
  transient : Int
  fLo : Int
  fHi : Int
  offsetStrain : Int
  breakDrop : Int
  breakConfirm : Int
  breakMinForce : Int
  deriving DecidableEq, Repr

/-- A Program LOAD: `none` is the removal mark (R42). -/
abbrev ProgramLoad := Option RawProgram

/-- An Evaluation Parameters LOAD: `none` is the removal mark (R47). -/
abbrev EvalLoad := Option EvalParams

/-- The commands, one per row of spec/opcode_table.json, in the table's order. -/
inductive Instr where
  | reset
  | autoloadHeaderRead (bytes : List Byte)
  | autoloadImageRead (bytes : List Byte)
  | autoloadReadError
  | autoloadSilent
  | sampleFrame (bytes : List Byte)
  | inletSilent
  | inletStateTag
  | receptionTimerExpiry (link : Link)
  | conditionedSampleConversion
  | mcStateTag
  | dropArmRequest
  | programNoticeAtMc
  | tare (tag : Tag)
  | zeroExt (tag : Tag)
  | zeroPosition (tag : Tag)
  | loadCalibration (tag : Tag) (load : CalLoad)
  | loadFrameTable
  | loadCrossheadTable
  | loadArmTable
  | loadRangeTable
  | removeCalibrationTable
  | loadOutcome (source : OutcomeSource)
  | calibrationSummary
  | loadProgram (tag : Tag) (load : ProgramLoad)
  | loadEvaluationParameters (tag : Tag) (load : EvalLoad)
  | evaluationParametersAtTe
  | store (tag : Tag)
  | storeAtMc
  | writeComplete
  | readBackComplete (bytes : List Byte)
  | storeWriteError
  | storeSilent
  | storeDoneNotice
  | readbackCalibration (tag : Tag) (kind index pointer count : Byte)
  | readbackProgram (tag : Tag) (pointer count : Byte)
  | readbackEvaluationParameters (tag : Tag)
  | inquire (tag : Tag)
  | arm (tag : Tag)
  | armCopyAtTe
  | armCopyAtEs
  | start (tag : Tag)
  | pause (tag : Tag)
  | resume (tag : Tag)
  | stop (tag : Tag)
  | abort (tag : Tag)
  | resetTest (tag : Tag)
  | jog (tag : Tag) (rate : Int)
  | jogStop (tag : Tag)
  | conditionedSampleAtMs
  | faultEventAtMs (source : FaultSource)
  | criterionEventAtMs
  | extRemovalHold
  | removalComplete
  | removalTimeout
  | breakAtMs
  | extensometerTag
  | driveStatusFrame (bytes : List Byte)
  | conditionedSampleAtEs
  | esStateTag
  | programNoticeAtEs
  | removalEventAtEs
  | extRemove (tag : Tag)
  | extConfirm (tag : Tag)
  | removalTimerExpiry
  | breakAtEs
  | conditionedSampleAtTe
  | teStateTag
  | segmentLogEntry
  | snapHold (tag : Tag)
  | snapRelease (tag : Tag)
  | readResults (tag : Tag) (part : Byte)
  | holdTimerExpiry
  | conditionedSampleAtCr
  | triggerEventAtCr (source : Block)
  | captureSet (tag : Tag) (enable : Byte) (postCount : Nat) (mask : Byte)
  | captureTrigger (tag : Tag)
  | captureDrain (tag : Tag) (count : Nat)
  | captureRearm (tag : Tag)
  | consoleFrameError (bytes : List Byte)
  | unknownKind (kind : Byte) (tag : Tag)
  | linkError (link : Link)
  | storeStateNotice
  | statusNotice (source : NoticeSource)
  | conditionedSampleAtCp
  | eventAtCp (source : Block)
  | replyReport (source : Block)
  | reportTransmitted
  | hold
  | go
  | status (tag : Tag)
  | clear (tag : Tag) (flags : BitVec 16)
  | maskSet (tag : Tag) (flags : BitVec 16)
  | attnMode (tag : Tag) (mode : Byte)
  | streamSet (tag : Tag) (enable : Byte) (decimation : Nat)
  | attnPulseExpiry
  | startDelimiter (link : Link) (character : Byte)
  | unknownTable (tag : Tag) (kind index : Byte)
  deriving DecidableEq, Repr

end Sys2Proof
end

