-- ==== Sys2Proof/Decode.lean ====
section
/-! DEFINITION. Words. The opcode table gives no row any bits (its rows are steps of the part's blocks, and a request reaches
the part as a frame, which Machine/Links.lean reads), so no word spells a command. -/

namespace Sys2Proof

/-- The command that a word of the opcode table spells: none, since no row has bits. -/
def decodeTableWord (_nbits _w : Nat) : Option Instr := none

end Sys2Proof
end

