-- ==== Sys2Proof/Config.lean ====
section
/-! DEFINITION. The capacities and limits of file 00 ("Capacities") that hold in every chapter, and the one free value. -/

namespace Sys2Proof.Config

/-- Segments in a Test Program. -/
def maxSegments : Nat := 32
/-- Records of the Capture Ring. -/
def ringRecords : Nat := 4096
/-- Places of the Report Queue. -/
def queuePlaces : Nat := 64
/-- Places held back for Event and Reply Reports. -/
def queueReserve : Nat := 16
/-- The largest sequence gap in a test. -/
def maxGap : Nat := 8
/-- The inlet silence limit, in frame periods. -/
def silencePeriods : Nat := 16
/-- The silence timer of the Inlet Port when no period code is held, in µs (R6). -/
def silenceNoCodeUs : Nat := 32000
/-- The drive unanswered limit, in Drive Frames; also the length of the send history. -/
def unansweredLimit : Nat := 8
/-- Snapshot hold limit, in µs. -/
def holdUs : Nat := 1000000
/-- ATTN pulse width, in µs. -/
def pulseUs : Nat := 2000
/-- Autoload and STORE silence limit, in µs. -/
def storeSilenceUs : Nat := 50000
/-- Reception timer of a link receiver, in µs (R172). -/
def receptionUs : Nat := 8
/-- Records of one capture drain. -/
def drainRecords : Nat := 32
/-- Bytes of a Management Frame payload and of the store image. -/
def maxPayload : Nat := 1024
/-- Points of the modulus fit. -/
def maxFitPoints : Nat := 65535
def minFitPoints : Nat := 16
/-- L0, Lc and Lp when no program is loaded, in µm (R15, R40). -/
def defaultLength : Int := 50000
/-- Where sample numbers, test time and segment time stop (R9, R60). -/
def counterTop : Nat := 4294967295
/-- The part code and revision of the capability record (R40). -/
def partCode : Nat := 4120
def partRevision : Nat := 1

/-- FREE VALUE. What a 4-byte field of a report carries in place of a value that it cannot hold: the spec states none
(log entry 43). -/
opaque freeField : Int → Int

end Sys2Proof.Config
end

