-- ==== Sys2Proof/Machine/State.lean ====
section
/-! DEFINITION. The state of the part: every register, table, buffer, mark, timer and pin that the spec gives its blocks,
the messages on the paths between the blocks, and the queue of waiting commands. Plain data throughout. Physical
quantities are integers in the units of file 00; demands and ramp targets are integers of value × 2³². -/

namespace Sys2Proof.Machine

/-! ## Faults and refusals -/

/-- No command of this part ends in a fault: the spec gives every command an effect. (Safe: nothing stops.) -/
inductive Fault where
  deriving DecidableEq, Repr

/-- The one refusal the host asks for. -/
inductive Refusal where
  /-- Raised by `exec` for a command without a meaning; no arm raises it. (Safe.) -/
  | notModelled (mnemonic : String)
  deriving DecidableEq, Repr

/-! ## Enumerated values -/

/-- The period code of a Sample Frame (file 00, "Frame period and time"). -/
inductive Period where
  | us2000 | us1000 | us500 | us200
  deriving DecidableEq, Repr

/-- The strain source (R16), in order of priority. -/
inductive Source where
  | both | armA | armB | crosshead
  deriving DecidableEq, Repr

/-- The fitted set of the Program Header (section 3.1). -/
inductive Fitted where
  | none | both | armA | armB
  deriving DecidableEq, Repr

/-- The motion states (chapter 4). -/
inductive MotionState where
  | idle | jogging | arming | armed | running | paused | stopped | faulted
  deriving DecidableEq, Repr

/-- The fault events of R76. -/
inductive FaultKind where
  | inletGap | inletSilent | periodChanged | overload | rangeInvalid
  | driveFault | driveNotReady | driveSilent | endSwitch
  deriving DecidableEq, Repr

/-- The motion cause (R58). -/
inductive Cause where
  | none | jogStop | jogForceStop | travelLimit | programEnd | consoleStop | brk | removalTimeout | consoleAbort
  | fault (k : FaultKind)
  deriving DecidableEq, Repr

/-- A motion state tag of MS: IDLE says whether RESET_TEST made it (R7), ARMING carries the arming count (R53), STOPPED and
FAULTED the motion cause (R118). -/
inductive MotionTag where
  | idle (byResetTest : Bool)
  | jogging
  | arming (count : Nat)
  | armed
  | running
  | paused
  | stopped (cause : Cause)
  | faulted (cause : Cause)
  deriving DecidableEq, Repr

inductive SegmentMode where
  | position | strain | force | hold
  deriving DecidableEq, Repr

inductive EndKind where
  | strainReached | forceReached | positionReached | timeElapsed | extReleased | yieldDone | proofDone | none
  deriving DecidableEq, Repr

inductive EndSense where
  | atOrAbove | atOrBelow
  deriving DecidableEq, Repr

inductive EndAction where
  | next | finish
  deriving DecidableEq, Repr

/-- The removal criterion of the Program Header. -/
inductive Criterion where
  | none | atStrain | afterYield | afterProof | manual
  deriving DecidableEq, Repr

/-- The end cause of a Segment Log entry (R63). -/
inductive EndCause where
  | criterion | fallbackEnd | brk | stop | travelLimit | removalTimeout | fault
  deriving DecidableEq, Repr

/-- The mark of the segment cursor (chapter 4; "not started" is R52's). -/
inductive CursorPhase where
  | notStarted | running | ended
  deriving DecidableEq, Repr

/-- The continuation of a STRAIN segment (R64). -/
inductive Continuation where
  | fallback | equivalent
  deriving DecidableEq, Repr

/-- The limit that clamped a rate (R88). -/
inductive RateLimit where
  | vMax | rMax
  deriving DecidableEq, Repr

/-- The store state (section 2.3). -/
inductive StoreState where
  | loading | ready | writing | verifying
  deriving DecidableEq, Repr

/-- The reasons of STORE_ERROR (R33 to R38). -/
inductive StoreReason where
  | badSignature | badRevision | badLength | badCheck | badTable | silent | readError | writeError | verifyMismatch
  deriving DecidableEq, Repr

/-- The substates of REMOVAL_PENDING. -/
inductive RemovalSub where
  | awaitBoth | awaitConfirm | awaitArms
  deriving DecidableEq, Repr

/-- The cause of FAILED. -/
inductive FailCause where
  | armsLost | slip | atBreak
  deriving DecidableEq, Repr

/-- The extensometer state with its substate or cause (section 6.1); `unseated` is OPEN. -/
inductive ExtState where
  | notFitted | unseated | seated | active
  | removalPending (sub : RemovalSub)
  | released
  | failed (cause : FailCause)
  deriving DecidableEq, Repr

/-- The name of an extensometer state, as the extensometer tag carries it (R97); `unseated` is OPEN. -/
inductive ExtName where
  | notFitted | unseated | seated | active | removalPending | released | failed
  deriving DecidableEq, Repr

/-- The cause of ARM_DEMOTED (R103, R104). -/
inductive DemoteCause where
  | slip | contactOrRange
  deriving DecidableEq, Repr

inductive YieldOutcome where
  | pending | discontinuous | continuous
  deriving DecidableEq, Repr

inductive YieldState where
  | seeking | plateau | done | none
  deriving DecidableEq, Repr

inductive FitStatus where
  | notStarted | collecting | done | failed
  deriving DecidableEq, Repr

inductive FitReason where
  | tooFew | flat | negative | sourceChanged | windowNotPassed
  deriving DecidableEq, Repr

inductive ProofState where
  | awaitingFit | seeking | found | notFound
  deriving DecidableEq, Repr

inductive BreakState where
  | waiting | watching | confirmed
  deriving DecidableEq, Repr

inductive HoldState where
  | free | held
  deriving DecidableEq, Repr

/-- The cause of the expired indication (R142, R143). -/
inductive ExpiryCause where
  | timer | armed
  deriving DecidableEq, Repr

/-- What SNAP_RELEASE found (R141). -/
inductive ReleaseFound where
  | held | expired | none
  deriving DecidableEq, Repr

inductive RingState where
  | off | filling | post | held
  deriving DecidableEq, Repr

/-- A trigger of the Capture Ring (section 9.3): FAULT stands for the nine faults and for TRAVEL_LIMIT. -/
inductive Trigger where
  | brk | yieldUpper | extFailed | console
  | fault (k : FaultKind)
  | travelLimit
  deriving DecidableEq, Repr

inductive AttnMode where
  | latched | pulse
  deriving DecidableEq, Repr

inductive ConsoleHold where
  | held | go
  deriving DecidableEq, Repr

/-- The reply statuses (R159), in the order of their codes. -/
inductive Status where
  | done | wrongState | badTable | badRequest | notReady | cancelled | absent | empty | holdExpired | storeFailed
  deriving DecidableEq, Repr

/-- The reasons that the answering rules name. -/
inductive Reason where
  | armInProgress | notIdle | loadInProgress | noProgram | incompleteCalibration | armTableMissing
  | strainWithoutExtensometer | driveFault | endSwitch | driveNotReady | noSample | outsideTravel
  | extensometerNotSeated | travelOrder | zeroGain | unknownCode | breakpointCount | countOrder | forceOrder
  | labelLength | removalWithoutExtensometer | segmentCount | endKindNotAllowed | extReleasedWithoutRemoval
  | fallbackNotAllowed | gainNotAllowed | fitWindowOrder | noRemoval | tooLate | notInMask
  | unknownKind | badLength | unknownTable | unknownFlag | unknownPart
  | writeError | verifyMismatch | silent
  deriving DecidableEq, Repr

/-- The kinds of Management Frames (section 11.5), in the order of their codes 16 … 45. -/
inductive RequestKind where
  | load | readback | store | inquire | tare | zeroExt | zeroPosition | arm | start | pause | resume | stop | abort
  | resetTest | jog | jogStop | extRemove | extConfirm | snapHold | snapRelease | readResults | captureSet
  | captureTrigger | captureDrain | captureRearm | status | clear | maskSet | attnMode | streamSet
  deriving DecidableEq, Repr

/-! ## Samples -/

/-- The content of a Sample Frame (section 11.4). -/
structure SampleFrame where
  seq : Seq
  period : Period
  range : Fin 4
  overrange : Bool
  overA : Bool
  overB : Bool
  contactA : Bool
  contactB : Bool
  load : Int
  countA : Int
  countB : Int
  crosshead : Int
  deriving DecidableEq, Repr

/-- A good frame as the Inlet Port passes it to MC: the gap, and the advance of the sample number that R9 gives it (the raw
gap, or 1 for a frame taken with g = 1 under R3 or R4). -/
structure GoodFrame where
  frame : SampleFrame
  gap : Nat
  advance : Nat
  deriving DecidableEq, Repr

/-- The fields of a Conditioned Sample (R9). -/
structure Conditioned where
  number : Nat
  seq : Seq
  gap : Nat
  period : Period
  testTime : Nat
  force : Int
  range : Fin 4
  uncal : Bool
  held : Bool
  overrange : Bool
  dLA : Int
  validA : Bool
  dLB : Int
  validB : Bool
  position : Int
  relPosition : Int
  strain : Int
  source : Source
  sourceChanged : Bool
  deriving DecidableEq, Repr

/-- A Conditioned Sample as MC delivers it: the fields of R9, the two contact bits that ES judges (R98, R110), and the
arming mark with its arming count (R53). -/
structure Sample extends Conditioned where
  contactA : Bool
  contactB : Bool
  armingMark : Option Nat
  deriving DecidableEq, Repr

/-- The raw strains of the four sources (R15). -/
structure RawStrains where
  both : Int
  armA : Int
  armB : Int
  crosshead : Int
  deriving DecidableEq, Repr

/-- MC's last Conditioned Sample with the raw strains kept under R15, and whether the overload condition of R12 held. -/
structure LastSample where
  sample : Sample
  raw : RawStrains
  overload : Bool
  deriving DecidableEq, Repr

/-! ## Tables and programs -/

/-- The Calibration Set (chapter 2). -/
structure CalSet where
  frame : Option FrameTable
  crosshead : Option Int
  armA : Option Int
  armB : Option Int
  range0 : Option RangeTable
  range1 : Option RangeTable
  range2 : Option RangeTable
  range3 : Option RangeTable
  deriving DecidableEq, Repr

/-- The identity of the frame (section 2.3). -/
structure Identity where
  present : Bool
  serial : Nat
  capacity : Nat
  deriving DecidableEq, Repr

/-- The calibration summary (R30). -/
structure CalSummary where
  frame : Option FrameTable
  crosshead : Bool
  armA : Bool
  armB : Bool
  range0 : Bool
  range1 : Bool
  range2 : Bool
  range3 : Bool
  complete : Bool
  deriving DecidableEq, Repr

/-- A segment as installed (section 3.1). -/
structure Segment where
  mode : SegmentMode
  rate : Int
  endKind : EndKind
  endValue : Int
  sense : EndSense
  action : EndAction
  fallback : Option Int
  gain : Option Int
  deriving DecidableEq, Repr

/-- A Test Program as installed (section 3.1). -/
structure Program where
  label : Option (List Byte)
  l0 : Int
  lc : Int
  lp : Int
  s0 : Int
  fitted : Fitted
  autoTare : Bool
  autoArm : Bool
  autoPosition : Bool
  kStrain : Int
  kForce : Int
  criterion : Criterion
  removalStrain : Int
  removalTimeout : Int
  slip : Int
  segments : List Segment
  deriving DecidableEq, Repr

/-- What a program notice carries for MC (R42). -/
structure McProgram where
  l0 : Int
  lc : Int
  lp : Int
  kForce : Int
  fitted : Fitted
  autoTare : Bool
  autoArm : Bool
  autoPosition : Bool
  deriving DecidableEq, Repr

/-- The arm copy of ES (R52). -/
structure EsArmCopy where
  fitted : Fitted
  criterion : Criterion
  removalStrain : Int
  removalTimeout : Int
  slip : Int
  deriving DecidableEq, Repr

/-- The arm copy of TE (R52). -/
structure TeArmCopy where
  s0 : Int
  label : Option (List Byte)
  fMax : Int
  deriving DecidableEq, Repr

/-! ## Results -/

/-- A Segment Log entry (R63). -/
structure LogEntry where
  index : Nat
  cause : EndCause
  number : Nat
  force : Int
  strain : Int
  position : Int
  time : Nat
  fallbackUsed : Bool
  deriving DecidableEq, Repr

/-- A result point with its strain source (ReH, Rp, the yield peak). -/
structure SourcePoint where
  force : Int
  strain : Int
  number : Nat
  source : Source
  deriving DecidableEq, Repr

/-- A result point without a source (ReL, Fm, the pre-break candidate). -/
structure Point where
  force : Int
  strain : Int
  number : Nat
  deriving DecidableEq, Repr

/-- The break record (R131): the pre-break sample and the plastic elongation A. -/
structure BreakRecord where
  pre : Point
  elongation : Int
  elasticKept : Bool
  deriving DecidableEq, Repr

/-- The Results Record (R137); a result that is not valid or not present is `none`. -/
structure Results where
  label : Option (List Byte)
  s0 : Int
  reH : Option SourcePoint
  reL : Option Point
  reLFinal : Bool
  outcome : YieldOutcome
  fitStatus : FitStatus
  fitReason : Option FitReason
  fitN : Nat
  fitK : Int
  fitB : Int
  rp : Option SourcePoint
  fm : Option Point
  brk : Option BreakRecord
  sReH : Int
  sReL : Int
  sRp : Int
  sRm : Int
  endCause : Cause
  log : List LogEntry
  deriving DecidableEq, Repr

/-- The cleared record of R137, for a specimen label and S0. -/
def Results.cleared (label : Option (List Byte)) (s0 : Int) : Results :=
  { label := label, s0 := s0, reH := none, reL := none, reLFinal := false, outcome := .pending,
    fitStatus := .notStarted, fitReason := none, fitN := 0, fitK := 0, fitB := 0, rp := none, fm := none, brk := none,
    sReH := 0, sReL := 0, sRp := 0, sRm := 0, endCause := .none, log := [] }

/-! ## Capture records, drive status, notices -/

/-- A Capture Record (section 9.1). -/
structure CaptureRecord where
  number : Nat
  force : Int
  strain : Int
  position : Int
  source : Source
  uncal : Bool
  held : Bool
  overrange : Bool
  validA : Bool
  validB : Bool
  sourceChanged : Bool
  gap : Bool
  deriving DecidableEq, Repr

/-- The last Drive Status (section 5.4). -/
structure DriveStatus where
  echo : Seq
  ready : Bool
  fault : Bool
  endSwitch : Bool
  code : Nat
  deriving DecidableEq, Repr

/-- The pause-cause set (section 4.4). -/
structure PauseCauses where
  console : Bool
  extRemoval : Bool
  extFailed : Bool
  deriving DecidableEq, Repr

/-- The segment cursor. -/
structure Cursor where
  index : Nat
  phase : CursorPhase
  deriving DecidableEq, Repr

/-- The status notice of MS (R169, groups Motion and Drive). -/
structure MsNotice where
  state : MotionState
  cause : Cause
  pauses : PauseCauses
  cursor : Option Cursor
  pending : Option Nat
  demand : Int
  enable : Bool
  unanswered : Nat
  status : Option DriveStatus
  deriving DecidableEq, Repr

/-- The status notice of CR (R169, group Capture). -/
structure CrNotice where
  state : RingState
  held : Nat
  trigger : Option Nat
  deriving DecidableEq, Repr

/-- The extensometer tag (R50). -/
structure ExtTag where
  name : ExtName
  generation : Nat
  deriving DecidableEq, Repr

/-! ## Events and reports -/

/-- The events that CP turns into Event Reports (R164), with the fields that the raising rules list, in their order. -/
inductive Event where
  | inletGap (seq : Seq) (rawGap : Nat)
  | inletSilent (lastSeq : Option Seq) (number : Option Nat)
  | periodChanged (was now : Period)
  | overload (force : Int) (range : Fin 4)
  | rangeInvalid (range : Fin 4)
  | driveFault (code : Nat) (echo : Seq)
  | endSwitch (echo : Seq)
  | driveNotReady (echo : Seq)
  | driveSilent (count : Nat) (seq : Seq)
  | travelLimit (bound : Int) (number : Nat) (state : MotionState)
  | jogForceStop (force : Int) (number : Nat)
  | storeError (reason : StoreReason)
  | autoloadDone (tables : Nat)
  | testEnd (state : MotionState) (cause : Cause) (segment : Option Nat) (number : Option Nat)
  | segmentEnd (entry : LogEntry)
  | segmentFallback (segment : Nat) (number : Nat) (source : Continuation) (rate : Int) (paused : Bool)
  | rateClamped (segment : Nat) (asked inUse : Int) (limit : RateLimit) (source : Option Continuation)
  | linkError (link : Link) (count : Nat)
  | armDemoted (arm : ArmId) (cause : DemoteCause) (number : Nat) (fall : Option Int) (source : Source)
  | extFailed (cause : FailCause) (number : Nat) (seen : Source)
  | extRemovalRequest (criterion : Criterion) (number : Option Nat) (strain : Int) (timeout : Int)
  | extReleased (number : Option Nat) (source : Option Source) (inTime : Bool)
  | extRemovalTimeout (sub : RemovalSub) (number : Option Nat)
  | extAtBreak (before : ExtName) (source : Option Source) (number : Nat)
  | yieldUpper (reH : SourcePoint) (falling : Nat)
  | yieldDone (outcome : YieldOutcome) (reH : Option SourcePoint) (reL : Option Point) (final : Bool) (number : Nat)
  | fitDone (n : Nat) (k b : Int) (number : Nat)
  | fitFailed (reason : FitReason) (n : Nat) (number : Option Nat)
  | proof (rp : SourcePoint) (offsetForce : Int)
  | brk (number : Nat) (record : BreakRecord)
  | holdExpired (cause : ExpiryCause) (count : Nat)
  | captureHeld (cause : Option Trigger) (trigger : Option Nat) (held : Nat) (oldest newest : Option Nat)
  deriving DecidableEq, Repr

/-- The capability record (R40). -/
structure Capability where
  identity : Identity
  summary : CalSummary
  vMax : Int
  rMax : Int
  forceRate : Int
  deriving DecidableEq, Repr

/-- The STATUS reply (R169). -/
structure StatusRecord where
  flags : BitVec 11
  mask : BitVec 11
  attention : BitVec 11
  mode : AttnMode
  attnLow : Bool
  frontErrors : Nat
  driveErrors : Nat
  consoleErrors : Nat
  hold : ConsoleHold
  free : Nat
  lossMark : Bool
  stream : Bool
  decimation : Nat
  motion : MsNotice
  ext : ExtState
  capture : CrNotice
  store : StoreState
  lastSample : Option Nat
  deriving DecidableEq, Repr

/-- The prefix of every reply of CR (section 11.5). -/
structure CapturePrefix where
  state : RingState
  held : Nat
  trigger : Option Nat
  cause : Option Trigger
  deriving DecidableEq, Repr

/-- What a reply of CR carries after its prefix (R149 to R152). -/
inductive CaptureMore where
  | nothing
  | clamped (c : Bool)
  | triggered (trigger : Option Nat) (state : RingState)
  | drained (left : Nat) (records : List CaptureRecord)
  | entered (state : RingState)
  deriving DecidableEq, Repr

/-- The payload of a Reply Report, by the rule that gives it. -/
inductive Payload where
  | none
  | entryIndex (i : Nat)
  | clampCount (n : Nat)
  | motionState (m : MotionState)
  | armed (number : Nat) (position : Int) (source : Source) (permitted : List Source)
  | startedFrom (number : Nat)
  | sampleNumber (n : Option Nat)
  | resumed (m : MotionState) (stillPaused : Bool)
  | jogRate (rate : Int) (clamped : Bool)
  | extState (e : ExtState)
  | extSubstate (sub : Option RemovalSub)
  | frameTable (t : FrameTable)
  | gain (v : Int)
  | entryTotal (n : Nat)
  | rangePart (zeroOffset : Int) (total pointer : Nat) (points : List (Int × Int))
  | programHeader (generation : Nat) (p : Program)
  | programSegments (generation total : Nat) (segments : List Segment)
  | generation (n : Nat)
  | evalParams (p : EvalParams)
  | capability (c : Capability)
  | snapHold (count : Nat) (before : HoldState)
  | snapRelease (count : Nat) (found : ReleaseFound)
  | results (r : Results) (count : Nat) (hold : HoldState) (expired : Option ExpiryCause)
  | resultsLog (log : List LogEntry) (count : Nat) (hold : HoldState) (expired : Option ExpiryCause)
  | capture (head : CapturePrefix) (more : CaptureMore)
  | status (s : StatusRecord)
  | cleared (flags attention : BitVec 11)
  | masked (mask attention : BitVec 11)
  | attnMode (m : AttnMode)
  | stream (enable : Bool) (decimation : Nat)
  deriving DecidableEq, Repr

/-- An answer to a request (R159). `kind` is the request kind code, which may be one the part does not know (R156). -/
structure Reply where
  tag : Tag
  kind : Byte
  status : Status
  reason : Option Reason
  payload : Payload
  deriving DecidableEq, Repr

/-- A report of the Report Queue (chapter 10). -/
inductive Report where
  | sample (c : Conditioned)
  | event (e : Event) (number : Option Nat) (lossBefore : Bool)
  | reply (r : Reply)
  deriving DecidableEq, Repr

/-! ## Messages on the paths between blocks -/

/-- What a path of MS to MC carries, in order (R7, R28, R42). -/
inductive McMessage where
  | tag (t : MotionTag)
  | load (tag : Tag) (l : CalLoad)
  | store (tag : Tag)
  | notice (generation : Nat) (program : Option McProgram)
  deriving DecidableEq, Repr

/-- What the path of MS to ES carries (R7, R42, R52). -/
inductive EsMessage where
  | tag (t : MotionTag)
  | notice (generation : Nat) (fitted : Option Fitted)
  | armCopy (c : EsArmCopy)
  deriving DecidableEq, Repr

/-- What the path of MS to TE carries (R7, R47, R52, R58). -/
inductive TeMessage where
  | tag (t : MotionTag)
  | entry (e : LogEntry)
  | armCopy (c : TeArmCopy)
  | params (tag : Tag) (l : EvalLoad)
  deriving DecidableEq, Repr

/-- The load outcomes (R29, R47). -/
inductive LoadOutcome where
  | done | badTable | notReady
  deriving DecidableEq, Repr

/-- What MC sends MS, on one path: its calibration summary and the outcomes of loads. The summary of a DONE goes ahead of
its outcome, so that MS holds it when the load count falls (R28, R30; log entry 35). -/
inductive McToMs where
  | summary (c : CalSummary)
  | outcome (o : LoadOutcome)
  deriving DecidableEq, Repr

/-- What ES sends MS about a removal besides the hold (R112, R113). -/
inductive RemovalMessage where
  | complete | timeout
  deriving DecidableEq, Repr

/-- The events of TE that MS and ES take (R124, R128, R131). Each carries the number of the sample it was judged on, and that
sample's reported strain for the report of R109. -/
inductive TeEvent where
  | yieldDone (number : Nat) (strain : Int)
  | proof (number : Nat) (strain : Int)
  | brk (number : Nat)
  deriving DecidableEq, Repr

/-- One item for each block. -/
structure PerBlock (α : Type) where
  inlet : α
  mc : α
  drive : α
  ms : α
  es : α
  te : α
  cr : α
  sp : α
  deriving DecidableEq, Repr

/-- The messages sent and not yet taken, one list for each path, oldest first. -/
structure Paths where
  inletToMc : List GoodFrame
  samplesMs : List Sample
  samplesEs : List Sample
  samplesTe : List Sample
  samplesCr : List Sample
  samplesCp : List Sample
  msToInlet : List MotionTag
  msToMc : List McMessage
  msToEs : List EsMessage
  msToTe : List TeMessage
  mcToMs : List McToMs
  teOutcomes : List LoadOutcome
  extTags : List ExtTag
  holds : Nat
  removals : List RemovalMessage
  teToMs : List TeEvent
  teToEs : List TeEvent
  dropArms : List ArmId
  storeDone : Nat
  storeStates : List StoreState
  inletFaults : List FaultKind
  mcFaults : List FaultKind
  driveFaults : List FaultKind
  triggers : PerBlock (List Trigger)
  events : PerBlock (List Event)
  replies : PerBlock (List Reply)
  frontErrors : Nat
  driveErrors : Nat
  msNotices : List MsNotice
  esNotices : List ExtState
  crNotices : List CrNotice
  deriving DecidableEq, Repr

/-! ## Blocks -/

/-- A link receiver (R172). -/
inductive Receiver where
  | hunt
  | receiving (held : List Byte) (timerUs : Nat)
  deriving DecidableEq, Repr

/-- The receivers of the three links. -/
structure Receivers where
  front : Receiver
  drive : Receiver
  console : Receiver
  deriving DecidableEq, Repr

/-- The Inlet Port (section 1.1). A timer is `none` when stopped. -/
structure Inlet where
  lastSeq : Option Seq
  period : Option Period
  rebase : Bool
  silence : Option Nat
  tag : MotionTag
  deriving DecidableEq, Repr

/-- The Zero Record (section 1.4). -/
structure ZeroRecord where
  tare : Int
  armA : Int
  armB : Int
  pZero : Int
  fZ : Int
  deriving DecidableEq, Repr

/-- The permitted set (R18). -/
structure Permitted where
  both : Bool
  armA : Bool
  armB : Bool
  crosshead : Bool
  deriving DecidableEq, Repr

/-- The Measurement Conditioner (section 1.2, chapter 2). A pending zero request is the list of the tags merged into it; an
empty list means none is pending (R19). -/
structure Mc where
  cal : CalSet
  identity : Identity
  storeInFlight : Bool
  zero : ZeroRecord
  source : Option Source
  permitted : Permitted
  offset : Int
  lastFCal : Int
  testTime : Nat
  pendTare : List Tag
  pendZeroExt : List Tag
  pendZeroPosition : List Tag
  armingZeros : Option Nat
  offsetRezero : Bool
  dropArms : List ArmId
  tag : MotionTag
  last : Option LastSample
  program : Option McProgram
  generation : Nat
  deriving DecidableEq, Repr

/-- The Motion Sequencer (chapters 3 to 5). `demand`, `eTarget` and `fTarget` are Q32.32. -/
structure Ms where
  state : MotionState
  cause : Cause
  pauses : PauseCauses
  cursor : Option Cursor
  continuation : Option Continuation
  fallbackUsed : Bool
  segmentTime : Nat
  yieldMark : Bool
  proofMark : Bool
  releasedMark : Bool
  pendingTransition : Option Nat
  jogRate : Int
  jogEnabling : Bool
  demand : Int
  eTarget : Int
  fTarget : Int
  rateInUse : Int
  gainInUse : Int
  continuationRate : Option Int
  program : Option Program
  generation : Nat
  extTag : ExtTag
  summary : CalSummary
  loadCount : Nat
  armReply : Option Tag
  armingCount : Nat
  last : Option Sample
  deriving DecidableEq, Repr

/-- The Drive Port (section 5.4), with what the last Drive Frame carried (R169). -/
structure DrivePort where
  history : List (Seq × Bool)
  unanswered : Nat
  status : Option DriveStatus
  faultMark : Bool
  endMark : Bool
  notReadyMark : Bool
  sentDemand : Int
  sentEnable : Bool
  deriving DecidableEq, Repr

/-- What ES keeps of the last Conditioned Sample it took. -/
structure EsLast where
  number : Nat
  strain : Int
  source : Source
  contactA : Bool
  contactB : Bool
  deriving DecidableEq, Repr

/-- The slip history of ES (section 6.1). -/
structure SlipHistory where
  dLA : Int
  dLB : Int
  force : Int
  deriving DecidableEq, Repr

/-- The Extensometer Supervisor (section 6.1). The removal timer holds its duration in seconds. -/
structure Es where
  state : ExtState
  fitted : Option Fitted
  generation : Nat
  copy : Option EsArmCopy
  tag : MotionTag
  history : Option SlipHistory
  sourceSeen : Option Source
  requestedA : Bool
  requestedB : Bool
  eventMark : Bool
  timer : Option Nat
  timedOut : Bool
  last : Option EsLast
  deriving DecidableEq, Repr

/-- The sums of the modulus fit, kept as exact integers (section 7.3). -/
structure FitSums where
  e : Int
  f : Int
  ee : Int
  ef : Int
  deriving DecidableEq, Repr

/-- The Test Evaluator with the results store (chapters 7 and 8). The fit's status, reason, n, k and b are fields of the
working record. -/
structure Te where
  loaded : Option EvalParams
  copy : Option TeArmCopy
  params : Option EvalParams
  tag : MotionTag
  testOpen : Bool
  breakConfirmed : Bool
  yieldState : YieldState
  peak : Option SourcePoint
  sums : FitSums
  fitSource : Option Source
  proofState : ProofState
  breakState : BreakState
  run : Nat
  candidate : Option Point
  working : Results
  published : Results
  count : Nat
  hold : HoldState
  holdTimer : Option Nat
  expired : Option ExpiryCause
  deriving DecidableEq, Repr

/-- The Capture Ring (section 9.1). Mask bits: 0 BREAK, 1 FAULT, 2 YIELD_UPPER, 3 EXT_FAILED, 4 CONSOLE. -/
structure Cr where
  ring : List CaptureRecord
  state : RingState
  enable : Bool
  mask : BitVec 5
  post : Nat
  remaining : Nat
  trigger : Option Nat
  cause : Option Trigger
  deriving DecidableEq, Repr

/-- The Console Port (chapter 10). Flag bits 0 … 10 stand in the order of section 10.3. `transmitting` says that the head
report of the queue is in transmission. -/
structure Cp where
  frontErrors : Nat
  driveErrors : Nat
  consoleErrors : Nat
  store : StoreState
  hold : ConsoleHold
  queue : List Report
  transmitting : Bool
  lossMark : Bool
  lastStreamed : Option Nat
  stream : Bool
  decimation : Nat
  flags : BitVec 11
  mask : BitVec 11
  mode : AttnMode
  attnLow : Bool
  pulse : Option Nat
  lastSample : Option Nat
  motion : MsNotice
  ext : ExtState
  capture : CrNotice
  deriving DecidableEq, Repr

/-- The Store Port (section 2.3). -/
structure Sp where
  state : StoreState
  timer : Option Nat
  image : List Byte
  tag : Option Tag
  deriving DecidableEq, Repr

/-- The whole part, the frames it has sent, and the commands that wait. -/
structure State where
  rx : Receivers
  inlet : Inlet
  mc : Mc
  ms : Ms
  drive : DrivePort
  es : Es
  te : Te
  cr : Cr
  cp : Cp
  sp : Sp
  paths : Paths
  driveLine : List (List Byte)
  consoleLine : List (List Byte)
  pending : List Instr
  deriving DecidableEq, Repr

/-! ## The state after reset -/

/-- R8. -/
def Inlet.reset : Inlet :=
  { lastSeq := none, period := none, rebase := true, silence := none, tag := .idle false }

/-- The empty Calibration Set (R24). -/
def CalSet.empty : CalSet :=
  { frame := none, crosshead := none, armA := none, armB := none,
    range0 := none, range1 := none, range2 := none, range3 := none }

/-- The empty summary (R30). -/
def CalSummary.empty : CalSummary :=
  { frame := none, crosshead := false, armA := false, armB := false,
    range0 := false, range1 := false, range2 := false, range3 := false, complete := false }

/-- The identity after reset: zero, with the flag clear (R41). -/
def Identity.zero : Identity := { present := false, serial := 0, capacity := 0 }

/-- The permitted set with all four sources (R18). -/
def Permitted.all : Permitted := { both := true, armA := true, armB := true, crosshead := true }

/-- R24, R41. -/
def Mc.reset : Mc :=
  { cal := .empty, identity := .zero, storeInFlight := false,
    zero := { tare := 0, armA := 0, armB := 0, pZero := 0, fZ := 0 },
    source := none, permitted := .all, offset := 0, lastFCal := 0, testTime := 0,
    pendTare := [], pendZeroExt := [], pendZeroPosition := [], armingZeros := none, offsetRezero := false,
    dropArms := [], tag := .idle false, last := none, program := none, generation := 0 }

/-- The empty pause-cause set. -/
def PauseCauses.empty : PauseCauses := { console := false, extRemoval := false, extFailed := false }

/-- R57, R80, R96, R41. -/
def Ms.reset : Ms :=
  { state := .idle, cause := .none, pauses := .empty, cursor := none, continuation := none, fallbackUsed := false,
    segmentTime := 0, yieldMark := false, proofMark := false, releasedMark := false, pendingTransition := none,
    jogRate := 0, jogEnabling := false, demand := 0, eTarget := 0, fTarget := 0, rateInUse := 0, gainInUse := 0,
    continuationRate := none, program := none, generation := 0, extTag := { name := .notFitted, generation := 0 },
    summary := .empty, loadCount := 0, armReply := none, armingCount := 0, last := none }

/-- R96. That no Drive Frame has been sent yet is shown as demand 0 with the enable clear (DESIGN CHOICE, log entry 32). -/
def DrivePort.reset : DrivePort :=
  { history := [], unanswered := 0, status := none, faultMark := false, endMark := false, notReadyMark := false,
    sentDemand := 0, sentEnable := false }

/-- R117. -/
def Es.reset : Es :=
  { state := .notFitted, fitted := none, generation := 0, copy := none, tag := .idle false, history := none,
    sourceSeen := none, requestedA := false, requestedB := false, eventMark := false, timer := none,
    timedOut := false, last := none }

/-- R136, R145. -/
def Te.reset : Te :=
  { loaded := none, copy := none, params := none, tag := .idle false, testOpen := false, breakConfirmed := false,
    yieldState := .seeking, peak := none, sums := { e := 0, f := 0, ee := 0, ef := 0 }, fitSource := none,
    proofState := .awaitingFit, breakState := .waiting, run := 0, candidate := none,
    working := .cleared none 0, published := .cleared none 0, count := 0, hold := .free, holdTimer := none,
    expired := none }

/-- R153. -/
def Cr.reset : Cr :=
  { ring := [], state := .off, enable := false, mask := 0, post := 0, remaining := 0, trigger := none, cause := none }

/-- What MS reports of itself (R169). -/
def MsNotice.of (m : Ms) (d : DrivePort) : MsNotice :=
  { state := m.state, cause := m.cause, pauses := m.pauses, cursor := m.cursor, pending := m.pendingTransition,
    demand := d.sentDemand, enable := d.sentEnable, unanswered := d.unanswered, status := d.status }

/-- What CR reports of itself (R169). -/
def CrNotice.of (c : Cr) : CrNotice :=
  { state := c.state, held := c.ring.length, trigger := c.trigger }

/-- R170. -/
def Cp.reset : Cp :=
  { frontErrors := 0, driveErrors := 0, consoleErrors := 0, store := .loading, hold := .go, queue := [],
    transmitting := false, lossMark := false, lastStreamed := none, stream := false, decimation := 1,
    flags := 0, mask := 0, mode := .latched, attnLow := false, pulse := none, lastSample := none,
    motion := .of .reset .reset, ext := .notFitted, capture := .of .reset }

/-- R32: LOADING, the silence timer started at 50 ms, no byte of an image read yet. -/
def Sp.reset : Sp :=
  { state := .loading, timer := some Config.storeSilenceUs, image := [], tag := none }

/-- The same item for each block. -/
def PerBlock.all {α : Type} (x : α) : PerBlock α :=
  { inlet := x, mc := x, drive := x, ms := x, es := x, te := x, cr := x, sp := x }

/-- No message under way. -/
def Paths.empty : Paths :=
  { inletToMc := [], samplesMs := [], samplesEs := [], samplesTe := [], samplesCr := [], samplesCp := [],
    msToInlet := [], msToMc := [], msToEs := [], msToTe := [], mcToMs := [], teOutcomes := [],
    extTags := [], holds := 0, removals := [], teToMs := [], teToEs := [], dropArms := [], storeDone := 0,
    storeStates := [], inletFaults := [], mcFaults := [], driveFaults := [],
    triggers := .all [], events := .all [], replies := .all [],
    frontErrors := 0, driveErrors := 0, msNotices := [], esNotices := [], crNotices := [] }

/-- The part right after power-on or RESET (R8, R24, R41, R57, R80, R96, R117, R136, R145, R153, R170, R172). -/
def State.reset : State :=
  { rx := { front := .hunt, drive := .hunt, console := .hunt },
    inlet := .reset, mc := .reset, ms := .reset, drive := .reset, es := .reset, te := .reset, cr := .reset,
    cp := .reset, sp := .reset, paths := .empty, driveLine := [], consoleLine := [], pending := [] }

end Sys2Proof.Machine
end

