-- ==== Sys2Proof/Machine/Ops.lean ====
section
/-! DEFINITION. The shared operations: rounding and saturation (R1), sending a message on a path and taking the oldest one
from it, the parts of the state a block works on, and the service of a request by CP during LOADING (R157).

A block reaches only its own state and the paths: its operations act on a desk (`MsDesk`, `EsDesk`, ...), and `State.onMs`
and its like put the desk back. What waits on a path is taken by the command of the table that names the taking; a taking
with nothing to take leaves the state as it is (log entry 2). -/

namespace Sys2Proof.Machine

/-! ## Arithmetic (R1) -/

/-- Division rounded to the nearest integer, ties away from zero (R1). -/
def roundDiv (a b : Int) : Int :=
  let q : Int := ((2 * a.natAbs + b.natAbs) / (2 * b.natAbs) : Nat)
  if decide (a < 0) = decide (b < 0) then q else -q

/-- Saturation to a … b (file 00, "Rounding and saturation"). -/
def saturate (a b x : Int) : Int := max a (min b x)

/-- The signed 32-bit range. -/
def sat32 (x : Int) : Int := saturate (-2147483648) 2147483647 x

/-- The range of a force (R11) and of the integer part of a ramp target (R81). -/
def satForce (x : Int) : Int := saturate (-2147483647) 2147483647 x

/-- 2³², the scale of a Q32.32 quantity. -/
def q32 : Int := 4294967296

/-- The integer part ⌊v⌋ of a Q32.32 quantity. -/
def qFloor (v : Int) : Int := v / q32

/-- round(v) of a Q32.32 quantity. -/
def qRound (v : Int) : Int := roundDiv v q32

/-- A counter that stops at its top (R9, R60). -/
def stopAt (top n : Nat) : Nat := min top n

/-- A numeric field clamped to the nearest bound of its range, with 1 counted when it was outside (R25, R43, R45, R47). -/
def clampField (lo hi x : Int) : Int × Nat :=
  if x < lo then (lo, 1) else if hi < x then (hi, 1) else (x, 0)

/-! ## Frame periods -/

/-- The frame period in µs (file 00). -/
def Period.us : Period → Nat
  | .us2000 => 2000
  | .us1000 => 1000
  | .us500 => 500
  | .us200 => 200

/-- The frame rate f in Hz (file 00). -/
def Period.rate : Period → Int
  | .us2000 => 500
  | .us1000 => 1000
  | .us500 => 2000
  | .us200 => 5000

/-! ## Motion state tags -/

/-- The motion state that a tag names (R7). -/
def MotionTag.state : MotionTag → MotionState
  | .idle _ => .idle
  | .jogging => .jogging
  | .arming _ => .arming
  | .armed => .armed
  | .running => .running
  | .paused => .paused
  | .stopped _ => .stopped
  | .faulted _ => .faulted

/-- A state other than IDLE and FAULTED: a test or a jog is under way (R4 to R6, R10, R12, R76, R94). -/
def MotionState.active : MotionState → Bool
  | .idle => false
  | .faulted => false
  | _ => true

/-- ES's states by the names its tag carries (R97). -/
def ExtState.name : ExtState → ExtName
  | .notFitted => .notFitted
  | .unseated => .unseated
  | .seated => .seated
  | .active => .active
  | .removalPending _ => .removalPending
  | .released => .released
  | .failed _ => .failed

/-! ## Items per block -/

def PerBlock.get {α : Type} (p : PerBlock α) : Block → α
  | .inlet => p.inlet
  | .mc => p.mc
  | .drive => p.drive
  | .ms => p.ms
  | .es => p.es
  | .te => p.te
  | .cr => p.cr
  | .sp => p.sp

def PerBlock.set {α : Type} (p : PerBlock α) (b : Block) (x : α) : PerBlock α :=
  match b with
  | .inlet => { p with inlet := x }
  | .mc => { p with mc := x }
  | .drive => { p with drive := x }
  | .ms => { p with ms := x }
  | .es => { p with es := x }
  | .te => { p with te := x }
  | .cr => { p with cr := x }
  | .sp => { p with sp := x }

/-- Append an item to the list of one block. -/
def PerBlock.push {α : Type} (p : PerBlock (List α)) (b : Block) (x : α) : PerBlock (List α) :=
  p.set b (p.get b ++ [x])

/-! ## Sending on a path -/

/-- An event for CP, on the path of the block that raised it (R164). -/
def Paths.sendEvent (p : Paths) (b : Block) (e : Event) : Paths :=
  { p with events := p.events.push b e }

/-- A trigger event for CR (section 9.3). -/
def Paths.sendTrigger (p : Paths) (b : Block) (t : Trigger) : Paths :=
  { p with triggers := p.triggers.push b t }

/-- An answer for CP (R159). -/
def Paths.sendReply (p : Paths) (b : Block) (r : Reply) : Paths :=
  { p with replies := p.replies.push b r }

/-- The faults that one block has sent MS and MS has not taken. -/
def Paths.faultsOf (p : Paths) : FaultSource → List FaultKind
  | .inlet => p.inletFaults
  | .mc => p.mcFaults
  | .drive => p.driveFaults

def Paths.setFaults (p : Paths) (b : FaultSource) (l : List FaultKind) : Paths :=
  match b with
  | .inlet => { p with inletFaults := l }
  | .mc => { p with mcFaults := l }
  | .drive => { p with driveFaults := l }

/-- The block that a fault source is. -/
def faultBlock : FaultSource → Block
  | .inlet => .inlet
  | .mc => .mc
  | .drive => .drive

/-- A fault event is sent to MS, CP and CR (R4 to R6, R10, R12, R92, R94, R95). -/
def Paths.raiseFault (p : Paths) (b : FaultSource) (k : FaultKind) (e : Event) : Paths :=
  ((p.setFaults b (p.faultsOf b ++ [k])).sendEvent (faultBlock b) e).sendTrigger (faultBlock b) (.fault k)

/-- The link-error event of the Inlet Port, sent to CP (R2). -/
def Paths.sendFrontError (p : Paths) : Paths := { p with frontErrors := p.frontErrors + 1 }

/-- The link-error event of the Drive Port, sent to CP (R93). -/
def Paths.sendDriveError (p : Paths) : Paths := { p with driveErrors := p.driveErrors + 1 }

/-- A motion state tag, sent to the Inlet Port, MC, TE and ES (R7, R58). -/
def Paths.sendTag (p : Paths) (t : MotionTag) : Paths :=
  { p with
    msToInlet := p.msToInlet ++ [t]
    msToMc := p.msToMc ++ [.tag t]
    msToTe := p.msToTe ++ [.tag t]
    msToEs := p.msToEs ++ [.tag t] }

/-- A Conditioned Sample, delivered to MS, ES, TE, CR and CP (R9). -/
def Paths.deliver (p : Paths) (x : Sample) : Paths :=
  { p with
    samplesMs := p.samplesMs ++ [x]
    samplesEs := p.samplesEs ++ [x]
    samplesTe := p.samplesTe ++ [x]
    samplesCr := p.samplesCr ++ [x]
    samplesCp := p.samplesCp ++ [x] }

/-! ## Replies -/

/-- The code of a request kind (section 11.5). -/
def RequestKind.code : RequestKind → Byte
  | .load => 16 | .readback => 17 | .store => 18 | .inquire => 19 | .tare => 20 | .zeroExt => 21
  | .zeroPosition => 22 | .arm => 23 | .start => 24 | .pause => 25 | .resume => 26 | .stop => 27 | .abort => 28
  | .resetTest => 29 | .jog => 30 | .jogStop => 31 | .extRemove => 32 | .extConfirm => 33 | .snapHold => 34
  | .snapRelease => 35 | .readResults => 36 | .captureSet => 37 | .captureTrigger => 38 | .captureDrain => 39
  | .captureRearm => 40 | .status => 41 | .clear => 42 | .maskSet => 43 | .attnMode => 44 | .streamSet => 45

/-- An answer under a request's tag and kind (R156, R159). -/
def answer (k : RequestKind) (tag : Tag) (st : Status) (p : Payload) : Reply :=
  { tag := tag, kind := k.code, status := st, reason := none, payload := p }

/-- An answer with a reason. -/
def refuse (k : RequestKind) (tag : Tag) (st : Status) (r : Reason) (p : Payload) : Reply :=
  { tag := tag, kind := k.code, status := st, reason := some r, payload := p }

/-! ## Desks: what a block works on -/

structure InletDesk where
  inlet : Inlet
  paths : Paths
  deriving DecidableEq, Repr

structure McDesk where
  mc : Mc
  paths : Paths
  deriving DecidableEq, Repr

/-- MS with the Drive Port, and the Drive Frames sent. -/
structure MsDesk where
  ms : Ms
  drive : DrivePort
  paths : Paths
  line : List (List Byte)
  deriving DecidableEq, Repr

structure EsDesk where
  es : Es
  paths : Paths
  deriving DecidableEq, Repr

structure TeDesk where
  te : Te
  paths : Paths
  deriving DecidableEq, Repr

structure CrDesk where
  cr : Cr
  paths : Paths
  deriving DecidableEq, Repr

structure CpDesk where
  cp : Cp
  paths : Paths
  line : List (List Byte)
  deriving DecidableEq, Repr

/-- SP and the part of MC that a store or autoload reaches. -/
structure StoreDesk where
  mc : Mc
  sp : Sp
  paths : Paths
  deriving DecidableEq, Repr

def State.onInlet (s : State) (f : InletDesk → InletDesk) : State :=
  let d := f ⟨s.inlet, s.paths⟩
  { s with inlet := d.inlet, paths := d.paths }

def State.onMc (s : State) (f : McDesk → McDesk) : State :=
  let d := f ⟨s.mc, s.paths⟩
  { s with mc := d.mc, paths := d.paths }

def State.onTe (s : State) (f : TeDesk → TeDesk) : State :=
  let d := f ⟨s.te, s.paths⟩
  { s with te := d.te, paths := d.paths }

def State.onCp (s : State) (f : CpDesk → CpDesk) : State :=
  let d := f ⟨s.cp, s.paths, s.consoleLine⟩
  { s with cp := d.cp, paths := d.paths, consoleLine := d.line }

def State.onStore (s : State) (f : StoreDesk → StoreDesk) : State :=
  let d := f ⟨s.mc, s.sp, s.paths⟩
  { s with mc := d.mc, sp := d.sp, paths := d.paths }

/-- The status notice of MS, sent when an item of it changed (R169). -/
def MsDesk.notice (d : MsDesk) (was : MsNotice) : MsDesk :=
  if MsNotice.of d.ms d.drive = was then d
  else { d with paths := { d.paths with msNotices := d.paths.msNotices ++ [.of d.ms d.drive] } }

/-- The status notice that MS sends with each Drive Frame (R169). -/
def MsDesk.noticeAlways (d : MsDesk) : MsDesk :=
  { d with paths := { d.paths with msNotices := d.paths.msNotices ++ [.of d.ms d.drive] } }

/-- The status notice of ES (R169). -/
def EsDesk.notice (d : EsDesk) (was : ExtState) : EsDesk :=
  if d.es.state = was then d
  else { d with paths := { d.paths with esNotices := d.paths.esNotices ++ [d.es.state] } }

/-- The status notice of CR (R169). -/
def CrDesk.notice (d : CrDesk) (was : CrNotice) : CrDesk :=
  if CrNotice.of d.cr = was then d
  else { d with paths := { d.paths with crNotices := d.paths.crNotices ++ [.of d.cr] } }

def State.msDesk (s : State) : MsDesk := ⟨s.ms, s.drive, s.paths, s.driveLine⟩

def State.putMs (s : State) (d : MsDesk) : State :=
  { s with ms := d.ms, drive := d.drive, paths := d.paths, driveLine := d.line }

/-- A step of MS or its Drive Port, with the status notice it gives rise to. -/
def State.onMs (s : State) (f : MsDesk → MsDesk) : State :=
  s.putMs ((f s.msDesk).notice (.of s.ms s.drive))

/-- A step of ES, with its status notice. -/
def State.onEs (s : State) (f : EsDesk → EsDesk) : State :=
  let d := (f ⟨s.es, s.paths⟩).notice s.es.state
  { s with es := d.es, paths := d.paths }

/-- A step of CR, with its status notice. -/
def State.onCr (s : State) (f : CrDesk → CrDesk) : State :=
  let d := (f ⟨s.cr, s.paths⟩).notice (.of s.cr)
  { s with cr := d.cr, paths := d.paths }

end Sys2Proof.Machine
end

