-- ==== Sys2Proof/Machine/Operands.lean ====
section
/-! DEFINITION. The operand forms: the codes of enumerated values (section 11.1: 0, 1, 2 and on, in the order in which the
manual first lists the values), the fields of frames and request payloads read from their bytes (section 11.5), and flag
sets as bits. -/

namespace Sys2Proof.Machine

/-! ## Bytes and integers: least significant byte first, two's complement (section 11.1) -/

/-- An unsigned field read from its bytes. -/
def readNat : List Byte → Nat
  | [] => 0
  | b :: bs => b.toNat + 256 * readNat bs

/-- A signed field read from its bytes. -/
def readInt (bs : List Byte) : Int :=
  let v := readNat bs
  if 2 * v < 256 ^ bs.length then v else (v : Int) - 256 ^ bs.length

/-- `n` bytes of a value, least significant first; a negative value in two's complement. -/
def writeInt : Nat → Int → List Byte
  | 0, _ => []
  | n + 1, v => BitVec.ofInt 8 v :: writeInt n (v / 256)

/-- The bytes at `at … at + n - 1`. -/
def field (bs : List Byte) (start n : Nat) : List Byte := (bs.drop start).take n

def u8 (bs : List Byte) (start : Nat) : Nat := readNat (field bs start 1)
def u16 (bs : List Byte) (start : Nat) : Nat := readNat (field bs start 2)
def u32 (bs : List Byte) (start : Nat) : Nat := readNat (field bs start 4)
def i16 (bs : List Byte) (start : Nat) : Int := readInt (field bs start 2)
def i24 (bs : List Byte) (start : Nat) : Int := readInt (field bs start 3)
def i32 (bs : List Byte) (start : Nat) : Int := readInt (field bs start 4)

/-- Bit `i` of the byte at `start`. -/
def bitAt (bs : List Byte) (start i : Nat) : Bool := (u8 bs start).testBit i

/-- A value preceded by its presence byte (section 11.1); the value is a signed 4-byte field. -/
def optional32 (bs : List Byte) (start : Nat) : Option Int :=
  if u8 bs start = 0 then none else some (i32 bs (start + 1))

/-! ## Codes of enumerated values -/

def Period.ofCode : Nat → Option Period
  | 0 => some .us2000
  | 1 => some .us1000
  | 2 => some .us500
  | 3 => some .us200
  | _ => none

def Period.code : Period → Nat
  | .us2000 => 0
  | .us1000 => 1
  | .us500 => 2
  | .us200 => 3

def Source.code : Source → Nat
  | .both => 0
  | .armA => 1
  | .armB => 2
  | .crosshead => 3

def Fitted.ofCode : Nat → Option Fitted
  | 0 => some .none
  | 1 => some .both
  | 2 => some .armA
  | 3 => some .armB
  | _ => Option.none

def Fitted.code : Fitted → Nat
  | .none => 0
  | .both => 1
  | .armA => 2
  | .armB => 3

def Criterion.ofCode : Nat → Option Criterion
  | 0 => some .none
  | 1 => some .atStrain
  | 2 => some .afterYield
  | 3 => some .afterProof
  | 4 => some .manual
  | _ => Option.none

def Criterion.code : Criterion → Nat
  | .none => 0
  | .atStrain => 1
  | .afterYield => 2
  | .afterProof => 3
  | .manual => 4

def SegmentMode.ofCode : Nat → Option SegmentMode
  | 0 => some .position
  | 1 => some .strain
  | 2 => some .force
  | 3 => some .hold
  | _ => none

def SegmentMode.code : SegmentMode → Nat
  | .position => 0
  | .strain => 1
  | .force => 2
  | .hold => 3

def EndKind.ofCode : Nat → Option EndKind
  | 0 => some .strainReached
  | 1 => some .forceReached
  | 2 => some .positionReached
  | 3 => some .timeElapsed
  | 4 => some .extReleased
  | 5 => some .yieldDone
  | 6 => some .proofDone
  | 7 => some .none
  | _ => Option.none

def EndKind.code : EndKind → Nat
  | .strainReached => 0
  | .forceReached => 1
  | .positionReached => 2
  | .timeElapsed => 3
  | .extReleased => 4
  | .yieldDone => 5
  | .proofDone => 6
  | .none => 7

def EndSense.ofCode : Nat → Option EndSense
  | 0 => some .atOrAbove
  | 1 => some .atOrBelow
  | _ => none

def EndSense.code : EndSense → Nat
  | .atOrAbove => 0
  | .atOrBelow => 1

def EndAction.ofCode : Nat → Option EndAction
  | 0 => some .next
  | 1 => some .finish
  | _ => none

def EndAction.code : EndAction → Nat
  | .next => 0
  | .finish => 1

def MotionState.code : MotionState → Nat
  | .idle => 0 | .jogging => 1 | .arming => 2 | .armed => 3 | .running => 4 | .paused => 5 | .stopped => 6
  | .faulted => 7

/-- Event kind codes (section 11.5) of the fault events. -/
def FaultKind.eventCode : FaultKind → Nat
  | .inletGap => 1 | .inletSilent => 2 | .periodChanged => 3 | .overload => 4 | .rangeInvalid => 5
  | .driveFault => 6 | .endSwitch => 7 | .driveNotReady => 8 | .driveSilent => 9

/-- The order of the fault list of R76 (log entry 25). -/
def FaultKind.listed : FaultKind → Nat
  | .inletGap => 0 | .inletSilent => 1 | .periodChanged => 2 | .overload => 3 | .rangeInvalid => 4
  | .driveFault => 5 | .driveNotReady => 6 | .driveSilent => 7 | .endSwitch => 8

/-- Motion causes in the order of R58's table, then the faults of R76 (log entry 25). -/
def Cause.code : Cause → Nat
  | .none => 0 | .jogStop => 1 | .jogForceStop => 2 | .travelLimit => 3 | .programEnd => 4 | .consoleStop => 5
  | .brk => 6 | .removalTimeout => 7 | .consoleAbort => 8
  | .fault k => 9 + k.listed

def EndCause.code : EndCause → Nat
  | .criterion => 0 | .fallbackEnd => 1 | .brk => 2 | .stop => 3 | .travelLimit => 4 | .removalTimeout => 5
  | .fault => 6

def Continuation.code : Continuation → Nat
  | .fallback => 0
  | .equivalent => 1

/-- "The limit that applied (v_max or r_max)" in RATE_CLAMPED (R88) is sent as which of the two it was, not as its value
(DESIGN CHOICE, log entry 48). -/
def RateLimit.code : RateLimit → Nat
  | .vMax => 0
  | .rMax => 1

def StoreState.code : StoreState → Nat
  | .loading => 0 | .ready => 1 | .writing => 2 | .verifying => 3

def StoreReason.code : StoreReason → Nat
  | .badSignature => 0 | .badRevision => 1 | .badLength => 2 | .badCheck => 3 | .badTable => 4 | .silent => 5
  | .readError => 6 | .writeError => 7 | .verifyMismatch => 8

def RemovalSub.code : RemovalSub → Nat
  | .awaitBoth => 0 | .awaitConfirm => 1 | .awaitArms => 2

def FailCause.code : FailCause → Nat
  | .armsLost => 0 | .slip => 1 | .atBreak => 2

def ExtName.code : ExtName → Nat
  | .notFitted => 0 | .unseated => 1 | .seated => 2 | .active => 3 | .removalPending => 4 | .released => 5
  | .failed => 6

def DemoteCause.code : DemoteCause → Nat
  | .slip => 0
  | .contactOrRange => 1

def YieldOutcome.code : YieldOutcome → Nat
  | .pending => 0 | .discontinuous => 1 | .continuous => 2

def FitStatus.code : FitStatus → Nat
  | .notStarted => 0 | .collecting => 1 | .done => 2 | .failed => 3

def FitReason.code : FitReason → Nat
  | .tooFew => 0 | .flat => 1 | .negative => 2 | .sourceChanged => 3 | .windowNotPassed => 4

def HoldState.code : HoldState → Nat
  | .free => 0
  | .held => 1

def ExpiryCause.code : ExpiryCause → Nat
  | .timer => 0
  | .armed => 1

def ReleaseFound.code : ReleaseFound → Nat
  | .held => 0 | .expired => 1 | .none => 2

def RingState.code : RingState → Nat
  | .off => 0 | .filling => 1 | .post => 2 | .held => 3

/-- The code of a trigger cause, in the order of section 9.1's list, where absent is 0 (log entry 19). -/
def Trigger.causeCode : Trigger → Nat
  | .brk => 1 | .yieldUpper => 2 | .extFailed => 3 | .console => 4 | .fault _ => 5 | .travelLimit => 5

/-- The mask member of a trigger as its bit (section 11.5): BREAK 0, FAULT 1, YIELD_UPPER 2, EXT_FAILED 3, CONSOLE 4. -/
def Trigger.member : Trigger → Nat
  | .brk => 0 | .fault _ => 1 | .travelLimit => 1 | .yieldUpper => 2 | .extFailed => 3 | .console => 4

/-- The event kind code of a FAULT trigger, 0 for the others (section 11.5). -/
def Trigger.faultCode : Trigger → Nat
  | .fault k => k.eventCode
  | .travelLimit => 10
  | _ => 0

def AttnMode.code : AttnMode → Nat
  | .latched => 0
  | .pulse => 1

/-- The mode that ATTN_MODE names (section 11.5). -/
def AttnMode.ofCode (b : Byte) : Option AttnMode :=
  if b = 0 then some .latched else if b = 1 then some .pulse else none

def ConsoleHold.code : ConsoleHold → Nat
  | .held => 0
  | .go => 1

def Status.code : Status → Nat
  | .done => 0 | .wrongState => 1 | .badTable => 2 | .badRequest => 3 | .notReady => 4 | .cancelled => 5
  | .absent => 6 | .empty => 7 | .holdExpired => 8 | .storeFailed => 9

def linkCode : Link → Nat
  | .front => 0 | .drive => 1 | .console => 2

def armCode : ArmId → Nat
  | .a => 0
  | .b => 1

/-! ## Tables named by kind and index (section 11.5) -/

/-- The calibration table that a table kind and index name; range codes are left to R27 and R31. -/
def tableRef (kind index : Nat) : Option TableRef :=
  if kind = 1 ∧ index = 0 then some .frame
  else if kind = 2 ∧ index = 0 then some .crosshead
  else if kind = 3 ∧ index = 0 then some (.arm .a)
  else if kind = 3 ∧ index = 1 then some (.arm .b)
  else if kind = 4 then some (.range index)
  else none

/-- Whether a LOAD's kind and index name a table at all (R156). -/
def tableKnown (kind index : Nat) : Bool :=
  (tableRef kind index).isSome || (decide (kind = 5 ∨ kind = 6) && decide (index = 0))

/-- The table kind and index bytes of a table. -/
def tableCodes : TableRef → Nat × Nat
  | .frame => (1, 0)
  | .crosshead => (2, 0)
  | .arm .a => (3, 0)
  | .arm .b => (3, 1)
  | .range c => (4, c)

/-! ## LOAD bodies (section 11.5) -/

/-- Frame Table, 25 bytes. -/
def readFrameTable (b : List Byte) : FrameTable :=
  { fMax := i32 b 0, vMax := i32 b 4, travelMin := i32 b 8, travelMax := i32 b 12, compliance := i32 b 16,
    rangesInUse := u8 b 20, jogForceLimit := i32 b 21 }

/-- `n` breakpoints from a position on, 8 bytes each. -/
def readPoints : Nat → List Byte → List (Int × Int)
  | 0, _ => []
  | n + 1, b => (i32 b 0, i32 b 4) :: readPoints n (b.drop 8)

/-- Range Table, 5 + 8 × count bytes. -/
def readRangeTable (b : List Byte) : RangeTable :=
  { zeroOffset := i32 b 0, points := readPoints (u8 b 4) (b.drop 5) }

/-- One segment, 22 bytes. -/
def readSegment (b : List Byte) : RawSegment :=
  { mode := u8 b 0, endKind := u8 b 1, endSense := u8 b 2, endAction := u8 b 3, rate := i32 b 4, endValue := i32 b 8,
    fallback := optional32 b 12, gain := optional32 b 17 }

def readSegments : Nat → List Byte → List RawSegment
  | 0, _ => []
  | n + 1, b => readSegment b :: readSegments n (b.drop 22)

/-- Test Program, 57 + 22 × segment count bytes. -/
def readProgram (b : List Byte) : RawProgram :=
  { labelLength := u8 b 0, label := field b 1 16, l0 := i32 b 17, lc := i32 b 21, lp := i32 b 25, s0 := i32 b 29,
    fitted := u8 b 33, autoTare := u8 b 34, autoArm := u8 b 35, autoPosition := u8 b 36, kStrain := i32 b 37,
    kForce := i32 b 41, criterion := u8 b 45, removalStrain := i32 b 46, removalTimeout := u16 b 50, slip := i32 b 52,
    segments := readSegments (u8 b 56) (b.drop 57) }

/-- Evaluation Parameters, 33 bytes. -/
def readEvalParams (b : List Byte) : EvalParams :=
  { yieldDrop := i16 b 0, yieldMinForce := i32 b 2, yieldWindowEnd := i32 b 6, transient := i32 b 10, fLo := i32 b 14,
    fHi := i32 b 18, offsetStrain := i32 b 22, breakDrop := i16 b 26, breakConfirm := u8 b 28,
    breakMinForce := i32 b 29 }

/-- The body length that a table kind and the body's own count field give (section 11.5); `none` for a kind that does not
exist, or a body too short to hold its count field. -/
def bodyLength (kind : Nat) (b : List Byte) : Option Nat :=
  match kind with
  | 1 => some 25
  | 2 => some 4
  | 3 => some 4
  | 4 => if b.length < 5 then none else some (5 + 8 * u8 b 4)
  | 5 => if b.length < 57 then none else some (57 + 22 * u8 b 56)
  | 6 => some 33
  | _ => none

/-- A calibration table body of a given table (section 11.5, section 11.6). -/
def readTable (t : TableRef) (b : List Byte) : CalLoad :=
  match t with
  | .frame => .frame (readFrameTable b)
  | .crosshead => .crosshead (i32 b 0)
  | .arm i => .arm i (i32 b 0)
  | .range c => .range c (readRangeTable b)

/-! ## Sets sent as bits -/

/-- The named members of a flag set of CLEAR or MASK_SET: bits 0 … 10; `none` when a bit outside is set (R156). -/
def flagSet (w : BitVec 16) : Option (BitVec 11) :=
  if w.toNat < 2048 then some (w.setWidth 11) else none

/-- The trigger mask of CAPTURE_SET: bits 0 … 4; `none` when a bit outside is set (R149, R156). -/
def triggerMask (b : Byte) : Option (BitVec 5) :=
  if b.toNat < 32 then some (b.setWidth 5) else none

end Sys2Proof.Machine
end

