-- ==== Sys2Proof/Machine/Layout.lean ====
section
/-! DEFINITION. Chapter 11: the checks (CRC-16 of R171, CRC-32 of R34), the envelope, the frames of the FRONT and DRIVE
links, the bytes of every Report, and the store image. Fields without a layout of their own follow section 11.1
(log entry 19). -/

namespace Sys2Proof.Machine

/-! ## CRC-16 (R171) -/

/-- One bit of the CRC-16: x¹⁶ + x¹² + x⁵ + 1, most significant bit first. -/
def crc16Bit (r : BitVec 16) : BitVec 16 :=
  if r.msb then (r <<< 1) ^^^ 0x1021#16 else r <<< 1

def crc16Bits : Nat → BitVec 16 → BitVec 16
  | 0, r => r
  | n + 1, r => crc16Bits n (crc16Bit r)

/-- One byte enters the register. -/
def crc16Byte (r : BitVec 16) (b : Byte) : BitVec 16 :=
  crc16Bits 8 (r ^^^ (b.setWidth 16 <<< 8))

/-- The CRC-16 over bytes in the order sent, from all ones, without complement. -/
def crc16 (bs : List Byte) : BitVec 16 := bs.foldl crc16Byte 0xFFFF#16

/-! ## CRC-32 (R34) -/

/-- One bit of the CRC-32 in its least-significant-first form (log entry 36). -/
def crc32Bit (r : BitVec 32) : BitVec 32 :=
  if r.getLsbD 0 then (r >>> 1) ^^^ 0xEDB88320#32 else r >>> 1

def crc32Bits : Nat → BitVec 32 → BitVec 32
  | 0, r => r
  | n + 1, r => crc32Bits n (crc32Bit r)

def crc32Byte (r : BitVec 32) (b : Byte) : BitVec 32 :=
  crc32Bits 8 (r ^^^ b.setWidth 32)

/-- The CRC-32 over bytes: initial value all ones, the final remainder complemented. -/
def crc32 (bs : List Byte) : BitVec 32 := ~~~ (bs.foldl crc32Byte 0xFFFFFFFF#32)

/-! ## The envelope (section 11.2) -/

/-- The start delimiter. -/
def delimiter : Byte := 165

/-- A frame: delimiter, length, kind, tag, payload, CRC-16 (R171). -/
def envelope (kind : Nat) (tag : BitVec 16) (payload : List Byte) : List Byte :=
  let body := writeInt 2 payload.length ++ writeInt 1 kind ++ writeInt 2 tag.toNat ++ payload
  delimiter :: body ++ writeInt 2 (crc16 body).toNat

/-- The payload length that a candidate states. -/
def frameLength (bs : List Byte) : Nat := u16 bs 1

/-- The kind of a frame. -/
def frameKind (bs : List Byte) : Nat := u8 bs 3

/-- The tag of a frame. -/
def frameTag (bs : List Byte) : BitVec 16 := BitVec.ofNat 16 (u16 bs 4)

/-- The payload of a frame. -/
def framePayload (bs : List Byte) : List Byte := field bs 6 (frameLength bs)

/-- The CRC test of R171 over a whole frame: a delimiter, 8 + n bytes, and the two last bytes the CRC of the bytes
between. -/
def crcPasses (bs : List Byte) : Bool :=
  decide (bs.head? = some delimiter) && decide (bs.length = 8 + frameLength bs) &&
    decide ((crc16 (field bs 1 (5 + frameLength bs))).toNat = u16 bs (6 + frameLength bs))

/-! ## Frames of the FRONT and DRIVE links (section 11.4) -/

/-- The fields of a 16-byte Sample Frame payload under a wire sequence; `none` when the period code or the load range code
lies outside 0 … 3 (R173). -/
def readSamplePayload (seq : Seq) (p : List Byte) : Option SampleFrame :=
  match Period.ofCode (u8 p 0) with
  | none => none
  | some period =>
    if h : u8 p 1 < 4 then
      some
        { seq := seq, period := period, range := ⟨u8 p 1, h⟩, overrange := bitAt p 2 0, overA := bitAt p 2 1,
          overB := bitAt p 2 2, contactA := bitAt p 2 3, contactB := bitAt p 2 4, load := i24 p 3, countA := i24 p 6,
          countB := i24 p 9, crosshead := i32 p 12 }
    else none

/-- The checks of R173 on a complete FRONT candidate, in order; `none` when one fails. -/
def readSampleFrame (bs : List Byte) : Option SampleFrame :=
  if crcPasses bs ∧ frameKind bs = 1 ∧ frameLength bs = 16 then readSamplePayload (frameTag bs) (framePayload bs)
  else none

/-- A byte of flags, the first in bit 0 (section 11.1). -/
def packBits : List Bool → Nat
  | [] => 0
  | b :: bs => (if b then 1 else 0) + 2 * packBits bs

/-- The Sample Frame that the acquisition module sends for given readings. -/
def writeSampleFrame (f : SampleFrame) : List Byte :=
  envelope 1 f.seq
    (writeInt 1 f.period.code ++ writeInt 1 f.range.val ++
      writeInt 1 (packBits [f.overrange, f.overA, f.overB, f.contactA, f.contactB]) ++
      writeInt 3 f.load ++ writeInt 3 f.countA ++ writeInt 3 f.countB ++ writeInt 4 f.crosshead)

/-- The checks of R173 on a complete DRIVE candidate; bits 3 … 7 are disregarded. -/
def readDriveStatus (bs : List Byte) : Option DriveStatus :=
  if crcPasses bs ∧ frameKind bs = 3 ∧ frameLength bs = 2 then
    let p := framePayload bs
    some { echo := frameTag bs, ready := bitAt p 0 0, fault := bitAt p 0 1, endSwitch := bitAt p 0 2, code := u8 p 1 }
  else none

/-- The Drive Status Frame that the drive sends. -/
def writeDriveStatus (d : DriveStatus) : List Byte :=
  envelope 3 d.echo (writeInt 1 (packBits [d.ready, d.fault, d.endSwitch]) ++ writeInt 1 d.code)

/-- A Drive Frame: kind 2, the sample's wire sequence as tag, the demand and the enable (R90, section 11.4). -/
def driveFrame (seq : Seq) (demand : Int) (enable : Bool) : List Byte :=
  envelope 2 seq (writeInt 4 demand ++ writeInt 1 (packBits [enable]))

/-! ## Field encodings of section 11.1 -/

def c1 (n : Nat) : List Byte := writeInt 1 n
def c2 (n : Nat) : List Byte := writeInt 2 n
/-- A quantity or count: 4 bytes. -/
def quantity (v : Int) : List Byte := writeInt 4 v
/-- A value that its field can hold, and a free value in place of one that it cannot (log entry 43). -/
def fieldValue (lo hi v : Int) : Int := if lo ≤ v ∧ v ≤ hi then v else Config.freeField v
/-- The program generation, 4 bytes. -/
def generationBytes (g : Nat) : List Byte := quantity (fieldValue 0 4294967295 g)
/-- The fall of an arm's elongation (R103), signed 32-bit. -/
def fallValue (v : Int) : Int := fieldValue (-2147483648) 2147483647 v
def flagByte (l : List Bool) : List Byte := c1 (packBits l)
/-- An optional count: a presence byte, then the value, 0 when absent. -/
def optCount : Option Nat → List Byte
  | none => c1 0 ++ quantity 0
  | some n => c1 1 ++ quantity n
def optQuantity : Option Int → List Byte
  | none => c1 0 ++ quantity 0
  | some v => c1 1 ++ quantity v
/-- An optional enumerated value. -/
def optCode : Option Nat → List Byte
  | none => c1 0 ++ c1 0
  | some n => c1 1 ++ c1 n
/-- A character string: a length byte and the characters. -/
def characters (l : List Byte) : List Byte := c1 l.length ++ l
/-- An optional character string; an absent one is sent with length 0 (log entry 19). -/
def optCharacters : Option (List Byte) → List Byte
  | none => c1 0 ++ characters []
  | some l => c1 1 ++ characters l

/-! ## Reasons by name -/

/-- The name of a reason, in capitals. -/
def Reason.name : Reason → String
  | .armInProgress => "ARM_IN_PROGRESS"
  | .notIdle => "NOT_IDLE"
  | .loadInProgress => "LOAD_IN_PROGRESS"
  | .noProgram => "NO_PROGRAM"
  | .incompleteCalibration => "INCOMPLETE_CALIBRATION"
  | .armTableMissing => "ARM_TABLE_MISSING"
  | .strainWithoutExtensometer => "STRAIN_WITHOUT_EXTENSOMETER"
  | .driveFault => "DRIVE_FAULT"
  | .endSwitch => "END_SWITCH"
  | .driveNotReady => "DRIVE_NOT_READY"
  | .noSample => "NO_SAMPLE"
  | .outsideTravel => "OUTSIDE_TRAVEL"
  | .extensometerNotSeated => "EXTENSOMETER_NOT_SEATED"
  | .travelOrder => "TRAVEL_ORDER"
  | .zeroGain => "ZERO_GAIN"
  | .unknownCode => "UNKNOWN_CODE"
  | .breakpointCount => "BREAKPOINT_COUNT"
  | .countOrder => "COUNT_ORDER"
  | .forceOrder => "FORCE_ORDER"
  | .labelLength => "LABEL_LENGTH"
  | .removalWithoutExtensometer => "REMOVAL_WITHOUT_EXTENSOMETER"
  | .segmentCount => "SEGMENT_COUNT"
  | .endKindNotAllowed => "END_KIND_NOT_ALLOWED"
  | .extReleasedWithoutRemoval => "EXT_RELEASED_WITHOUT_REMOVAL"
  | .fallbackNotAllowed => "FALLBACK_NOT_ALLOWED"
  | .gainNotAllowed => "GAIN_NOT_ALLOWED"
  | .fitWindowOrder => "FIT_WINDOW_ORDER"
  | .noRemoval => "NO_REMOVAL"
  | .tooLate => "TOO_LATE"
  | .notInMask => "NOT_IN_MASK"
  | .unknownKind => "UNKNOWN_KIND"
  | .badLength => "BAD_LENGTH"
  | .unknownTable => "UNKNOWN_TABLE"
  | .unknownFlag => "UNKNOWN_FLAG"
  | .unknownPart => "UNKNOWN_PART"
  | .writeError => "WRITE_ERROR"
  | .verifyMismatch => "VERIFY_MISMATCH"
  | .silent => "SILENT"

/-- The 8-bit character codes of a reason. -/
def Reason.bytes (r : Reason) : List Byte := r.name.toList.map fun c => BitVec.ofNat 8 c.toNat

/-! ## Events (section 11.5) -/

/-- The event kind code. -/
def Event.code : Event → Nat
  | .inletGap .. => 1
  | .inletSilent .. => 2
  | .periodChanged .. => 3
  | .overload .. => 4
  | .rangeInvalid .. => 5
  | .driveFault .. => 6
  | .endSwitch .. => 7
  | .driveNotReady .. => 8
  | .driveSilent .. => 9
  | .travelLimit .. => 10
  | .jogForceStop .. => 11
  | .storeError .. => 12
  | .autoloadDone .. => 13
  | .testEnd .. => 14
  | .segmentEnd .. => 15
  | .segmentFallback .. => 16
  | .rateClamped .. => 17
  | .armDemoted .. => 18
  | .extFailed .. => 19
  | .extRemovalRequest .. => 20
  | .linkError .. => 21
  | .extReleased .. => 23
  | .extRemovalTimeout .. => 24
  | .extAtBreak .. => 25
  | .yieldUpper .. => 26
  | .yieldDone .. => 27
  | .fitDone .. => 28
  | .fitFailed .. => 29
  | .proof .. => 30
  | .brk .. => 31
  | .holdExpired .. => 32
  | .captureHeld .. => 33

/-- The sample number that the raising rule names, if it names one (R164). DESIGN CHOICE where a rule lists several (log
entry 18): YIELD_UPPER gives the falling sample's and not ReH's, and CAPTURE_HELD gives none of its three, so that its report
carries CP's last sample number. -/
def Event.number : Event → Option Nat
  | .inletSilent _ n => n
  | .travelLimit _ n _ => some n
  | .jogForceStop _ n => some n
  | .testEnd _ _ _ n => n
  | .segmentEnd e => some e.number
  | .segmentFallback _ n _ _ _ => some n
  | .armDemoted _ _ n _ _ => some n
  | .extFailed _ n _ => some n
  | .extRemovalRequest _ n _ _ => n
  | .extReleased n _ _ => n
  | .extRemovalTimeout _ n => n
  | .extAtBreak _ _ n => some n
  | .yieldUpper _ n => some n
  | .yieldDone _ _ _ _ n => some n
  | .fitDone _ _ _ n => some n
  | .fitFailed _ _ n => n
  | .proof rp _ => some rp.number
  | .brk n _ => some n
  | _ => none

/-- A Segment Log entry, its fields in the order of R63. -/
def LogEntry.bytes (e : LogEntry) : List Byte :=
  quantity e.index ++ c1 e.cause.code ++ quantity e.number ++ quantity e.force ++ quantity e.strain ++
    quantity e.position ++ quantity e.time ++ flagByte [e.fallbackUsed]

/-- A point that is there, with its source: the fields of ReH in YIELD_UPPER and of Rp in PROOF (R135). -/
def SourcePoint.bytes (p : SourcePoint) : List Byte :=
  quantity p.force ++ quantity p.strain ++ quantity p.number ++ c1 p.source.code

/-- The ReH or Rp fields where they may be invalid, as in YIELD_DONE and the Results Record: zeros, and the source none, so that
it goes behind a presence byte (R135, R137, log entry 19). -/
def sourcePointBytes : Option SourcePoint → List Byte
  | none => quantity 0 ++ quantity 0 ++ quantity 0 ++ optCode none
  | some p => quantity p.force ++ quantity p.strain ++ quantity p.number ++ optCode (some p.source.code)

def pointBytes : Option Point → List Byte
  | none => quantity 0 ++ quantity 0 ++ quantity 0
  | some p => quantity p.force ++ quantity p.strain ++ quantity p.number

/-- A trigger cause and its fault kind, one byte each, as section 11.5 lays them out in the capture prefix. DESIGN CHOICE: the
event CAPTURE_HELD carries the same two bytes (R148, log entry 19). -/
def causeBytes : Option Trigger → List Byte
  | none => c1 0 ++ c1 0
  | some t => c1 t.causeCode ++ c1 t.faultCode

/-- The fields of an Event Report: those that the raising rule lists, in its order. DESIGN CHOICE of their forms, where a
rule leaves it open: SEGMENT_FALLBACK ends with the paused flag for both rate sources, clear with FALLBACK (R64, log entry
47); RATE_CLAMPED ends with an optional rate source, present under R89 and absent under R88, and gives the limit as a code
(R88, R89, log entry 48); EXT_RELEASED ends with a flag, 1 for within time (R116, log entry 49); INLET_SILENT has both its
numbers behind presence bytes (R6, log entry 19). The number and the source of ES's last sample are plain fields: ES is in
ACTIVE or REMOVAL_PENDING only after a sample (R51, R98, R100), and without one, which no run reaches, they are sent as 0 (log
entry 14). -/
def Event.fields : Event → List Byte
  | .inletGap seq g => quantity seq.toNat ++ quantity g
  | .inletSilent seq n => optCount (seq.map (·.toNat)) ++ optCount n
  | .periodChanged was now => c1 was.code ++ c1 now.code
  | .overload f r => quantity f ++ c1 r.val
  | .rangeInvalid r => c1 r.val
  | .driveFault c seq => quantity c ++ quantity seq.toNat
  | .endSwitch seq => quantity seq.toNat
  | .driveNotReady seq => quantity seq.toNat
  | .driveSilent c seq => quantity c ++ quantity seq.toNat
  | .travelLimit b n st => quantity b ++ quantity n ++ c1 st.code
  | .jogForceStop f n => quantity f ++ quantity n
  | .storeError r => c1 r.code
  | .autoloadDone n => quantity n
  | .testEnd st c seg n => c1 st.code ++ c1 c.code ++ optCount seg ++ optCount n
  | .segmentEnd e => e.bytes
  | .segmentFallback seg n src r p => quantity seg ++ quantity n ++ c1 src.code ++ quantity r ++ flagByte [p]
  | .rateClamped seg asked used lim src =>
      quantity seg ++ quantity asked ++ quantity used ++ c1 lim.code ++ optCode (src.map (·.code))
  | .linkError l n => c1 (linkCode l) ++ quantity n
  | .armDemoted x c n fall src =>
      c1 (armCode x) ++ c1 c.code ++ quantity n ++ optQuantity (fall.map fallValue) ++ c1 src.code
  | .extFailed c n seen => c1 c.code ++ quantity n ++ c1 seen.code
  | .extRemovalRequest c n e t => c1 c.code ++ quantity (n.getD 0) ++ quantity e ++ quantity t
  | .extReleased n src inTime => quantity (n.getD 0) ++ c1 ((src.map (·.code)).getD 0) ++ flagByte [inTime]
  | .extRemovalTimeout sub n => c1 sub.code ++ quantity (n.getD 0)
  | .extAtBreak was src n => c1 was.code ++ c1 ((src.map (·.code)).getD 0) ++ quantity n
  | .yieldUpper p n => p.bytes ++ quantity n
  | .yieldDone o reH reL fin n =>
      c1 o.code ++ sourcePointBytes reH ++ flagByte [reH.isSome] ++ pointBytes reL ++ flagByte [reL.isSome, fin] ++ quantity n
  | .fitDone n k b num => quantity n ++ quantity k ++ quantity b ++ quantity num
  | .fitFailed r n num => c1 r.code ++ quantity n ++ optCount num
  | .proof rp f => rp.bytes ++ quantity f
  | .brk n r =>
      quantity n ++ quantity r.pre.number ++ quantity r.pre.force ++ quantity r.pre.strain ++ quantity r.elongation ++
        flagByte [r.elasticKept]
  | .holdExpired c n => c1 c.code ++ quantity n
  | .captureHeld c t held old new =>
      causeBytes c ++ optCount t ++ quantity held ++ optCount old ++ optCount new

/-! ## Reply payloads -/

def FrameTable.bytes (t : FrameTable) : List Byte :=
  quantity t.fMax ++ quantity t.vMax ++ quantity t.travelMin ++ quantity t.travelMax ++ quantity t.compliance ++
    writeInt 1 t.rangesInUse ++ quantity t.jogForceLimit

def pointsBytes (l : List (Int × Int)) : List Byte := l.flatMap fun p => quantity p.1 ++ quantity p.2

def RangeTable.bytes (t : RangeTable) : List Byte :=
  quantity t.zeroOffset ++ c1 t.points.length ++ pointsBytes t.points

/-- A segment as its 22 bytes of a LOAD (section 11.5). -/
def Segment.bytes (g : Segment) : List Byte :=
  c1 g.mode.code ++ c1 g.endKind.code ++ c1 g.sense.code ++ c1 g.action.code ++ quantity g.rate ++ quantity g.endValue ++
    optQuantity g.fallback ++ optQuantity g.gain

/-- The Program Header as its 57 bytes of a LOAD. -/
def Program.headerBytes (p : Program) : List Byte :=
  let label := p.label.getD []
  c1 label.length ++ (label ++ List.replicate (16 - label.length) 0) ++ quantity p.l0 ++ quantity p.lc ++
    quantity p.lp ++ quantity p.s0 ++ c1 p.fitted.code ++ flagByte [p.autoTare] ++ flagByte [p.autoArm] ++
    flagByte [p.autoPosition] ++ quantity p.kStrain ++ quantity p.kForce ++ c1 p.criterion.code ++
    quantity p.removalStrain ++ writeInt 2 p.removalTimeout ++ quantity p.slip ++ c1 p.segments.length

def EvalParams.bytes (p : EvalParams) : List Byte :=
  writeInt 2 p.yieldDrop ++ quantity p.yieldMinForce ++ quantity p.yieldWindowEnd ++ quantity p.transient ++
    quantity p.fLo ++ quantity p.fHi ++ quantity p.offsetStrain ++ writeInt 2 p.breakDrop ++ writeInt 1 p.breakConfirm ++
    quantity p.breakMinForce

/-- The identity in the capability record: the frame serial and the capacity class (R40). R40 gives no layout; the capacity
class takes one byte, as in the store image of section 11.6 (DESIGN CHOICE, log entry 46). -/
def Identity.bytes (i : Identity) : List Byte := quantity i.serial ++ c1 i.capacity

/-- Presence of the eight tables in the order of R30, and the calibration complete mark. -/
def CalSummary.bytes (m : CalSummary) : List Byte :=
  flagByte [m.frame.isSome, m.crosshead, m.armA, m.armB, m.range0, m.range1, m.range2, m.range3] ++ flagByte [m.complete]

/-- The capability record (R40). DESIGN CHOICE: the part code and the revision take 4 bytes each, as the limits do (log entry
46). -/
def Capability.bytes (c : Capability) : List Byte :=
  quantity Config.partCode ++ quantity Config.partRevision ++ c.identity.bytes ++
    quantity Config.maxSegments ++ quantity 16 ++ quantity 4 ++ quantity Config.ringRecords ++
    quantity Config.queuePlaces ++ quantity Config.queueReserve ++ quantity 32 ++ quantity Config.maxGap ++
    quantity Config.maxPayload ++ quantity Config.drainRecords ++ quantity Config.maxPayload ++
    c.summary.bytes ++ quantity c.vMax ++ quantity c.rMax ++ quantity c.forceRate

/-- Part 0 of the Results Record, groups in the order of R137. DESIGN CHOICE: the test end cause none is the motion cause code
NONE, 0, without a presence byte (log entry 19). -/
def Results.bytes (r : Results) : List Byte :=
  optCharacters r.label ++ quantity r.s0 ++ sourcePointBytes r.reH ++ flagByte [r.reH.isSome] ++
    pointBytes r.reL ++ flagByte [r.reL.isSome, r.reLFinal] ++ c1 r.outcome.code ++ c1 r.fitStatus.code ++
    optCode (r.fitReason.map (·.code)) ++ quantity r.fitN ++ quantity r.fitK ++ quantity r.fitB ++
    sourcePointBytes r.rp ++ flagByte [r.rp.isSome] ++ pointBytes r.fm ++ flagByte [r.fm.isSome] ++
    pointBytes (r.brk.map (·.pre)) ++ quantity ((r.brk.map (·.elongation)).getD 0) ++
    flagByte [(r.brk.map (·.elasticKept)).getD false, r.brk.isSome] ++ quantity r.sReH ++ quantity r.sReL ++
    quantity r.sRp ++ quantity r.sRm ++ c1 r.endCause.code ++ quantity r.log.length

/-- What every reply of READ_RESULTS carries besides the part (R144). DESIGN CHOICE: the expired indication is the presence byte
of its cause, with no flag byte of its own (log entry 19). -/
def readTail (count : Nat) (hold : HoldState) (expired : Option ExpiryCause) : List Byte :=
  quantity count ++ c1 hold.code ++ optCode (expired.map (·.code))

/-- A Capture Record, 18 bytes (section 11.5). -/
def CaptureRecord.bytes (r : CaptureRecord) : List Byte :=
  quantity r.number ++ quantity r.force ++ quantity r.strain ++ quantity r.position ++ c1 r.source.code ++
    flagByte [r.uncal, r.held, r.overrange, r.validA, r.validB, r.sourceChanged, r.gap]

/-- The capture prefix, 10 bytes (section 11.5). -/
def CapturePrefix.bytes (c : CapturePrefix) : List Byte :=
  c1 c.state.code ++ c2 c.held ++ optCount c.trigger ++ causeBytes c.cause

def CaptureMore.bytes : CaptureMore → List Byte
  | .nothing => []
  | .clamped c => flagByte [c]
  | .triggered t st => optCount t ++ c1 st.code
  | .drained left rs => c2 left ++ c1 rs.length ++ rs.flatMap (·.bytes)
  | .entered st => c1 st.code

/-- The extensometer state in STATUS and in the WRONG_STATE replies of R108 and R111: the state code, then the substate of
REMOVAL_PENDING and the cause of FAILED, each optional. The "state held before" of EXT_AT_BREAK is the state code alone
(DESIGN CHOICE, log entry 50). -/
def ExtState.bytes (e : ExtState) : List Byte :=
  c1 e.name.code ++
    (match e with
     | .removalPending sub => optCode (some sub.code) ++ optCode none
     | .failed c => optCode none ++ optCode (some c.code)
     | _ => optCode none ++ optCode none)

def Cursor.bytes : Option Cursor → List Byte
  | none => optCount none ++ c1 0
  | some c => optCount (some c.index) ++ c1 (match c.phase with | .notStarted => 0 | .running => 1 | .ended => 2)

def DriveStatus.bytes : Option DriveStatus → List Byte
  | none => c1 0 ++ quantity 0 ++ c1 0 ++ quantity 0
  | some d => c1 1 ++ quantity d.echo.toNat ++ flagByte [d.ready, d.fault, d.endSwitch] ++ quantity d.code

/-- The STATUS reply, groups in the order of R169. DESIGN CHOICE: the flags, the mask and the attention set take 2 bytes each, as
in the requests of section 11.5 (log entry 19). -/
def StatusRecord.bytes (r : StatusRecord) : List Byte :=
  c2 r.flags.toNat ++ c2 r.mask.toNat ++ c2 r.attention.toNat ++ c1 r.mode.code ++ flagByte [r.attnLow] ++
    quantity r.frontErrors ++ quantity r.driveErrors ++ quantity r.consoleErrors ++ c1 r.hold.code ++
    quantity r.free ++ flagByte [r.lossMark, r.stream] ++ quantity r.decimation ++
    c1 r.motion.state.code ++ c1 r.motion.cause.code ++
    flagByte [r.motion.pauses.console, r.motion.pauses.extRemoval, r.motion.pauses.extFailed] ++
    Cursor.bytes r.motion.cursor ++ optCount r.motion.pending ++
    quantity r.motion.demand ++ flagByte [r.motion.enable] ++ quantity r.motion.unanswered ++
    DriveStatus.bytes r.motion.status ++ r.ext.bytes ++
    c1 r.capture.state.code ++ quantity r.capture.held ++ optCount r.capture.trigger ++ c1 r.store.code ++
    optCount r.lastSample

def sourceSet (l : List Source) : List Byte :=
  flagByte [l.contains .both, l.contains .armA, l.contains .armB, l.contains .crosshead]

/-- The payload of a reply, its fields in the answering rule's order. The sample number of EXT_REMOVE's DONE is a plain field, as
in `Event.fields` (R108, log entry 14). DESIGN CHOICE: a set of the eleven flags in the replies of CLEAR and MASK_SET takes 2
bytes, and an entry index, and the entry pointer and total of a READBACK (R31), 4 bytes (log entry 19). -/
def Payload.bytes : Payload → List Byte
  | .none => []
  | .entryIndex i => quantity i
  | .clampCount n => quantity n
  | .motionState m => c1 m.code
  | .armed n p src l => quantity n ++ quantity p ++ c1 src.code ++ sourceSet l
  | .startedFrom n => quantity n
  | .sampleNumber n => quantity (n.getD 0)
  | .resumed m still => c1 m.code ++ flagByte [still]
  | .jogRate v c => quantity v ++ flagByte [c]
  | .extState e => e.bytes
  | .extSubstate sub => optCode (sub.map (·.code))
  | .frameTable t => FrameTable.bytes t
  | .gain v => quantity v
  | .entryTotal n => quantity n
  | .rangePart z total ptr pts => quantity z ++ quantity total ++ quantity ptr ++ pointsBytes pts
  | .programHeader g p => generationBytes g ++ p.headerBytes ++ quantity p.segments.length
  | .programSegments g total segs => generationBytes g ++ quantity total ++ segs.flatMap (·.bytes)
  | .generation n => generationBytes n
  | .evalParams p => EvalParams.bytes p
  | .capability c => c.bytes
  | .snapHold n h => quantity n ++ c1 h.code
  | .snapRelease n f => quantity n ++ c1 f.code
  | .results r n h x => r.bytes ++ readTail n h x
  | .resultsLog l n h x => l.flatMap (·.bytes) ++ readTail n h x
  | .capture h m => h.bytes ++ m.bytes
  | .status r => r.bytes
  | .cleared f a => c2 f.toNat ++ c2 a.toNat
  | .masked m a => c2 m.toNat ++ c2 a.toNat
  | .attnMode m => c1 m.code
  | .stream e d => flagByte [e] ++ quantity d

/-! ## Reports (section 11.5) -/

/-- A Sample Report, 39 bytes. -/
def Conditioned.bytes (c : Conditioned) : List Byte :=
  quantity c.number ++ c2 c.seq.toNat ++ c1 c.gap ++ c1 c.period.code ++ quantity c.testTime ++ quantity c.force ++
    c1 c.range.val ++ flagByte [c.uncal, c.held, c.overrange, c.validA, c.validB, c.sourceChanged] ++ quantity c.dLA ++
    quantity c.dLB ++ quantity c.position ++ quantity c.relPosition ++ quantity c.strain ++ c1 c.source.code

/-- A report in its envelope, as it leaves on the CONSOLE link (R171). -/
def Report.frame : Report → List Byte
  | .sample c => envelope 64 0 c.bytes
  | .event e n loss =>
      envelope 65 0 (c1 e.code ++ flagByte [loss, n.isSome] ++ quantity (n.getD 0) ++ c1 e.fields.length ++ e.fields)
  | .reply r =>
      let reason := (r.reason.map (·.bytes)).getD []
      let payload := r.payload.bytes
      envelope 66 r.tag
        (c1 r.kind.toNat ++ c1 r.status.code ++ c1 reason.length ++ reason ++ c2 payload.length ++ payload)

/-! ## The store image (section 11.6) -/

/-- The bytes of the header that R33 checks. -/
def imageHeaderBytes : Nat := 11

/-- One table record: kind, index and the LOAD body of the table. -/
def tableRecord (t : TableRef) (body : List Byte) : List Byte :=
  c1 (tableCodes t).1 ++ c1 (tableCodes t).2 ++ body

def optRecord (t : TableRef) : Option (List Byte) → List Byte
  | none => []
  | some b => tableRecord t b

/-- The table records of a Calibration Set, in the order of R37. -/
def CalSet.records (c : CalSet) : List Byte :=
  optRecord .frame (c.frame.map FrameTable.bytes) ++ optRecord .crosshead (c.crosshead.map quantity) ++
    optRecord (.arm .a) (c.armA.map quantity) ++ optRecord (.arm .b) (c.armB.map quantity) ++
    optRecord (.range 0) (c.range0.map RangeTable.bytes) ++ optRecord (.range 1) (c.range1.map RangeTable.bytes) ++
    optRecord (.range 2) (c.range2.map RangeTable.bytes) ++ optRecord (.range 3) (c.range3.map RangeTable.bytes)

/-- The image that MC builds for STORE (R37). -/
def storeImage (c : CalSet) (i : Identity) : List Byte :=
  let records := c.records
  let body := [178, 41, 1] ++ c2 (15 + records.length) ++ flagByte [i.present] ++ quantity i.serial ++ c1 i.capacity ++
    records
  body ++ quantity (crc32 body).toNat

end Sys2Proof.Machine
end

