-- ==== Sys2Proof/Machine/Flags.lean ====
section
/-! DEFINITION. The attention flags, the attention set and the ATTN pin (sections 10.3 and 10.4). -/

namespace Sys2Proof.Machine

/-- The attention flags as bits 0 … 10, in the order of section 10.3. -/
def flagTestEnd : BitVec 11 := 1
def flagYield : BitVec 11 := 2
def flagProof : BitVec 11 := 4
def flagBreak : BitVec 11 := 8
def flagExtAction : BitVec 11 := 16
def flagExtFault : BitVec 11 := 32
def flagFault : BitVec 11 := 64
def flagCaptureHeld : BitVec 11 := 128
def flagLinkError : BitVec 11 := 256
def flagQueueLoss : BitVec 11 := 512
def flagStoreError : BitVec 11 := 1024

/-- The attention flag that an event sets, by R164's table; 0 for none. -/
def Event.flag : Event → BitVec 11
  | .inletGap .. => flagFault
  | .inletSilent .. => flagFault
  | .periodChanged .. => flagFault
  | .overload .. => flagFault
  | .rangeInvalid .. => flagFault
  | .driveFault .. => flagFault
  | .endSwitch .. => flagFault
  | .driveNotReady .. => flagFault
  | .driveSilent .. => flagFault
  | .travelLimit .. => flagFault
  | .jogForceStop .. => flagFault
  | .linkError .. => flagLinkError
  | .autoloadDone .. => 0
  | .storeError .. => flagStoreError
  | .testEnd .. => flagTestEnd
  | .segmentEnd .. => 0
  | .segmentFallback _ _ src _ _ => if src = .equivalent then flagExtAction else 0
  | .rateClamped .. => 0
  | .armDemoted .. => flagExtFault
  | .extFailed .. => flagExtFault
  | .extRemovalTimeout .. => flagExtFault
  | .extAtBreak .. => flagExtFault
  | .extRemovalRequest .. => flagExtAction
  | .extReleased .. => flagExtAction
  | .yieldUpper .. => flagYield
  | .yieldDone .. => flagYield
  | .fitDone .. => 0
  | .fitFailed .. => flagProof
  | .proof .. => flagProof
  | .brk .. => flagBreak
  | .holdExpired .. => 0
  | .captureHeld .. => flagCaptureHeld

/-- The attention set: the flags that are set and also in the mask. -/
def Cp.attention (c : Cp) : BitVec 11 := c.flags &&& c.mask

/-- In LATCHED mode ATTN is low exactly while the attention set is not empty (R167); in PULSE mode a change of the set by
itself leaves the pin as it is (R168). -/
def Cp.settlePin (c : Cp) : Cp :=
  match c.mode with
  | .latched => { c with attnLow := decide (c.attention ≠ 0) }
  | .pulse => c

/-- A pulse of 2 ms, started by a masked flag going from clear to set while no pulse runs (R168). -/
def Cp.startPulse (c : Cp) : Cp :=
  match c.mode, c.pulse with
  | .pulse, none => { c with attnLow := true, pulse := some Config.pulseUs }
  | _, _ => c

/-- An event sets the flags `f` (R164): the pin follows the set in LATCHED mode (R167), and in PULSE mode a flag of the mask
that was clear starts a pulse (R168). -/
def Cp.setFlags (c : Cp) (f : BitVec 11) : Cp :=
  let c' := { c with flags := c.flags ||| f }
  if (f &&& c.mask &&& ~~~ c.flags) = 0 then c'.settlePin else c'.startPulse.settlePin

/-- CLEAR of named flags (R165). -/
def Cp.clearFlags (c : Cp) (f : BitVec 11) : Cp :=
  ({ c with flags := c.flags &&& ~~~ f } : Cp).settlePin

/-- MASK_SET (R166): starts no pulse. -/
def Cp.setMask (c : Cp) (m : BitVec 11) : Cp :=
  ({ c with mask := m } : Cp).settlePin

/-- ATTN_MODE (R166): a running pulse is ended; in PULSE the pin is released, in LATCHED it follows the attention set. -/
def Cp.setMode (c : Cp) (m : AttnMode) : Cp :=
  ({ c with mode := m, pulse := none, attnLow := false } : Cp).settlePin

/-- The pulse timer expires in PULSE mode (R168). -/
def Cp.endPulse (c : Cp) : Cp :=
  match c.mode, c.pulse with
  | .pulse, some _ => { c with attnLow := false, pulse := none }
  | _, _ => c

end Sys2Proof.Machine
end

