-- ==== Sys2Proof/Machine/Queue.lean ====
section
/-! DEFINITION. The Report Queue (section 10.2): admission of Event, Reply and Sample Reports, transmission, and the
service of requests by CP itself during LOADING (R157). -/

namespace Sys2Proof.Machine

/-- CP begins to transmit the head report when no report is in transmission, the queue is not empty and the hold state is GO
(R160). -/
def Cp.startTransmission (c : Cp) : Cp :=
  if c.transmitting = false ∧ c.queue ≠ [] ∧ c.hold = .go then { c with transmitting := true } else c

/-- The queue without its oldest Sample Report, if it holds one. -/
def dropOldestSample : List Report → Option (List Report)
  | [] => none
  | .sample _ :: rs => some rs
  | r :: rs => (dropOldestSample rs).map (r :: ·)

/-- The queue without its oldest Sample Report that is not in transmission (R162). -/
def Cp.withoutSample (c : Cp) : Option (List Report) :=
  if c.transmitting then
    match c.queue with
    | [] => none
    | r :: rs => (dropOldestSample rs).map (r :: ·)
  else dropOldestSample c.queue

/-- The places free. -/
def Cp.free (c : Cp) : Nat := Config.queuePlaces - c.queue.length

/-- The queue after an Event or Reply Report is offered, by R162's table; `none` when the report is discarded. -/
def Cp.admission (c : Cp) (r : Report) : Option (List Report) :=
  if 1 ≤ c.free then some (c.queue ++ [r])
  else (c.withoutSample).map (· ++ [r])

/-- A report that the queue cannot accept: the loss mark and the flag QUEUE_LOSS (R162). -/
def Cp.lose (c : Cp) : Cp :=
  ({ c with lossMark := true } : Cp).setFlags flagQueueLoss

/-- An Event Report is offered; accepted with the loss mark set, it carries "loss before" and clears the mark (R162). -/
def Cp.offerEvent (c : Cp) (e : Event) (number : Option Nat) : Cp :=
  match c.admission (.event e number c.lossMark) with
  | some q => ({ c with queue := q, lossMark := false } : Cp).startTransmission
  | none => c.lose

/-- A Reply Report is offered (R159, R162). -/
def Cp.offerReply (c : Cp) (r : Reply) : Cp :=
  match c.admission (.reply r) with
  | some q => ({ c with queue := q } : Cp).startTransmission
  | none => c.lose

/-- A Sample Report is offered (R161). -/
def Cp.offerSample (c : Cp) (x : Conditioned) : Cp :=
  if Config.queueReserve + 1 ≤ c.free ∧ (∀ n ∈ c.lastStreamed, n < x.number) then
    ({ c with queue := c.queue ++ [.sample x], lastStreamed := some x.number } : Cp).startTransmission
  else c

/-- The sample number of an Event Report: the one the raising rule names, else that of the last Conditioned Sample CP has
taken (R164). -/
def Cp.eventNumber (c : Cp) (e : Event) : Option Nat :=
  match e.number with
  | some n => some n
  | none => c.lastSample

/-- CP takes an event: first its flag, then the Event Report (R164). -/
def Cp.takeEvent (c : Cp) (e : Event) : Cp :=
  (c.setFlags e.flag).offerEvent e (c.eventNumber e)

/-- CP answers a request itself. -/
def State.cpAnswer (s : State) (r : Reply) : State :=
  { s with cp := s.cp.offerReply r }

/-- A request reaches the part: while CP holds the store state LOADING it answers NOT_READY itself (R157); otherwise the
block that owns the request takes it (R158, log entry 4). -/
def State.request (s : State) (k : RequestKind) (tag : Tag) (take : State → State) : State :=
  if s.cp.store = .loading then s.cpAnswer (answer k tag .notReady .none) else take s

end Sys2Proof.Machine
end

