-- ==== Sys2Proof/Machine/Tables.lean ====
section
/-! DEFINITION. The Calibration Set: the checks of its tables (R25 to R27), install and removal (R29), the calibration
summary (R30), READBACK (R31) and the capability record (R40). -/

namespace Sys2Proof.Machine

/-- A structural fault of a table: the reason and the entry index of the refusal. -/
structure TableFault where
  reason : Reason
  index : Nat
  deriving DecidableEq, Repr

/-! ## The checks of section 2.1 -/

/-- R25: the clamps in the order of the table, the jog force limit against the clamped F_max, then the travel pair. The
number is the clamp count. -/
def checkFrameTable (t : FrameTable) : Except TableFault (FrameTable × Nat) :=
  let fMax := clampField 1 2147483647 t.fMax
  let vMax := clampField 1 1000000 t.vMax
  let c := clampField 0 65536000 t.compliance
  let ranges := clampField 1 4 t.rangesInUse
  let jog := clampField 1 fMax.1 t.jogForceLimit
  if t.travelMin < t.travelMax then
    .ok ({ fMax := fMax.1, vMax := vMax.1, travelMin := t.travelMin, travelMax := t.travelMax, compliance := c.1,
           rangesInUse := ranges.1, jogForceLimit := jog.1 },
         fMax.2 + vMax.2 + c.2 + ranges.2 + jog.2)
  else .error ⟨.travelOrder, 0⟩

/-- R26: a scale or gain of 0 is the one fault. -/
def checkGain (g : Int) : Except TableFault (Int × Nat) :=
  if g = 0 then .error ⟨.zeroGain, 0⟩ else .ok (g, 0)

/-- The index of the first value that does not rise above the one before it; `i` is the index of `x`. -/
def firstFall (i : Nat) (x : Int) : List Int → Option Nat
  | [] => none
  | y :: ys => if y ≤ x then some (i + 1) else firstFall (i + 1) y ys

/-- The first index of a list at which it does not rise. -/
def notRising : List Int → Option Nat
  | [] => none
  | x :: xs => firstFall 0 x xs

/-- R27: range code, breakpoint count, counts, forces; the zero offset is clamped. -/
def checkRangeTable (code : Nat) (t : RangeTable) : Except TableFault (RangeTable × Nat) :=
  if 3 < code then .error ⟨.unknownCode, 0⟩
  else if t.points.length < 2 ∨ 16 < t.points.length then .error ⟨.breakpointCount, 0⟩
  else
    match notRising (t.points.map (·.1)) with
    | some i => .error ⟨.countOrder, i⟩
    | none =>
      match notRising (t.points.map (·.2)) with
      | some i => .error ⟨.forceOrder, i⟩
      | none =>
        let z := clampField (-8388608) 8388607 t.zeroOffset
        .ok ({ t with zeroOffset := z.1 }, z.2)

/-! ## Install, removal, presence -/

/-- The Range Table of a code. -/
def CalSet.range (c : CalSet) : Nat → Option RangeTable
  | 0 => c.range0
  | 1 => c.range1
  | 2 => c.range2
  | 3 => c.range3
  | _ => none

/-- The set with the Range Table of a code replaced; no table has another code than 0 … 3. -/
def CalSet.setRange (c : CalSet) (code : Nat) (t : Option RangeTable) : CalSet :=
  match code with
  | 0 => { c with range0 := t }
  | 1 => { c with range1 := t }
  | 2 => { c with range2 := t }
  | 3 => { c with range3 := t }
  | _ => c

def CalSet.armGain (c : CalSet) : ArmId → Option Int
  | .a => c.armA
  | .b => c.armB

def CalSet.setArm (c : CalSet) (x : ArmId) (g : Option Int) : CalSet :=
  match x with
  | .a => { c with armA := g }
  | .b => { c with armB := g }

/-- The set without the named table (R29); a range code above 3 names no table (R27). -/
def CalSet.remove (c : CalSet) : TableRef → Except TableFault (CalSet × Nat)
  | .frame => .ok ({ c with frame := none }, 0)
  | .crosshead => .ok ({ c with crosshead := none }, 0)
  | .arm x => .ok (c.setArm x none, 0)
  | .range code => if 3 < code then .error ⟨.unknownCode, 0⟩ else .ok (c.setRange code none, 0)

/-- The set after a LOAD that passes its check, with the clamp count; or the structural fault (R29). -/
def CalSet.load (c : CalSet) : CalLoad → Except TableFault (CalSet × Nat)
  | .frame t => (checkFrameTable t).map fun r => ({ c with frame := some r.1 }, r.2)
  | .crosshead g => (checkGain g).map fun r => ({ c with crosshead := some r.1 }, r.2)
  | .arm x g => (checkGain g).map fun r => (c.setArm x (some r.1), r.2)
  | .range code t => (checkRangeTable code t).map fun r => (c.setRange code (some r.1), r.2)
  | .remove t => c.remove t

/-- Whether the named table is present. -/
def CalSet.has (c : CalSet) : TableRef → Bool
  | .frame => c.frame.isSome
  | .crosshead => c.crosshead.isSome
  | .arm x => (c.armGain x).isSome
  | .range code => (c.range code).isSome

/-- The tables installed (R36). -/
def CalSet.count (c : CalSet) : Nat :=
  ([c.frame.isSome, c.crosshead.isSome, c.armA.isSome, c.armB.isSome, c.range0.isSome, c.range1.isSome,
    c.range2.isSome, c.range3.isSome].filter id).length

/-- The calibration complete mark (R30). -/
def CalSet.complete (c : CalSet) : Bool :=
  match c.frame with
  | none => false
  | some t => (List.range 4).all fun code => decide (t.rangesInUse ≤ code) || (c.range code).isSome

/-- The calibration summary (R30). -/
def CalSet.summary (c : CalSet) : CalSummary :=
  { frame := c.frame, crosshead := c.crosshead.isSome, armA := c.armA.isSome, armB := c.armB.isSome,
    range0 := c.range0.isSome, range1 := c.range1.isSome, range2 := c.range2.isSome, range3 := c.range3.isSome,
    complete := c.complete }

/-- MC sends MS its calibration summary (R30). -/
def Paths.sendSummary (p : Paths) (c : CalSet) : Paths :=
  { p with mcToMs := p.mcToMs ++ [.summary c.summary] }

/-- MC sends MS a load outcome (R29). -/
def Paths.sendMcOutcome (p : Paths) (o : LoadOutcome) : Paths :=
  { p with mcToMs := p.mcToMs ++ [.outcome o] }

/-- MC takes a calibration LOAD passed on by MS (R29). With a DONE the new summary goes ahead of the outcome on the one path,
so that no ARM or JOG is judged between the two (R28, R30; DEDUCED, log entry 35). -/
def McDesk.takeLoad (d : McDesk) (tag : Tag) (l : CalLoad) : McDesk :=
  if d.mc.storeInFlight then
    { d with paths := (d.paths.sendReply .mc (answer .load tag .notReady .none)).sendMcOutcome .notReady }
  else
    match d.mc.cal.load l with
    | .error f =>
      { d with paths :=
          (d.paths.sendReply .mc (refuse .load tag .badTable f.reason (.entryIndex f.index))).sendMcOutcome .badTable }
    | .ok (cal, clamps) =>
      { mc := { d.mc with cal := cal }
        paths :=
          ((d.paths.sendReply .mc (answer .load tag .done (.clampCount clamps))).sendSummary cal).sendMcOutcome .done }

/-- MC takes the load at the head of MS's path when it is one that `kind` accepts; otherwise nothing is taken. -/
def McDesk.takeLoadIf (d : McDesk) (kind : CalLoad → Bool) : McDesk :=
  match d.paths.msToMc with
  | .load tag l :: rest =>
    if kind l then McDesk.takeLoad { d with paths := { d.paths with msToMc := rest } } tag l else d
  | _ => d

/-- LOAD_FRAME_TABLE: MC takes a Frame Table (R25, R29). -/
def execLoadFrameTable (s : State) : Host.Outcome State Fault Refusal :=
  .next (s.onMc fun d => d.takeLoadIf fun | .frame _ => true | _ => false)

/-- LOAD_CROSSHEAD_TABLE: MC takes a Crosshead Table (R26, R29). -/
def execLoadCrossheadTable (s : State) : Host.Outcome State Fault Refusal :=
  .next (s.onMc fun d => d.takeLoadIf fun | .crosshead _ => true | _ => false)

/-- LOAD_ARM_TABLE: MC takes an Arm Table (R26, R29). -/
def execLoadArmTable (s : State) : Host.Outcome State Fault Refusal :=
  .next (s.onMc fun d => d.takeLoadIf fun | .arm _ _ => true | _ => false)

/-- LOAD_RANGE_TABLE: MC takes a Range Table (R27, R29). -/
def execLoadRangeTable (s : State) : Host.Outcome State Fault Refusal :=
  .next (s.onMc fun d => d.takeLoadIf fun | .range _ _ => true | _ => false)

/-- REMOVE_CALIBRATION_TABLE: MC takes a removal mark (R29). -/
def execRemoveCalibrationTable (s : State) : Host.Outcome State Fault Refusal :=
  .next (s.onMc fun d => d.takeLoadIf fun | .remove _ => true | _ => false)

/-! ## READBACK (R31) -/

/-- The answer for a table of one entry. -/
def wholeTable (tag : Tag) (pointer : Byte) (p : Option Payload) : Reply :=
  match p with
  | none => answer .readback tag .absent .none
  | some p => answer .readback tag .done (if pointer = 0 then p else .entryTotal 1)

/-- The answer to a READBACK of a calibration table, by R31's table. -/
def CalSet.readback (c : CalSet) (tag : Tag) (kind index pointer count : Byte) : Reply :=
  match tableRef kind.toNat index.toNat with
  | some .frame => wholeTable tag pointer (c.frame.map .frameTable)
  | some .crosshead => wholeTable tag pointer (c.crosshead.map .gain)
  | some (.arm x) => wholeTable tag pointer ((c.armGain x).map .gain)
  | some (.range code) =>
    if 3 < code then refuse .readback tag .badTable .unknownCode .none
    else
      match c.range code with
      | none => answer .readback tag .absent .none
      | some t =>
        answer .readback tag .done
          (.rangePart t.zeroOffset t.points.length pointer.toNat ((t.points.drop pointer.toNat).take count.toNat))
  | none => refuse .readback tag .badTable .unknownCode .none

/-- READBACK of a calibration table, taken by CP and answered by MC. -/
def reqReadbackCalibration (tag : Tag) (kind index pointer count : Byte) (s : State) : State :=
  s.request .readback tag fun s => s.onMc fun d =>
    { d with paths := d.paths.sendReply .mc (d.mc.cal.readback tag kind index pointer count) }

/-- READBACK_CALIBRATION (R31). -/
def execReadbackCalibration (tag : Tag) (kind index pointer count : Byte) (s : State) :
    Host.Outcome State Fault Refusal :=
  .next (reqReadbackCalibration tag kind index pointer count s)

/-! ## INQUIRE (R40) -/

/-- r_max (R88): ⌊v_max × 1,000,000 / (6 × Lp)⌋. -/
def strainRateMax (vMax lp : Int) : Int := vMax * 1000000 / (6 * lp)

/-- r_max as the capability record gives it, at most 1,000,000 (R40). -/
def rMax (vMax lp : Int) : Int := min 1000000 (strainRateMax vMax lp)

/-- The maximum force rate (R40). -/
def forceRateMax (vMax kForce : Int) : Int :=
  if kForce = 0 then 0 else min 100000000 (roundDiv (vMax * 65536) (6 * kForce))

/-- Lp of the program held, or 50,000 µm (R40). -/
def Mc.lp (m : Mc) : Int := (m.program.map McProgram.lp).getD Config.defaultLength

/-- The capability record (R40). -/
def Mc.capability (m : Mc) : Capability :=
  { identity := if m.identity.present then m.identity else .zero
    summary := m.cal.summary
    vMax := (m.cal.frame.map FrameTable.vMax).getD 0
    rMax := (m.cal.frame.map fun t => Machine.rMax t.vMax m.lp).getD 0
    forceRate :=
      match m.cal.frame, m.program with
      | some t, some p => forceRateMax t.vMax p.kForce
      | _, _ => 0 }

/-- INQUIRE reaches MC in every store state and every motion state (R40, R157). -/
def reqInquire (tag : Tag) (s : State) : State :=
  s.onMc fun d => { d with paths := d.paths.sendReply .mc (answer .inquire tag .done (.capability d.mc.capability)) }

/-- INQUIRE (R40). -/
def execInquire (tag : Tag) (s : State) : Host.Outcome State Fault Refusal :=
  .next (reqInquire tag s)

end Sys2Proof.Machine
end

