-- ==== Sys2Proof/Machine/Programs.lean ====
section
/-! DEFINITION. The Test Program and the Evaluation Parameters: their checks and clamps (R43 to R45, R47), their loads
through MS (R28, R42, R47), READBACK of both (R46, R47) and the defaults (R48). -/

namespace Sys2Proof.Machine

/-! ## Segments (R44, R45) -/

/-- The table of end kinds against modes (R44): false for a pair marked "no". -/
def endKindAllowed (k : EndKind) (m : SegmentMode) : Bool :=
  match m with
  | .hold => decide (k ≠ .positionReached ∧ k ≠ .yieldDone ∧ k ≠ .proofDone)
  | _ => true

/-- A rate whose magnitude is clamped and whose sign is kept; 0 becomes +1 (R45). -/
def clampSigned (top v : Int) : Int × Nat :=
  if 0 ≤ v then clampField 1 top v else clampField (-top) (-1) v

/-- The rate of a segment (R45). -/
def clampRate (m : SegmentMode) (v : Int) : Int × Nat :=
  match m with
  | .position => clampSigned 1000000 v
  | .strain => clampField 1 1000000 v
  | .force => clampSigned 100000000 v
  | .hold => clampField 0 0 v

/-- The end value of a segment (R45); kinds without a value store 0. -/
def clampEndValue (k : EndKind) (v : Int) : Int × Nat :=
  match k with
  | .strainReached => (v, 0)
  | .forceReached => (v, 0)
  | .positionReached => (v, 0)
  | .timeElapsed => clampField 1 4294967 v
  | .extReleased => (0, 0)
  | .yieldDone => (0, 0)
  | .proofDone => (0, 0)
  | .none => (0, 0)

/-- The end sense as stored (R45). -/
def storedSense (k : EndKind) (x : EndSense) : EndSense :=
  match k with
  | .strainReached => x
  | .forceReached => x
  | .positionReached => x
  | .timeElapsed => x
  | .extReleased => .atOrAbove
  | .yieldDone => .atOrAbove
  | .proofDone => .atOrAbove
  | .none => .atOrAbove

/-- An optional field clamped where present. -/
def clampOpt (lo hi : Int) : Option Int → Option Int × Nat
  | none => (none, 0)
  | some v => let c := clampField lo hi v; (some c.1, c.2)

/-- The checks of R44 on a segment, in the order of its table, then the clamps of R45. -/
def checkSegment (removal : Criterion) (r : RawSegment) : Except Reason (Segment × Nat) :=
  match SegmentMode.ofCode r.mode, EndKind.ofCode r.endKind, EndSense.ofCode r.endSense, EndAction.ofCode r.endAction with
  | some m, some k, some sense, some action =>
    if endKindAllowed k m = false then .error .endKindNotAllowed
    else if k = .extReleased ∧ removal = .none then .error .extReleasedWithoutRemoval
    else if r.fallback.isSome ∧ m ≠ .strain then .error .fallbackNotAllowed
    else if r.gain.isSome ∧ (m = .position ∨ m = .hold) then .error .gainNotAllowed
    else
      let rate := clampRate m r.rate
      let value := clampEndValue k r.endValue
      let fallback := clampOpt 1 1000000 r.fallback
      let gain := clampOpt 0 65536000 r.gain
      .ok ({ mode := m, rate := rate.1, endKind := k, endValue := value.1, sense := storedSense k sense,
             action := action, fallback := fallback.1, gain := gain.1 },
           rate.2 + value.2 + fallback.2 + gain.2)
  | _, _, _, _ => .error .unknownCode

/-- The segments in index order from index `i`; the first fault ends the check with its segment index. -/
def checkSegments (removal : Criterion) (i : Nat) : List RawSegment → Except TableFault (List Segment × Nat)
  | [] => .ok ([], 0)
  | r :: rs =>
    match checkSegment removal r with
    | .error reason => .error ⟨reason, i⟩
    | .ok (g, n) => (checkSegments removal (i + 1) rs).map fun t => (g :: t.1, n + t.2)

/-! ## The Program Header (R43) -/

/-- The entry index of a fault in the header. -/
def headerIndex : Nat := 32

/-- The specimen label; a label of length 0 is absent (log entry 22). -/
def storedLabel (r : RawProgram) : Option (List Byte) :=
  if r.labelLength = 0 then none else some (r.label.take r.labelLength)

/-- The removal strain as stored, with its clamp (R43). -/
def storedRemovalStrain (c : Criterion) (v : Int) : Int × Nat :=
  match c with
  | .atStrain => clampField 1 2147483647 v
  | _ => (0, 0)

/-- The checks of R43 on the header and of R44 on the segments, in order, with the clamps of R43 and R45. -/
def checkProgram (r : RawProgram) : Except TableFault (Program × Nat) :=
  if 16 < r.labelLength then .error ⟨.labelLength, headerIndex⟩
  else
    match Fitted.ofCode r.fitted, Criterion.ofCode r.criterion with
    | some fitted, some criterion =>
      if criterion ≠ .none ∧ fitted = .none then .error ⟨.removalWithoutExtensometer, headerIndex⟩
      else if r.segments.length = 0 ∨ Config.maxSegments < r.segments.length then .error ⟨.segmentCount, headerIndex⟩
      else
        (checkSegments criterion 0 r.segments).map fun segs =>
          let l0 := clampField 1000 2000000 r.l0
          let lc := clampField 1000 2000000 r.lc
          let lp := clampField 1000 2000000 r.lp
          let s0 := clampField 1 10000000 r.s0
          let kStrain := clampField 0 65536000 r.kStrain
          let kForce := clampField 0 65536000 r.kForce
          let strain := storedRemovalStrain criterion r.removalStrain
          let timeout := clampField 5 600 r.removalTimeout
          let slip := clampField 1 10000000 r.slip
          ({ label := storedLabel r, l0 := l0.1, lc := lc.1, lp := lp.1, s0 := s0.1, fitted := fitted,
             autoTare := decide (r.autoTare ≠ 0), autoArm := decide (r.autoArm ≠ 0),
             autoPosition := decide (r.autoPosition ≠ 0), kStrain := kStrain.1, kForce := kForce.1,
             criterion := criterion, removalStrain := strain.1, removalTimeout := timeout.1, slip := slip.1,
             segments := segs.1 },
           l0.2 + lc.2 + lp.2 + s0.2 + kStrain.2 + kForce.2 + strain.2 + timeout.2 + slip.2 + segs.2)
    | _, _ => .error ⟨.unknownCode, headerIndex⟩

/-! ## Loads at MS (R28, R42, R47) -/

/-- MS accepts loads and STORE in IDLE and FAULTED alone (R28, R42, R47, R49). -/
def Ms.unlocked (m : Ms) : Bool := m.state = .idle || m.state = .faulted

/-- MS answers a request. -/
def MsDesk.reply (d : MsDesk) (r : Reply) : MsDesk :=
  { d with paths := d.paths.sendReply .ms r }

/-- What the program notice tells MC (R42). -/
def Program.forMc (p : Program) : McProgram :=
  { l0 := p.l0, lc := p.lc, lp := p.lp, kForce := p.kForce, fitted := p.fitted, autoTare := p.autoTare,
    autoArm := p.autoArm, autoPosition := p.autoPosition }

/-- An install or a removal: the generation rises and the program notice goes to MC and ES (R42). -/
def MsDesk.install (d : MsDesk) (p : Option Program) : MsDesk :=
  let g := d.ms.generation + 1
  { d with
    ms := { d.ms with program := p, generation := g }
    paths := { d.paths with
      msToMc := d.paths.msToMc ++ [.notice g (p.map Program.forMc)]
      msToEs := d.paths.msToEs ++ [.notice g (p.map Program.fitted)] } }

/-- MS takes a Program LOAD (R42). -/
def MsDesk.takeProgram (d : MsDesk) (tag : Tag) (l : ProgramLoad) : MsDesk :=
  if d.ms.unlocked = false then d.reply (answer .load tag .wrongState .none)
  else
    match l with
    | none => (d.install none).reply (answer .load tag .done (.clampCount 0))
    | some r =>
      match checkProgram r with
      | .error f => d.reply (refuse .load tag .badTable f.reason (.entryIndex f.index))
      | .ok (p, clamps) => (d.install (some p)).reply (answer .load tag .done (.clampCount clamps))

def reqLoadProgram (tag : Tag) (l : ProgramLoad) (s : State) : State :=
  s.request .load tag fun s => s.onMs fun d => d.takeProgram tag l

/-- LOAD_PROGRAM (R42). -/
def execLoadProgram (tag : Tag) (l : ProgramLoad) (s : State) : Host.Outcome State Fault Refusal :=
  .next (reqLoadProgram tag l s)

/-- MS takes a calibration LOAD: the table lock, and the load count (R28). -/
def MsDesk.takeCalLoad (d : MsDesk) (tag : Tag) (l : CalLoad) : MsDesk :=
  if d.ms.unlocked = false then d.reply (answer .load tag .wrongState .none)
  else
    { d with
      ms := { d.ms with loadCount := d.ms.loadCount + 1 }
      paths := { d.paths with msToMc := d.paths.msToMc ++ [.load tag l] } }

def reqLoadCalibration (tag : Tag) (l : CalLoad) (s : State) : State :=
  s.request .load tag fun s => s.onMs fun d => d.takeCalLoad tag l

/-- LOAD_CALIBRATION (R28). -/
def execLoadCalibration (tag : Tag) (l : CalLoad) (s : State) : Host.Outcome State Fault Refusal :=
  .next (reqLoadCalibration tag l s)

/-- MS takes an Evaluation Parameters LOAD (R47). -/
def MsDesk.takeEvalLoad (d : MsDesk) (tag : Tag) (l : EvalLoad) : MsDesk :=
  if d.ms.unlocked = false then d.reply (answer .load tag .wrongState .none)
  else
    { d with
      ms := { d.ms with loadCount := d.ms.loadCount + 1 }
      paths := { d.paths with msToTe := d.paths.msToTe ++ [.params tag l] } }

def reqLoadEvaluationParameters (tag : Tag) (l : EvalLoad) (s : State) : State :=
  s.request .load tag fun s => s.onMs fun d => d.takeEvalLoad tag l

/-- LOAD_EVALUATION_PARAMETERS (R47). -/
def execLoadEvaluationParameters (tag : Tag) (l : EvalLoad) (s : State) : Host.Outcome State Fault Refusal :=
  .next (reqLoadEvaluationParameters tag l s)

/-- MS takes STORE: accepted in IDLE and FAULTED and passed on to MC (R28). -/
def MsDesk.takeStore (d : MsDesk) (tag : Tag) : MsDesk :=
  if d.ms.unlocked = false then d.reply (answer .store tag .wrongState .none)
  else { d with paths := { d.paths with msToMc := d.paths.msToMc ++ [.store tag] } }

def reqStore (tag : Tag) (s : State) : State :=
  s.request .store tag fun s => s.onMs fun d => d.takeStore tag

/-- STORE (R28). -/
def execStore (tag : Tag) (s : State) : Host.Outcome State Fault Refusal :=
  .next (reqStore tag s)

/-- The load count falls by one (R28, R47). -/
def Ms.loadEnded (m : Ms) : Ms := { m with loadCount := m.loadCount - 1 }

/-- MS takes a load outcome at the head of MC's or TE's path (R28, R47). -/
def MsDesk.takeOutcome (d : MsDesk) (b : OutcomeSource) : MsDesk :=
  match b with
  | .mc =>
    match d.paths.mcToMs with
    | .outcome _ :: rest => { d with ms := d.ms.loadEnded, paths := { d.paths with mcToMs := rest } }
    | _ => d
  | .te =>
    match d.paths.teOutcomes with
    | _ :: rest => { d with ms := d.ms.loadEnded, paths := { d.paths with teOutcomes := rest } }
    | [] => d

/-- LOAD_OUTCOME (R28). -/
def execLoadOutcome (b : OutcomeSource) (s : State) : Host.Outcome State Fault Refusal :=
  .next (s.onMs fun d => d.takeOutcome b)

/-- MS takes a calibration summary at the head of MC's path (R30). -/
def MsDesk.takeSummary (d : MsDesk) : MsDesk :=
  match d.paths.mcToMs with
  | .summary c :: rest => { d with ms := { d.ms with summary := c }, paths := { d.paths with mcToMs := rest } }
  | _ => d

/-- CALIBRATION_SUMMARY (R30). -/
def execCalibrationSummary (s : State) : Host.Outcome State Fault Refusal :=
  .next (s.onMs fun d => d.takeSummary)

/-! ## READBACK of the program (R46) -/

/-- The answer to a READBACK of the Test Program, by R46's table. -/
def Ms.readback (m : Ms) (tag : Tag) (pointer count : Byte) : Reply :=
  match m.program with
  | none => answer .readback tag .absent .none
  | some p =>
    if pointer.toNat = headerIndex then answer .readback tag .done (.programHeader m.generation p)
    else if pointer.toNat < headerIndex then
      answer .readback tag .done
        (.programSegments m.generation p.segments.length ((p.segments.drop pointer.toNat).take count.toNat))
    else refuse .readback tag .badTable .unknownCode (.generation m.generation)

def reqReadbackProgram (tag : Tag) (pointer count : Byte) (s : State) : State :=
  s.request .readback tag fun s => s.onMs fun d => d.reply (d.ms.readback tag pointer count)

/-- READBACK_PROGRAM (R46). -/
def execReadbackProgram (tag : Tag) (pointer count : Byte) (s : State) : Host.Outcome State Fault Refusal :=
  .next (reqReadbackProgram tag pointer count s)

/-! ## Evaluation Parameters at TE (R47, R48) -/

/-- The clamps of section 3.2, then the window order (R47). -/
def checkEvalParams (p : EvalParams) : Except TableFault (EvalParams × Nat) :=
  let drop := clampField 1 500 p.yieldDrop
  let minForce := clampField 0 2147483647 p.yieldMinForce
  let window := clampField 1 2147483647 p.yieldWindowEnd
  let transient := clampField 0 1000000 p.transient
  let lo := clampField 0 2147483647 p.fLo
  let hi := clampField 0 2147483647 p.fHi
  let offset := clampField 1 1000000 p.offsetStrain
  let brk := clampField 1 900 p.breakDrop
  let confirm := clampField 1 16 p.breakConfirm
  let brkForce := clampField 0 2147483647 p.breakMinForce
  if lo.1 < hi.1 then
    .ok ({ yieldDrop := drop.1, yieldMinForce := minForce.1, yieldWindowEnd := window.1, transient := transient.1,
           fLo := lo.1, fHi := hi.1, offsetStrain := offset.1, breakDrop := brk.1, breakConfirm := confirm.1,
           breakMinForce := brkForce.1 },
         drop.2 + minForce.2 + window.2 + transient.2 + lo.2 + hi.2 + offset.2 + brk.2 + confirm.2 + brkForce.2)
  else .error ⟨.fitWindowOrder, 0⟩

/-- The defaults of R48. -/
def defaultParams (fMax : Int) : EvalParams :=
  { yieldDrop := 5, yieldMinForce := fMax / 50, yieldWindowEnd := 50000, transient := 2000, fLo := fMax / 100,
    fHi := fMax * 4 / 100, offsetStrain := 20000, breakDrop := 500, breakConfirm := 3, breakMinForce := fMax / 100 }

/-- TE sends MS a load outcome (R47). -/
def Paths.sendTeOutcome (p : Paths) (o : LoadOutcome) : Paths :=
  { p with teOutcomes := p.teOutcomes ++ [o] }

/-- TE answers a request. -/
def TeDesk.reply (d : TeDesk) (r : Reply) : TeDesk :=
  { d with paths := d.paths.sendReply .te r }

/-- TE takes an Evaluation Parameters LOAD (R47). -/
def TeDesk.takeEvalLoad (d : TeDesk) (tag : Tag) (l : EvalLoad) : TeDesk :=
  match l with
  | none =>
    let d := TeDesk.reply { d with te := { d.te with loaded := none } } (answer .load tag .done (.clampCount 0))
    { d with paths := d.paths.sendTeOutcome .done }
  | some p =>
    match checkEvalParams p with
    | .error f =>
      let d := d.reply (refuse .load tag .badTable f.reason (.entryIndex f.index))
      { d with paths := d.paths.sendTeOutcome .badTable }
    | .ok (p, clamps) =>
      let d := TeDesk.reply { d with te := { d.te with loaded := some p } } (answer .load tag .done (.clampCount clamps))
      { d with paths := d.paths.sendTeOutcome .done }

/-- EVALUATION_PARAMETERS_AT_TE (R47). -/
def execEvaluationParametersAtTe (s : State) : Host.Outcome State Fault Refusal :=
  .next (s.onTe fun d =>
    match d.paths.msToTe with
    | .params tag l :: rest => TeDesk.takeEvalLoad { d with paths := { d.paths with msToTe := rest } } tag l
    | _ => d)

/-- The answer to a READBACK of the Evaluation Parameters (R47). -/
def Te.readback (t : Te) (tag : Tag) : Reply :=
  match t.loaded with
  | none => answer .readback tag .absent .none
  | some p => answer .readback tag .done (.evalParams p)

def reqReadbackEvaluationParameters (tag : Tag) (s : State) : State :=
  s.request .readback tag fun s => s.onTe fun d => d.reply (d.te.readback tag)

/-- READBACK_EVALUATION_PARAMETERS (R47). -/
def execReadbackEvaluationParameters (tag : Tag) (s : State) : Host.Outcome State Fault Refusal :=
  .next (reqReadbackEvaluationParameters tag s)

end Sys2Proof.Machine
end

