-- ==== Sys2Proof/Machine/Inlet.lean ====
section
/-! DEFINITION. The Inlet Port: good frames and gaps (R3, R4), the period code (R5), the silence timer (R6) and the motion
state tag (R7). The checks of R2 stand with the link receivers in Links.lean. -/

namespace Sys2Proof.Machine

/-- How the Inlet Port judges a frame that passed the check (R3, R4): `none` for a duplicate, else the gap, the advance of
the sample number, and whether INLET_GAP is raised. -/
def Inlet.judge (i : Inlet) (f : SampleFrame) : Option (Nat × Nat × Bool) :=
  match i.rebase, i.lastSeq with
  | false, some last =>
    let raw := (f.seq - last).toNat
    if raw = 0 then none
    else if raw ≤ Config.maxGap then some (raw, raw, false)
    else if i.tag.state.active then some (Config.maxGap, raw, true)
    else some (1, 1, false)
  | _, _ => some (1, 1, false)

/-- R5: whether a good frame's period code raises PERIOD_CHANGED, with the old code. -/
def Inlet.periodEvent (i : Inlet) (f : SampleFrame) : Option Period :=
  match i.period with
  | some p => if p ≠ f.period ∧ i.tag.state.active then some p else none
  | none => none

/-- R6: the silence timer after a good frame of a period. -/
def Inlet.silenceAfterFrame (i : Inlet) (p : Period) : Option Nat :=
  if i.tag.state.active then some (Config.silencePeriods * p.us) else i.silence

/-- The Inlet Port takes a frame that passed the check of R2 (R3 to R6). -/
def InletDesk.takeFrame (d : InletDesk) (f : SampleFrame) : InletDesk :=
  match d.inlet.judge f with
  | none => d
  | some (gap, advance, far) =>
    let p1 := if far then d.paths.raiseFault .inlet .inletGap (.inletGap f.seq advance) else d.paths
    let p2 :=
      match d.inlet.periodEvent f with
      | some was => p1.raiseFault .inlet .periodChanged (.periodChanged was f.period)
      | none => p1
    { inlet := { d.inlet with
        lastSeq := some f.seq
        period := some f.period
        rebase := false
        silence := d.inlet.silenceAfterFrame f.period }
      paths := { p2 with inletToMc := p2.inletToMc ++ [{ frame := f, gap := gap, advance := advance }] } }

/-- The silence timer expires (R6): INLET_SILENT with the last wire sequence and the number of MC's last sample. -/
def InletDesk.takeSilence (d : InletDesk) (number : Option Nat) : InletDesk :=
  match d.inlet.silence with
  | none => d
  | some _ =>
    { inlet := { d.inlet with silence := none }
      paths := d.paths.raiseFault .inlet .inletSilent (.inletSilent d.inlet.lastSeq number) }

/-- The sample number of MC's last Conditioned Sample. -/
def Mc.lastNumber (m : Mc) : Option Nat := m.last.map fun x => x.sample.number

/-- INLET_SILENT (R6). -/
def execInletSilent (s : State) : Host.Outcome State Fault Refusal :=
  .next (s.onInlet fun d => d.takeSilence s.mc.lastNumber)

/-- R6: the silence timer on taking a tag. -/
def Inlet.silenceAfterTag (i : Inlet) (t : MotionTag) : Option Nat :=
  if t.state.active then
    match i.silence with
    | some d => some d
    | none =>
      match i.period with
      | some p => some (Config.silencePeriods * p.us)
      | none => some Config.silenceNoCodeUs
  else none

/-- R3, R8: a tag that sets the re-base mark. -/
def Inlet.rebasesOn (i : Inlet) (t : MotionTag) : Bool :=
  match t with
  | .idle byResetTest => byResetTest || decide (i.tag.state ≠ .idle)
  | _ => false

/-- The Inlet Port takes a motion state tag (R3, R6 to R8). -/
def Inlet.takeTag (i : Inlet) (t : MotionTag) : Inlet :=
  { i with rebase := i.rebase || i.rebasesOn t, silence := i.silenceAfterTag t, tag := t }

/-- INLET_STATE_TAG (R7). -/
def execInletStateTag (s : State) : Host.Outcome State Fault Refusal :=
  .next (s.onInlet fun d =>
    match d.paths.msToInlet with
    | [] => d
    | t :: rest => { inlet := d.inlet.takeTag t, paths := { d.paths with msToInlet := rest } })

end Sys2Proof.Machine
end

