-- ==== Sys2Proof/Machine/Conditioner.lean ====
section
/-! DEFINITION. The Measurement Conditioner: one conversion (R9 to R18, R20, R22), the zero requests (R19, R21), the motion
state tag (R22, R23), drop-arm requests (R18) and the program notice (R42). -/

namespace Sys2Proof.Machine

/-! ## Permitted sets (R18) -/

def Permitted.has (p : Permitted) : Source → Bool
  | .both => p.both
  | .armA => p.armA
  | .armB => p.armB
  | .crosshead => p.crosshead

/-- The members, in order of priority. -/
def Permitted.toList (p : Permitted) : List Source :=
  [Source.both, .armA, .armB, .crosshead].filter p.has

/-- The restored permitted set of a fitted set, or of no program (R18). -/
def restored : Option Fitted → Permitted
  | some .none => { both := false, armA := false, armB := false, crosshead := true }
  | some .armA => { both := false, armA := true, armB := false, crosshead := true }
  | some .armB => { both := false, armA := false, armB := true, crosshead := true }
  | some .both => .all
  | none => .all

/-- A drop-arm request removes the arm's single source and BOTH (R18). -/
def Permitted.drop (p : Permitted) : ArmId → Permitted
  | .a => { p with both := false, armA := false }
  | .b => { p with both := false, armB := false }

/-- The sources of the extensometer. -/
def Source.isArm : Source → Bool
  | .crosshead => false
  | _ => true

/-! ## Force (R10 to R12) -/

/-- The Range Table of a calibrated range (R10). -/
def CalSet.calibrated (c : CalSet) (code : Nat) : Option RangeTable :=
  match c.range code, c.frame with
  | some t, none => some t
  | some t, some f => if (code : Int) < f.rangesInUse then some t else none
  | none, _ => none

/-- The interpolation segment of R11 for a count, from the breakpoint `p` on. -/
def segmentFrom (c : Int) (p : Int × Int) : List (Int × Int) → (Int × Int) × (Int × Int)
  | [] => (p, p)
  | q :: qs => if c < q.1 ∨ qs = [] then (p, q) else segmentFrom c q qs

/-- F_cal of a load count and its UNCAL flag (R11). -/
def rangeForce (t : RangeTable) (count : Int) : Int × Bool :=
  match t.points with
  | [] => (0, true)
  | p :: ps =>
    let c := count - t.zeroOffset
    let seg := segmentFrom c p ps
    let last := ps.getLastD p
    (seg.1.2 + roundDiv ((c - seg.1.1) * (seg.2.2 - seg.1.2)) (seg.2.1 - seg.1.1),
      decide (c < p.1) || decide (last.1 < c))

/-- F from F_cal and the tare (R11). -/
def forceOf (fCal tare : Int) : Int := satForce (fCal - tare)

/-- The overload condition (R12). -/
def overloaded (c : CalSet) (overrange : Bool) (force : Int) : Bool :=
  overrange || (match c.frame with | none => false | some t => decide (t.fMax < (force.natAbs : Int)))

/-! ## Elongation, position, strain (R13 to R15) -/

/-- ΔL of an arm (R13). -/
def elongation (gain : Option Int) (count zero : Int) : Int :=
  match gain with
  | none => 0
  | some g => sat32 (roundDiv ((count - zero) * g) 65536)

/-- The absolute position (R14). -/
def positionOf (scale : Option Int) (count : Int) : Int :=
  match scale with
  | none => 0
  | some g => sat32 (roundDiv (count * g) 65536)

/-- The raw strain of the crosshead (R15). -/
def crossheadStrain (position pZero compliance force fZ lc : Int) : Int :=
  sat32 (roundDiv (((position - pZero) * 100 - roundDiv (compliance * (force - fZ)) 65536) * 10000) lc)

def RawStrains.get (r : RawStrains) : Source → Int
  | .both => r.both
  | .armA => r.armA
  | .armB => r.armB
  | .crosshead => r.crosshead

/-! ## The quantities of one conversion -/

/-- What a conversion forms from a frame before it selects the source: F_cal with its flags, and the quantities that a
change of the zeros forms again. -/
structure Forming where
  fCal : Int
  held : Bool
  uncal : Bool
  position : Int
  zero : ZeroRecord
  force : Int
  dLA : Int
  dLB : Int
  deriving DecidableEq, Repr

/-- Stage 2 of R9 with the zeros held. -/
def Mc.form (m : Mc) (f : SampleFrame) : Forming :=
  let cal := m.cal.calibrated f.range.val
  let fu : Int × Bool := match cal with | some t => rangeForce t f.load | none => (m.lastFCal, false)
  { fCal := fu.1, held := cal.isNone, uncal := fu.2, position := positionOf m.cal.crosshead f.crosshead, zero := m.zero,
    force := forceOf fu.1 m.zero.tare, dLA := elongation m.cal.armA f.countA m.zero.armA,
    dLB := elongation m.cal.armB f.countB m.zero.armB }

/-- The tare is set to F_cal and F_z to 0; F is re-formed (R20, R22). -/
def Forming.applyTare (x : Forming) : Forming :=
  { x with zero := { x.zero with tare := x.fCal, fZ := 0 }, force := forceOf x.fCal x.fCal }

/-- The arm zeros are set to the frame's counts; the elongations are re-formed (R20, R22). -/
def Forming.applyArms (c : CalSet) (f : SampleFrame) (x : Forming) : Forming :=
  { x with
    zero := { x.zero with armA := f.countA, armB := f.countB }
    dLA := elongation c.armA f.countA f.countA
    dLB := elongation c.armB f.countB f.countB }

/-- P_zero is set to P and F_z to F as re-formed (R20, R22). -/
def Forming.applyPosition (x : Forming) : Forming :=
  { x with zero := { x.zero with pZero := x.position, fZ := x.force } }

/-- `f x` if `b`, else `x`. -/
def applyIf (b : Bool) (f : Forming → Forming) (x : Forming) : Forming := if b then f x else x

/-- The auto flags of the program held, all no without a program (R22). -/
def Mc.auto (m : Mc) : Bool × Bool × Bool :=
  match m.program with
  | none => (false, false, false)
  | some p => (p.autoTare, p.autoArm, p.autoPosition)

/-- Stage 3 of R9: pending arming zeros (R22), then pending zero requests in the order TARE, ZERO_EXT, ZERO_POSITION
(R20). -/
def Mc.applyZeros (m : Mc) (f : SampleFrame) (x : Forming) : Forming :=
  let arming := m.armingZeros.isSome
  let auto := m.auto
  let x := applyIf (arming && auto.1) Forming.applyTare x
  let x := applyIf (arming && auto.2.1) (Forming.applyArms m.cal f) x
  let x := applyIf (arming && auto.2.2) Forming.applyPosition x
  let x := applyIf (decide (m.pendTare ≠ [])) Forming.applyTare x
  let x := applyIf (decide (m.pendZeroExt ≠ [])) (Forming.applyArms m.cal f) x
  applyIf (decide (m.pendZeroPosition ≠ [])) Forming.applyPosition x

/-- The fitted set of the program held (R18). -/
def Mc.fitted (m : Mc) : Option Fitted := m.program.map McProgram.fitted

/-- The permitted set that a conversion selects from: after stage 1 of R9 and after a restoration (R16, R18). -/
def Mc.permittedNow (m : Mc) : Permitted :=
  if m.armingZeros.isSome || (decide (m.pendZeroExt ≠ []) && decide (m.tag.state = .idle)) then restored m.fitted
  else m.dropArms.foldl Permitted.drop m.permitted

/-- Whether an arm is valid on a sample (R13). -/
def Mc.validA (m : Mc) (f : SampleFrame) : Bool := f.contactA && !f.overA && m.cal.armA.isSome
def Mc.validB (m : Mc) (f : SampleFrame) : Bool := f.contactB && !f.overB && m.cal.armB.isSome

/-- Whether a source is usable (R16). -/
def usable (p : Permitted) (validA validB : Bool) : Source → Bool
  | .both => p.both && validA && validB
  | .armA => p.armA && validA
  | .armB => p.armB && validB
  | .crosshead => true

/-- The highest-priority usable source (R16). -/
def selected (p : Permitted) (validA validB : Bool) : Source :=
  if usable p validA validB .both then .both
  else if usable p validA validB .armA then .armA
  else if usable p validA validB .armB then .armB
  else .crosshead

/-- The permitted set after pruning: the usable sources and CROSSHEAD (R18). -/
def Permitted.prune (p : Permitted) (validA validB : Bool) : Permitted :=
  { both := usable p validA validB .both, armA := usable p validA validB .armA, armB := usable p validA validB .armB,
    crosshead := p.crosshead }

/-- The tags under which a switch to a lower source prunes (R18). -/
def MotionState.prunes : MotionState → Bool
  | .armed => true
  | .running => true
  | .paused => true
  | .stopped => true
  | _ => false

/-- Stage 4 of R9: the four raw strains (R15). -/
def Mc.strains (m : Mc) (x : Forming) : RawStrains :=
  let l0 := (m.program.map McProgram.l0).getD Config.defaultLength
  let lc := (m.program.map McProgram.lc).getD Config.defaultLength
  let c := (m.cal.frame.map FrameTable.compliance).getD 0
  { both := sat32 (roundDiv ((x.dLA + x.dLB) * 5000) l0)
    armA := sat32 (roundDiv (x.dLA * 10000) l0)
    armB := sat32 (roundDiv (x.dLB * 10000) l0)
    crosshead := crossheadStrain x.position x.zero.pZero c x.force x.zero.fZ lc }

/-- The outcome of stage 5 of R9. -/
structure Selection where
  source : Source
  switched : Bool
  offset : Int
  mark : Bool
  permitted : Permitted
  deriving DecidableEq, Repr

/-- The offset and the offset-rezero mark on a sample without a switch (R20, R22): the zeros applied on this sample first,
then a mark left by an earlier one (log entry 11). -/
def Mc.offsetNoSwitch (m : Mc) (source : Source) (strain ePrev : Int) : Int × Bool :=
  let rezero : Int := if source.isArm then 0 else ePrev - strain
  let byArming : Int := if m.armingZeros.isSome then rezero else m.offset
  let byRequest : Int :=
    if m.pendTare = [] ∧ m.pendZeroExt = [] ∧ m.pendZeroPosition = [] then byArming
    else if m.pendZeroExt ≠ [] ∧ source.isArm then 0
    else ePrev - strain
  if m.offsetRezero then (if source.isArm then 0 else byRequest, false) else (byRequest, false)

/-- Whether this conversion applies a new arm zero (R20, R22). -/
def Mc.zeroesArms (m : Mc) : Bool :=
  decide (m.pendZeroExt ≠ []) || (m.armingZeros.isSome && m.auto.2.1)

/-- Stage 5 of R9: the source, the offset and the permitted set (R16 to R18, R20, R22). -/
def Mc.choose (m : Mc) (f : SampleFrame) (raw : RawStrains) : Selection :=
  let p := m.permittedNow
  let a := m.validA f
  let b := m.validB f
  let sel := selected p a b
  match m.source, m.last with
  | some cur, some last =>
    if sel = cur then
      let o := m.offsetNoSwitch cur (raw.get cur) last.sample.strain
      { source := cur, switched := false, offset := o.1, mark := o.2, permitted := p }
    else
      { source := sel, switched := true, offset := last.sample.strain - last.raw.get sel,
        mark := m.offsetRezero || m.zeroesArms,
        permitted := if cur.code < sel.code ∧ m.tag.state.prunes then p.prune a b else p }
  | _, _ => { source := sel, switched := false, offset := m.offset, mark := m.offsetRezero, permitted := p }

/-- The states whose samples add to the test time (R9). -/
def MotionState.timed : MotionState → Bool
  | .running => true
  | .paused => true
  | .stopped => true
  | _ => false

/-- The test time of a sample (R9). -/
def Mc.timeAfter (m : Mc) (g : GoodFrame) : Nat :=
  if m.tag.state.timed then stopAt Config.counterTop (m.testTime + g.gap * g.frame.period.us) else m.testTime

/-- The sample number of the next sample (R9). -/
def Mc.nextNumber (m : Mc) (g : GoodFrame) : Nat :=
  match m.last with
  | none => 0
  | some x => stopAt Config.counterTop (x.sample.number + g.advance)

/-- The Conditioned Sample of a good frame (R9), with the raw strains kept with it and the overload condition of R12. -/
def Mc.condition (m : Mc) (g : GoodFrame) : LastSample × Forming × Selection :=
  let f := g.frame
  let x := m.applyZeros f (m.form f)
  let raw := m.strains x
  let c := m.choose f raw
  let sample : Sample :=
    { number := m.nextNumber g, seq := f.seq, gap := g.gap, period := f.period, testTime := m.timeAfter g,
      force := x.force, range := f.range, uncal := x.uncal, held := x.held, overrange := f.overrange,
      dLA := x.dLA, validA := m.validA f, dLB := x.dLB, validB := m.validB f, position := x.position,
      relPosition := sat32 (x.position - x.zero.pZero), strain := sat32 (raw.get c.source + c.offset),
      source := c.source, sourceChanged := c.switched, contactA := f.contactA, contactB := f.contactB,
      armingMark := m.armingZeros }
  ({ sample := sample, raw := raw, overload := overloaded m.cal f.overrange x.force }, x, c)

/-- R10: whether a HELD sample raises RANGE_INVALID. -/
def Mc.raisesRangeInvalid (m : Mc) (x : LastSample) : Bool :=
  x.sample.held && (m.tag.state.active || !(m.last.any fun l => l.sample.held))

/-- R12: whether a sample raises OVERLOAD. -/
def Mc.raisesOverload (m : Mc) (x : LastSample) : Bool :=
  x.overload && (m.tag.state.active || !(m.last.any fun l => l.overload))

/-- The answers to every zero request applied or cancelled, in the order of R20. -/
def Mc.zeroReplies (m : Mc) (st : Status) : List Reply :=
  m.pendTare.map (fun t => answer .tare t st .none) ++ m.pendZeroExt.map (fun t => answer .zeroExt t st .none) ++
    m.pendZeroPosition.map (fun t => answer .zeroPosition t st .none)

/-- MC's answers, in order. -/
def Paths.sendMcReplies (p : Paths) (l : List Reply) : Paths :=
  l.foldl (fun q r => q.sendReply .mc r) p

/-- MC converts a good frame (R9). -/
def McDesk.convert (d : McDesk) (g : GoodFrame) : McDesk :=
  let m := d.mc
  let r := m.condition g
  let last := r.1
  let x := r.2.1
  let c := r.2.2
  let p1 := d.paths.sendMcReplies (m.zeroReplies .done)
  let p2 :=
    if m.raisesRangeInvalid last then p1.raiseFault .mc .rangeInvalid (.rangeInvalid g.frame.range) else p1
  let p3 :=
    if m.raisesOverload last then
      p2.raiseFault .mc .overload (.overload last.sample.force g.frame.range)
    else p2
  { mc := { m with
      zero := x.zero, source := some c.source, permitted := c.permitted, offset := c.offset, offsetRezero := c.mark,
      lastFCal := x.fCal, testTime := m.timeAfter g, pendTare := [], pendZeroExt := [], pendZeroPosition := [],
      armingZeros := none, dropArms := [], last := some last }
    paths := p3.deliver last.sample }

/-- CONDITIONED_SAMPLE_CONVERSION (R9). -/
def execConditionedSampleConversion (s : State) : Host.Outcome State Fault Refusal :=
  .next (s.onMc fun d =>
    match d.paths.inletToMc with
    | [] => d
    | g :: rest => McDesk.convert { d with paths := { d.paths with inletToMc := rest } } g)

/-! ## Tags, drop-arm requests, notices -/

/-- MC without pending zero requests. -/
def Mc.cancelZeros (m : Mc) : Mc := { m with pendTare := [], pendZeroExt := [], pendZeroPosition := [] }

/-- The test-time accumulator on taking a tag (R9). -/
def Mc.timeOnTag (m : Mc) (t : MotionTag) : Nat :=
  match t with
  | .idle _ => 0
  | .running => if m.tag = .armed then 0 else m.testTime
  | _ => m.testTime

/-- The pending arming zeros after a tag: set by ARMING, with its arming count, and cleared by any other (R22, R53). -/
def armingZerosOn : MotionTag → Option Nat
  | .arming n => some n
  | _ => none

/-- MC takes a motion state tag (R9, R21 to R23). -/
def McDesk.takeTag (d : McDesk) (t : MotionTag) : McDesk :=
  let m := d.mc
  let keeps := t.state = .idle ∨ t.state = .armed
  let m1 : Mc := { m with testTime := m.timeOnTag t, armingZeros := armingZerosOn t, tag := t }
  let m2 : Mc := if t = .idle true then { m1 with permitted := restored m.fitted, offsetRezero := false } else m1
  if keeps then { d with mc := m2 }
  else { mc := m2.cancelZeros, paths := d.paths.sendMcReplies (m.zeroReplies .cancelled) }

/-- MC_STATE_TAG (R22). -/
def execMcStateTag (s : State) : Host.Outcome State Fault Refusal :=
  .next (s.onMc fun d =>
    match d.paths.msToMc with
    | .tag t :: rest => McDesk.takeTag { d with paths := { d.paths with msToMc := rest } } t
    | _ => d)

/-- DROP_ARM_REQUEST: held until the next conversion (R18). -/
def execDropArmRequest (s : State) : Host.Outcome State Fault Refusal :=
  .next (s.onMc fun d =>
    match d.paths.dropArms with
    | [] => d
    | x :: rest =>
      { mc := { d.mc with dropArms := d.mc.dropArms ++ [x] }, paths := { d.paths with dropArms := rest } })

/-- PROGRAM_NOTICE_AT_MC (R42). -/
def execProgramNoticeAtMc (s : State) : Host.Outcome State Fault Refusal :=
  .next (s.onMc fun d =>
    match d.paths.msToMc with
    | .notice g p :: rest =>
      { mc := { d.mc with program := p, generation := g }, paths := { d.paths with msToMc := rest } }
    | _ => d)

/-! ## Zero requests (R19) -/

/-- The tags under which MC accepts a zero request (R19). -/
def Mc.takesZero (m : Mc) : Bool := m.tag.state = .idle || m.tag.state = .armed

/-- A zero request: pending, merged with one of its kind, or answered WRONG_STATE (R19). -/
def McDesk.takeZero (d : McDesk) (k : RequestKind) (tag : Tag) (pend : Mc → Mc) : McDesk :=
  if d.mc.takesZero then { d with mc := pend d.mc }
  else { d with paths := d.paths.sendReply .mc (answer k tag .wrongState .none) }

def reqTare (tag : Tag) (s : State) : State :=
  s.request .tare tag fun s => s.onMc fun d => d.takeZero .tare tag fun m => { m with pendTare := m.pendTare ++ [tag] }

/-- TARE (R19). -/
def execTare (tag : Tag) (s : State) : Host.Outcome State Fault Refusal := .next (reqTare tag s)

def reqZeroExt (tag : Tag) (s : State) : State :=
  s.request .zeroExt tag fun s => s.onMc fun d =>
    d.takeZero .zeroExt tag fun m => { m with pendZeroExt := m.pendZeroExt ++ [tag] }

/-- ZERO_EXT (R19). -/
def execZeroExt (tag : Tag) (s : State) : Host.Outcome State Fault Refusal := .next (reqZeroExt tag s)

def reqZeroPosition (tag : Tag) (s : State) : State :=
  s.request .zeroPosition tag fun s => s.onMc fun d =>
    d.takeZero .zeroPosition tag fun m => { m with pendZeroPosition := m.pendZeroPosition ++ [tag] }

/-- ZERO_POSITION (R19). -/
def execZeroPosition (tag : Tag) (s : State) : Host.Outcome State Fault Refusal := .next (reqZeroPosition tag s)

end Sys2Proof.Machine
end

