-- ==== Sys2Proof/Machine/Setpoint.lean ====
section
/-! DEFINITION. Setpoint arithmetic (sections 5.1 and 5.2): increments, step bound, travel bound, ramp targets and the rates
of a segment. All demands and targets are Q32.32. -/

namespace Sys2Proof.Machine

/-- v_max of the calibration summary, 0 without a Frame Table (R82). -/
def Ms.vMax (m : Ms) : Int := (m.summary.frame.map FrameTable.vMax).getD 0

/-- Lp of the program held. -/
def Ms.lp (m : Ms) : Int := (m.program.map Program.lp).getD Config.defaultLength

/-- max_q (R82). -/
def maxStep (vMax : Int) (p : Period) : Int := roundDiv (vMax * q32) (6 * p.rate)

/-- The increment of a rate in µm/min over g frame periods (R83). -/
def rateStep (v : Int) (p : Period) (g : Nat) : Int := g * roundDiv (v * q32) (6 * p.rate)

/-- A ramp target whose integer part saturates; the fraction is kept (R81, log entry 9). -/
def satTarget (v : Int) : Int := satForce (qFloor v) * q32 + v % q32

/-- A ramp target advanced at a rate per second over g frame periods (R84, R85). -/
def advanceTarget (t r : Int) (p : Period) (g : Nat) : Int :=
  satTarget (t + g * roundDiv (r * q32) p.rate)

/-- The feed-forward of STRAIN mode (R84). -/
def feedForward (r lp : Int) (p : Period) (g : Nat) : Int :=
  g * roundDiv (r * lp * q32) (1000000 * p.rate)

/-- The correction e × K × 65,536 (R84, R85). -/
def correction (target value gain : Int) : Int := (qFloor target - value) * gain * 65536

/-- Step 2 of R81: the increment within the step bound. -/
def boundStep (vMax : Int) (p : Period) (g : Nat) (delta : Int) : Int :=
  saturate (-(g * maxStep vMax p)) (g * maxStep vMax p) delta

/-- The travel bound that a position or demand in Q32.32 passes, if any (R87). -/
def travelBound (t : FrameTable) (v : Int) : Option Int :=
  if v < t.travelMin * q32 then some t.travelMin
  else if t.travelMax * q32 < v then some t.travelMax
  else none

/-- Step 4 of R81: the demand within travel, and the bound reached, if any (R87). -/
def applyTravel (frame : Option FrameTable) (v : Int) : Int × Option Int :=
  match frame with
  | none => (v, none)
  | some t =>
    match travelBound t v with
    | some b => (b * q32, some b)
    | none => (v, none)

/-- A magnitude clamped with its sign kept (R88). -/
def clampMagnitude (top v : Int) : Int := if 0 ≤ v then min v top else -(min (-v) top)

/-- The rate in use of a segment, with the limit that can clamp it (R88). -/
def segmentRate (g : Segment) (vMax lp : Int) : Int × RateLimit :=
  match g.mode with
  | .position => (clampMagnitude vMax g.rate, .vMax)
  | .strain => (min g.rate (strainRateMax vMax lp), .rMax)
  | .force => (g.rate, .vMax)
  | .hold => (0, .vMax)

/-- The equivalent rate of R89. -/
def equivalentRate (r lp : Int) : Int := roundDiv (r * lp * 6) 1000000

/-- The increment of the mode in effect for a sample, with the ramp targets advanced (R83 to R86). A continuation that
is set holds for a sample with an arm source as well (R60, R64, R89; DEDUCED, log entry 56). -/
def Ms.increment (m : Ms) (g : Segment) (x : Sample) : Int × Int × Int :=
  match m.continuation with
  | some _ => (rateStep (m.continuationRate.getD 0) x.period x.gap, m.eTarget, m.fTarget)
  | none =>
    match g.mode with
    | .position => (rateStep m.rateInUse x.period x.gap, m.eTarget, m.fTarget)
    | .strain =>
      let t := advanceTarget m.eTarget m.rateInUse x.period x.gap
      (feedForward m.rateInUse m.lp x.period x.gap + correction t x.strain m.gainInUse, t, m.fTarget)
    | .force =>
      let t := advanceTarget m.fTarget m.rateInUse x.period x.gap
      (correction t x.force m.gainInUse, m.eTarget, t)
    | .hold => (0, m.eTarget, m.fTarget)

/-- Steps 2 to 4 of R81: the new demand and the travel bound reached, if any. -/
def Ms.advance (m : Ms) (x : Sample) (delta : Int) : Int × Option Int :=
  applyTravel m.summary.frame (m.demand + boundStep m.vMax x.period x.gap delta)

end Sys2Proof.Machine
end

