-- ==== Sys2Proof/Machine/DrivePort.lean ====
section
/-! DEFINITION. The Drive Port (section 5.4): Drive Frames and the send history (R90, R92), Drive Status Frames (R93 to R95).
The checks on the bytes of a status stand with the link receivers in Links.lean. -/

namespace Sys2Proof.Machine

/-- The motion states in which a Drive Frame carries the enable asserted (R90). -/
def MotionState.enables : MotionState → Bool
  | .jogging => true
  | .armed => true
  | .running => true
  | .paused => true
  | .stopped => true
  | .idle => false
  | .arming => false
  | .faulted => false

/-- The send history with one more frame (R92). -/
def pushHistory (h : List (Seq × Bool)) (seq : Seq) (enable : Bool) : List (Seq × Bool) :=
  (if h.length < Config.unansweredLimit then h else h.drop 1) ++ [(seq, enable)]

/-- The unanswered count after a frame (R92). -/
def countAfter (n : Nat) (enable : Bool) : Nat := if enable then min Config.unansweredLimit (n + 1) else n

/-- Whether a frame brings the count from 7 to 8 (R92). -/
def fallsSilent (n : Nat) (enable : Bool) : Bool := enable && decide (n + 1 = Config.unansweredLimit)

/-- The demand field of a Drive Frame: round(D), saturated (R90). -/
def Ms.demandField (m : Ms) : Int := sat32 (qRound m.demand)

/-- MS sends the Drive Frame of a sample in the state it then holds, with its status notice (R90, R92, R169). -/
def MsDesk.sendFrame (d : MsDesk) (x : Sample) : MsDesk :=
  let e := d.ms.state.enables
  let n := countAfter d.drive.unanswered e
  let p :=
    if fallsSilent d.drive.unanswered e then d.paths.raiseFault .drive .driveSilent (.driveSilent n x.seq) else d.paths
  MsDesk.noticeAlways
    { d with
      drive := { d.drive with
        history := pushHistory d.drive.history x.seq e
        unanswered := n
        sentDemand := d.ms.demandField
        sentEnable := e }
      paths := p
      line := d.line ++ [driveFrame x.seq d.ms.demandField e] }

/-- The most recent frame of the history with an echoed sequence, as its enable (R93). -/
def answeredEnable (h : List (Seq × Bool)) (echo : Seq) : Option Bool :=
  (h.reverse.find? fun e => e.1 = echo).map (·.2)

/-- Whether an indication raises its event (R94, R95): always in an active state, else when its mark is clear. -/
def raises (s : MotionState) (mark : Bool) : Bool := s.active || !mark

/-- `p` with a fault of the Drive Port, if `b`. -/
def Paths.raiseIf (p : Paths) (b : Bool) (k : FaultKind) (e : Event) : Paths :=
  if b then p.raiseFault .drive k e else p

/-- The Drive Port takes a Drive Status that passed its check (R93 to R95). -/
def MsDesk.takeStatus (d : MsDesk) (st : DriveStatus) : MsDesk :=
  let p := d.drive
  let answered := answeredEnable p.history st.echo
  let state := d.ms.state
  let notReady := !st.ready && answered.getD false
  let paths :=
    ((d.paths.raiseIf (st.fault && raises state p.faultMark) .driveFault (.driveFault st.code st.echo)).raiseIf
      (st.endSwitch && raises state p.endMark) .endSwitch (.endSwitch st.echo)).raiseIf
        (notReady && raises state p.notReadyMark) .driveNotReady (.driveNotReady st.echo)
  { d with
    drive := { p with
      unanswered := if answered.isSome then 0 else p.unanswered
      status := some st
      faultMark := st.fault
      endMark := st.endSwitch
      notReadyMark := !st.ready && (p.notReadyMark || notReady) }
    paths := paths }

/-- A Drive Status that passed its check, taken by the Drive Port. -/
def takeDriveStatus (st : DriveStatus) (s : State) : State := s.onMs fun d => d.takeStatus st

/-- The refusal of ARM and JOG by the last Drive Status: fault, end switch, not ready in that order (R51, R77). -/
def driveRefusal : Option DriveStatus → Option Reason
  | none => some .driveNotReady
  | some st =>
    if st.fault then some .driveFault
    else if st.endSwitch then some .endSwitch
    else if st.ready then none
    else some .driveNotReady

end Sys2Proof.Machine
end

