-- ==== Sys2Proof/Machine/Sequencer.lean ====
section
/-! DEFINITION. The Motion Sequencer: changes of state (R58), segments (R59 to R64), ARM and ARMING (R50 to R56), the motion
requests (R65 to R70), removal, break and faults (R71 to R76), and jogging (R77 to R79). -/

namespace Sys2Proof.Machine

/-! ## Events and changes of state -/

/-- MS raises an event to CP. -/
def MsDesk.event (d : MsDesk) (e : Event) : MsDesk := { d with paths := d.paths.sendEvent .ms e }

/-- The cursor marked ended. -/
def Cursor.ended (c : Cursor) : Cursor := { c with phase := .ended }

/-- The cursor with a running segment marked ended. -/
def Cursor.stopRunning (c : Cursor) : Cursor := if c.phase = .running then c.ended else c

/-- What MS does to its own state on entering the state a tag names (R58, R68, R80). -/
def Ms.enter (m : Ms) (t : MotionTag) (c : Cause) : Ms :=
  match t with
  | .idle byResetTest =>
    let m1 : Ms := { m with state := .idle, cause := c, pauses := .empty, pendingTransition := none,
                            continuation := none, continuationRate := none }
    if byResetTest then
      { m1 with cursor := none, fallbackUsed := false, segmentTime := 0, jogRate := 0, jogEnabling := false }
    else m1
  | .stopped _ =>
    { m with state := .stopped, cause := c, pauses := .empty, pendingTransition := none,
             cursor := m.cursor.map Cursor.ended }
  | .faulted _ =>
    { m with state := .faulted, cause := c, pauses := .empty, pendingTransition := none,
             cursor := m.cursor.map Cursor.stopRunning, jogRate := 0 }
  | .jogging => { m with state := .jogging, cause := c }
  | .arming _ => { m with state := .arming, cause := c }
  | .armed => { m with state := .armed, cause := c }
  | .running => { m with state := .running, cause := c }
  | .paused => { m with state := .paused, cause := c }

/-- What an entry does to the Drive Port: IDLE sets the unanswered count to 0 and clears the reported marks (R92, R94). -/
def DrivePort.enter (p : DrivePort) (t : MotionTag) : DrivePort :=
  match t with
  | .idle _ => { p with unanswered := 0, faultMark := false, endMark := false, notReadyMark := false }
  | _ => p

/-- The tags whose entry raises TEST_END (R58). -/
def MotionTag.endsTest : MotionTag → Bool
  | .stopped _ => true
  | .faulted _ => true
  | _ => false

/-- A change of motion state: the cause, the actions of R58, the tag, and TEST_END. -/
def MsDesk.enter (d : MsDesk) (t : MotionTag) (c : Cause) : MsDesk :=
  let m := d.ms.enter t c
  let d1 : MsDesk := { d with ms := m, drive := d.drive.enter t, paths := d.paths.sendTag t }
  if t.endsTest then
    d1.event (.testEnd m.state c (m.cursor.map Cursor.index) (m.last.map fun x => x.number))
  else d1

def MsDesk.enterStopped (d : MsDesk) (c : Cause) : MsDesk := d.enter (.stopped c) c
def MsDesk.enterFaulted (d : MsDesk) (c : Cause) : MsDesk := d.enter (.faulted c) c

/-! ## Segments (R59 to R64) -/

/-- The segment of an index in the program held. -/
def Ms.segmentAt (m : Ms) (i : Nat) : Option Segment := m.program.bind fun p => p.segments[i]?

/-- The segment under the cursor, with its index, while it runs. -/
def Ms.running (m : Ms) : Option (Nat × Segment) :=
  match m.cursor with
  | some c => if c.phase = .running then (m.segmentAt c.index).map fun g => (c.index, g) else none
  | none => none

/-- The Segment Log entry of a segment that ends on a sample (R63). -/
def Ms.entry (m : Ms) (i : Nat) (cause : EndCause) (x : Sample) : LogEntry :=
  { index := i, cause := cause, number := x.number, force := x.force, strain := x.strain, position := x.relPosition,
    time := m.segmentTime, fallbackUsed := m.fallbackUsed }

/-- The current segment ends, using MS's last Conditioned Sample: the entry goes to TE and SEGMENT_END to CP (R63). -/
def MsDesk.endSegment (d : MsDesk) (cause : EndCause) : MsDesk :=
  match d.ms.cursor, d.ms.last with
  | some c, some x =>
    if c.phase = .running then
      let e := d.ms.entry c.index cause x
      { d with
        ms := { d.ms with cursor := some c.ended }
        paths := { d.paths.sendEvent .ms (.segmentEnd e) with msToTe := d.paths.msToTe ++ [.entry e] } }
    else d
  | _, _ => d

/-- Ramp targets, rate and gain in use of a starting segment (R88). R88 gives the gain in use for STRAIN and FORCE alone; at the
start of a POSITION or HOLD segment, which use none, it stays as it was (DESIGN CHOICE, log entry 44). A STRAIN segment
that starts on E = −2,147,483,648 has E_t = E × 2³² as R88 gives it, below the bound at which R81 saturates an advanced
target (DEDUCED, log entry 45). -/
def Ms.startRates (m : Ms) (g : Segment) (x : Sample) : Ms :=
  let rate := (segmentRate g m.vMax m.lp).1
  match g.mode with
  | .position => { m with rateInUse := rate }
  | .strain =>
    { m with rateInUse := rate, eTarget := x.strain * q32,
             gainInUse := g.gain.getD ((m.program.map Program.kStrain).getD 0) }
  | .force =>
    { m with rateInUse := rate, fTarget := x.force * q32,
             gainInUse := g.gain.getD ((m.program.map Program.kForce).getD 0) }
  | .hold => { m with rateInUse := rate }

/-- A segment starts from MS's last Conditioned Sample (R59, R88). -/
def MsDesk.startSegment (d : MsDesk) (i : Nat) : MsDesk :=
  match d.ms.segmentAt i, d.ms.last with
  | some g, some x =>
    let m1 : Ms := { d.ms with cursor := some { index := i, phase := .running }, continuation := none,
                               continuationRate := none, fallbackUsed := false, segmentTime := 0 }
    let m2 := m1.startRates g x
    let d1 : MsDesk := { d with ms := m2 }
    if m2.rateInUse = g.rate then d1
    else d1.event (.rateClamped i g.rate m2.rateInUse (segmentRate g m1.vMax m1.lp).2 none)
  | _, _ => d

/-- The current segment's criterion is met: it ends, and the next segment starts or MS enters STOPPED (R63). -/
def MsDesk.criterionMet (d : MsDesk) : MsDesk :=
  match d.ms.running with
  | none => d
  | some (i, g) =>
    let d1 := d.endSegment (if d.ms.continuation = none then .criterion else .fallbackEnd)
    if g.action = .next ∧ (d.ms.segmentAt (i + 1)).isSome then d1.startSegment (i + 1)
    else d1.enterStopped .programEnd

/-- R61: the comparison of a criterion by its sense. -/
def reached (sense : EndSense) (value limit : Int) : Bool :=
  match sense with
  | .atOrAbove => decide (limit ≤ value)
  | .atOrBelow => decide (value ≤ limit)

/-- Whether a segment's criterion is met at stage 2 of R60 (R61, and the occurrence marks of R62). -/
def Ms.criterionMetBy (m : Ms) (g : Segment) (x : Sample) : Bool :=
  match g.endKind with
  | .strainReached => reached g.sense x.strain g.endValue
  | .forceReached => reached g.sense x.force g.endValue
  | .positionReached => reached g.sense x.relPosition g.endValue
  | .timeElapsed => decide (g.endValue * 1000 ≤ (m.segmentTime : Int))
  | .extReleased => m.releasedMark
  | .yieldDone => m.yieldMark
  | .proofDone => m.proofMark
  | .none => false

/-- The event-kind criteria (R62). -/
inductive CriterionEvent where
  | yieldDone | proof | released
  deriving DecidableEq, Repr

/-- The end kind that an event meets (R62). -/
def CriterionEvent.kind : CriterionEvent → EndKind
  | .yieldDone => .yieldDone
  | .proof => .proofDone
  | .released => .extReleased

/-- The occurrence mark of an event, set (R62). -/
def Ms.mark (m : Ms) : CriterionEvent → Ms
  | .yieldDone => { m with yieldMark := true }
  | .proof => { m with proofMark := true }
  | .released => { m with releasedMark := true }

/-- MS takes a criterion event (R62). -/
def MsDesk.criterionEvent (d : MsDesk) (e : CriterionEvent) : MsDesk :=
  if d.ms.state = .running ∨ d.ms.state = .paused then
    let d1 : MsDesk := { d with ms := d.ms.mark e }
    match d1.ms.running with
    | some (i, g) =>
      if g.endKind = e.kind then
        if d1.ms.state = .running then d1.criterionMet
        else if d1.ms.pendingTransition = none then { d1 with ms := { d1.ms with pendingTransition := some i } }
        else d1
      else d1
    | none => d1
  else d

/-- A pending transition is applied on the return to RUNNING (R62). -/
def MsDesk.applyPending (d : MsDesk) : MsDesk :=
  match d.ms.pendingTransition with
  | none => d
  | some _ => MsDesk.criterionMet { d with ms := { d.ms with pendingTransition := none } }

/-- MS enters RUNNING when no pause cause is left, and applies a pending transition (R70, R72). -/
def MsDesk.resumeIfFree (d : MsDesk) : MsDesk :=
  if d.ms.state = .paused ∧ d.ms.pauses = .empty then (d.enter .running .none).applyPending else d

/-- MS enters PAUSED from RUNNING; in PAUSED the state stays (R58, R69, R71). -/
def MsDesk.pauseIfRunning (d : MsDesk) : MsDesk :=
  if d.ms.state = .running then d.enter .paused .none else d

/-- R64: a sample of source CROSSHEAD in a STRAIN segment. -/
def MsDesk.crossheadSample (d : MsDesk) (i : Nat) (g : Segment) (x : Sample) : MsDesk :=
  match g.fallback with
  | some v =>
    let rate := min v d.ms.vMax
    let d1 : MsDesk := { d with ms := { d.ms with
      continuation := some .fallback, continuationRate := some rate, fallbackUsed := true } }
    let d2 := if rate = v then d1 else d1.event (.rateClamped i v rate .vMax (some .fallback))
    d2.event (.segmentFallback i x.number .fallback rate false)
  | none =>
    let rate := equivalentRate d.ms.rateInUse d.ms.lp
    let d1 : MsDesk := { d with ms := { d.ms with
      continuation := some .equivalent, continuationRate := some rate,
      pauses := { d.ms.pauses with extFailed := true } } }
    d1.pauseIfRunning.event (.segmentFallback i x.number .equivalent rate true)

/-! ## Travel (R75, R87, R91) -/

/-- TRAVEL_LIMIT, reported to CP and CR (R87). -/
def MsDesk.reportTravel (d : MsDesk) (bound : Int) (x : Sample) (state : MotionState) : MsDesk :=
  { d with paths := (d.paths.sendEvent .ms (.travelLimit bound x.number state)).sendTrigger .ms .travelLimit }

/-- A new demand; at a travel bound TRAVEL_LIMIT is reported and MS acts under R75. -/
def MsDesk.setDemand (d : MsDesk) (x : Sample) (r : Int × Option Int) : MsDesk :=
  let d1 : MsDesk := { d with ms := { d.ms with demand := r.1 } }
  match r.2 with
  | none => d1
  | some b =>
    let d2 := d1.reportTravel b x d1.ms.state
    if d1.ms.state = .running then (d2.endSegment .travelLimit).enterStopped .travelLimit
    else d2.enter (.idle false) .travelLimit

/-- The travel bound that an enabling sample lies outside, if any (R91). -/
def Ms.outside (m : Ms) (x : Sample) : Option Int :=
  m.summary.frame.bind fun t => travelBound t (x.position * q32)

/-! ## Samples in each state (R53, R60, R78) -/

/-- Stage 4 of R60: the demand in the mode in effect. -/
def MsDesk.formDemand (d : MsDesk) (g : Segment) (x : Sample) : MsDesk :=
  let inc := d.ms.increment g x
  MsDesk.setDemand { d with ms := { d.ms with eTarget := inc.2.1, fTarget := inc.2.2 } } x (d.ms.advance x inc.1)

/-- Stage 1 of R60. -/
def Ms.addTime (m : Ms) (x : Sample) : Ms :=
  { m with segmentTime := stopAt Config.counterTop (m.segmentTime + x.gap * x.period.us) }

/-- Stage 2 of R60. -/
def MsDesk.testCriterion (d : MsDesk) (x : Sample) : MsDesk :=
  match d.ms.running with
  | some (_, g) => if d.ms.criterionMetBy g x then d.criterionMet else d
  | none => d

/-- Stage 3 of R60. -/
def MsDesk.checkSource (d : MsDesk) (x : Sample) : MsDesk :=
  match d.ms.running with
  | some (i, g) =>
    if d.ms.state = .running ∧ g.mode = .strain ∧ d.ms.continuation = none ∧ x.source = .crosshead then
      d.crossheadSample i g x
    else d
  | none => d

/-- Stage 4 of R60, taken only while MS is RUNNING. -/
def MsDesk.moveDemand (d : MsDesk) (x : Sample) : MsDesk :=
  match d.ms.running with
  | some (_, g) => if d.ms.state = .running then d.formDemand g x else d
  | none => d

/-- Stages 1 to 4 of R60. -/
def MsDesk.runSample (d : MsDesk) (x : Sample) : MsDesk :=
  ((MsDesk.testCriterion { d with ms := d.ms.addTime x } x).checkSource x).moveDemand x

/-- R78: a sample in JOGGING. -/
def MsDesk.jogSample (d : MsDesk) (x : Sample) : MsDesk :=
  if d.ms.summary.frame.any fun t => decide (t.jogForceLimit < (x.force.natAbs : Int)) then
    (d.enter (.idle false) .jogForceStop).event (.jogForceStop x.force x.number)
  else if d.ms.jogEnabling then
    let d1 : MsDesk := { d with ms := { d.ms with demand := x.position * q32, jogEnabling := false } }
    match d1.ms.outside x with
    | none => d1
    | some b =>
      let d2 := d1.enter (.idle false) .travelLimit
      d2.reportTravel b x d2.ms.state
  else d.setDemand x (d.ms.advance x (rateStep d.ms.jogRate x.period x.gap))

/-- MS answers the pending ARM, if one is pending. -/
def MsDesk.answerArm (d : MsDesk) (st : Status) (p : Payload) : MsDesk :=
  match d.ms.armReply with
  | none => d
  | some tag => MsDesk.reply { d with ms := { d.ms with armReply := none } } (answer .arm tag st p)

/-- The permitted set that the ARM reply carries (R53). -/
def Ms.restoredSet (m : Ms) : List Source := (restored (m.program.map Program.fitted)).toList

/-- ARMING completes on the marked sample (R53, R91). -/
def MsDesk.completeArming (d : MsDesk) (x : Sample) : MsDesk :=
  let d1 := MsDesk.enter { d with ms := { d.ms with demand := x.position * q32 } } .armed .none
  let d2 := d1.answerArm .done (.armed x.number x.position x.source d1.ms.restoredSet)
  match d2.ms.outside x with
  | none => d2
  | some b =>
    let d3 := d2.enterFaulted .travelLimit
    d3.reportTravel b x d3.ms.state

/-- A sample taken in ARMING: only the mark of the current arming count completes it (R53). -/
def MsDesk.armingSample (d : MsDesk) (x : Sample) : MsDesk :=
  if x.armingMark = some d.ms.armingCount then d.completeArming x else d

/-- MS takes a Conditioned Sample: it acts by its state, then sends the Drive Frame (R53, R60, R78, R90). -/
def MsDesk.takeSample (d : MsDesk) (x : Sample) : MsDesk :=
  let d1 : MsDesk := { d with ms := { d.ms with last := some x } }
  let d2 :=
    match d1.ms.state with
    | .running => d1.runSample x
    | .jogging => d1.jogSample x
    | .arming => d1.armingSample x
    | .idle => d1
    | .armed => d1
    | .paused => d1
    | .stopped => d1
    | .faulted => d1
  d2.sendFrame x

/-- CONDITIONED_SAMPLE_AT_MS (R60). Its Drive Frame brings the status notice, so no second one is sent (R169). -/
def execConditionedSampleAtMs (s : State) : Host.Outcome State Fault Refusal :=
  match s.paths.samplesMs with
  | [] => .next s
  | x :: rest =>
    .next (s.putMs (MsDesk.takeSample { s.msDesk with paths := { s.paths with samplesMs := rest } } x))

/-! ## ARM (R50 to R52) -/

/-- Whether a STRAIN segment has no fallback rate, by its index (R51). -/
def firstBareStrain (i : Nat) : List Segment → Option Nat
  | [] => none
  | g :: gs => if g.mode = .strain ∧ g.fallback = none then some i else firstBareStrain (i + 1) gs

/-- Whether an Arm Table that the fitted set needs is absent (R51). -/
def armTableMissing (c : CalSummary) : Fitted → Bool
  | .none => false
  | .both => !c.armA || !c.armB
  | .armA => !c.armA
  | .armB => !c.armB

/-- Whether the extensometer counts as seated (R50). -/
def Ms.seated (m : Ms) : Bool := m.extTag.name = .seated && m.extTag.generation = m.generation

/-- Whether the position of MS's last sample lies outside travel (R51, R77). -/
def outsideTravel (t : FrameTable) (x : Sample) : Bool :=
  decide (x.position < t.travelMin) || decide (t.travelMax < x.position)

/-- The last sample's refusal of ARM and JOG: none taken, or outside travel (R51, R77). -/
def Ms.positionRefusal (m : Ms) : Option Reason :=
  match m.last, m.summary.frame with
  | none, _ => some .noSample
  | some x, some t => if outsideTravel t x then some .outsideTravel else none
  | some _, none => none

/-- The checks of R51 in order; `none` when every check passes. -/
def MsDesk.armRefusal (d : MsDesk) : Option (Status × Reason × Payload) :=
  let m := d.ms
  if m.state = .arming then some (.wrongState, .armInProgress, .none)
  else if m.state ≠ .idle then some (.wrongState, .notIdle, .none)
  else if 0 < m.loadCount then some (.wrongState, .loadInProgress, .none)
  else
    match m.program with
    | none => some (.badTable, .noProgram, .none)
    | some p =>
      if m.summary.frame.isNone ∨ m.summary.crosshead = false ∨ m.summary.complete = false then
        some (.badTable, .incompleteCalibration, .none)
      else if armTableMissing m.summary p.fitted then some (.badTable, .armTableMissing, .none)
      else
        match (if p.fitted = .none then firstBareStrain 0 p.segments else none) with
        | some i => some (.badTable, .strainWithoutExtensometer, .entryIndex i)
        | none =>
          match driveRefusal d.drive.status with
          | some r => some (.wrongState, r, .none)
          | none =>
            match m.positionRefusal with
            | some r => some (.wrongState, r, .none)
            | none =>
              if p.fitted ≠ .none ∧ m.seated = false then some (.wrongState, .extensometerNotSeated, .none) else none

/-- The arm copy for ES (R52). -/
def Program.esCopy (p : Program) : EsArmCopy :=
  { fitted := p.fitted, criterion := p.criterion, removalStrain := p.removalStrain, removalTimeout := p.removalTimeout,
    slip := p.slip }

/-- The arm copy for TE (R52). -/
def Program.teCopy (p : Program) (fMax : Int) : TeArmCopy := { s0 := p.s0, label := p.label, fMax := fMax }

/-- F_max of the calibration summary MS holds. -/
def Ms.fMax (m : Ms) : Int := (m.summary.frame.map FrameTable.fMax).getD 0

/-- ARM is accepted: MS enters ARMING, sends the tag, then the arm copies (R52, R53). -/
def MsDesk.acceptArm (d : MsDesk) (tag : Tag) (p : Program) : MsDesk :=
  let n := d.ms.armingCount + 1
  let d1 : MsDesk :=
    { d with ms := { d.ms with armingCount := n, armReply := some tag, cursor := some { index := 0, phase := .notStarted },
                               pauses := .empty, pendingTransition := none } }
  let d2 := d1.enter (.arming n) .none
  { d2 with paths := { d2.paths with
      msToEs := d2.paths.msToEs ++ [.armCopy p.esCopy]
      msToTe := d2.paths.msToTe ++ [.armCopy (p.teCopy d2.ms.fMax)] } }

/-- MS takes ARM (R51, R52). -/
def MsDesk.takeArm (d : MsDesk) (tag : Tag) : MsDesk :=
  match d.armRefusal, d.ms.program with
  | some (st, r, pl), _ => d.reply (refuse .arm tag st r pl)
  | none, some p => d.acceptArm tag p
  | none, none => d

def reqArm (tag : Tag) (s : State) : State := s.request .arm tag fun s => s.onMs fun d => d.takeArm tag

/-- ARM (R51). -/
def execArm (tag : Tag) (s : State) : Host.Outcome State Fault Refusal := .next (reqArm tag s)

/-! ## START, STOP, ABORT, RESET_TEST (R65 to R68) -/

/-- WRONG_STATE with the motion state, as R65, R66 and R68 give it. -/
def MsDesk.wrongState (d : MsDesk) (k : RequestKind) (tag : Tag) : MsDesk :=
  d.reply (answer k tag .wrongState (.motionState d.ms.state))

/-- START's DONE carries the number of the sample that segment 0 starts from (R65). In ARMED MS holds one, by the invariant
of a test; without one no segment starts, and the payload is empty. -/
def Ms.startPayload (m : Ms) : Payload :=
  match m.last with
  | some x => .startedFrom x.number
  | none => .none

/-- MS takes START (R65). -/
def MsDesk.takeStart (d : MsDesk) (tag : Tag) : MsDesk :=
  match d.ms.state with
  | .armed =>
    let d1 : MsDesk := { d with ms := { d.ms with
      yieldMark := false, proofMark := false, releasedMark := false, pendingTransition := none, pauses := .empty } }
    ((d1.enter .running .none).startSegment 0).reply
      (answer .start tag .done d.ms.startPayload)
  | .arming => d.reply (refuse .start tag .wrongState .armInProgress (.motionState .arming))
  | _ => d.wrongState .start tag

def reqStart (tag : Tag) (s : State) : State := s.request .start tag fun s => s.onMs fun d => d.takeStart tag

/-- START (R65). -/
def execStart (tag : Tag) (s : State) : Host.Outcome State Fault Refusal := .next (reqStart tag s)

/-- RUNNING or PAUSED: a test is in progress. -/
def Ms.testing (m : Ms) : Bool := m.state = .running || m.state = .paused

/-- MS takes STOP (R66). -/
def MsDesk.takeStop (d : MsDesk) (tag : Tag) : MsDesk :=
  if d.ms.testing then ((d.endSegment .stop).enterStopped .consoleStop).reply (answer .stop tag .done .none)
  else d.wrongState .stop tag

def reqStop (tag : Tag) (s : State) : State := s.request .stop tag fun s => s.onMs fun d => d.takeStop tag

/-- STOP (R66). -/
def execStop (tag : Tag) (s : State) : Host.Outcome State Fault Refusal := .next (reqStop tag s)

/-- MS moves to FAULTED: the segment of a test ends with cause FAULT, a pending ARM is cancelled (R56, R67, R76). -/
def MsDesk.fault (d : MsDesk) (c : Cause) : MsDesk :=
  let d1 := if d.ms.testing then d.endSegment .fault else d
  (d1.enterFaulted c).answerArm .cancelled .none

/-- MS takes ABORT (R67). -/
def MsDesk.takeAbort (d : MsDesk) (tag : Tag) : MsDesk :=
  (if d.ms.state = .faulted then d else d.fault .consoleAbort).reply (answer .abort tag .done .none)

def reqAbort (tag : Tag) (s : State) : State := s.request .abort tag fun s => s.onMs fun d => d.takeAbort tag

/-- ABORT (R67). -/
def execAbort (tag : Tag) (s : State) : Host.Outcome State Fault Refusal := .next (reqAbort tag s)

/-- The states in which RESET_TEST is accepted (R68). -/
def MotionState.resets : MotionState → Bool
  | .stopped => true
  | .faulted => true
  | .armed => true
  | .arming => true
  | _ => false

/-- MS takes RESET_TEST (R68). -/
def MsDesk.takeResetTest (d : MsDesk) (tag : Tag) : MsDesk :=
  if d.ms.state.resets then
    ((d.enter (.idle true) .none).answerArm .cancelled .none).reply (answer .resetTest tag .done .none)
  else d.wrongState .resetTest tag

def reqResetTest (tag : Tag) (s : State) : State :=
  s.request .resetTest tag fun s => s.onMs fun d => d.takeResetTest tag

/-- RESET_TEST (R68). -/
def execResetTest (tag : Tag) (s : State) : Host.Outcome State Fault Refusal := .next (reqResetTest tag s)

/-! ## PAUSE, RESUME (R69, R70) -/

/-- MS takes PAUSE (R69). -/
def MsDesk.takePause (d : MsDesk) (tag : Tag) : MsDesk :=
  if d.ms.testing then
    (MsDesk.pauseIfRunning { d with ms := { d.ms with pauses := { d.ms.pauses with console := true } } }).reply
      (answer .pause tag .done .none)
  else d.reply (answer .pause tag .wrongState .none)

def reqPause (tag : Tag) (s : State) : State := s.request .pause tag fun s => s.onMs fun d => d.takePause tag

/-- PAUSE (R69). -/
def execPause (tag : Tag) (s : State) : Host.Outcome State Fault Refusal := .next (reqPause tag s)

/-- MS takes RESUME (R70). -/
def MsDesk.takeResume (d : MsDesk) (tag : Tag) : MsDesk :=
  if d.ms.state = .paused then
    let d1 := MsDesk.resumeIfFree
      { d with ms := { d.ms with pauses := { d.ms.pauses with console := false, extFailed := false } } }
    d1.reply (answer .resume tag .done (.resumed d1.ms.state d.ms.pauses.extRemoval))
  else d.reply (answer .resume tag .wrongState .none)

def reqResume (tag : Tag) (s : State) : State := s.request .resume tag fun s => s.onMs fun d => d.takeResume tag

/-- RESUME (R70). -/
def execResume (tag : Tag) (s : State) : Host.Outcome State Fault Refusal := .next (reqResume tag s)

/-! ## Events from ES, TE and the fault sources (R62, R71 to R74, R76) -/

/-- The state `s` with MS's desk changed after one path is shortened. -/
def State.onMsPaths (s : State) (p : Paths) (f : MsDesk → MsDesk) : State :=
  s.onMs fun d => f { d with paths := p }

/-- MS takes the hold (R71). -/
def MsDesk.takeHold (d : MsDesk) : MsDesk :=
  if d.ms.testing then
    MsDesk.pauseIfRunning { d with ms := { d.ms with pauses := { d.ms.pauses with extRemoval := true } } }
  else d

/-- EXT_REMOVAL_HOLD (R71). -/
def execExtRemovalHold (s : State) : Host.Outcome State Fault Refusal :=
  .next
    (if s.paths.holds = 0 then s
     else s.onMsPaths { s.paths with holds := s.paths.holds - 1 } MsDesk.takeHold)

/-- MS takes removal complete, in the three steps of R72. -/
def MsDesk.takeRemovalComplete (d : MsDesk) : MsDesk :=
  if d.ms.testing then
    let d1 := d.criterionEvent .released
    MsDesk.resumeIfFree { d1 with ms := { d1.ms with pauses := { d1.ms.pauses with extRemoval := false } } }
  else d

/-- REMOVAL_COMPLETE (R72). -/
def execRemovalComplete (s : State) : Host.Outcome State Fault Refusal :=
  match s.paths.removals with
  | .complete :: rest => .next (s.onMsPaths { s.paths with removals := rest } MsDesk.takeRemovalComplete)
  | _ => .next s

/-- MS takes the removal timeout (R73). -/
def MsDesk.takeRemovalTimeout (d : MsDesk) : MsDesk :=
  if d.ms.testing then (d.endSegment .removalTimeout).enterStopped .removalTimeout else d

/-- REMOVAL_TIMEOUT (R73). -/
def execRemovalTimeout (s : State) : Host.Outcome State Fault Refusal :=
  match s.paths.removals with
  | .timeout :: rest => .next (s.onMsPaths { s.paths with removals := rest } MsDesk.takeRemovalTimeout)
  | _ => .next s

/-- MS takes BREAK (R74). -/
def MsDesk.takeBreak (d : MsDesk) : MsDesk :=
  if d.ms.testing then (d.endSegment .brk).enterStopped .brk else d

/-- BREAK_AT_MS (R74). -/
def execBreakAtMs (s : State) : Host.Outcome State Fault Refusal :=
  match s.paths.teToMs with
  | .brk _ :: rest => .next (s.onMsPaths { s.paths with teToMs := rest } MsDesk.takeBreak)
  | _ => .next s

/-- CRITERION_EVENT_AT_MS: YIELD_DONE or PROOF of TE (R62). -/
def execCriterionEventAtMs (s : State) : Host.Outcome State Fault Refusal :=
  match s.paths.teToMs with
  | .yieldDone _ _ :: rest => .next (s.onMsPaths { s.paths with teToMs := rest } fun d => d.criterionEvent .yieldDone)
  | .proof _ _ :: rest => .next (s.onMsPaths { s.paths with teToMs := rest } fun d => d.criterionEvent .proof)
  | _ => .next s

/-- MS takes a fault event (R76). -/
def MsDesk.takeFault (d : MsDesk) (k : FaultKind) : MsDesk :=
  if d.ms.state.active then d.fault (.fault k) else d

/-- FAULT_EVENT_AT_MS (R76). -/
def execFaultEventAtMs (b : FaultSource) (s : State) : Host.Outcome State Fault Refusal :=
  match s.paths.faultsOf b with
  | [] => .next s
  | k :: rest => .next (s.onMsPaths (s.paths.setFaults b rest) fun d => d.takeFault k)

/-- EXTENSOMETER_TAG (R50). -/
def execExtensometerTag (s : State) : Host.Outcome State Fault Refusal :=
  match s.paths.extTags with
  | [] => .next s
  | t :: rest => .next (s.onMsPaths { s.paths with extTags := rest } fun d => { d with ms := { d.ms with extTag := t } })

/-! ## Jogging (R77, R79) -/

/-- The checks of R77 in IDLE, in order. -/
def MsDesk.jogRefusal (d : MsDesk) : Option (Status × Reason) :=
  if 0 < d.ms.loadCount then some (.wrongState, .loadInProgress)
  else if d.ms.summary.frame.isNone ∨ d.ms.summary.crosshead = false then some (.badTable, .incompleteCalibration)
  else
    match driveRefusal d.drive.status with
    | some r => some (.wrongState, r)
    | none => d.ms.positionRefusal.map fun r => (.wrongState, r)

/-- MS takes JOG (R77). -/
def MsDesk.takeJog (d : MsDesk) (tag : Tag) (rate : Int) : MsDesk :=
  let v := saturate (-d.ms.vMax) d.ms.vMax rate
  let done := answer .jog tag .done (.jogRate v (decide (v ≠ rate)))
  match d.ms.state with
  | .idle =>
    match d.jogRefusal with
    | some (st, r) => d.reply (refuse .jog tag st r .none)
    | none =>
      (MsDesk.enter { d with ms := { d.ms with jogRate := v, jogEnabling := true } } .jogging .none).reply done
  | .jogging => MsDesk.reply { d with ms := { d.ms with jogRate := v } } done
  | _ => d.reply (answer .jog tag .wrongState .none)

def reqJog (tag : Tag) (rate : Int) (s : State) : State := s.request .jog tag fun s => s.onMs fun d => d.takeJog tag rate

/-- JOG (R77). -/
def execJog (tag : Tag) (rate : Int) (s : State) : Host.Outcome State Fault Refusal := .next (reqJog tag rate s)

/-- MS takes JOG_STOP (R79). -/
def MsDesk.takeJogStop (d : MsDesk) (tag : Tag) : MsDesk :=
  if d.ms.state = .jogging then
    (MsDesk.enter { d with ms := { d.ms with jogRate := 0 } } (.idle false) .jogStop).reply
      (answer .jogStop tag .done .none)
  else d.reply (answer .jogStop tag .wrongState .none)

def reqJogStop (tag : Tag) (s : State) : State := s.request .jogStop tag fun s => s.onMs fun d => d.takeJogStop tag

/-- JOG_STOP (R79). -/
def execJogStop (tag : Tag) (s : State) : Host.Outcome State Fault Refusal := .next (reqJogStop tag s)

end Sys2Proof.Machine
end

