-- ==== Sys2Proof/Machine/Extensometer.lean ====
section
/-! DEFINITION. The Extensometer Supervisor (chapter 6): seating (R98, R99), supervision of the arms (R100 to R105), the removal
criterion (R106 to R109), the removal protocol (R110 to R114) and the extensometer at fracture (R115). -/

namespace Sys2Proof.Machine

/-! ## Sending -/

/-- ES raises an event to CP. -/
def EsDesk.event (d : EsDesk) (e : Event) : EsDesk := { d with paths := d.paths.sendEvent .es e }

/-- ES answers a request. -/
def EsDesk.reply (d : EsDesk) (r : Reply) : EsDesk := { d with paths := d.paths.sendReply .es r }

/-- ES sends MS its extensometer tag (R50, R97). -/
def EsDesk.sendTag (d : EsDesk) : EsDesk :=
  { d with paths := { d.paths with
      extTags := d.paths.extTags ++ [{ name := d.es.state.name, generation := d.es.generation }] } }

/-- The tag of a change from one state name to another (R97). -/
def EsDesk.tagIfChanged (d : EsDesk) (was : ExtName) : EsDesk :=
  if d.es.state.name = was then d else d.sendTag

/-! ## Seating (R98, R99) -/

/-- The state that R98 gives for a fitted set and the contact bits. -/
def seating (fitted : Option Fitted) (a b : Bool) : ExtState :=
  match fitted with
  | none => .notFitted
  | some .none => .notFitted
  | some .armA => if a then .seated else .unseated
  | some .armB => if b then .seated else .unseated
  | some .both => if a && b then .seated else .unseated

/-- The tags under which seating is judged (R98). -/
def MotionState.judgesSeating : MotionState → Bool
  | .idle => true
  | .jogging => true
  | .arming => true
  | _ => false

/-- Seating judged from the last sample taken; with none, a fitted program gives OPEN (R98). -/
def Es.judge (e : Es) : ExtState :=
  match e.last with
  | none => seating e.fitted false false
  | some x => seating e.fitted x.contactA x.contactB

/-- ES takes a program notice (R98): its tag follows in every case. -/
def EsDesk.takeNotice (d : EsDesk) (generation : Nat) (fitted : Option Fitted) : EsDesk :=
  let e : Es := { d.es with fitted := fitted, generation := generation }
  let e1 : Es := if e.tag.state.judgesSeating then { e with state := e.judge } else e
  EsDesk.sendTag { d with es := e1 }

/-- PROGRAM_NOTICE_AT_ES (R98). -/
def execProgramNoticeAtEs (s : State) : Host.Outcome State Fault Refusal :=
  .next (s.onEs fun d =>
    match d.paths.msToEs with
    | .notice g f :: rest => EsDesk.takeNotice { d with paths := { d.paths with msToEs := rest } } g f
    | _ => d)

/-- ES takes its arm copy (R52). -/
def execArmCopyAtEs (s : State) : Host.Outcome State Fault Refusal :=
  .next (s.onEs fun d =>
    match d.paths.msToEs with
    | .armCopy c :: rest => { es := { d.es with copy := some c }, paths := { d.paths with msToEs := rest } }
    | _ => d)

/-! ## Motion state tags (R99, R100, R114) -/

/-- What the previous test left, ended (R99, R100). -/
def Es.clearTest (e : Es) : Es :=
  { e with timer := none, timedOut := false, eventMark := false, requestedA := false, requestedB := false,
           history := none, sourceSeen := none }

/-- The top source of a fitted set (R100). -/
def topSource : Fitted → Option Source
  | .none => none
  | .both => some .both
  | .armA => some .armA
  | .armB => some .armB

/-- The fitted set of the arm copy, NONE without one. -/
def Es.copyFitted (e : Es) : Fitted := (e.copy.map EsArmCopy.fitted).getD .none

/-- ES on taking a motion state tag (R99, R100, R114). -/
def Es.onTag (e : Es) (t : MotionTag) : Es :=
  let e1 : Es := { e with tag := t }
  match t with
  | .idle _ => let e2 := e1.clearTest; { e2 with state := e2.judge }
  | .armed =>
    let e2 := e1.clearTest
    match topSource e.copyFitted with
    | none => { e2 with state := .notFitted }
    | some top => { e2 with state := .active, sourceSeen := some top }
  | .faulted _ =>
    match e.state with
    | .removalPending _ => { e1 with timer := none }
    | _ => e1
  | _ => e1

/-- ES takes a motion state tag; its own tag follows a change of state name. -/
def EsDesk.takeTag (d : EsDesk) (t : MotionTag) : EsDesk :=
  EsDesk.tagIfChanged { d with es := d.es.onTag t } d.es.state.name

/-- ES_STATE_TAG (R99). -/
def execEsStateTag (s : State) : Host.Outcome State Fault Refusal :=
  .next (s.onEs fun d =>
    match d.paths.msToEs with
    | .tag t :: rest => EsDesk.takeTag { d with paths := { d.paths with msToEs := rest } } t
    | _ => d)

/-! ## Stages 1 and 2 of R101: demotion and slip -/

/-- Whether a source uses an arm (R102). -/
def Source.uses : Source → ArmId → Bool
  | .both, _ => true
  | .armA, .a => true
  | .armA, .b => false
  | .armB, .a => false
  | .armB, .b => true
  | .crosshead, _ => false

def Es.requested (e : Es) : ArmId → Bool
  | .a => e.requestedA
  | .b => e.requestedB

def Es.request (e : Es) : ArmId → Es
  | .a => { e with requestedA := true }
  | .b => { e with requestedB := true }

/-- The cause of FAILED at the loss of the last arm (R104): SLIP when an arm lost in this test is in the requested set. -/
def Es.lossCause (e : Es) : FailCause :=
  let lost (x : ArmId) : Bool := ((topSource e.copyFitted).any fun top => top.uses x) && e.requested x
  if lost .a || lost .b then .slip else .armsLost

/-- The arm lost by a demotion to a single arm (R104). -/
def lostArm : Source → ArmId
  | .armA => .b
  | _ => .a

/-- Stage 1 in ACTIVE (R104). DESIGN CHOICE: a source above the source seen, which R104 says never comes but which MC can
select again where R18 does not prune, changes nothing (log entry 55). -/
def EsDesk.demote (d : EsDesk) (x : Sample) : EsDesk :=
  match d.es.sourceSeen with
  | none => d
  | some seen =>
    if x.source.code ≤ seen.code then d
    else
      let d1 : EsDesk := { d with es := { d.es with sourceSeen := some x.source } }
      if x.source = .crosshead then
        let c := d.es.lossCause
        let d2 := EsDesk.event { d1 with es := { d1.es with state := .failed c } } (.extFailed c x.number seen)
        EsDesk.sendTag { d2 with paths := d2.paths.sendTrigger .es .extFailed }
      else if d.es.requested (lostArm x.source) then d1
      else d1.event (.armDemoted (lostArm x.source) .contactOrRange x.number none x.source)

/-- The elongation of an arm on a sample. -/
def Sample.dL (x : Sample) : ArmId → Int
  | .a => x.dLA
  | .b => x.dLB

def SlipHistory.dL (h : SlipHistory) : ArmId → Int
  | .a => h.dLA
  | .b => h.dLB

/-- Whether an arm has slipped on a sample and ES has not asked for it before (R102). -/
def Es.slipped (e : Es) (x : Sample) (i : ArmId) : Bool :=
  match e.history, e.copy with
  | some h, some c =>
    x.source.uses i && !e.requested i && decide (x.dL i < h.dL i - c.slip) && decide (h.force ≤ x.force)
  | _, _ => false

/-- The fall of an arm's elongation since the slip history. -/
def Es.fall (e : Es) (x : Sample) (i : ArmId) : Int := (e.history.map fun h => h.dL i - x.dL i).getD 0

/-- ES finds that an arm has slipped (R103). -/
def EsDesk.slip (d : EsDesk) (x : Sample) (i : ArmId) : EsDesk :=
  if d.es.slipped x i then
    EsDesk.event
      { es := d.es.request i, paths := { d.paths with dropArms := d.paths.dropArms ++ [i] } }
      (.armDemoted i .slip x.number (some (d.es.fall x i)) x.source)
  else d

/-- Stage 2 of R101: arm A, then arm B. -/
def EsDesk.judgeSlip (d : EsDesk) (x : Sample) : EsDesk := (d.slip x .a).slip x .b

/-! ## The removal criterion (R106 to R109) -/

/-- R109: the removal protocol starts. -/
def EsDesk.startRemoval (d : EsDesk) (criterion : Criterion) (number : Option Nat) (strain : Int) : EsDesk :=
  let timeout : Int := (d.es.copy.map EsArmCopy.removalTimeout).getD 0
  let d1 : EsDesk :=
    { es := { d.es with state := .removalPending .awaitBoth, timedOut := false, eventMark := false,
                        timer := some timeout.toNat }
      paths := { d.paths with holds := d.paths.holds + 1 } }
  (d1.event (.extRemovalRequest criterion number strain timeout)).sendTag

/-- The criterion of the arm copy. -/
def Es.criterion (e : Es) : Criterion := (e.copy.map EsArmCopy.criterion).getD .none

/-- Whether the criterion is met at stage 3 of R101 (R106, R107). -/
def Es.criterionMetBy (e : Es) (x : Sample) : Bool :=
  match e.copy with
  | none => false
  | some c =>
    match c.criterion with
    | .atStrain => decide (c.removalStrain ≤ x.strain)
    | .afterYield => e.eventMark
    | .afterProof => e.eventMark
    | .manual => false
    | .none => false

/-- Stage 3 of R101. -/
def EsDesk.testRemoval (d : EsDesk) (x : Sample) : EsDesk :=
  if d.es.criterionMetBy x then d.startRemoval d.es.criterion (some x.number) x.strain else d

/-! ## The removal protocol (R110 to R113) -/

/-- ES enters RELEASED: EXT_RELEASED with the last sample's number and source, then the tag (R112, R113). -/
def EsDesk.release (d : EsDesk) (number : Option Nat) (source : Option Source) (inTime : Bool) : EsDesk :=
  let d1 : EsDesk := { d with es := { d.es with state := .released, timer := none } }
  let d2 : EsDesk :=
    if inTime then { d1 with paths := { d1.paths with removals := d1.paths.removals ++ [.complete] } } else d1
  (d2.event (.extReleased number source inTime)).sendTag

/-- Arms open (section 6.4). -/
def Sample.armsOpen (x : Sample) : Bool := !x.contactA && !x.contactB

/-- Stage 4 of R101 (R110). -/
def EsDesk.judgeOpen (d : EsDesk) (x : Sample) : EsDesk :=
  match d.es.state with
  | .removalPending sub =>
    if x.armsOpen then
      match sub, d.es.timedOut with
      | .awaitBoth, false => { d with es := { d.es with state := .removalPending .awaitConfirm } }
      | .awaitArms, false => d.release (some x.number) (some x.source) true
      | .awaitBoth, true => d.release (some x.number) (some x.source) false
      | _, _ => d
    else d
  | _ => d

/-- Stage 5 of R101. -/
def Es.record (e : Es) (x : Sample) : Es :=
  { e with
    history := some { dLA := x.dLA, dLB := x.dLB, force := x.force }
    last := some { number := x.number, strain := x.strain, source := x.source, contactA := x.contactA,
                   contactB := x.contactB } }

/-- `f d` while ES is ACTIVE under the RUNNING tag (stages 2 and 3 of R101). -/
def EsDesk.whileActive (d : EsDesk) (f : EsDesk → EsDesk) : EsDesk :=
  if d.es.state = .active ∧ d.es.tag.state = .running then f d else d

/-- Stages 1 to 4 of R101, by the state ES holds when it takes the sample. DESIGN CHOICE: in REMOVAL_PENDING the source seen
becomes the sample's source, also one that ranks above it, of which R105 does not speak (log entry 55). -/
def EsDesk.actOn (d : EsDesk) (x : Sample) : EsDesk :=
  match d.es.state with
  | .active =>
    let d1 := d.demote x
    let d2 := d1.whileActive fun d => d.judgeSlip x
    let d3 := d2.whileActive fun d => d.testRemoval x
    d3.judgeOpen x
  | .removalPending _ => EsDesk.judgeOpen { d with es := { d.es with sourceSeen := some x.source } } x
  | .notFitted => d
  | .unseated => d
  | .seated => d
  | .released => d
  | .failed _ => d

/-- The seating judgement of a sample in NOT_FITTED, OPEN and SEATED (R98, R101). -/
def EsDesk.seat (d : EsDesk) (x : Sample) : EsDesk :=
  match d.es.state with
  | .notFitted | .unseated | .seated =>
    if d.es.tag.state.judgesSeating then
      EsDesk.tagIfChanged { d with es := { d.es with state := seating d.es.fitted x.contactA x.contactB } }
        d.es.state.name
    else d
  | _ => d

/-- ES takes a Conditioned Sample (R98, R101). -/
def EsDesk.takeSample (d : EsDesk) (x : Sample) : EsDesk :=
  let d1 := (d.actOn x).seat x
  { d1 with es := d1.es.record x }

/-- CONDITIONED_SAMPLE_AT_ES (R101). -/
def execConditionedSampleAtEs (s : State) : Host.Outcome State Fault Refusal :=
  .next (s.onEs fun d =>
    match d.paths.samplesEs with
    | [] => d
    | x :: rest => EsDesk.takeSample { d with paths := { d.paths with samplesEs := rest } } x)

/-- ES takes an event of TE that can meet the criterion (R107). -/
def EsDesk.takeCriterion (d : EsDesk) (c : Criterion) (number : Nat) (strain : Int) : EsDesk :=
  if d.es.state = .active ∧ d.es.criterion = c then
    if d.es.tag.state = .running then d.startRemoval c (some number) strain
    else { d with es := { d.es with eventMark := true } }
  else d

/-- REMOVAL_EVENT_AT_ES: YIELD_DONE or PROOF of TE (R107). -/
def execRemovalEventAtEs (s : State) : Host.Outcome State Fault Refusal :=
  .next (s.onEs fun d =>
    match d.paths.teToEs with
    | .yieldDone n e :: rest =>
      EsDesk.takeCriterion { d with paths := { d.paths with teToEs := rest } } .afterYield n e
    | .proof n e :: rest =>
      EsDesk.takeCriterion { d with paths := { d.paths with teToEs := rest } } .afterProof n e
    | _ => d)

/-- ES takes EXT_REMOVE, by the rows of R108 in order. -/
def EsDesk.takeRemove (d : EsDesk) (tag : Tag) : EsDesk :=
  let under := d.es.tag.state
  let number := d.es.last.map EsLast.number
  if d.es.state = .active ∧ (under = .running ∨ under = .paused) ∧ d.es.criterion ≠ .none then
    (d.startRemoval .manual number ((d.es.last.map EsLast.strain).getD 0)).reply
      (answer .extRemove tag .done (.sampleNumber number))
  else if d.es.state = .active ∧ d.es.criterion = .none then
    d.reply (refuse .extRemove tag .wrongState .noRemoval .none)
  else d.reply (answer .extRemove tag .wrongState (.extState d.es.state))

def reqExtRemove (tag : Tag) (s : State) : State :=
  s.request .extRemove tag fun s => s.onEs fun d => d.takeRemove tag

/-- EXT_REMOVE (R108). -/
def execExtRemove (tag : Tag) (s : State) : Host.Outcome State Fault Refusal := .next (reqExtRemove tag s)

/-- The substate of REMOVAL_PENDING that the reply to EXT_CONFIRM carries (R111). -/
def ExtState.substate : ExtState → Option RemovalSub
  | .removalPending sub => some sub
  | _ => none

/-- The answer DONE of EXT_CONFIRM, with the substate held after the request. -/
def EsDesk.confirmed (d : EsDesk) (tag : Tag) : EsDesk :=
  d.reply (answer .extConfirm tag .done (.extSubstate d.es.state.substate))

/-- ES takes EXT_CONFIRM, by R111's table and the text after it: a confirmation after the expiry is TOO_LATE, also in RELEASED,
where the reply carries the state as well (DEDUCED, log entry 54). -/
def EsDesk.takeConfirm (d : EsDesk) (tag : Tag) : EsDesk :=
  match d.es.state with
  | .removalPending sub =>
    if d.es.timedOut then d.reply (refuse .extConfirm tag .wrongState .tooLate .none)
    else
      match sub with
      | .awaitBoth =>
        EsDesk.confirmed { d with es := { d.es with state := .removalPending .awaitArms, timer := none } } tag
      | .awaitConfirm =>
        (d.release (d.es.last.map EsLast.number) (d.es.last.map EsLast.source) true).confirmed tag
      | .awaitArms => d.confirmed tag
  | st =>
    d.reply
      (if st = .released ∧ d.es.timedOut then refuse .extConfirm tag .wrongState .tooLate (.extState st)
       else answer .extConfirm tag .wrongState (.extState st))

def reqExtConfirm (tag : Tag) (s : State) : State :=
  s.request .extConfirm tag fun s => s.onEs fun d => d.takeConfirm tag

/-- EXT_CONFIRM (R111). -/
def execExtConfirm (tag : Tag) (s : State) : Host.Outcome State Fault Refusal := .next (reqExtConfirm tag s)

/-- The removal timer expires in REMOVAL_PENDING (R113). -/
def EsDesk.expireRemoval (d : EsDesk) : EsDesk :=
  match d.es.state, d.es.timer with
  | .removalPending sub, some _ =>
    let number := d.es.last.map EsLast.number
    let d1 := EsDesk.event { d with es := { d.es with timedOut := true, timer := none } } (.extRemovalTimeout sub number)
    let d2 : EsDesk := { d1 with paths := { d1.paths with removals := d1.paths.removals ++ [.timeout] } }
    if sub = .awaitConfirm then d2.release number (d.es.last.map EsLast.source) false else d2
  | _, _ => d

/-- REMOVAL_TIMER_EXPIRY (R113). -/
def execRemovalTimerExpiry (s : State) : Host.Outcome State Fault Refusal :=
  .next (s.onEs fun d => d.expireRemoval)

/-! ## The extensometer at fracture (R115) -/

/-- ES enters FAILED with cause AT_BREAK (R115). -/
def EsDesk.failAtBreak (d : EsDesk) (number : Nat) : EsDesk :=
  (EsDesk.event { d with es := { d.es with state := .failed .atBreak, timer := none } }
    (.extAtBreak d.es.state.name (d.es.last.map EsLast.source) number)).sendTag

/-- ES takes BREAK, by R115's table. -/
def EsDesk.takeBreak (d : EsDesk) (number : Nat) : EsDesk :=
  match d.es.state with
  | .active => d.failAtBreak number
  | .removalPending _ =>
    match d.es.last with
    | none => d
    | some x => if x.source = .crosshead then d else d.failAtBreak number
  | _ => d

/-- BREAK_AT_ES (R115). -/
def execBreakAtEs (s : State) : Host.Outcome State Fault Refusal :=
  .next (s.onEs fun d =>
    match d.paths.teToEs with
    | .brk n :: rest => EsDesk.takeBreak { d with paths := { d.paths with teToEs := rest } } n
    | _ => d)

end Sys2Proof.Machine
end

