-- ==== Sys2Proof/Machine/Evaluator.lean ====
section
/-! DEFINITION. The Test Evaluator (chapter 7): its tags (R118, R121, R134), the five detectors in the stages of R120, and the
stresses (R133). The record is published by R139. -/

namespace Sys2Proof.Machine

/-! ## Sending and publishing -/

/-- TE raises an event to CP. -/
def TeDesk.event (d : TeDesk) (e : Event) : TeDesk := { d with paths := d.paths.sendEvent .te e }

/-- TE sends an event to MS and ES (R124, R128, R131). -/
def TeDesk.tell (d : TeDesk) (e : TeEvent) : TeDesk :=
  { d with paths := { d.paths with teToMs := d.paths.teToMs ++ [e], teToEs := d.paths.teToEs ++ [e] } }

/-- The publication count after a copy; it wraps (R139). -/
def countUp (n : Nat) : Nat := (n + 1) % 4294967296

/-- The working record copied to the published record (R139). -/
def Te.copyOut (t : Te) : Te := { t with published := t.working, count := countUp t.count }

/-- R139: a copy while the hold state is FREE. -/
def Te.publish (t : Te) : Te :=
  match t.hold with
  | .free => t.copyOut
  | .held => t

/-- `f` on the working record. -/
def Te.onWorking (t : Te) (f : Results → Results) : Te := { t with working := f t.working }

/-! ## The fit's failure (R127) -/

/-- The state of a failed fit: k and b 0, n kept, proof NOT_FOUND (R127). -/
def Te.failFit (t : Te) (r : FitReason) : Te :=
  { t with
    proofState := .notFound
    working := { t.working with fitStatus := .failed, fitReason := some r, fitK := 0, fitB := 0 } }

/-- The fit fails and FIT_FAILED is raised (R127). -/
def TeDesk.failFit (d : TeDesk) (r : FitReason) (number : Option Nat) : TeDesk :=
  TeDesk.event { d with te := d.te.failFit r } (.fitFailed r d.te.working.fitN number)

/-! ## Stage 1: maximum force (R129) -/

/-- Whether a sample sets Fm (R129). -/
def Te.raisesMax (t : Te) (x : Sample) : Bool :=
  match t.working.fm with
  | none => true
  | some m => decide (m.force < x.force)

def samplePoint (x : Sample) : Point := { force := x.force, strain := x.strain, number := x.number }

def sampleSourcePoint (x : Sample) : SourcePoint :=
  { force := x.force, strain := x.strain, number := x.number, source := x.source }

/-- Stage 1 of R120. -/
def Te.trackMax (t : Te) (x : Sample) : Te :=
  if t.raisesMax x then t.onWorking fun r => { r with fm := some (samplePoint x) } else t

/-! ## Stage 2: yield (R122 to R124) -/

/-- R122, step 1. -/
def Te.takePeak (t : Te) (x : Sample) : Te :=
  match t.peak with
  | none => { t with peak := some (sampleSourcePoint x) }
  | some p => if p.force < x.force then { t with peak := some (sampleSourcePoint x) } else t

/-- The fall below a force by a fraction in per mille (R122, R130). -/
def dropThreshold (force fraction : Int) : Int := force - roundDiv (force * fraction) 1000

/-- YIELD_DONE to CP, MS and ES (R124). -/
def TeDesk.yieldDone (d : TeDesk) (x : Sample) : TeDesk :=
  let r := d.te.working
  (d.event (.yieldDone r.outcome r.reH r.reL r.reLFinal x.number)).tell (.yieldDone x.number x.strain)

/-- R122: a sample in SEEKING. -/
def TeDesk.seekYield (d : TeDesk) (p : EvalParams) (x : Sample) : TeDesk :=
  let t := d.te.takePeak x
  match t.peak with
  | none => { d with te := t }
  | some peak =>
    if p.yieldMinForce ≤ peak.force ∧ x.force ≤ dropThreshold peak.force p.yieldDrop then
      let t1 : Te := { t with yieldState := .plateau, working := { t.working with reH := some peak } }
      let d1 := TeDesk.event { d with te := t1 } (.yieldUpper peak x.number)
      { d1 with paths := d1.paths.sendTrigger .te .yieldUpper }
    else if p.yieldWindowEnd ≤ x.strain then
      TeDesk.yieldDone
        { d with te := { t with yieldState := .none, working := { t.working with outcome := .continuous } } } x
    else { d with te := t }

/-- The plateau ends: ReL final when valid, DONE, DISCONTINUOUS (R124, R131, R134). -/
def Te.endPlateau (t : Te) : Te :=
  { t with
    yieldState := .done
    working := { t.working with reLFinal := t.working.reL.isSome, outcome := .discontinuous } }

/-- R123: a counted sample. -/
def Te.countLower (t : Te) (x : Sample) : Te :=
  match t.working.reL with
  | none => t.onWorking fun r => { r with reL := some (samplePoint x) }
  | some l => if x.force < l.force then t.onWorking fun r => { r with reL := some (samplePoint x) } else t

/-- R123, R124: a sample in PLATEAU. -/
def TeDesk.followPlateau (d : TeDesk) (p : EvalParams) (x : Sample) : TeDesk :=
  match d.te.working.reH with
  | none => d
  | some reH =>
    if reH.force < x.force ∨ p.yieldWindowEnd ≤ x.strain then TeDesk.yieldDone { d with te := d.te.endPlateau } x
    else if x.strain < reH.strain + p.transient then d
    else { d with te := d.te.countLower x }

/-- Stage 2 of R120. -/
def TeDesk.judgeYield (d : TeDesk) (p : EvalParams) (x : Sample) : TeDesk :=
  match d.te.yieldState with
  | .seeking => d.seekYield p x
  | .plateau => d.followPlateau p x
  | .done => d
  | .none => d

/-! ## Stage 3: the modulus fit (R125 to R127) -/

/-- den of R126. -/
def FitSums.den (q : FitSums) (n : Nat) : Int := n * q.ee - q.e * q.e

/-- k of R126 as formed, before it is saturated. -/
def FitSums.slopeFormed (q : FitSums) (n : Nat) : Int := roundDiv ((n * q.ef - q.e * q.f) * 65536) (q.den n)

/-- k of R126, saturated. -/
def FitSums.slope (q : FitSums) (n : Nat) : Int := sat32 (q.slopeFormed n)

/-- b of R126, formed from k before its saturation (log entry 41), and saturated. -/
def FitSums.intercept (q : FitSums) (n : Nat) : Int :=
  sat32 (roundDiv (q.f * 65536 - q.slopeFormed n * q.e) (n * 65536))

/-- The first check of R126 that fails. -/
def FitSums.failure (q : FitSums) (n : Nat) : Option FitReason :=
  if n < Config.minFitPoints then some .tooFew
  else if q.den n ≤ 0 then some .flat
  else if q.slope n ≤ 0 then some .negative
  else none

/-- R126: the fit closes on a sample. -/
def TeDesk.closeFit (d : TeDesk) (x : Sample) : TeDesk :=
  let q := d.te.sums
  let n := d.te.working.fitN
  match q.failure n with
  | some r => d.failFit r (some x.number)
  | none =>
    let k := q.slope n
    let b := q.intercept n
    TeDesk.event
      { d with te := { d.te with
          proofState := .seeking, working := { d.te.working with fitStatus := .done, fitK := k, fitB := b } } }
      (.fitDone n k b x.number)

/-- R125, step 3: a point added to the sums. -/
def Te.addPoint (t : Te) (x : Sample) : Te :=
  { t with
    sums := { e := t.sums.e + x.strain, f := t.sums.f + x.force, ee := t.sums.ee + x.strain * x.strain,
              ef := t.sums.ef + x.strain * x.force }
    fitSource := some (t.fitSource.getD x.source)
    working := { t.working with fitN := t.working.fitN + 1 } }

/-- Stage 3 of R120: the steps of R125. With F_lo at or above F_hi no sample lies in the window (R48, R127). -/
def TeDesk.judgeFit (d : TeDesk) (p : EvalParams) (x : Sample) : TeDesk :=
  if d.te.working.fitStatus ≠ .collecting then d
  else if d.te.fitSource.any fun s => decide (s ≠ x.source) then d.failFit .sourceChanged (some x.number)
  else if p.fHi < x.force then d.closeFit x
  else if p.fLo < p.fHi ∧ p.fLo ≤ x.force ∧ d.te.working.fitN < Config.maxFitPoints then { d with te := d.te.addPoint x }
  else d

/-! ## Stage 4: proof (R128) -/

/-- F_off of R128. -/
def offsetForce (k b offset strain : Int) : Int := sat32 (roundDiv (k * (strain - offset)) 65536 + b)

/-- Stage 4 of R120, for a proof detector that was SEEKING before the sample's fit stage (R126). -/
def TeDesk.judgeProof (d : TeDesk) (p : EvalParams) (x : Sample) : TeDesk :=
  let off := offsetForce d.te.working.fitK d.te.working.fitB p.offsetStrain x.strain
  if d.te.proofState = .seeking ∧ p.offsetStrain < x.strain ∧ x.force ≤ off then
    let rp := sampleSourcePoint x
    (TeDesk.event
      { d with te := { d.te with proofState := .found, working := { d.te.working with rp := some rp } } }
      (.proof rp off)).tell (.proof x.number x.strain)
  else d

/-! ## Stage 5: break (R130 to R132) -/

/-- A of R132. -/
def elongationAfter (r : Results) (pre : Point) : Int :=
  if r.fitStatus = .done then sat32 (pre.strain - roundDiv (pre.force * 65536) r.fitK) else pre.strain

/-- The break record of R131. -/
def breakRecord (r : Results) (pre : Point) : BreakRecord :=
  { pre := pre, elongation := elongationAfter r pre, elasticKept := decide (r.fitStatus ≠ .done) }

/-- A proof detector in SEEKING or AWAITING_FIT enters NOT_FOUND (R131, R134). -/
def Te.closeProof (t : Te) : Te :=
  match t.proofState with
  | .seeking => { t with proofState := .notFound }
  | .awaitingFit => { t with proofState := .notFound }
  | .found => t
  | .notFound => t

/-- A yield detector in PLATEAU is closed (R131, R134). -/
def Te.closeYield (t : Te) : Te :=
  match t.yieldState with
  | .plateau => t.endPlateau
  | _ => t

/-- A fit still COLLECTING fails with WINDOW_NOT_PASSED (R131, R134). -/
def TeDesk.closeOpenFit (d : TeDesk) (number : Option Nat) : TeDesk :=
  if d.te.working.fitStatus = .collecting then d.failFit .windowNotPassed number else d

/-- R131: the break is confirmed on a sample. -/
def TeDesk.confirmBreak (d : TeDesk) (x : Sample) : TeDesk :=
  let d1 := TeDesk.closeOpenFit { d with te := { d.te with breakConfirmed := true, breakState := .confirmed } }
    (some x.number)
  let t := d1.te.closeProof.closeYield
  match t.candidate with
  | none => { d1 with te := t }
  | some pre =>
    let record := breakRecord t.working pre
    let d2 := (TeDesk.event { d1 with te := t.onWorking fun r => { r with brk := some record } }
      (.brk x.number record)).tell (.brk x.number)
    { d2 with paths := d2.paths.sendTrigger .te .brk }

/-- Whether a sample is a drop sample (R130); `raised` says that it set Fm at stage 1. -/
def Te.drops (t : Te) (p : EvalParams) (x : Sample) (raised : Bool) : Bool :=
  !raised && (t.working.fm.any fun m => decide (x.force ≤ dropThreshold m.force p.breakDrop))

/-- R130: a sample judged in WATCHING. -/
def TeDesk.watchBreak (d : TeDesk) (p : EvalParams) (x : Sample) (raised : Bool) : TeDesk :=
  if d.te.drops p x raised then
    let d1 : TeDesk := { d with te := { d.te with run := d.te.run + 1 } }
    if p.breakConfirm ≤ (d1.te.run : Int) then d1.confirmBreak x else d1
  else { d with te := { d.te with run := 0, candidate := some (samplePoint x) } }

/-- Whether Fm has reached the break minimum force (R130). -/
def Te.maxReached (t : Te) (p : EvalParams) : Bool := t.working.fm.any fun m => decide (p.breakMinForce ≤ m.force)

/-- Stage 5 of R120. -/
def TeDesk.judgeBreak (d : TeDesk) (p : EvalParams) (x : Sample) (raised : Bool) : TeDesk :=
  match d.te.breakState with
  | .waiting =>
    if d.te.maxReached p then TeDesk.watchBreak { d with te := { d.te with breakState := .watching } } p x raised else d
  | .watching => d.watchBreak p x raised
  | .confirmed => d

/-! ## Stages 6 and 7, and the sample -/

/-- A stress (R133). -/
def stress (force s0 : Int) : Int := sat32 (roundDiv (1000 * force) s0)

/-- The stress of a result, 0 when it is not there (R133). -/
def stressOf (force : Option Int) (s0 : Int) : Int := (force.map fun f => stress f s0).getD 0

/-- Stage 6 of R120: the stresses of the record (R133). -/
def Results.withStresses (r : Results) (s0 : Int) : Results :=
  { r with
    sReH := stressOf (r.reH.map (·.force)) s0
    sReL := stressOf (r.reL.map (·.force)) s0
    sRp := stressOf (r.rp.map (·.force)) s0
    sRm := stressOf (r.fm.map (·.force)) s0 }

/-- S0 of the arm copy. -/
def Te.s0 (t : Te) : Int := (t.copy.map TeArmCopy.s0).getD 0

/-- Stages 2 to 4 of R120, under the RUNNING tag (R119). -/
def TeDesk.judgeRunning (d : TeDesk) (p : EvalParams) (x : Sample) : TeDesk :=
  let seeking := decide (d.te.proofState = .seeking)
  let d1 := (d.judgeYield p x).judgeFit p x
  if seeking then d1.judgeProof p x else d1

/-- Stages 1 to 5 of R120. -/
def TeDesk.judge (d : TeDesk) (p : EvalParams) (x : Sample) : TeDesk :=
  let raised := d.te.raisesMax x
  let d1 : TeDesk := { d with te := d.te.trackMax x }
  let d2 := if d1.te.tag = .running then d1.judgeRunning p x else d1
  d2.judgeBreak p x raised

/-- Whether any detector works on a sample (R119). -/
def Te.works (t : Te) : Bool :=
  t.testOpen && !t.breakConfirmed && (decide (t.tag = .running) || decide (t.tag = .paused))

/-- Stages 6 and 7 of R120. -/
def Te.settle (t : Te) (was : Results) : Te :=
  let t1 := t.onWorking fun r => r.withStresses t.s0
  if t1.working = was then t1 else t1.publish

/-- TE takes a Conditioned Sample (R119, R120). -/
def TeDesk.takeSample (d : TeDesk) (x : Sample) : TeDesk :=
  match d.te.params with
  | none => d
  | some p =>
    if d.te.works then
      let d1 := d.judge p x
      { d1 with te := d1.te.settle d.te.working }
    else d

/-- CONDITIONED_SAMPLE_AT_TE (R120). -/
def execConditionedSampleAtTe (s : State) : Host.Outcome State Fault Refusal :=
  .next (s.onTe fun d =>
    match d.paths.samplesTe with
    | [] => d
    | x :: rest => TeDesk.takeSample { d with paths := { d.paths with samplesTe := rest } } x)

/-! ## Tags, arm copy and Segment Log (R48, R54, R118, R121, R134, R138, R143) -/

/-- ARM_COPY_AT_TE: the parameters in use are those loaded, or the defaults (R48, R52). -/
def execArmCopyAtTe (s : State) : Host.Outcome State Fault Refusal :=
  .next (s.onTe fun d =>
    match d.paths.msToTe with
    | .armCopy c :: rest =>
      { te := { d.te with copy := some c, params := some (d.te.loaded.getD (defaultParams c.fMax)) }
        paths := { d.paths with msToTe := rest } }
    | _ => d)

/-- The clearing of R54, with the starting states of R121 and the cleared record of R137. -/
def Te.clear (t : Te) : Te :=
  { t with
    testOpen := true, breakConfirmed := false, yieldState := .seeking, peak := none,
    sums := { e := 0, f := 0, ee := 0, ef := 0 }, fitSource := none, proofState := .awaitingFit,
    breakState := .waiting, run := 0, candidate := none,
    working := .cleared (t.copy.bind TeArmCopy.label) t.s0 }

/-- HOLD_EXPIRED (R142, R143). -/
def TeDesk.holdExpired (d : TeDesk) (c : ExpiryCause) : TeDesk :=
  let t : Te := { d.te with hold := .free, holdTimer := none }
  let t1 : Te := { t.copyOut with expired := some c }
  TeDesk.event { d with te := t1 } (.holdExpired c t1.count)

/-- The ARMED tag: the clearing, published whatever the hold (R54, R143). -/
def TeDesk.onArmed (d : TeDesk) : TeDesk :=
  let d1 : TeDesk := { d with te := d.te.clear }
  match d1.te.hold with
  | .free => { d1 with te := d1.te.publish }
  | .held => d1.holdExpired .armed

/-- The end of a test on a STOPPED or FAULTED tag (R134). -/
def TeDesk.endTest (d : TeDesk) (c : Cause) : TeDesk :=
  if d.te.testOpen then
    let d1 : TeDesk := { d with te := d.te.onWorking fun r => { r with endCause := c } }
    let d2 : TeDesk :=
      if d1.te.breakConfirmed then d1
      else
        let d' := d1.closeOpenFit none
        { d' with te := { d'.te.closeProof.closeYield with run := 0 } }
    { d2 with te := Te.publish { d2.te with testOpen := false } }
  else d

/-- TE takes a motion state tag (R118, R121, R134). -/
def TeDesk.takeTag (d : TeDesk) (t : MotionTag) : TeDesk :=
  let was := d.te.tag
  let d1 : TeDesk := { d with te := { d.te with tag := t } }
  match t with
  | .armed => d1.onArmed
  | .running =>
    if was = .armed ∧ d.te.working.fitStatus = .notStarted then
      { d1 with te := d1.te.onWorking fun r => { r with fitStatus := .collecting } }
    else d1
  | .stopped c => d1.endTest c
  | .faulted c => d1.endTest c
  | .idle _ => { d1 with te := { d1.te with testOpen := false } }
  | .paused => d1
  | .jogging => d1
  | .arming _ => d1

/-- TE_STATE_TAG (R118). -/
def execTeStateTag (s : State) : Host.Outcome State Fault Refusal :=
  .next (s.onTe fun d =>
    match d.paths.msToTe with
    | .tag t :: rest => TeDesk.takeTag { d with paths := { d.paths with msToTe := rest } } t
    | _ => d)

/-- SEGMENT_LOG_ENTRY: appended and published (R138, R139). -/
def execSegmentLogEntry (s : State) : Host.Outcome State Fault Refusal :=
  .next (s.onTe fun d =>
    match d.paths.msToTe with
    | .entry e :: rest =>
      { te := (d.te.onWorking fun r => { r with log := r.log ++ [e] }).publish
        paths := { d.paths with msToTe := rest } }
    | _ => d)

end Sys2Proof.Machine
end

