-- ==== Sys2Proof/Machine/ResultsStore.lean ====
section
/-! DEFINITION. The results store (chapter 8): the snapshot hold (R140 to R142) and READ_RESULTS (R144). -/

namespace Sys2Proof.Machine

/-- TE takes SNAP_HOLD (R140). -/
def TeDesk.takeHold (d : TeDesk) (tag : Tag) : TeDesk :=
  let t : Te := { d.te with hold := .held, holdTimer := some Config.holdUs, expired := none }
  TeDesk.reply { d with te := t } (answer .snapHold tag .done (.snapHold d.te.count d.te.hold))

def reqSnapHold (tag : Tag) (s : State) : State := s.request .snapHold tag fun s => s.onTe fun d => d.takeHold tag

/-- SNAP_HOLD (R140). -/
def execSnapHold (tag : Tag) (s : State) : Host.Outcome State Fault Refusal := .next (reqSnapHold tag s)

/-- What SNAP_RELEASE finds (R141). -/
def Te.releaseFound (t : Te) : ReleaseFound :=
  match t.hold, t.expired with
  | .held, _ => .held
  | .free, some _ => .expired
  | .free, none => .none

/-- The store after SNAP_RELEASE (R141). -/
def Te.release (t : Te) : Te :=
  match t.hold with
  | .held => Te.copyOut { t with hold := .free, holdTimer := none, expired := none }
  | .free => { t with expired := none }

/-- TE takes SNAP_RELEASE (R141). -/
def TeDesk.takeRelease (d : TeDesk) (tag : Tag) : TeDesk :=
  let t := d.te.release
  TeDesk.reply { d with te := t } (answer .snapRelease tag .done (.snapRelease t.count d.te.releaseFound))

def reqSnapRelease (tag : Tag) (s : State) : State :=
  s.request .snapRelease tag fun s => s.onTe fun d => d.takeRelease tag

/-- SNAP_RELEASE (R141). -/
def execSnapRelease (tag : Tag) (s : State) : Host.Outcome State Fault Refusal := .next (reqSnapRelease tag s)

/-- The hold timer expires (R142). -/
def TeDesk.expireHold (d : TeDesk) : TeDesk :=
  match d.te.hold, d.te.holdTimer with
  | .held, some _ => d.holdExpired .timer
  | _, _ => d

/-- HOLD_TIMER_EXPIRY (R142). -/
def execHoldTimerExpiry (s : State) : Host.Outcome State Fault Refusal := .next (s.onTe fun d => d.expireHold)

/-- The status of a read (R144). -/
def Te.readStatus (t : Te) : Status := if t.expired.isSome then .holdExpired else .done

/-- The answer to READ_RESULTS, from the published record (R144). -/
def Te.read (t : Te) (tag : Tag) (part : Byte) : Reply :=
  if part = 0 then answer .readResults tag t.readStatus (.results t.published t.count t.hold t.expired)
  else if part = 1 then answer .readResults tag t.readStatus (.resultsLog t.published.log t.count t.hold t.expired)
  else refuse .readResults tag .badRequest .unknownPart .none

def reqReadResults (tag : Tag) (part : Byte) (s : State) : State :=
  s.request .readResults tag fun s => s.onTe fun d => d.reply (d.te.read tag part)

/-- READ_RESULTS (R144). -/
def execReadResults (tag : Tag) (part : Byte) (s : State) : Host.Outcome State Fault Refusal :=
  .next (reqReadResults tag part s)

end Sys2Proof.Machine
end

