-- ==== Sys2Proof/Machine/CaptureRing.lean ====
section
/-! DEFINITION. The Capture Ring (chapter 9): recording (R146, R148), triggers (R147) and its requests (R149 to R152). -/

namespace Sys2Proof.Machine

/-! ## Recording (R146, R148) -/

/-- The Capture Record of a sample (section 9.1). -/
def captureRecord (x : Sample) : CaptureRecord :=
  { number := x.number, force := x.force, strain := x.strain, position := x.relPosition, source := x.source,
    uncal := x.uncal, held := x.held, overrange := x.overrange, validA := x.validA, validB := x.validB,
    sourceChanged := x.sourceChanged, gap := decide (1 < x.gap) }

/-- The sample number of the newest record held. -/
def newestNumber (l : List CaptureRecord) : Option Nat := l.getLast?.map CaptureRecord.number

/-- The ring with a sample appended; the oldest record goes first when the ring is full, and a number not above the newest
forms no record (R146). -/
def appendRecord (l : List CaptureRecord) (x : Sample) : List CaptureRecord :=
  if ∀ n ∈ newestNumber l, n < x.number then
    (if l.length < Config.ringRecords then l else l.drop 1) ++ [captureRecord x]
  else l

/-- CAPTURE_HELD (R148). -/
def Cr.heldEvent (c : Cr) : Event :=
  .captureHeld c.cause c.trigger c.ring.length (c.ring.head?.map CaptureRecord.number) (newestNumber c.ring)

/-- The ring enters HELD, and CAPTURE_HELD goes to CP (R148). -/
def CrDesk.hold (d : CrDesk) : CrDesk :=
  let c : Cr := { d.cr with state := .held }
  { cr := c, paths := d.paths.sendEvent .cr c.heldEvent }

/-- CR takes a Conditioned Sample (R146, R148). -/
def CrDesk.takeSample (d : CrDesk) (x : Sample) : CrDesk :=
  match d.cr.state with
  | .off => d
  | .held => d
  | .filling => { d with cr := { d.cr with ring := appendRecord d.cr.ring x } }
  | .post =>
    let d1 : CrDesk := { d with cr := { d.cr with ring := appendRecord d.cr.ring x, remaining := d.cr.remaining - 1 } }
    if d1.cr.remaining = 0 then d1.hold else d1

/-- CONDITIONED_SAMPLE_AT_CR (R146). -/
def execConditionedSampleAtCr (s : State) : Host.Outcome State Fault Refusal :=
  .next (s.onCr fun d =>
    match d.paths.samplesCr with
    | [] => d
    | x :: rest => CrDesk.takeSample { d with paths := { d.paths with samplesCr := rest } } x)

/-! ## Triggers (R147) -/

/-- Whether a trigger's member is in the mask. -/
def Cr.masked (c : Cr) (t : Trigger) : Bool := c.mask.getLsbD t.member

/-- FILLING ends: POST, or HELD at once with a post count of 0 (R147). -/
def CrDesk.trigger (d : CrDesk) (t : Trigger) : CrDesk :=
  let c : Cr := { d.cr with trigger := newestNumber d.cr.ring, cause := some t, remaining := d.cr.post }
  if c.post = 0 then CrDesk.hold { d with cr := c } else { d with cr := { c with state := .post } }

/-- CR takes a trigger event (R147). -/
def CrDesk.takeTrigger (d : CrDesk) (t : Trigger) : CrDesk :=
  if d.cr.state = .filling ∧ d.cr.masked t = true then d.trigger t else d

/-- TRIGGER_EVENT_AT_CR (R147). -/
def execTriggerEventAtCr (b : Block) (s : State) : Host.Outcome State Fault Refusal :=
  .next (s.onCr fun d =>
    match d.paths.triggers.get b with
    | [] => d
    | t :: rest => CrDesk.takeTrigger { d with paths := { d.paths with triggers := d.paths.triggers.set b rest } } t)

/-! ## Requests (R149 to R152) -/

/-- What opens every reply of CR, after the request (section 9.4, section 11.5). -/
def Cr.head (c : Cr) : CapturePrefix :=
  { state := c.state, held := c.ring.length, trigger := c.trigger, cause := c.cause }

/-- CR answers a request with the ring as it then stands. -/
def CrDesk.reply (d : CrDesk) (k : RequestKind) (tag : Tag) (st : Status) (more : CaptureMore) : CrDesk :=
  { d with paths := d.paths.sendReply .cr (answer k tag st (.capture d.cr.head more)) }

/-- The ring emptied; FILLING with the enable set, OFF with it clear (R149, R152). -/
def Cr.restart (c : Cr) : Cr :=
  { c with ring := [], trigger := none, cause := none, remaining := 0, state := if c.enable then .filling else .off }

/-- CR takes CAPTURE_SET (R149). -/
def CrDesk.takeSet (d : CrDesk) (tag : Tag) (enable : Bool) (postCount : Nat) (mask : BitVec 5) : CrDesk :=
  let post := min 4095 postCount
  CrDesk.reply
    { d with cr := Cr.restart { d.cr with enable := enable, post := post, mask := mask } }
    .captureSet tag .done (.clamped (decide (post ≠ postCount)))

/-- CAPTURE_SET at CP and CR. Every non-zero enable byte means set, and `postCount` is the 2-byte field read as unsigned
(DESIGN CHOICE, log entries 51, 52). -/
def reqCaptureSet (tag : Tag) (enable : Byte) (postCount : Nat) (mask : Byte) (s : State) : State :=
  s.request .captureSet tag fun s =>
    match triggerMask mask with
    | none => s.cpAnswer (refuse .captureSet tag .badRequest .unknownFlag .none)
    | some m => s.onCr fun d => d.takeSet tag (decide (enable ≠ 0)) postCount m

/-- CAPTURE_SET (R149). -/
def execCaptureSet (tag : Tag) (enable : Byte) (postCount : Nat) (mask : Byte) (s : State) :
    Host.Outcome State Fault Refusal :=
  .next (reqCaptureSet tag enable postCount mask s)

/-- CR takes CAPTURE_TRIGGER (R150). DONE gives the trigger sample number and the state entered after the capture prefix, which
holds them too; in WRONG_STATE the prefix alone carries the ring state (DESIGN CHOICE, log entry 53). -/
def CrDesk.takeConsoleTrigger (d : CrDesk) (tag : Tag) : CrDesk :=
  if d.cr.state = .filling then
    if d.cr.masked .console then
      let d1 := d.trigger .console
      d1.reply .captureTrigger tag .done (.triggered d1.cr.trigger d1.cr.state)
    else
      let r := refuse .captureTrigger tag .wrongState .notInMask (.capture d.cr.head .nothing)
      { d with paths := d.paths.sendReply .cr r }
  else d.reply .captureTrigger tag .wrongState .nothing

def reqCaptureTrigger (tag : Tag) (s : State) : State :=
  s.request .captureTrigger tag fun s => s.onCr fun d => d.takeConsoleTrigger tag

/-- CAPTURE_TRIGGER (R150). -/
def execCaptureTrigger (tag : Tag) (s : State) : Host.Outcome State Fault Refusal := .next (reqCaptureTrigger tag s)

/-- CR takes CAPTURE_DRAIN (R151). -/
def CrDesk.takeDrain (d : CrDesk) (tag : Tag) (count : Nat) : CrDesk :=
  if d.cr.state = .held then
    if d.cr.ring = [] then d.reply .captureDrain tag .empty (.drained 0 [])
    else
      let n := min count Config.drainRecords
      let left := d.cr.ring.drop n
      CrDesk.reply { d with cr := { d.cr with ring := left } } .captureDrain tag .done
        (.drained left.length (d.cr.ring.take n))
  else d.reply .captureDrain tag .wrongState .nothing

def reqCaptureDrain (tag : Tag) (count : Nat) (s : State) : State :=
  s.request .captureDrain tag fun s => s.onCr fun d => d.takeDrain tag count

/-- CAPTURE_DRAIN (R151). -/
def execCaptureDrain (tag : Tag) (count : Nat) (s : State) : Host.Outcome State Fault Refusal :=
  .next (reqCaptureDrain tag count s)

/-- CR takes CAPTURE_REARM (R152). -/
def CrDesk.takeRearm (d : CrDesk) (tag : Tag) : CrDesk :=
  let d1 : CrDesk := { d with cr := d.cr.restart }
  d1.reply .captureRearm tag .done (.entered d1.cr.state)

def reqCaptureRearm (tag : Tag) (s : State) : State :=
  s.request .captureRearm tag fun s => s.onCr fun d => d.takeRearm tag

/-- CAPTURE_REARM (R152). -/
def execCaptureRearm (tag : Tag) (s : State) : Host.Outcome State Fault Refusal := .next (reqCaptureRearm tag s)

end Sys2Proof.Machine
end

