-- ==== Sys2Proof/Machine/Console.lean ====
section
/-! DEFINITION. The Console Port (chapter 10): link errors (R155), transmission (R160), streaming (R161, R163), events and flags
(R164 to R166), the ATTN pulse (R168), STATUS and the status notices (R169), replies (R159). -/

namespace Sys2Proof.Machine

/-! ## Link errors (R155) -/

/-- The link error count of a link, raised by 1 and saturating at 65,535. -/
def Cp.countLinkError (c : Cp) : Link → Cp
  | .front => { c with frontErrors := min 65535 (c.frontErrors + 1) }
  | .drive => { c with driveErrors := min 65535 (c.driveErrors + 1) }
  | .console => { c with consoleErrors := min 65535 (c.consoleErrors + 1) }

def Cp.linkErrors (c : Cp) : Link → Nat
  | .front => c.frontErrors
  | .drive => c.driveErrors
  | .console => c.consoleErrors

/-- CP takes a link error: the count, and LINK_ERROR while its flag is clear (R155). -/
def Cp.takeLinkError (c : Cp) (l : Link) : Cp :=
  let c1 := c.countLinkError l
  if c.flags &&& flagLinkError = 0 then c1.takeEvent (.linkError l (c1.linkErrors l)) else c1

/-- LINK_ERROR: CP takes the next link error of the Inlet Port or the Drive Port; of CONSOLE, an error found by its own check
(R155). -/
def execLinkError (l : Link) (s : State) : Host.Outcome State Fault Refusal :=
  .next (s.onCp fun d =>
    match l with
    | .front =>
      if d.paths.frontErrors = 0 then d
      else
        { d with cp := d.cp.takeLinkError .front
                 paths := { d.paths with frontErrors := d.paths.frontErrors - 1 } }
    | .drive =>
      if d.paths.driveErrors = 0 then d
      else
        { d with cp := d.cp.takeLinkError .drive
                 paths := { d.paths with driveErrors := d.paths.driveErrors - 1 } }
    | .console => { d with cp := d.cp.takeLinkError .console })

/-! ## Notices, events, replies -/

/-- STORE_STATE_NOTICE: the store state that SP reports (R157). -/
def execStoreStateNotice (s : State) : Host.Outcome State Fault Refusal :=
  .next (s.onCp fun d =>
    match d.paths.storeStates with
    | [] => d
    | x :: rest => { d with cp := { d.cp with store := x }, paths := { d.paths with storeStates := rest } })

/-- STATUS_NOTICE: CP keeps the latest notice of a block (R169). -/
def execStatusNotice (b : NoticeSource) (s : State) : Host.Outcome State Fault Refusal :=
  .next (s.onCp fun d =>
    match b with
    | .ms =>
      match d.paths.msNotices with
      | [] => d
      | n :: rest => { d with cp := { d.cp with motion := n }, paths := { d.paths with msNotices := rest } }
    | .es =>
      match d.paths.esNotices with
      | [] => d
      | n :: rest => { d with cp := { d.cp with ext := n }, paths := { d.paths with esNotices := rest } }
    | .cr =>
      match d.paths.crNotices with
      | [] => d
      | n :: rest => { d with cp := { d.cp with capture := n }, paths := { d.paths with crNotices := rest } })

/-- EVENT_AT_CP: CP takes the next event of a block (R164). -/
def execEventAtCp (b : Block) (s : State) : Host.Outcome State Fault Refusal :=
  .next (s.onCp fun d =>
    match d.paths.events.get b with
    | [] => d
    | e :: rest =>
      { d with cp := d.cp.takeEvent e, paths := { d.paths with events := d.paths.events.set b rest } })

/-- REPLY_REPORT: the next answer of a block becomes a Reply Report (R159). -/
def execReplyReport (b : Block) (s : State) : Host.Outcome State Fault Refusal :=
  .next (s.onCp fun d =>
    match d.paths.replies.get b with
    | [] => d
    | r :: rest =>
      { d with cp := d.cp.offerReply r, paths := { d.paths with replies := d.paths.replies.set b rest } })

/-! ## Transmission (R160) -/

/-- The report in transmission is complete: it leaves the queue and the next one starts (R160). -/
def CpDesk.finishReport (d : CpDesk) : CpDesk :=
  match d.cp.transmitting, d.cp.queue with
  | true, r :: rest =>
    { d with cp := ({ d.cp with queue := rest, transmitting := false } : Cp).startTransmission
             line := d.line ++ [r.frame] }
  | _, _ => d

/-- REPORT_TRANSMITTED (R160). -/
def execReportTransmitted (s : State) : Host.Outcome State Fault Refusal := .next (s.onCp fun d => d.finishReport)

/-- CP takes HOLD (R160). -/
def Cp.takeHold (c : Cp) : Cp := { c with hold := .held }

/-- CP takes GO (R160). -/
def Cp.takeGo (c : Cp) : Cp := ({ c with hold := .go } : Cp).startTransmission

/-- HOLD (R160). -/
def execHold (s : State) : Host.Outcome State Fault Refusal := .next { s with cp := s.cp.takeHold }

/-- GO (R160). -/
def execGo (s : State) : Host.Outcome State Fault Refusal := .next { s with cp := s.cp.takeGo }

/-! ## Streaming (R161, R163) -/

/-- CP takes a Conditioned Sample (R161). -/
def Cp.takeSample (c : Cp) (x : Sample) : Cp :=
  let c1 : Cp := { c with lastSample := some x.number }
  if c1.stream ∧ x.number % c1.decimation = 0 then c1.offerSample x.toConditioned else c1

/-- CONDITIONED_SAMPLE_AT_CP (R161). -/
def execConditionedSampleAtCp (s : State) : Host.Outcome State Fault Refusal :=
  .next (s.onCp fun d =>
    match d.paths.samplesCp with
    | [] => d
    | x :: rest => { d with cp := d.cp.takeSample x, paths := { d.paths with samplesCp := rest } })

/-- The decimation in use for a requested one (R163). -/
def decimationOf (n : Nat) : Nat :=
  if n < 2 then 1
  else if n < 4 then 2
  else if n < 8 then 4
  else if n < 16 then 8
  else if n < 32 then 16
  else if n < 64 then 32
  else if n < 128 then 64
  else if n < 256 then 128
  else 256

/-- CP takes STREAM_SET (R163). -/
def Cp.takeStreamSet (c : Cp) (tag : Tag) (enable : Bool) (n : Nat) : Cp :=
  ({ c with stream := enable, decimation := decimationOf n } : Cp).offerReply
    (answer .streamSet tag .done (.stream enable (decimationOf n)))

/-- A request that CP owns (R157, R158). -/
def State.cpRequest (s : State) (k : RequestKind) (tag : Tag) (take : Cp → Cp) : State :=
  s.request k tag fun s => { s with cp := take s.cp }

/-- STREAM_SET at CP. Every non-zero enable byte means set (DESIGN CHOICE, log entry 51). -/
def reqStreamSet (tag : Tag) (enable : Byte) (n : Nat) (s : State) : State :=
  s.cpRequest .streamSet tag fun c => c.takeStreamSet tag (decide (enable ≠ 0)) n

/-- STREAM_SET (R163). -/
def execStreamSet (tag : Tag) (enable : Byte) (n : Nat) (s : State) : Host.Outcome State Fault Refusal :=
  .next (reqStreamSet tag enable n s)

/-! ## Flags, mask and mode (R156, R165, R166) -/

/-- CLEAR of a set of flags: the three counts go to 0 with LINK_ERROR (R165). -/
def Cp.clearSet (c : Cp) (f : BitVec 11) : Cp :=
  let c1 := c.clearFlags f
  if f &&& flagLinkError = 0 then c1 else { c1 with frontErrors := 0, driveErrors := 0, consoleErrors := 0 }

/-- CP takes CLEAR (R156, R165). -/
def Cp.takeClear (c : Cp) (tag : Tag) (flags : BitVec 16) : Cp :=
  match flagSet flags with
  | none => c.offerReply (refuse .clear tag .badRequest .unknownFlag .none)
  | some f =>
    let c1 := c.clearSet f
    c1.offerReply (answer .clear tag .done (.cleared c1.flags c1.attention))

def reqClear (tag : Tag) (flags : BitVec 16) (s : State) : State :=
  s.cpRequest .clear tag fun c => c.takeClear tag flags

/-- CLEAR (R165). -/
def execClear (tag : Tag) (flags : BitVec 16) (s : State) : Host.Outcome State Fault Refusal :=
  .next (reqClear tag flags s)

/-- CP takes MASK_SET (R156, R166). -/
def Cp.takeMaskSet (c : Cp) (tag : Tag) (flags : BitVec 16) : Cp :=
  match flagSet flags with
  | none => c.offerReply (refuse .maskSet tag .badRequest .unknownFlag .none)
  | some m =>
    let c1 := c.setMask m
    c1.offerReply (answer .maskSet tag .done (.masked c1.mask c1.attention))

def reqMaskSet (tag : Tag) (flags : BitVec 16) (s : State) : State :=
  s.cpRequest .maskSet tag fun c => c.takeMaskSet tag flags

/-- MASK_SET (R166). -/
def execMaskSet (tag : Tag) (flags : BitVec 16) (s : State) : Host.Outcome State Fault Refusal :=
  .next (reqMaskSet tag flags s)

/-- CP takes ATTN_MODE (R156, R166). -/
def Cp.takeAttnMode (c : Cp) (tag : Tag) (mode : Byte) : Cp :=
  match AttnMode.ofCode mode with
  | none => c.offerReply (refuse .attnMode tag .badRequest .unknownCode .none)
  | some m => (c.setMode m).offerReply (answer .attnMode tag .done (.attnMode m))

def reqAttnMode (tag : Tag) (mode : Byte) (s : State) : State :=
  s.cpRequest .attnMode tag fun c => c.takeAttnMode tag mode

/-- ATTN_MODE (R166). -/
def execAttnMode (tag : Tag) (mode : Byte) (s : State) : Host.Outcome State Fault Refusal :=
  .next (reqAttnMode tag mode s)

/-- ATTN_PULSE_EXPIRY (R168). -/
def execAttnPulseExpiry (s : State) : Host.Outcome State Fault Refusal := .next { s with cp := s.cp.endPulse }

/-! ## STATUS (R169) -/

/-- The STATUS reply, from what CP holds (R169). -/
def Cp.statusRecord (c : Cp) : StatusRecord :=
  { flags := c.flags, mask := c.mask, attention := c.attention, mode := c.mode, attnLow := c.attnLow,
    frontErrors := c.frontErrors, driveErrors := c.driveErrors, consoleErrors := c.consoleErrors, hold := c.hold,
    free := c.free, lossMark := c.lossMark, stream := c.stream, decimation := c.decimation, motion := c.motion,
    ext := c.ext, capture := c.capture, store := c.store, lastSample := c.lastSample }

/-- CP answers STATUS in every store state (R157, R169). -/
def reqStatus (tag : Tag) (s : State) : State := s.cpAnswer (answer .status tag .done (.status s.cp.statusRecord))

/-- STATUS (R169). -/
def execStatus (tag : Tag) (s : State) : Host.Outcome State Fault Refusal := .next (reqStatus tag s)

end Sys2Proof.Machine
end

