-- ==== Sys2Proof/Machine/Store.lean ====
section
/-! DEFINITION. The Store Port with MC's part in it: RESET (R32), autoload (R33 to R36, R174) and STORE (R37, R38). -/

namespace Sys2Proof.Machine

/-! ## RESET (R8, R24, R32, R41, R57, R80, R96, R117, R136, R145, R153, R170, R172) -/

/-- RESET has the effect of power-on: every block at its reset state, nothing under way. What the part has sent, and the
commands that wait, are not the part's state and stay (log entry 28). -/
def State.powerOn (s : State) : State :=
  { State.reset with driveLine := s.driveLine, consoleLine := s.consoleLine, pending := s.pending }

/-- RESET (R32). -/
def execReset (s : State) : Host.Outcome State Fault Refusal := .next s.powerOn

/-! ## Autoload (R33 to R36) -/

/-- SP reports its store state to CP (R36, R169). -/
def Paths.sendStoreState (p : Paths) (x : StoreState) : Paths := { p with storeStates := p.storeStates ++ [x] }

/-- The checks of R33 on a header, in order; `none` when it passes. -/
def headerFault (h : List Byte) : Option StoreReason :=
  if field h 0 2 ≠ [178, 41] then some .badSignature
  else if u8 h 2 ≠ 1 then some .badRevision
  else if u16 h 3 < imageHeaderBytes + 4 ∨ Config.maxPayload < u16 h 3 then some .badLength
  else none

/-- The image length L that a header states. -/
def imageLength (h : List Byte) : Nat := u16 h 3

/-- The identity that an image's header gives; 0 with the flag clear (R34, R174). -/
def imageIdentity (h : List Byte) : Identity :=
  if u8 h 5 = 0 then .zero else { present := true, serial := u32 h 6, capacity := u8 h 10 }

/-- Whether the CRC-32 of an image matches (R34). -/
def imageChecks (image : List Byte) : Bool :=
  decide ((crc32 (image.take (image.length - 4))).toNat = u32 image (image.length - 4))

/-- The table that a record's kind and index bytes name (R174); a Frame or Crosshead record's index is not judged
(log entry 38). -/
def recordRef (kind index : Nat) : Option TableRef :=
  match kind with
  | 1 => some .frame
  | 2 => some .crosshead
  | 3 => if index = 0 then some (.arm .a) else if index = 1 then some (.arm .b) else none
  | 4 => some (.range index)
  | _ => none

/-- One table record at the head of the bytes: the set with its table, and the bytes after it; `none` for BAD_TABLE (R174). -/
def takeRecord (c : CalSet) (b : List Byte) : Option (CalSet × List Byte) :=
  match b with
  | kind :: index :: rest =>
    match recordRef kind.toNat index.toNat, bodyLength kind.toNat rest with
    | some t, some n =>
      if rest.length < n ∨ c.has t = true then none
      else
        match c.load (readTable t (rest.take n)) with
        | .ok (c1, _) => some (c1, rest.drop n)
        | .error _ => none
    | _, _ => none
  | _ => none

/-- The records of an image, one after another (R174); each takes at least two bytes, so `fuel` is the byte count. -/
def takeRecords : Nat → CalSet → List Byte → Option CalSet
  | _, c, [] => some c
  | 0, _, _ :: _ => none
  | fuel + 1, c, b :: bs =>
    match takeRecord c (b :: bs) with
    | some (c1, rest) => takeRecords fuel c1 rest
    | none => none

/-- The records between the header and the CRC. -/
def recordBytes (image : List Byte) : List Byte := (image.take (image.length - 4)).drop imageHeaderBytes

/-- The outcome of an image read whole (R34). -/
def judgeImage (image : List Byte) : Except StoreReason CalSet :=
  if imageChecks image = false then .error .badCheck
  else
    match takeRecords (recordBytes image).length .empty (recordBytes image) with
    | some c => .ok c
    | none => .error .badTable

/-- Autoload ends: SP enters READY, raises its event, and MC sends its summary (R36). -/
def StoreDesk.endAutoload (d : StoreDesk) (cal : CalSet) (i : Identity) (e : Event) : StoreDesk :=
  { mc := { d.mc with cal := cal, identity := i }
    sp := { d.sp with state := .ready, timer := none, image := [] }
    paths := ((d.paths.sendEvent .sp e).sendStoreState .ready).sendSummary cal }

/-- Autoload fails: empty set, zero identity, STORE_ERROR (R36). -/
def StoreDesk.failAutoload (d : StoreDesk) (r : StoreReason) : StoreDesk :=
  d.endAutoload .empty .zero (.storeError r)

/-- The header is read (R33). -/
def StoreDesk.takeHeader (d : StoreDesk) (h : List Byte) : StoreDesk :=
  if d.sp.state = .loading ∧ d.sp.image = [] ∧ h.length = imageHeaderBytes then
    match headerFault h with
    | some r => d.failAutoload r
    | none => { d with sp := { d.sp with image := h, timer := some Config.storeSilenceUs } }
  else d

/-- AUTOLOAD_HEADER_READ (R33). -/
def execAutoloadHeaderRead (h : List Byte) (s : State) : Host.Outcome State Fault Refusal :=
  .next (s.onStore fun d => d.takeHeader h)

/-- The rest of the image is read (R34, R36, R174). -/
def StoreDesk.takeImage (d : StoreDesk) (rest : List Byte) : StoreDesk :=
  if d.sp.state = .loading ∧ d.sp.image ≠ [] ∧ rest.length + imageHeaderBytes = imageLength d.sp.image then
    match judgeImage (d.sp.image ++ rest) with
    | .error r => d.failAutoload r
    | .ok cal => d.endAutoload cal (imageIdentity d.sp.image) (.autoloadDone cal.count)
  else d

/-- AUTOLOAD_IMAGE_READ (R34). -/
def execAutoloadImageRead (rest : List Byte) (s : State) : Host.Outcome State Fault Refusal :=
  .next (s.onStore fun d => d.takeImage rest)

/-- AUTOLOAD_READ_ERROR (R35). -/
def execAutoloadReadError (s : State) : Host.Outcome State Fault Refusal :=
  .next (s.onStore fun d => if d.sp.state = .loading then d.failAutoload .readError else d)

/-- AUTOLOAD_SILENT: the silence timer expires before autoload has ended (R35). -/
def execAutoloadSilent (s : State) : Host.Outcome State Fault Refusal :=
  .next (s.onStore fun d =>
    if d.sp.state = .loading ∧ d.sp.timer.isSome = true then d.failAutoload .silent else d)

/-! ## STORE (R37, R38) -/

/-- MC takes STORE (R37): NOT_READY while one is in flight, else the image and the tag go to SP, which enters WRITING. -/
def StoreDesk.takeStore (d : StoreDesk) (tag : Tag) : StoreDesk :=
  if d.mc.storeInFlight then
    { d with paths := d.paths.sendReply .mc (answer .store tag .notReady .none) }
  else
    { mc := { d.mc with storeInFlight := true }
      sp := { state := .writing, timer := some Config.storeSilenceUs, image := storeImage d.mc.cal d.mc.identity,
              tag := some tag }
      paths := d.paths.sendStoreState .writing }

/-- STORE_AT_MC (R37). -/
def execStoreAtMc (s : State) : Host.Outcome State Fault Refusal :=
  .next (s.onStore fun d =>
    match d.paths.msToMc with
    | .store tag :: rest => StoreDesk.takeStore { d with paths := { d.paths with msToMc := rest } } tag
    | _ => d)

/-- The write completes: VERIFYING, and the read-back begins (R38). -/
def StoreDesk.verify (d : StoreDesk) : StoreDesk :=
  if d.sp.state = .writing then
    { d with
      sp := { d.sp with state := .verifying, timer := some Config.storeSilenceUs }
      paths := d.paths.sendStoreState .verifying }
  else d

/-- WRITE_COMPLETE (R38). -/
def execWriteComplete (s : State) : Host.Outcome State Fault Refusal := .next (s.onStore fun d => d.verify)

/-- The answer to the STORE held; no answer without a tag (R38). -/
def StoreDesk.answerStore (d : StoreDesk) (r : Tag → Reply) : StoreDesk :=
  match d.sp.tag with
  | none => d
  | some tag => { d with paths := d.paths.sendReply .sp (r tag) }

/-- SP enters READY and sends MC the store-done notice (R38). -/
def StoreDesk.finish (d : StoreDesk) : StoreDesk :=
  { d with
    sp := { state := .ready, timer := none, image := [], tag := none }
    paths := { d.paths.sendStoreState .ready with storeDone := d.paths.storeDone + 1 } }

/-- The operation fails (R38). -/
def StoreDesk.failStore (d : StoreDesk) (reason : Reason) (e : StoreReason) : StoreDesk :=
  let d1 := d.answerStore fun tag => refuse .store tag .storeFailed reason .none
  StoreDesk.finish { d1 with paths := d1.paths.sendEvent .sp (.storeError e) }

/-- The read-back completes (R38). -/
def StoreDesk.takeReadBack (d : StoreDesk) (bytes : List Byte) : StoreDesk :=
  if d.sp.state = .verifying then
    if bytes = d.sp.image then (d.answerStore fun tag => answer .store tag .done .none).finish
    else d.failStore .verifyMismatch .verifyMismatch
  else d

/-- READ_BACK_COMPLETE (R38). -/
def execReadBackComplete (bytes : List Byte) (s : State) : Host.Outcome State Fault Refusal :=
  .next (s.onStore fun d => d.takeReadBack bytes)

/-- A STORE is in flight in SP. -/
def Sp.storing (p : Sp) : Bool := p.state = .writing || p.state = .verifying

/-- STORE_WRITE_ERROR (R38). -/
def execStoreWriteError (s : State) : Host.Outcome State Fault Refusal :=
  .next (s.onStore fun d => if d.sp.storing then d.failStore .writeError .writeError else d)

/-- STORE_SILENT (R38). -/
def execStoreSilent (s : State) : Host.Outcome State Fault Refusal :=
  .next (s.onStore fun d => if d.sp.storing && d.sp.timer.isSome then d.failStore .silent .silent else d)

/-- STORE_DONE_NOTICE: MC's store-in-flight mark is cleared (R38). -/
def execStoreDoneNotice (s : State) : Host.Outcome State Fault Refusal :=
  .next (s.onMc fun d =>
    if d.paths.storeDone = 0 then d
    else
      { mc := { d.mc with storeInFlight := false }
        paths := { d.paths with storeDone := d.paths.storeDone - 1 } })

end Sys2Proof.Machine
end

