-- ==== Sys2Proof/Machine/Links.lean ====
section
/-! DEFINITION. The receiving sides of the three links (R2, R93, R154, R172, R173) and the judging of Management Frames
(R156). -/

namespace Sys2Proof.Machine

/-! ## Management Frames (R156, section 11.5) -/

/-- The kind that a code names. -/
def RequestKind.ofCode (n : Nat) : Option RequestKind :=
  [RequestKind.load, .readback, .store, .inquire, .tare, .zeroExt, .zeroPosition, .arm, .start, .pause, .resume, .stop,
    .abort, .resetTest, .jog, .jogStop, .extRemove, .extConfirm, .snapHold, .snapRelease, .readResults, .captureSet,
    .captureTrigger, .captureDrain, .captureRearm, .status, .clear, .maskSet, .attnMode, .streamSet].find?
      fun k => k.code.toNat = n

/-- The bounds of a kind's payload length n (section 11.5). -/
def RequestKind.lengthBounds : RequestKind → Nat × Nat
  | .load => (3, 1024)
  | .readback => (4, 4)
  | .jog => (4, 4)
  | .readResults => (1, 1)
  | .captureSet => (4, 4)
  | .captureDrain => (2, 2)
  | .clear => (2, 2)
  | .maskSet => (2, 2)
  | .attnMode => (1, 1)
  | .streamSet => (3, 3)
  | _ => (0, 0)

/-- Whether a payload's length is one that its kind admits (section 11.5): with a removal mark the body of a LOAD is empty,
otherwise it has the length that its kind and count field give. -/
def RequestKind.lengthFits (k : RequestKind) (p : List Byte) : Bool :=
  decide (k.lengthBounds.1 ≤ p.length) && decide (p.length ≤ k.lengthBounds.2) &&
    (match k with
     | .load =>
       if u8 p 2 ≠ 0 then decide (p.length = 3)
       else
         match u8 p 0 with
         | 0 => true
         | n => if 6 < n then true else decide (bodyLength n (p.drop 3) = some (p.length - 3))
     | _ => true)

/-- A request that R156 refuses, under a kind code that may be unknown. -/
def badRequest (kind : Byte) (tag : Tag) (r : Reason) : Reply :=
  { tag := tag, kind := kind, status := .badRequest, reason := some r, payload := .none }

/-- NOT_READY under any kind code (R157). -/
def notReady (kind : Byte) (tag : Tag) : Reply :=
  { tag := tag, kind := kind, status := .notReady, reason := none, payload := .none }

/-- A LOAD that R156 lets through, by its table kind. -/
def takeLoadFrame (tag : Tag) (p : List Byte) (s : State) : State :=
  let kind := u8 p 0
  let removal := decide (u8 p 2 ≠ 0)
  let body := p.drop 3
  if kind = 5 then reqLoadProgram tag (if removal then none else some (readProgram body)) s
  else if kind = 6 then reqLoadEvaluationParameters tag (if removal then none else some (readEvalParams body)) s
  else
    match tableRef kind (u8 p 1) with
    | some t => reqLoadCalibration tag (if removal then .remove t else readTable t body) s
    | none => s

/-- A READBACK, by its table kind and index (R46, R47, R156). -/
def takeReadbackFrame (tag : Tag) (p : List Byte) (s : State) : State :=
  let at_ (i : Nat) : Byte := BitVec.ofNat 8 (u8 p i)
  if u8 p 0 = 5 ∧ u8 p 1 = 0 then reqReadbackProgram tag (at_ 2) (at_ 3) s
  else if u8 p 0 = 6 ∧ u8 p 1 = 0 then reqReadbackEvaluationParameters tag s
  else reqReadbackCalibration tag (at_ 0) (at_ 1) (at_ 2) (at_ 3) s

/-- A request of a known kind and a fitting length, routed to its owner (R156, R158). -/
def routeRequest (k : RequestKind) (tag : Tag) (p : List Byte) (s : State) : State :=
  match k with
  | .load =>
    if tableKnown (u8 p 0) (u8 p 1) then takeLoadFrame tag p s
    else s.request .load tag fun s => s.cpAnswer (badRequest RequestKind.load.code tag .unknownTable)
  | .readback => takeReadbackFrame tag p s
  | .store => reqStore tag s
  | .inquire => reqInquire tag s
  | .tare => reqTare tag s
  | .zeroExt => reqZeroExt tag s
  | .zeroPosition => reqZeroPosition tag s
  | .arm => reqArm tag s
  | .start => reqStart tag s
  | .pause => reqPause tag s
  | .resume => reqResume tag s
  | .stop => reqStop tag s
  | .abort => reqAbort tag s
  | .resetTest => reqResetTest tag s
  | .jog => reqJog tag (i32 p 0) s
  | .jogStop => reqJogStop tag s
  | .extRemove => reqExtRemove tag s
  | .extConfirm => reqExtConfirm tag s
  | .snapHold => reqSnapHold tag s
  | .snapRelease => reqSnapRelease tag s
  | .readResults => reqReadResults tag (BitVec.ofNat 8 (u8 p 0)) s
  -- The post count is read as unsigned (DESIGN CHOICE, log entry 52).
  | .captureSet => reqCaptureSet tag (BitVec.ofNat 8 (u8 p 0)) (u16 p 1) (BitVec.ofNat 8 (u8 p 3)) s
  | .captureTrigger => reqCaptureTrigger tag s
  | .captureDrain => reqCaptureDrain tag (u16 p 0) s
  | .captureRearm => reqCaptureRearm tag s
  | .status => reqStatus tag s
  | .clear => reqClear tag (BitVec.ofNat 16 (u16 p 0)) s
  | .maskSet => reqMaskSet tag (BitVec.ofNat 16 (u16 p 0)) s
  | .attnMode => reqAttnMode tag (BitVec.ofNat 8 (u8 p 0)) s
  | .streamSet => reqStreamSet tag (BitVec.ofNat 8 (u8 p 0)) (u16 p 1) s

/-- Whether R157 answers a kind with NOT_READY. -/
def RequestKind.gated : Option RequestKind → Bool
  | some .inquire => false
  | some .status => false
  | _ => true

/-- CP judges a request: LOADING first (R157, log entry 6), then the faults of R156 in the order of its table. -/
def takeRequest (kind : Byte) (tag : Tag) (p : List Byte) (s : State) : State :=
  let k := RequestKind.ofCode kind.toNat
  if s.cp.store = .loading ∧ RequestKind.gated k = true then s.cpAnswer (notReady kind tag)
  else
    match k with
    | none => s.cpAnswer (badRequest kind tag .unknownKind)
    | some k => if k.lengthFits p then routeRequest k tag p s else s.cpAnswer (badRequest kind tag .badLength)

/-- UNKNOWN_KIND: a request of a kind outside 16 … 45 (R156). -/
def execUnknownKind (kind : Byte) (tag : Tag) (s : State) : Host.Outcome State Fault Refusal :=
  .next (if (RequestKind.ofCode kind.toNat).isSome then s else takeRequest kind tag [] s)

/-- UNKNOWN_TABLE: a LOAD naming a table that does not exist (R156). -/
def execUnknownTable (tag : Tag) (kind index : Byte) (s : State) : Host.Outcome State Fault Refusal :=
  .next
    (if tableKnown kind.toNat index.toNat then s
     else s.request .load tag fun s => s.cpAnswer (badRequest RequestKind.load.code tag .unknownTable))

/-! ## What a receiver finds (R172, R173) -/

/-- What a receiver makes of the bytes it examines: a candidate that failed, one that passed, or a link control character. -/
inductive RxItem where
  | lost
  | frame (bytes : List Byte)
  | hold
  | go
  deriving DecidableEq, Repr

/-- How a candidate stands, from the bytes held from its delimiter on. -/
inductive Verdict where
  | incomplete
  | fails
  | passes (length : Nat)
  | discarded (length : Nat)
  deriving DecidableEq, Repr

/-- The bound of a link on the payload length (R172). -/
def lengthInBound : Link → Nat → Bool
  | .front, n => n = 16
  | .drive, n => n = 2
  | .console, n => n ≤ Config.maxPayload

/-- The judgement of a complete candidate (R154, R173). -/
def candidatePasses (l : Link) (bs : List Byte) : Bool :=
  match l with
  | .front => (readSampleFrame bs).isSome
  | .drive => (readDriveStatus bs).isSome
  | .console => crcPasses bs && decide (frameLength bs ≤ Config.maxPayload)

/-- The judgement of R172 on the bytes from a delimiter on. `loading` is SP in LOADING, which on FRONT discards complete
candidates without R173. -/
def verdict (l : Link) (loading : Bool) (bs : List Byte) : Verdict :=
  if bs.length < 3 then .incomplete
  else if lengthInBound l (frameLength bs) = false then .fails
  else
    let n := 8 + frameLength bs
    if bs.length < n then .incomplete
    else if l = .front ∧ loading = true then .discarded n
    else if candidatePasses l (bs.take n) then .passes n
    else .fails

/-- A character taken in HUNT that is not a delimiter (R172): HOLD 204 or GO 51 on CONSOLE, else nothing. -/
def huntItem (l : Link) (b : Byte) : List RxItem :=
  match l with
  | .console => if b = 204 then [.hold] else if b = 51 then [.go] else []
  | _ => []

/-- The bytes examined from HUNT, oldest first: what is found, and the bytes of a candidate still incomplete at the end.
`skip` bytes belong to a candidate already judged complete. -/
def scan (l : Link) (loading : Bool) : Nat → List Byte → List RxItem × List Byte
  | _, [] => ([], [])
  | skip + 1, _ :: bs => scan l loading skip bs
  | 0, b :: bs =>
    if b = delimiter then
      match verdict l loading (b :: bs) with
      | .incomplete => ([], b :: bs)
      | .fails => let r := scan l loading 0 bs; (.lost :: r.1, r.2)
      | .passes n => let r := scan l loading (n - 1) bs; (.frame ((b :: bs).take n) :: r.1, r.2)
      | .discarded n => scan l loading (n - 1) bs
    else
      let r := scan l loading 0 bs
      (huntItem l b ++ r.1, r.2)

/-! ## Acting on what is found -/

def Receivers.get (r : Receivers) : Link → Receiver
  | .front => r.front
  | .drive => r.drive
  | .console => r.console

def Receivers.set (r : Receivers) (l : Link) (x : Receiver) : Receivers :=
  match l with
  | .front => { r with front := x }
  | .drive => { r with drive := x }
  | .console => { r with console := x }

/-- A receiver that holds the bytes of an incomplete candidate, its timer at 8 µs; with none it is in HUNT (R172). -/
def receiverOf : List Byte → Receiver
  | [] => .hunt
  | b :: bs => .receiving (b :: bs) Config.receptionUs

/-- A link error (R2, R93, R154): of FRONT none while SP is in LOADING; of CONSOLE taken by CP at once. -/
def State.lose (s : State) (l : Link) : State :=
  match l with
  | .front => if s.sp.state = .loading then s else { s with paths := s.paths.sendFrontError }
  | .drive => { s with paths := s.paths.sendDriveError }
  | .console => { s with cp := s.cp.takeLinkError .console }

/-- A candidate that passed is handed on (R173). -/
def State.handOn (s : State) (l : Link) (bs : List Byte) : State :=
  match l with
  | .front => match readSampleFrame bs with | some f => s.onInlet fun d => d.takeFrame f | none => s
  | .drive => match readDriveStatus bs with | some st => takeDriveStatus st s | none => s
  | .console => takeRequest (BitVec.ofNat 8 (frameKind bs)) (frameTag bs) (framePayload bs) s

/-- One item acted on. -/
def State.takeItem (s : State) (l : Link) : RxItem → State
  | .lost => s.lose l
  | .frame bs => s.handOn l bs
  | .hold => { s with cp := s.cp.takeHold }
  | .go => { s with cp := s.cp.takeGo }

/-- The outcome of an examination: the receiver, then each item in order. -/
def State.receive (s : State) (l : Link) (r : List RxItem × List Byte) : State :=
  r.1.foldl (fun s i => s.takeItem l i) { s with rx := s.rx.set l (receiverOf r.2) }

/-- Whether SP is in LOADING. -/
def State.loading (s : State) : Bool := s.sp.state = .loading

/-- The bytes that a receiver holds. -/
def Receiver.held : Receiver → List Byte
  | .hunt => []
  | .receiving bs _ => bs

/-- A character arrives at a receiver (R172). -/
def State.character (s : State) (l : Link) (c : Byte) : State :=
  s.receive l (scan l s.loading 0 ((s.rx.get l).held ++ [c]))

/-- START_DELIMITER: a character arrives at a link receiver; 165 in HUNT starts a candidate (R172). -/
def execStartDelimiter (l : Link) (c : Byte) (s : State) : Host.Outcome State Fault Refusal := .next (s.character l c)

/-- The candidate held has failed: one link error, and the bytes after its delimiter are examined again (R172). -/
def State.candidateFails (s : State) (l : Link) (held : List Byte) : State :=
  (s.lose l).receive l (scan l s.loading 0 (held.drop 1))

/-- RECEPTION_TIMER_EXPIRY: the candidate has broken off (R172). -/
def execReceptionTimerExpiry (l : Link) (s : State) : Host.Outcome State Fault Refusal :=
  .next
    (match s.rx.get l with
     | .hunt => s
     | .receiving held _ => s.candidateFails l held)

/-- A candidate complete at a receiver (R172, R173): it passes and is handed on, or it fails. -/
def State.candidate (s : State) (l : Link) (bs : List Byte) : State :=
  if candidatePasses l bs then State.handOn { s with rx := s.rx.set l .hunt } l bs else s.candidateFails l bs

/-- SAMPLE_FRAME: a Sample Frame arrives; while SP is in LOADING it is discarded unchecked (R2). -/
def execSampleFrame (bs : List Byte) (s : State) : Host.Outcome State Fault Refusal :=
  .next (if s.loading then { s with rx := s.rx.set .front .hunt } else s.candidate .front bs)

/-- DRIVE_STATUS_FRAME: a Drive Status Frame arrives (R93). -/
def execDriveStatusFrame (bs : List Byte) (s : State) : Host.Outcome State Fault Refusal :=
  .next (s.candidate .drive bs)

/-- CONSOLE_FRAME_ERROR: a Management Frame arrives and is checked (R154). -/
def execConsoleFrameError (bs : List Byte) (s : State) : Host.Outcome State Fault Refusal :=
  .next (s.candidate .console bs)

end Sys2Proof.Machine
end

