-- ==== Sys2Proof/Machine/Dispatch.lean ====
section
/-! DEFINITION. One arm per command: the direct call of its meaning. -/

namespace Sys2Proof.Machine

def exec (i : Instr) (s : State) : Host.Outcome State Fault Refusal :=
  match i with
  | .reset => Sys2Proof.Machine.execReset s
  | .autoloadHeaderRead bytes => Sys2Proof.Machine.execAutoloadHeaderRead bytes s
  | .autoloadImageRead bytes => Sys2Proof.Machine.execAutoloadImageRead bytes s
  | .autoloadReadError => Sys2Proof.Machine.execAutoloadReadError s
  | .autoloadSilent => Sys2Proof.Machine.execAutoloadSilent s
  | .sampleFrame bytes => Sys2Proof.Machine.execSampleFrame bytes s
  | .inletSilent => Sys2Proof.Machine.execInletSilent s
  | .inletStateTag => Sys2Proof.Machine.execInletStateTag s
  | .receptionTimerExpiry link => Sys2Proof.Machine.execReceptionTimerExpiry link s
  | .conditionedSampleConversion => Sys2Proof.Machine.execConditionedSampleConversion s
  | .mcStateTag => Sys2Proof.Machine.execMcStateTag s
  | .dropArmRequest => Sys2Proof.Machine.execDropArmRequest s
  | .programNoticeAtMc => Sys2Proof.Machine.execProgramNoticeAtMc s
  | .tare tag => Sys2Proof.Machine.execTare tag s
  | .zeroExt tag => Sys2Proof.Machine.execZeroExt tag s
  | .zeroPosition tag => Sys2Proof.Machine.execZeroPosition tag s
  | .loadCalibration tag load => Sys2Proof.Machine.execLoadCalibration tag load s
  | .loadFrameTable => Sys2Proof.Machine.execLoadFrameTable s
  | .loadCrossheadTable => Sys2Proof.Machine.execLoadCrossheadTable s
  | .loadArmTable => Sys2Proof.Machine.execLoadArmTable s
  | .loadRangeTable => Sys2Proof.Machine.execLoadRangeTable s
  | .removeCalibrationTable => Sys2Proof.Machine.execRemoveCalibrationTable s
  | .loadOutcome source => Sys2Proof.Machine.execLoadOutcome source s
  | .calibrationSummary => Sys2Proof.Machine.execCalibrationSummary s
  | .loadProgram tag load => Sys2Proof.Machine.execLoadProgram tag load s
  | .loadEvaluationParameters tag load => Sys2Proof.Machine.execLoadEvaluationParameters tag load s
  | .evaluationParametersAtTe => Sys2Proof.Machine.execEvaluationParametersAtTe s
  | .store tag => Sys2Proof.Machine.execStore tag s
  | .storeAtMc => Sys2Proof.Machine.execStoreAtMc s
  | .writeComplete => Sys2Proof.Machine.execWriteComplete s
  | .readBackComplete bytes => Sys2Proof.Machine.execReadBackComplete bytes s
  | .storeWriteError => Sys2Proof.Machine.execStoreWriteError s
  | .storeSilent => Sys2Proof.Machine.execStoreSilent s
  | .storeDoneNotice => Sys2Proof.Machine.execStoreDoneNotice s
  | .readbackCalibration tag kind index pointer count => Sys2Proof.Machine.execReadbackCalibration tag kind index pointer count s
  | .readbackProgram tag pointer count => Sys2Proof.Machine.execReadbackProgram tag pointer count s
  | .readbackEvaluationParameters tag => Sys2Proof.Machine.execReadbackEvaluationParameters tag s
  | .inquire tag => Sys2Proof.Machine.execInquire tag s
  | .arm tag => Sys2Proof.Machine.execArm tag s
  | .armCopyAtTe => Sys2Proof.Machine.execArmCopyAtTe s
  | .armCopyAtEs => Sys2Proof.Machine.execArmCopyAtEs s
  | .start tag => Sys2Proof.Machine.execStart tag s
  | .pause tag => Sys2Proof.Machine.execPause tag s
  | .resume tag => Sys2Proof.Machine.execResume tag s
  | .stop tag => Sys2Proof.Machine.execStop tag s
  | .abort tag => Sys2Proof.Machine.execAbort tag s
  | .resetTest tag => Sys2Proof.Machine.execResetTest tag s
  | .jog tag rate => Sys2Proof.Machine.execJog tag rate s
  | .jogStop tag => Sys2Proof.Machine.execJogStop tag s
  | .conditionedSampleAtMs => Sys2Proof.Machine.execConditionedSampleAtMs s
  | .faultEventAtMs source => Sys2Proof.Machine.execFaultEventAtMs source s
  | .criterionEventAtMs => Sys2Proof.Machine.execCriterionEventAtMs s
  | .extRemovalHold => Sys2Proof.Machine.execExtRemovalHold s
  | .removalComplete => Sys2Proof.Machine.execRemovalComplete s
  | .removalTimeout => Sys2Proof.Machine.execRemovalTimeout s
  | .breakAtMs => Sys2Proof.Machine.execBreakAtMs s
  | .extensometerTag => Sys2Proof.Machine.execExtensometerTag s
  | .driveStatusFrame bytes => Sys2Proof.Machine.execDriveStatusFrame bytes s
  | .conditionedSampleAtEs => Sys2Proof.Machine.execConditionedSampleAtEs s
  | .esStateTag => Sys2Proof.Machine.execEsStateTag s
  | .programNoticeAtEs => Sys2Proof.Machine.execProgramNoticeAtEs s
  | .removalEventAtEs => Sys2Proof.Machine.execRemovalEventAtEs s
  | .extRemove tag => Sys2Proof.Machine.execExtRemove tag s
  | .extConfirm tag => Sys2Proof.Machine.execExtConfirm tag s
  | .removalTimerExpiry => Sys2Proof.Machine.execRemovalTimerExpiry s
  | .breakAtEs => Sys2Proof.Machine.execBreakAtEs s
  | .conditionedSampleAtTe => Sys2Proof.Machine.execConditionedSampleAtTe s
  | .teStateTag => Sys2Proof.Machine.execTeStateTag s
  | .segmentLogEntry => Sys2Proof.Machine.execSegmentLogEntry s
  | .snapHold tag => Sys2Proof.Machine.execSnapHold tag s
  | .snapRelease tag => Sys2Proof.Machine.execSnapRelease tag s
  | .readResults tag part => Sys2Proof.Machine.execReadResults tag part s
  | .holdTimerExpiry => Sys2Proof.Machine.execHoldTimerExpiry s
  | .conditionedSampleAtCr => Sys2Proof.Machine.execConditionedSampleAtCr s
  | .triggerEventAtCr source => Sys2Proof.Machine.execTriggerEventAtCr source s
  | .captureSet tag enable postCount mask => Sys2Proof.Machine.execCaptureSet tag enable postCount mask s
  | .captureTrigger tag => Sys2Proof.Machine.execCaptureTrigger tag s
  | .captureDrain tag count => Sys2Proof.Machine.execCaptureDrain tag count s
  | .captureRearm tag => Sys2Proof.Machine.execCaptureRearm tag s
  | .consoleFrameError bytes => Sys2Proof.Machine.execConsoleFrameError bytes s
  | .unknownKind kind tag => Sys2Proof.Machine.execUnknownKind kind tag s
  | .linkError link => Sys2Proof.Machine.execLinkError link s
  | .storeStateNotice => Sys2Proof.Machine.execStoreStateNotice s
  | .statusNotice source => Sys2Proof.Machine.execStatusNotice source s
  | .conditionedSampleAtCp => Sys2Proof.Machine.execConditionedSampleAtCp s
  | .eventAtCp source => Sys2Proof.Machine.execEventAtCp source s
  | .replyReport source => Sys2Proof.Machine.execReplyReport source s
  | .reportTransmitted => Sys2Proof.Machine.execReportTransmitted s
  | .hold => Sys2Proof.Machine.execHold s
  | .go => Sys2Proof.Machine.execGo s
  | .status tag => Sys2Proof.Machine.execStatus tag s
  | .clear tag flags => Sys2Proof.Machine.execClear tag flags s
  | .maskSet tag flags => Sys2Proof.Machine.execMaskSet tag flags s
  | .attnMode tag mode => Sys2Proof.Machine.execAttnMode tag mode s
  | .streamSet tag enable decimation => Sys2Proof.Machine.execStreamSet tag enable decimation s
  | .attnPulseExpiry => Sys2Proof.Machine.execAttnPulseExpiry s
  | .startDelimiter link character => Sys2Proof.Machine.execStartDelimiter link character s
  | .unknownTable tag kind index => Sys2Proof.Machine.execUnknownTable tag kind index s

end Sys2Proof.Machine
end

