-- ==== Sys2Proof/Safety.lean ====
section
/-! DEFINITION. The vocabulary of the statements: what one step may change, the properties that every step keeps, and the
laws that the spec owns by name. -/

namespace Sys2Proof.Machine

/-! ## Ranges -/

/-- A value brought to the nearest bound of its range (R25, R43, R45, R47). -/
def clampTo (lo hi v : Int) : Int := max lo (min hi v)

/-! ## What a step of MS sends -/

/-- The paths after MS has sent messages to TE, changed its state to each of `tags`, raised events and answered requests, in
that order for each receiver. -/
def Paths.msSends (p : Paths) (toTe : List TeMessage) (tags : List MotionTag) (events : List Event)
    (replies : List Reply) : Paths :=
  { p with
    msToInlet := p.msToInlet ++ tags
    msToMc := p.msToMc ++ tags.map McMessage.tag
    msToEs := p.msToEs ++ tags.map EsMessage.tag
    msToTe := p.msToTe ++ toTe
    events := { p.events with ms := p.events.ms ++ events }
    replies := { p.replies with ms := p.replies.ms ++ replies } }

/-- The status notices of MS as they stand on other paths (R169). -/
def Paths.noticesOf (p q : Paths) : Paths := { p with msNotices := q.msNotices }

/-- The status notices and what a Drive Frame may raise (R92, R169), as they stand on other paths. -/
def Paths.driveOf (p q : Paths) : Paths :=
  { p with
    msNotices := q.msNotices
    driveFaults := q.driveFaults
    events := { p.events with drive := q.events.drive }
    triggers := { p.triggers with drive := q.triggers.drive } }

/-- The state after a command that MS answers at once and that changes nothing else. -/
def State.msAnswers (s : State) (r : Reply) : State := { s with paths := s.paths.msSends [] [] [] [r] }

/-- The sample number that MS reports (R58): that of its last Conditioned Sample. -/
def Ms.lastNumber (m : Ms) : Option Nat := m.last.map fun x => x.number

/-! ## What MS does to a segment and to a test -/

/-- What a step of MS leaves of its own state, and what it sends: messages to TE (its tags among them), tags, events. -/
structure MsEffect where
  ms : Ms
  toTe : List TeMessage
  tags : List MotionTag
  events : List Event
  deriving DecidableEq, Repr

/-- The state after a step of MS that has taken what `p` no longer holds: its effect, the replies, and the status notice as
`t` has it (R169). -/
def State.msDoes (s : State) (p : Paths) (f : MsEffect) (replies : List Reply) (t : State) : State :=
  { s with ms := f.ms, paths := (p.msSends f.toTe f.tags f.events replies).noticesOf t.paths }

/-- MS after a segment has started from a sample (R59, R88). -/
def Ms.started (m : Ms) (i : Nat) (g : Segment) (x : Sample) : Ms :=
  { m with
    cursor := some { index := i, phase := .running }
    continuation := none
    continuationRate := none
    fallbackUsed := false
    segmentTime := 0
    rateInUse :=
      match g.mode with
      | .position => if 0 ≤ g.rate then min g.rate m.vMax else -(min (-g.rate) m.vMax)
      | .strain => min g.rate (m.vMax * 1000000 / (6 * m.lp))
      | .force => g.rate
      | .hold => 0
    eTarget := if g.mode = .strain then x.strain * 4294967296 else m.eTarget
    fTarget := if g.mode = .force then x.force * 4294967296 else m.fTarget
    gainInUse :=
      match g.mode with
      | .strain => g.gain.getD ((m.program.map Program.kStrain).getD 0)
      | .force => g.gain.getD ((m.program.map Program.kForce).getD 0)
      | _ => m.gainInUse }

/-- RATE_CLAMPED at a segment start, when the rate in use is not the segment's rate (R88). -/
def Ms.startEvents (m : Ms) (i : Nat) (g : Segment) (x : Sample) : List Event :=
  let used := (m.started i g x).rateInUse
  if used = g.rate then []
  else [.rateClamped i g.rate used (if g.mode = .strain then .rMax else .vMax) none]

/-- The Segment Log entry of a segment that ends on a sample (R63). -/
def Ms.logEntry (m : Ms) (i : Nat) (cause : EndCause) (x : Sample) : LogEntry :=
  { index := i, cause := cause, number := x.number, force := x.force, strain := x.strain, position := x.relPosition,
    time := m.segmentTime, fallbackUsed := m.fallbackUsed }

/-- The criterion of segment `i` is met on a sample: the entry and SEGMENT_END, then the next segment, or STOPPED with cause
PROGRAM_END (R63). -/
def Ms.criterionEnds (m : Ms) (i : Nat) (g : Segment) (x : Sample) : MsEffect :=
  let e := m.logEntry i (if m.continuation = none then .criterion else .fallbackEnd) x
  let next := if g.action = .next then m.program.bind fun p => p.segments[i + 1]? else none
  match next with
  | some g' =>
    { ms := m.started (i + 1) g' x
      toTe := [.entry e]
      tags := []
      events := .segmentEnd e :: m.startEvents (i + 1) g' x }
  | none =>
    { ms := { m with
        state := .stopped, cause := .programEnd, pauses := .empty, pendingTransition := none,
        cursor := some { index := i, phase := .ended } }
      toTe := [.entry e, .tag (.stopped .programEnd)]
      tags := [.stopped .programEnd]
      events := [.segmentEnd e, .testEnd .stopped .programEnd (some i) (some x.number)] }

/-- A test in segment `i` is stopped on a sample, for a cause of STOPPED (R58, R63). -/
def Ms.testStops (m : Ms) (i : Nat) (e : EndCause) (c : Cause) (x : Sample) : MsEffect :=
  { ms := { m with
      state := .stopped, cause := c, pauses := .empty, pendingTransition := none,
      cursor := some { index := i, phase := .ended } }
    toTe := [.entry (m.logEntry i e x), .tag (.stopped c)]
    tags := [.stopped c]
    events := [.segmentEnd (m.logEntry i e x), .testEnd .stopped c (some i) (some x.number)] }

/-- MS moves to FAULTED for a cause; in a test the segment under the cursor ends on MS's last sample (R58, R63, R76). -/
def Ms.faults (m : Ms) (c : Cause) : MsEffect :=
  let entries : List LogEntry :=
    match m.cursor, m.last with
    | some u, some x =>
      if (m.state = .running ∨ m.state = .paused) ∧ u.phase = .running then [m.logEntry u.index .fault x] else []
    | _, _ => []
  { ms := { m with
      state := .faulted, cause := c, pauses := .empty, pendingTransition := none, jogRate := 0, armReply := none,
      cursor := m.cursor.map fun u => if u.phase = .running then { u with phase := .ended } else u }
    toTe := entries.map TeMessage.entry ++ [.tag (.faulted c)]
    tags := [.faulted c]
    events := entries.map Event.segmentEnd ++
      [.testEnd .faulted c (m.cursor.map Cursor.index) m.lastNumber] }

/-- The answer that a pending ARM gets when ARMING ends without completing (R56). -/
def Ms.armCancelled (m : Ms) : List Reply :=
  match m.armReply with
  | none => []
  | some tag => [answer .arm tag .cancelled .none]

/-- MS returns to RUNNING with no pause cause left, and applies a pending transition of segment `i` (R62, R70, R72). -/
def Ms.returns (m : Ms) (i : Nat) (g : Segment) (x : Sample) : MsEffect :=
  let m1 : Ms := { m with state := .running, cause := .none, pauses := .empty, pendingTransition := none }
  let f : MsEffect :=
    if m.pendingTransition = none then { ms := m1, toTe := [], tags := [], events := [] } else m1.criterionEnds i g x
  { f with toTe := .tag .running :: f.toTe, tags := .running :: f.tags }

/-- MS in segment `i` of the program it holds, with a last sample: what holds of it in RUNNING and PAUSED. -/
def Ms.inSegment (m : Ms) (i : Nat) (g : Segment) (x : Sample) : Prop :=
  m.cursor = some { index := i, phase := .running } ∧ (m.program.bind fun p => p.segments[i]?) = some g ∧
    m.last = some x

/-! ## What MS does on a sample -/

/-- One effect after another, for each receiver in this order. -/
def MsEffect.andThen (f g : MsEffect) : MsEffect :=
  { ms := g.ms, toTe := f.toTe ++ g.toTe, tags := f.tags ++ g.tags, events := f.events ++ g.events }

/-- Whether a sample meets a segment's end criterion at stage 2 of R60, with the segment time and the occurrence marks of MS
(R61, R62). -/
def Ms.meets (m : Ms) (g : Segment) (x : Sample) : Prop :=
  let passes (v : Int) : Prop := match g.sense with | .atOrAbove => g.endValue ≤ v | .atOrBelow => v ≤ g.endValue
  match g.endKind with
  | .strainReached => passes x.strain
  | .forceReached => passes x.force
  | .positionReached => passes x.relPosition
  | .timeElapsed => g.endValue * 1000 ≤ (m.segmentTime : Int)
  | .extReleased => m.releasedMark = true
  | .yieldDone => m.yieldMark = true
  | .proofDone => m.proofMark = true
  | .none => False

/-- A ramp target advanced at a rate over the gap of a sample, its integer part saturated (R81, R84, R85; log entry 9). -/
def rampTarget (target rate : Int) (x : Sample) : Int :=
  let v := target + x.gap * roundDiv (rate * 4294967296) x.period.rate
  clampTo (-2147483647) 2147483647 (v / 4294967296) * 4294967296 + v % 4294967296

/-- The increment of POSITION mode and of a jog (R83). -/
def positionIncrement (rate : Int) (x : Sample) : Int := x.gap * roundDiv (rate * 4294967296) (6 * x.period.rate)

/-- The demand after an increment within the step bound, before the travel bound (R81, R82). -/
def Ms.stepped (m : Ms) (x : Sample) (delta : Int) : Int :=
  let bound := x.gap * roundDiv (m.vMax * 4294967296) (6 * x.period.rate)
  m.demand + clampTo (-bound) bound delta

/-- MS with the ramp targets advanced for a sample, and the increment of the mode in effect (R83 to R86). -/
def Ms.increments (m : Ms) (g : Segment) (x : Sample) : Ms × Int :=
  match m.continuation, g.mode with
  | some _, _ => (m, positionIncrement (m.continuationRate.getD 0) x)
  | none, .position => (m, positionIncrement m.rateInUse x)
  | none, .strain =>
    let e := rampTarget m.eTarget m.rateInUse x
    ({ m with eTarget := e },
      x.gap * roundDiv (m.rateInUse * m.lp * 4294967296) (1000000 * x.period.rate) +
        (e / 4294967296 - x.strain) * m.gainInUse * 65536)
  | none, .force =>
    let f := rampTarget m.fTarget m.rateInUse x
    ({ m with fTarget := f }, (f / 4294967296 - x.force) * m.gainInUse * 65536)
  | none, .hold => (m, 0)

/-- Stage 4 of R60: the new demand of segment `i`; at a travel bound TRAVEL_LIMIT, and the test stops (R75, R87). -/
def Ms.formsDemand (m : Ms) (i : Nat) (g : Segment) (x : Sample) : MsEffect × List Trigger :=
  let m1 := (m.increments g x).1
  let d := m1.stepped x (m.increments g x).2
  let within : MsEffect × List Trigger := ({ ms := { m1 with demand := d }, toTe := [], tags := [], events := [] }, [])
  match m.summary.frame with
  | none => within
  | some t =>
    if t.travelMin * 4294967296 ≤ d ∧ d ≤ t.travelMax * 4294967296 then within
    else
      let b := if d < t.travelMin * 4294967296 then t.travelMin else t.travelMax
      let f := Ms.testStops { m1 with demand := b * 4294967296 } i .travelLimit .travelLimit x
      ({ f with events := .travelLimit b x.number .running :: f.events }, [.travelLimit])

/-- Stage 3 of R60 on a STRAIN segment `i` that meets a crosshead sample: the continuation of R64 at the rate of R89. -/
def Ms.continues (m : Ms) (i : Nat) (g : Segment) (x : Sample) : MsEffect :=
  match g.fallback with
  | some v =>
    let rate := min v m.vMax
    { ms := { m with continuation := some .fallback, continuationRate := some rate, fallbackUsed := true }
      toTe := []
      tags := []
      events := (if rate = v then [] else [.rateClamped i v rate .vMax (some .fallback)]) ++
        [.segmentFallback i x.number .fallback rate false] }
  | none =>
    let rate := roundDiv (m.rateInUse * m.lp * 6) 1000000
    { ms := { m with
        continuation := some .equivalent, continuationRate := some rate, state := .paused, cause := .none,
        pauses := { m.pauses with extFailed := true } }
      toTe := [.tag .paused]
      tags := [.paused]
      events := [.segmentFallback i x.number .equivalent rate true] }

/-- Stages 3 and 4 of R60 in segment `i`. -/
def Ms.moves (m : Ms) (i : Nat) (g : Segment) (x : Sample) : MsEffect × List Trigger :=
  if g.mode = .strain ∧ m.continuation = none ∧ x.source = .crosshead then
    let c := m.continues i g x
    if g.fallback.isSome then (c.andThen (c.ms.formsDemand i g x).1, (c.ms.formsDemand i g x).2) else (c, [])
  else m.formsDemand i g x

/-- The state after MS has taken sample `x` from its path: the effect, the replies, the triggers for CR, and the Drive Frame
with its status notice; the eighth unanswered frame raises DRIVE_SILENT (R90, R92, R169). `d` is the Drive Port as the
effect leaves it. -/
def State.afterSample (s : State) (rest : List Sample) (x : Sample) (f : MsEffect) (triggers : List Trigger)
    (replies : List Reply) (d : DrivePort) : State :=
  let enable : Bool :=
    decide (f.ms.state = .jogging ∨ f.ms.state = .armed ∨ f.ms.state = .running ∨ f.ms.state = .paused ∨
      f.ms.state = .stopped)
  let demand := clampTo (-2147483648) 2147483647 (roundDiv f.ms.demand 4294967296)
  let silent := enable = true ∧ d.unanswered = 7
  let drive : DrivePort := { d with
    history := (if d.history.length < 8 then d.history else d.history.drop 1) ++ [(x.seq, enable)]
    unanswered := if enable then min 8 (d.unanswered + 1) else d.unanswered
    sentDemand := demand
    sentEnable := enable }
  let p := Paths.msSends { s.paths with samplesMs := rest } f.toTe f.tags f.events replies
  { s with
    ms := f.ms
    drive := drive
    driveLine := s.driveLine ++ [driveFrame x.seq demand enable]
    paths := { p with
      driveFaults := p.driveFaults ++ (if silent then [.driveSilent] else [])
      events := { p.events with drive := p.events.drive ++ (if silent then [.driveSilent 8 x.seq] else []) }
      triggers := { p.triggers with
        ms := p.triggers.ms ++ triggers
        drive := p.triggers.drive ++ (if silent then [.fault .driveSilent] else []) }
      msNotices := p.msNotices ++ [.of f.ms drive] } }

/-! ## What ES, TE and CR send -/

/-- The state after a step of ES: its own state, its tag to MS if it sends one, events, replies, and the status notice of a
change of state (R97, R169). `p` holds what ES has taken and the other messages it has sent. -/
def State.esDoes (s : State) (p : Paths) (e : Es) (tag : Bool) (events : List Event) (replies : List Reply) : State :=
  { s with
    es := e
    paths := { p with
      extTags := p.extTags ++ (if tag then [{ name := e.state.name, generation := e.generation }] else [])
      events := { p.events with es := p.events.es ++ events }
      replies := { p.replies with es := p.replies.es ++ replies }
      esNotices := p.esNotices ++ (if e.state = s.es.state then [] else [e.state]) } }

/-- The state after a step of CR: its own state, events, replies, and the status notice of a change of what it reports
(R169). `p` holds what CR has taken. -/
def State.crDoes (s : State) (p : Paths) (c : Cr) (events : List Event) (replies : List Reply) : State :=
  { s with
    cr := c
    paths := { p with
      events := { p.events with cr := p.events.cr ++ events }
      replies := { p.replies with cr := p.replies.cr ++ replies }
      crNotices := p.crNotices ++ (if CrNotice.of c = CrNotice.of s.cr then [] else [.of c]) } }

/-- The numbers of the oldest and the newest record held, or absent (R148). -/
def Cr.oldest (c : Cr) : Option Nat := c.ring.head?.map CaptureRecord.number
def Cr.newest (c : Cr) : Option Nat := c.ring.getLast?.map CaptureRecord.number

/-- The ring after a sample taken in FILLING or POST (R146). -/
def Cr.recorded (c : Cr) (x : Sample) : List CaptureRecord :=
  if ∃ n, c.newest = some n ∧ x.number ≤ n then c.ring
  else (if 4096 ≤ c.ring.length then c.ring.tail else c.ring) ++
    [{ number := x.number, force := x.force, strain := x.strain, position := x.relPosition, source := x.source,
       uncal := x.uncal, held := x.held, overrange := x.overrange, validA := x.validA, validB := x.validB,
       sourceChanged := x.sourceChanged, gap := decide (1 < x.gap) }]

/-- CR entering HELD, and the CAPTURE_HELD it raises (R148). -/
def Cr.enteredHeld (c : Cr) : Cr × List Event :=
  ({ c with state := .held }, [.captureHeld c.cause c.trigger c.ring.length c.oldest c.newest])

/-- CR after a masked trigger taken in FILLING (R147). -/
def Cr.triggered (c : Cr) (t : Trigger) : Cr × List Event :=
  let c1 : Cr := { c with trigger := c.newest, cause := some t, remaining := c.post }
  if c.post = 0 then c1.enteredHeld else ({ c1 with state := .post }, [])

/-- A reply of CR: the ring after the request, and what the answering rule adds (section 9.4). -/
def Cr.says (c : Cr) (k : RequestKind) (tag : Tag) (st : Status) (r : Option Reason) (more : CaptureMore) : Reply :=
  { tag := tag, kind := k.code, status := st, reason := r
    payload := .capture { state := c.state, held := c.ring.length, trigger := c.trigger, cause := c.cause } more }

/-! ## What CP does -/

/-- A report that is a Sample Report. -/
def Report.isSample : Report → Bool
  | .sample _ => true
  | _ => false

/-- CP after it has started the head report where R160 has it start one. -/
def Cp.begun (c : Cp) : Cp :=
  { c with transmitting := c.transmitting || (decide (c.hold = .go) && decide (c.queue ≠ [])) }

/-- The queue with an Event or Reply Report added by R162's table; `none` when the report is discarded. -/
def Cp.queued (c : Cp) (r : Report) : Option (List Report) :=
  let sent := if c.transmitting then 1 else 0
  if c.queue.length < 64 then some (c.queue ++ [r])
  else if (c.queue.drop sent).any Report.isSample then
    some (c.queue.take sent ++ (c.queue.drop sent).eraseP Report.isSample ++ [r])
  else none

/-- CP with the flags of a set set, and the ATTN pin after it (R164, R167, R168). -/
def Cp.raised (c : Cp) (f : BitVec 11) : Cp :=
  let flags := c.flags ||| f
  match c.mode with
  | .latched => { c with flags := flags, attnLow := decide (flags &&& c.mask ≠ 0) }
  | .pulse =>
    if f &&& c.mask &&& ~~~c.flags ≠ 0 ∧ c.pulse = none then
      { c with flags := flags, attnLow := true, pulse := some 2000 }
    else { c with flags := flags }

/-- CP after a report is lost: the loss mark and QUEUE_LOSS, bit 9 (R162). -/
def Cp.lost (c : Cp) : Cp := Cp.raised { c with lossMark := true } 512

/-- CP after it has offered a Reply Report (R159, R162). -/
def Cp.replied (c : Cp) (r : Reply) : Cp :=
  match c.queued (.reply r) with
  | some q => Cp.begun { c with queue := q }
  | none => c.lost

/-- CP after it has set an event's flag and offered its Event Report (R162, R164). -/
def Cp.told (c : Cp) (e : Event) (f : BitVec 11) (number : Option Nat) : Cp :=
  let c1 := c.raised f
  match c1.queued (.event e number c.lossMark) with
  | some q => Cp.begun { c1 with queue := q, lossMark := false }
  | none => c1.lost

/-- The attention flag of an event kind code, for every kind but SEGMENT_FALLBACK, 16 (R164, section 11.5). -/
def kindFlag (code : Nat) : BitVec 11 :=
  if code ≤ 11 then 64
  else if code = 12 then 1024
  else if code = 14 then 1
  else if code = 18 ∨ code = 19 ∨ code = 24 ∨ code = 25 then 32
  else if code = 20 ∨ code = 23 then 16
  else if code = 21 then 256
  else if code = 26 ∨ code = 27 then 2
  else if code = 29 ∨ code = 30 then 4
  else if code = 31 then 8
  else if code = 33 then 128
  else 0

/-- The count of a link after one more link error (R155). -/
def Cp.counted (c : Cp) : Link → Cp
  | .front => { c with frontErrors := min (c.frontErrors + 1) 65535 }
  | .drive => { c with driveErrors := min (c.driveErrors + 1) 65535 }
  | .console => { c with consoleErrors := min (c.consoleErrors + 1) 65535 }

def Cp.countOf (c : Cp) : Link → Nat
  | .front => c.frontErrors
  | .drive => c.driveErrors
  | .console => c.consoleErrors

/-- CP after a link error (R155): LINK_ERROR, bit 8, with the count of the link while the flag is clear. -/
def Cp.linkErrorTaken (c : Cp) (l : Link) : Cp :=
  let c1 := c.counted l
  if c.flags.getLsbD 8 = true then c1 else c1.told (.linkError l (c1.countOf l)) 256 c.lastSample

/-- ATTN after a change of flags or mask that starts no pulse (R165, R166). -/
def Cp.settled (c : Cp) : Cp :=
  { c with attnLow := if c.mode = .latched then decide (c.flags &&& c.mask ≠ 0) else c.attnLow }

/-- ES after it has recorded a sample, at stage 5 of R101. -/
def Es.recorded (e : Es) (x : Sample) : Es :=
  { e with
    history := some { dLA := x.dLA, dLB := x.dLB, force := x.force }
    last := some { number := x.number, strain := x.strain, source := x.source, contactA := x.contactA,
                   contactB := x.contactB } }

/-- The state that R98 gives for a fitted set and the contact bits. -/
def seatedBy (fitted : Option Fitted) (a b : Bool) : ExtState :=
  match fitted with
  | none => .notFitted
  | some .none => .notFitted
  | some .armA => if a = true then .seated else .unseated
  | some .armB => if b = true then .seated else .unseated
  | some .both => if a = true ∧ b = true then .seated else .unseated

/-- ES in REMOVAL_PENDING at the start of the protocol (R109). -/
def Es.removalStarted (e : Es) (timeout : Int) : Es :=
  { e with state := .removalPending .awaitBoth, timedOut := false, eventMark := false, timer := some timeout.toNat }

/-! ## Tables -/

/-- 1 for a value outside its range, else 0: what one field adds to the clamp count. -/
def clampCounts (lo hi v : Int) : Nat := if v < lo ∨ hi < v then 1 else 0

/-- The structural fault of a segment, by the codes of its LOAD and the table of R44 in its order; `criterion` is the removal
criterion's code, 0 for NONE. Modes: 0 POSITION, 1 STRAIN, 2 FORCE, 3 HOLD. End kinds: 2 POSITION_REACHED, 4 EXT_RELEASED,
5 YIELD_DONE, 6 PROOF_DONE, 7 NONE. -/
def segmentFault (criterion : Nat) (g : RawSegment) : Option Reason :=
  if 3 < g.mode ∨ 7 < g.endKind ∨ 1 < g.endSense ∨ 1 < g.endAction then some .unknownCode
  else if g.mode = 3 ∧ (g.endKind = 2 ∨ g.endKind = 5 ∨ g.endKind = 6) then some .endKindNotAllowed
  else if g.endKind = 4 ∧ criterion = 0 then some .extReleasedWithoutRemoval
  else if g.fallback.isSome = true ∧ g.mode ≠ 1 then some .fallbackNotAllowed
  else if g.gain.isSome = true ∧ (g.mode = 0 ∨ g.mode = 3) then some .gainNotAllowed
  else none

/-- What a segment adds to the clamp count (R45): 1 for each of its numeric fields outside its range. -/
def segmentClamps (g : RawSegment) : Nat :=
  (match g.mode with
   | 0 => if 1 ≤ g.rate.natAbs ∧ g.rate.natAbs ≤ 1000000 then 0 else 1
   | 1 => clampCounts 1 1000000 g.rate
   | 2 => if 1 ≤ g.rate.natAbs ∧ g.rate.natAbs ≤ 100000000 then 0 else 1
   | _ => if g.rate = 0 then 0 else 1) +
    (if g.endKind = 3 then clampCounts 1 4294967 g.endValue else 0) +
    (match g.fallback with | none => 0 | some v => clampCounts 1 1000000 v) +
    (match g.gain with | none => 0 | some v => clampCounts 0 65536000 v)

/-- The values of a list rise strictly up to index `i`, and the one at `i + 1` does not lie above the one at `i` (R27). -/
def FirstNotRising (l : List Int) (i : Nat) : Prop :=
  (∃ a b, l[i]? = some a ∧ l[i + 1]? = some b ∧ b ≤ a) ∧
    ∀ j, j < i → ∀ a b, l[j]? = some a → l[j + 1]? = some b → a < b

/-- The paths after MC has answered a LOAD and sent its outcome, behind its summary with a DONE (R29, log entry 35). -/
def Paths.mcAnswersLoad (p : Paths) (rest : List McMessage) (r : Reply) (o : LoadOutcome) (sums : List CalSummary) :
    Paths :=
  { p with
    msToMc := rest
    replies := { p.replies with mc := p.replies.mc ++ [r] }
    mcToMs := p.mcToMs ++ sums.map McToMs.summary ++ [.outcome o] }

/-! ## The records of a store image (R174) -/

/-- A table record of an image. -/
structure TableRecord where
  kind : Byte
  index : Byte
  body : List Byte
  deriving DecidableEq, Repr

def TableRecord.bytes (r : TableRecord) : List Byte := r.kind :: r.index :: r.body

/-- The table that a record is of; none for a kind outside 1 … 4 and an Arm index above 1. -/
def TableRecord.table (r : TableRecord) : Option TableRef :=
  if r.kind = 1 then some .frame
  else if r.kind = 2 then some .crosshead
  else if r.kind = 3 ∧ r.index = 0 then some (.arm .a)
  else if r.kind = 3 ∧ r.index = 1 then some (.arm .b)
  else if r.kind = 4 then some (.range r.index.toNat)
  else none

/-- The length of the body of a kind, of a Range Table from the breakpoint count in its body; at least the 5 bytes up to it. -/
def recordLength (kind : Nat) (body : List Byte) : Nat :=
  match kind with
  | 1 => 25
  | 2 => 4
  | 3 => 4
  | 4 => if body.length < 5 then 5 else 5 + 8 * u8 body 4
  | _ => 0

def TableRecord.fits (r : TableRecord) : Prop := r.body.length = recordLength r.kind.toNat r.body

/-- A table that passes its check (R25 to R27); a removal is no table. -/
def tablePasses : CalLoad → Prop
  | .frame t => t.travelMin < t.travelMax
  | .crosshead g => g ≠ 0
  | .arm _ g => g ≠ 0
  | .range code t =>
    code ≤ 3 ∧ 2 ≤ t.points.length ∧ t.points.length ≤ 16 ∧ (t.points.map (·.1)).Pairwise (· < ·) ∧
      (t.points.map (·.2)).Pairwise (· < ·)
  | .remove _ => False

/-- A record whose table passes its check. -/
def TableRecord.good (r : TableRecord) : Prop := r.fits ∧ ∃ t, r.table = some t ∧ tablePasses (readTable t r.body)

/-- The set with a table that has passed its check, its fields clamped (R25, R27). -/
def CalSet.installed (c : CalSet) : CalLoad → CalSet
  | .frame t =>
    let fMax := clampTo 1 2147483647 t.fMax
    let table : FrameTable :=
      { fMax := fMax, vMax := clampTo 1 1000000 t.vMax, travelMin := t.travelMin, travelMax := t.travelMax,
        compliance := clampTo 0 65536000 t.compliance, rangesInUse := clampTo 1 4 t.rangesInUse,
        jogForceLimit := clampTo 1 fMax t.jogForceLimit }
    { c with frame := some table }
  | .crosshead g => { c with crosshead := some g }
  | .arm .a g => { c with armA := some g }
  | .arm .b g => { c with armB := some g }
  | .range code t =>
    let table : Option RangeTable := some { t with zeroOffset := clampTo (-8388608) 8388607 t.zeroOffset }
    { c with
      range0 := if code = 0 then table else c.range0
      range1 := if code = 1 then table else c.range1
      range2 := if code = 2 then table else c.range2
      range3 := if code = 3 then table else c.range3 }
  | .remove _ => c

def TableRecord.installIn (c : CalSet) (r : TableRecord) : CalSet :=
  match r.table with
  | none => c
  | some t => c.installed (readTable t r.body)

/-! ## What TE raises, by detector -/

/-- The events of the yield detector, of the modulus fit and of the proof detector (R135). -/
def Event.isYield : Event → Bool
  | .yieldUpper _ _ => true
  | .yieldDone _ _ _ _ _ => true
  | _ => false
def Event.isFit : Event → Bool
  | .fitDone _ _ _ _ => true
  | .fitFailed _ _ _ => true
  | _ => false
def Event.isProof : Event → Bool
  | .proof _ _ => true
  | _ => false

/-- The messages of the yield and of the proof detector to MS and ES. -/
def TeEvent.isYield : TeEvent → Bool
  | .yieldDone _ _ => true
  | _ => false
def TeEvent.isProof : TeEvent → Bool
  | .proof _ _ => true
  | _ => false

/-! ## Requests -/

/-- The request that a command is: its kind and its tag (section 11.5); `none` for what no request brings about. -/
def requestOf : Instr → Option (RequestKind × Tag)
  | .loadCalibration tag _ => some (.load, tag)
  | .loadProgram tag _ => some (.load, tag)
  | .loadEvaluationParameters tag _ => some (.load, tag)
  | .readbackCalibration tag _ _ _ _ => some (.readback, tag)
  | .readbackProgram tag _ _ => some (.readback, tag)
  | .readbackEvaluationParameters tag => some (.readback, tag)
  | .store tag => some (.store, tag)
  | .inquire tag => some (.inquire, tag)
  | .tare tag => some (.tare, tag)
  | .zeroExt tag => some (.zeroExt, tag)
  | .zeroPosition tag => some (.zeroPosition, tag)
  | .arm tag => some (.arm, tag)
  | .start tag => some (.start, tag)
  | .pause tag => some (.pause, tag)
  | .resume tag => some (.resume, tag)
  | .stop tag => some (.stop, tag)
  | .abort tag => some (.abort, tag)
  | .resetTest tag => some (.resetTest, tag)
  | .jog tag _ => some (.jog, tag)
  | .jogStop tag => some (.jogStop, tag)
  | .extRemove tag => some (.extRemove, tag)
  | .extConfirm tag => some (.extConfirm, tag)
  | .snapHold tag => some (.snapHold, tag)
  | .snapRelease tag => some (.snapRelease, tag)
  | .readResults tag _ => some (.readResults, tag)
  | .captureSet tag _ _ _ => some (.captureSet, tag)
  | .captureTrigger tag => some (.captureTrigger, tag)
  | .captureDrain tag _ => some (.captureDrain, tag)
  | .captureRearm tag => some (.captureRearm, tag)
  | .status tag => some (.status, tag)
  | .clear tag _ => some (.clear, tag)
  | .maskSet tag _ => some (.maskSet, tag)
  | .attnMode tag _ => some (.attnMode, tag)
  | .streamSet tag _ _ => some (.streamSet, tag)
  | _ => none

/-- A command of the CONSOLE link with which one step may hand on several Management Frames: those held after the delimiter
of a candidate that failed (R172). Each of them acts as its own request does. -/
def handsOnFrames : Instr → Bool
  | .startDelimiter .console _ => true
  | .receptionTimerExpiry .console => true
  | .consoleFrameError _ => true
  | _ => false

/-- The command at the front of the queue, if any, is neither RESET nor one that may hand on several frames. -/
def State.singleStep (s : State) : Prop :=
  ∀ c, s.pending.head? = some c → c ≠ .reset ∧ handsOnFrames c = false

/-! ## Frames and receivers -/

/-- A segment as the 22 bytes of a LOAD (section 11.5). -/
def RawSegment.bytes (g : RawSegment) : List Byte :=
  c1 g.mode ++ c1 g.endKind ++ c1 g.endSense ++ c1 g.endAction ++ quantity g.rate ++ quantity g.endValue ++
    optQuantity g.fallback ++ optQuantity g.gain

/-- A Test Program as the body of a LOAD (section 11.5). -/
def RawProgram.bytes (p : RawProgram) : List Byte :=
  c1 p.labelLength ++ p.label ++ quantity p.l0 ++ quantity p.lc ++ quantity p.lp ++ quantity p.s0 ++ c1 p.fitted ++
    c1 p.autoTare ++ c1 p.autoArm ++ c1 p.autoPosition ++ quantity p.kStrain ++ quantity p.kForce ++ c1 p.criterion ++
    quantity p.removalStrain ++ writeInt 2 p.removalTimeout ++ quantity p.slip ++ c1 p.segments.length ++
    p.segments.flatMap Machine.RawSegment.bytes

/-- The payload of a calibration LOAD: kind, index, removal mark, body (section 11.5). -/
def loadPayload : CalLoad → List Byte
  | .frame t => [1, 0, 0] ++ FrameTable.bytes t
  | .crosshead g => [2, 0, 0] ++ quantity g
  | .arm i g => [3, BitVec.ofNat 8 (armCode i), 0] ++ quantity g
  | .range code t => [4, BitVec.ofNat 8 code, 0] ++ RangeTable.bytes t
  | .remove t => [BitVec.ofNat 8 (tableCodes t).1, BitVec.ofNat 8 (tableCodes t).2, 1]

/-- The payload of a request's Management Frame (section 11.5); `none` for a command that no frame carries. -/
def payloadOf : Instr → Option (List Byte)
  | .loadCalibration _ l => some (loadPayload l)
  | .loadProgram _ none => some [5, 0, 1]
  | .loadProgram _ (some p) => some ([5, 0, 0] ++ RawProgram.bytes p)
  | .loadEvaluationParameters _ none => some [6, 0, 1]
  | .loadEvaluationParameters _ (some p) => some ([6, 0, 0] ++ EvalParams.bytes p)
  | .readbackCalibration _ kind index pointer count =>
    if (kind = 5 ∨ kind = 6) ∧ index = 0 then none else some [kind, index, pointer, count]
  | .readbackProgram _ pointer count => some [5, 0, pointer, count]
  | .readbackEvaluationParameters _ => some [6, 0, 0, 0]
  | .jog _ rate => some (quantity rate)
  | .readResults _ part => some [part]
  | .captureSet _ enable post mask => some (enable :: c2 post ++ [mask])
  | .captureDrain _ count => some (c2 count)
  | .clear _ flags => some (c2 flags.toNat)
  | .maskSet _ flags => some (c2 flags.toNat)
  | .attnMode _ mode => some [mode]
  | .streamSet _ enable n => some (enable :: c2 n)
  | .store _ | .inquire _ | .tare _ | .zeroExt _ | .zeroPosition _ | .arm _ | .start _ | .pause _ | .resume _ | .stop _
  | .abort _ | .resetTest _ | .jogStop _ | .extRemove _ | .extConfirm _ | .snapHold _ | .snapRelease _
  | .captureTrigger _ | .captureRearm _ | .status _ => some []
  | _ => none

/-- The Management Frame of a request (sections 11.2 and 11.5). -/
def managementFrame (c : Instr) : Option (List Byte) :=
  match requestOf c, payloadOf c with
  | some (k, tag), some p => some (envelope k.code.toNat tag p)
  | _, _ => none

/-- Whether a payload has a length that section 11.5 gives its kind's code. A LOAD with a removal mark has no body; else its
body has the length that its table kind and its own count field give. -/
def payloadFits (kind : Nat) (p : List Byte) : Prop :=
  match kind with
  | 16 =>
    3 ≤ p.length ∧ p.length ≤ 1024 ∧
      (if u8 p 2 ≠ 0 then p.length = 3
       else
         match u8 p 0 with
         | 1 => p.length = 28
         | 2 => p.length = 7
         | 3 => p.length = 7
         | 4 => 8 ≤ p.length ∧ p.length = 8 + 8 * u8 p 7
         | 5 => 60 ≤ p.length ∧ p.length = 60 + 22 * u8 p 59
         | 6 => p.length = 36
         | _ => True)
  | 17 => p.length = 4
  | 30 => p.length = 4
  | 36 => p.length = 1
  | 37 => p.length = 4
  | 39 => p.length = 2
  | 42 => p.length = 2
  | 43 => p.length = 2
  | 44 => p.length = 1
  | 45 => p.length = 3
  | _ => p.length = 0

/-! ### The bytes that the part sends -/

/-- A value in `n` bytes, least significant first, in two's complement (section 11.1). -/
def littleEndian (n : Nat) (v : Int) : List Byte := (List.range n).map fun i => BitVec.ofInt 8 (v / 256 ^ i)

/-- Flags in one byte, the first listed in bit 0 (section 11.1). -/
def packed (l : List Bool) : Byte := BitVec.ofNat 8 (l.foldr (fun b n => b.toNat + 2 * n) 0)

/-- An optional value of `n` bytes: its presence byte, then the value, 0 when absent (section 11.1). -/
def present (n : Nat) (v : Option Int) : List Byte := packed [v.isSome] :: littleEndian n (v.getD 0)

/-- A frame in the envelope of section 11.2: delimiter, length, kind, tag, payload and CRC. -/
def isFrame (bs : List Byte) (kind : Nat) (tag : Tag) (payload : List Byte) : Prop :=
  bs.length = 8 + payload.length ∧ bs.head? = some 165 ∧ frameLength bs = payload.length ∧ frameKind bs = kind ∧
    frameTag bs = tag ∧ framePayload bs = payload ∧ crcPasses bs = true

/-- The fields of an Event Report (section 11.5), as the raising rules list them. The forms that no layout gives are log entries 14,
18, 19, 43 and 47 to 49. -/
def listedFields (e : Event) : List Byte :=
  let n4 (v : Int) : List Byte := littleEndian 4 v
  let code (n : Nat) : List Byte := littleEndian 1 n
  let count (n : Option Nat) : List Byte := present 4 (n.map Int.ofNat)
  match e with
  | .inletGap seq gap => n4 seq.toNat ++ n4 gap
  | .inletSilent seq n => count (seq.map BitVec.toNat) ++ count n
  | .periodChanged was now => code was.code ++ code now.code
  | .overload force range => n4 force ++ code range.val
  | .rangeInvalid range => code range.val
  | .driveFault fault echo => n4 fault ++ n4 echo.toNat
  | .endSwitch echo => n4 echo.toNat
  | .driveNotReady echo => n4 echo.toNat
  | .driveSilent n seq => n4 n ++ n4 seq.toNat
  | .travelLimit bound n state => n4 bound ++ n4 n ++ code state.code
  | .jogForceStop force n => n4 force ++ n4 n
  | .storeError reason => code reason.code
  | .autoloadDone tables => n4 tables
  | .testEnd state cause segment n => code state.code ++ code cause.code ++ count segment ++ count n
  | .segmentEnd g =>
    n4 g.index ++ code g.cause.code ++ n4 g.number ++ n4 g.force ++ n4 g.strain ++ n4 g.position ++ n4 g.time ++
      [packed [g.fallbackUsed]]
  | .segmentFallback segment n source rate paused =>
    n4 segment ++ n4 n ++ code source.code ++ n4 rate ++ [packed [paused]]
  | .rateClamped segment asked inUse limit source =>
    n4 segment ++ n4 asked ++ n4 inUse ++ code limit.code ++ present 1 (source.map fun c => Int.ofNat c.code)
  | .linkError link n => code (match link with | .front => 0 | .drive => 1 | .console => 2) ++ n4 n
  | .armDemoted arm cause n fall source =>
    code (match arm with | .a => 0 | .b => 1) ++ code cause.code ++ n4 n ++ present 4 (fall.map fallValue) ++ code source.code
  | .extFailed cause n seen => code cause.code ++ n4 n ++ code seen.code
  | .extRemovalRequest criterion n strain timeout => code criterion.code ++ n4 (n.getD 0) ++ n4 strain ++ n4 timeout
  | .extReleased n source inTime =>
    n4 (n.getD 0) ++ code ((source.map fun c => c.code).getD 0) ++ [packed [inTime]]
  | .extRemovalTimeout sub n => code sub.code ++ n4 (n.getD 0)
  | .extAtBreak before source n => code before.code ++ code ((source.map fun c => c.code).getD 0) ++ n4 n
  | .yieldUpper reH falling => n4 reH.force ++ n4 reH.strain ++ n4 reH.number ++ code reH.source.code ++ n4 falling
  | .yieldDone outcome reH reL final n =>
    code outcome.code ++
      (match reH with
       | none => n4 0 ++ n4 0 ++ n4 0 ++ present 1 none
       | some h => n4 h.force ++ n4 h.strain ++ n4 h.number ++ present 1 (some h.source.code)) ++ [packed [reH.isSome]] ++
      (match reL with
       | none => n4 0 ++ n4 0 ++ n4 0
       | some l => n4 l.force ++ n4 l.strain ++ n4 l.number) ++ [packed [reL.isSome, final]] ++ n4 n
  | .fitDone n k b number => n4 n ++ n4 k ++ n4 b ++ n4 number
  | .fitFailed reason n number => code reason.code ++ n4 n ++ count number
  | .proof rp force => n4 rp.force ++ n4 rp.strain ++ n4 rp.number ++ code rp.source.code ++ n4 force
  | .brk n r =>
    n4 n ++ n4 r.pre.number ++ n4 r.pre.force ++ n4 r.pre.strain ++ n4 r.elongation ++ [packed [r.elasticKept]]
  | .holdExpired cause n => code cause.code ++ n4 n
  | .captureHeld cause trigger held oldest newest =>
    code ((cause.map Trigger.causeCode).getD 0) ++ code ((cause.map Trigger.faultCode).getD 0) ++ count trigger ++ n4 held ++
      count oldest ++ count newest

/-- A command after another, up to the first fault or refusal. -/
def execAll : List Instr → State → Host.Outcome State Fault Refusal
  | [], s => .next s
  | c :: cs, s =>
    match exec c s with
    | .next t => execAll cs t
    | o => o

/-- The command of a complete candidate on a link. -/
def frameCommand : Link → List Byte → Instr
  | .front, bs => .sampleFrame bs
  | .drive, bs => .driveStatusFrame bs
  | .console, bs => .consoleFrameError bs

/-- The bound of a link on the length field (R172). -/
def lengthAllowed : Link → Nat → Prop
  | .front, n => n = 16
  | .drive, n => n = 2
  | .console, n => n ≤ 1024

/-- The checks of R154 and R173 on a complete candidate. -/
def checksPass (l : Link) (bs : List Byte) : Prop :=
  crcPasses bs = true ∧ lengthAllowed l (frameLength bs) ∧
    match l with
    | .front => frameKind bs = 1 ∧ u8 bs 6 < 4 ∧ u8 bs 7 < 4
    | .drive => frameKind bs = 3
    | .console => True

/-- The part after a candidate on a link has failed: a link error unless it is on FRONT in LOADING, the receiver in HUNT, and
the bytes after the delimiter examined as if they arrived now (R172). -/
def State.examinesAgain (s : State) (l : Link) (bs : List Byte) : Host.Outcome State Fault Refusal :=
  let s1 : State :=
    match l with
    | .front =>
      if s.sp.state = .loading then s else { s with paths := { s.paths with frontErrors := s.paths.frontErrors + 1 } }
    | .drive => { s with paths := { s.paths with driveErrors := s.paths.driveErrors + 1 } }
    | .console => { s with cp := s.cp.linkErrorTaken .console }
  execAll (bs.map (Instr.startDelimiter l)) { s1 with rx := s1.rx.set l .hunt }

/-! ## Invariants of single blocks -/

/-- The law of the ring (R146). -/
def Cr.LawfulRing (c : Cr) : Prop :=
  c.ring.length ≤ 4096 ∧ c.ring.Pairwise fun a b => a.number < b.number

/-- The numbers of the Sample Reports in a list of reports, in order. -/
def sampleNumbers : List Report → List Nat
  | [] => []
  | .sample x :: rs => x.number :: sampleNumbers rs
  | _ :: rs => sampleNumbers rs

/-- The law of the queue (R162), with what keeps it: no number in the queue lies above the last one streamed, and a report in
transmission is in the queue. -/
def Cp.LawfulQueue (c : Cp) : Prop :=
  c.queue.length ≤ 64 ∧ (sampleNumbers c.queue).Pairwise (· < ·) ∧
    (∀ n ∈ sampleNumbers c.queue, ∃ m, c.lastStreamed = some m ∧ n ≤ m) ∧
    (c.transmitting = true → c.queue ≠ [])

/-- The law of result order (R129) on one record. -/
def Results.Ordered (r : Results) : Prop :=
  (∀ l ∈ r.reL, ∀ h ∈ r.reH, l.force ≤ h.force) ∧
    (∀ h ∈ r.reH, ∃ m, r.fm = some m ∧ h.force ≤ m.force) ∧
    (∀ l ∈ r.reL, ∃ h, r.reH = some h) ∧
    (∀ p ∈ r.rp, ∃ m, r.fm = some m ∧ p.force ≤ m.force) ∧
    (∀ b ∈ r.brk, ∃ m, r.fm = some m ∧ b.pre.force ≤ m.force)

/-- The law of result order on both records, with what keeps it: the detectors' own candidates lie at or below Fm, and a
detector still SEEKING has set no yield result. -/
def Te.LawfulOrder (t : Te) : Prop :=
  t.working.Ordered ∧ t.published.Ordered ∧
    (∀ p ∈ t.peak, ∃ m, t.working.fm = some m ∧ p.force ≤ m.force) ∧
    (∀ c ∈ t.candidate, ∃ m, t.working.fm = some m ∧ c.force ≤ m.force) ∧
    (t.yieldState = .seeking → t.working.reH = none ∧ t.working.reL = none)

/-- The proof detector waits while the fit collects, and seeks only after a fit that is DONE (R126, R128). -/
def Te.LawfulFit (t : Te) : Prop :=
  (t.working.fitStatus = .collecting → t.proofState = .awaitingFit) ∧
    (t.proofState = .seeking → t.working.fitStatus = .done) ∧ (t.tag = .armed → t.proofState = .awaitingFit)

/-- The snapshot hold: a timer runs exactly while the hold state is HELD, and HELD shows no expired indication (R140 to
R143). -/
def Te.LawfulHold (t : Te) : Prop :=
  (t.holdTimer.isSome = true ↔ t.hold = .held) ∧ (t.hold = .held → t.expired = none)

/-- ATTN: in LATCHED mode it is low exactly while the attention set is not empty, and in PULSE mode exactly while a pulse
runs (R167, R168). -/
def Cp.LawfulPin (c : Cp) : Prop :=
  (c.mode = .latched → (c.attnLow = true ↔ c.attention ≠ 0) ∧ c.pulse = none) ∧
    (c.mode = .pulse → (c.attnLow = true ↔ c.pulse.isSome = true))

/-- Section 4.4: MS is PAUSED exactly while its pause-cause set is not empty. -/
def Ms.LawfulPause (m : Ms) : Prop := m.state = .paused ↔ m.pauses ≠ .empty

/-- Zero requests are pending only under the IDLE and ARMED tags (R19, R21), arming zeros only under ARMING (R22), a source
is current exactly when a sample has been converted (R16), and CROSSHEAD is permitted (R18). -/
def Mc.LawfulZeros (m : Mc) : Prop :=
  ((m.pendTare ≠ [] ∨ m.pendZeroExt ≠ [] ∨ m.pendZeroPosition ≠ []) → m.tag.state = .idle ∨ m.tag.state = .armed) ∧
    (∀ n ∈ m.armingZeros, m.tag = .arming n) ∧ m.source.isSome = m.last.isSome ∧ m.permitted.crosshead = true

/-- The Drive Port: at most 8 frames in its history and a count of at most 8 (R92). -/
def DrivePort.Lawful (p : DrivePort) : Prop := p.history.length ≤ 8 ∧ p.unanswered ≤ 8

/-- POST has records left to take, and post counts stay within 4,095 (R147 to R149). -/
def Cr.LawfulPost (c : Cr) : Prop :=
  c.post ≤ 4095 ∧ c.remaining ≤ 4095 ∧ (c.state = .post → 1 ≤ c.remaining)

/-- What every step keeps of single blocks. -/
def State.BlocksLawful (s : State) : Prop :=
  s.te.LawfulHold ∧ s.te.LawfulFit ∧ s.cp.LawfulPin ∧ s.ms.LawfulPause ∧ s.mc.LawfulZeros ∧ s.drive.Lawful ∧ s.cr.LawfulPost

/-! ## Invariants across blocks -/

/-- The loads on the path of MS to MC. -/
def loadsToMc : List McMessage → Nat
  | [] => 0
  | .load _ _ :: l => loadsToMc l + 1
  | _ :: l => loadsToMc l

/-- The Evaluation Parameters loads on the path of MS to TE. -/
def loadsToTe : List TeMessage → Nat
  | [] => 0
  | .params _ _ :: l => loadsToTe l + 1
  | _ :: l => loadsToTe l

/-- The load outcomes on the path of MC to MS. -/
def outcomesToMs : List McToMs → Nat
  | [] => 0
  | .outcome _ :: l => outcomesToMs l + 1
  | .summary _ :: l => outcomesToMs l

/-- The calibration summaries on the path of MC to MS, oldest first. -/
def summariesToMs : List McToMs → List CalSummary
  | [] => []
  | .summary c :: l => c :: summariesToMs l
  | .outcome _ :: l => summariesToMs l

/-- Whether the newest message on the path of MC to MS is an outcome. -/
def endsInOutcome : List McToMs → Bool
  | [] => false
  | [.outcome _] => true
  | _ :: l => endsInOutcome l

/-- The value a receiver will hold when it has taken everything on a path. -/
def latest {α : Type} (held : α) (path : List α) : α := path.getLastD held

/-- The summary of MS (R30): with those under way it is that of MC's set, and no summary stands behind the last outcome, save
the one that follows autoload, before which MS holds the empty summary. -/
def State.SummaryAhead (s : State) : Prop :=
  latest s.ms.summary (summariesToMs s.paths.mcToMs) = s.mc.cal.summary ∧
    (s.paths.mcToMs = [] ∨ endsInOutcome s.paths.mcToMs = true ∨
      (s.ms.summary = .empty ∧ s.paths.mcToMs.length = 1))

/-- The table lock (R28, R30, R47, R49): the load count of MS counts the loads and outcomes under way. In every state but IDLE
and FAULTED it is 0, nothing is under way from MC, and the summary MS holds is that of the set MC uses. While SP is in
LOADING, CP holds LOADING, MS is in one of these two states with the empty summary, and no load is under way. -/
def State.TablesLocked (s : State) : Prop :=
  s.ms.loadCount =
      loadsToMc s.paths.msToMc + outcomesToMs s.paths.mcToMs + loadsToTe s.paths.msToTe + s.paths.teOutcomes.length ∧
    s.SummaryAhead ∧
    (s.ms.state ≠ .idle → s.ms.state ≠ .faulted →
      s.ms.loadCount = 0 ∧ s.paths.mcToMs = [] ∧ s.ms.summary = s.mc.cal.summary) ∧
    (s.sp.state = .loading →
      s.cp.store = .loading ∧ s.paths.storeStates = [] ∧ (s.ms.state = .idle ∨ s.ms.state = .faulted) ∧
        s.ms.loadCount = 0 ∧ s.paths.mcToMs = [] ∧ s.ms.summary = .empty)

/-- The status notices (R169): once CP has taken every notice under way, it holds what each block reports of itself. -/
def State.NoticesCurrent (s : State) : Prop :=
  latest s.cp.motion s.paths.msNotices = .of s.ms s.drive ∧
    latest s.cp.ext s.paths.esNotices = s.es.state ∧
    latest s.cp.capture s.paths.crNotices = .of s.cr ∧
    latest s.cp.store s.paths.storeStates = s.sp.state

/-! ## Invariants of a test -/

/-- MS in a test: an installed program has segments (R44); ARMING holds a reply to give (R52); from ARMING on there are a
program and a last sample (R51); in RUNNING and PAUSED the cursor stands on a running segment of the program (R58, R59). -/
def Ms.LawfulTest (m : Ms) : Prop :=
  (∀ p, m.program = some p → p.segments ≠ []) ∧
    (m.state = .arming → m.armReply.isSome = true) ∧
    (m.state = .arming ∨ m.state = .armed ∨ m.state = .running ∨ m.state = .paused →
      m.program.isSome = true ∧ m.last.isSome = true) ∧
    (m.state = .running ∨ m.state = .paused → ∃ i g x, m.inSegment i g x)

/-- ES in a test: ACTIVE and REMOVAL_PENDING work from an arm copy and a source seen (R100, R104). -/
def Es.LawfulTest (e : Es) : Prop :=
  (e.state = .active ∨ ∃ sub, e.state = .removalPending sub) → e.copy.isSome = true ∧ e.sourceSeen.isSome = true

/-- TE while the test is open: it has its arm copy and parameters (R52); PLATEAU has a ReH (R122); WATCHING has a pre-break
candidate, and WAITING a maximum below the break minimum force (R130). -/
def Te.LawfulTest (t : Te) : Prop :=
  t.testOpen = true →
    t.copy.isSome = true ∧ t.params.isSome = true ∧ (t.yieldState = .plateau → t.working.reH.isSome = true) ∧
      (t.breakState = .watching → t.candidate.isSome = true) ∧
      (t.breakState = .waiting → ∀ m ∈ t.working.fm, ∀ p ∈ t.params, m.force < p.breakMinForce)

/-- What TE will have when it has taken the messages of a path: whether the test is then open, and whether an arm copy has been
taken; `none` where an ARMED tag comes without a copy, or a copy in an open test. -/
def teWillHave : Bool → Bool → List TeMessage → Option (Bool × Bool)
  | opened, copied, [] => some (opened, copied)
  | opened, copied, .tag t :: l =>
    match t.state with
    | .armed => if copied then teWillHave true copied l else none
    | .idle => teWillHave false copied l
    | .stopped => teWillHave false copied l
    | .faulted => teWillHave false copied l
    | _ => teWillHave opened copied l
  | opened, _, .armCopy _ :: l => if opened then none else teWillHave opened true l
  | opened, copied, _ :: l => teWillHave opened copied l

/-- The arm copies go ahead of the ARMED tag (R52), and a test is open at TE, or will be, only in ARMED, RUNNING and PAUSED. -/
def State.CopiesSent (s : State) : Prop :=
  (∃ opened copied,
    teWillHave s.te.testOpen (s.te.copy.isSome && s.te.params.isSome) s.paths.msToTe = some (opened, copied) ∧
      (opened = true → s.ms.state = .armed ∨ s.ms.state = .running ∨ s.ms.state = .paused) ∧
      (s.ms.state = .arming → copied = true)) ∧
    (s.ms.state = .arming → s.es.copy.isSome = true ∨ ∃ c, EsMessage.armCopy c ∈ s.paths.msToEs) ∧
    (∀ l m, s.paths.msToEs = l ++ .tag .armed :: m → s.es.copy.isSome = true ∨ ∃ c, EsMessage.armCopy c ∈ l)

/-- What every step keeps of a test in MS, ES and TE. -/
def State.TestLawful (s : State) : Prop :=
  s.ms.LawfulTest ∧ s.es.LawfulTest ∧ s.te.LawfulTest ∧ s.CopiesSent

end Sys2Proof.Machine
end

