-- ==== Sys2Proof/WellFormed.lean ====
section
/-! DEFINITION. Which commands a link, the STORE port or a block can bring about: operands of the widths of chapter 11. A
command whose operands do not fit cannot occur; its meaning is given by the same rules all the same (log entry 31). -/

namespace Sys2Proof

/-- A signed 4-byte field. -/
def fits32 (v : Int) : Bool := decide (-2147483648 ≤ v) && decide (v ≤ 2147483647)

/-- A signed 2-byte field. -/
def fits16 (v : Int) : Bool := decide (-32768 ≤ v) && decide (v ≤ 32767)

/-- An unsigned 1-byte field. -/
def fitsByte (v : Int) : Bool := decide (0 ≤ v) && decide (v ≤ 255)

/-- An unsigned 2-byte field. -/
def fitsWord (n : Nat) : Bool := decide (n < 65536)

/-- An optional signed 4-byte field. -/
def fitsOpt (v : Option Int) : Bool := v.all fits32

/-- A table that a kind and an index byte name (section 11.5). -/
def TableRef.wf : TableRef → Bool
  | .range code => decide (code < 256)
  | _ => true

/-- A Frame Table body (section 11.5). -/
def FrameTable.wf (t : FrameTable) : Bool :=
  fits32 t.fMax && fits32 t.vMax && fits32 t.travelMin && fits32 t.travelMax && fits32 t.compliance &&
    fitsByte t.rangesInUse && fits32 t.jogForceLimit

/-- A Range Table body within a payload of 1,024 bytes (section 11.5). -/
def RangeTable.wf (t : RangeTable) : Bool :=
  fits32 t.zeroOffset && decide (t.points.length ≤ 127) && t.points.all fun p => fits32 p.1 && fits32 p.2

/-- A calibration LOAD (section 11.5). -/
def CalLoad.wf : CalLoad → Bool
  | .frame t => t.wf
  | .crosshead g => fits32 g
  | .arm _ g => fits32 g
  | .range code t => decide (code < 256) && t.wf
  | .remove t => t.wf

/-- A segment of a Program LOAD (section 11.5). -/
def RawSegment.wf (g : RawSegment) : Bool :=
  decide (g.mode < 256) && decide (g.endKind < 256) && decide (g.endSense < 256) && decide (g.endAction < 256) &&
    fits32 g.rate && fits32 g.endValue && fitsOpt g.fallback && fitsOpt g.gain

/-- A Program LOAD within a payload of 1,024 bytes (section 11.5). -/
def RawProgram.wf (p : RawProgram) : Bool :=
  decide (p.labelLength < 256) && decide (p.label.length = 16) && fits32 p.l0 && fits32 p.lc && fits32 p.lp &&
    fits32 p.s0 && decide (p.fitted < 256) && decide (p.autoTare < 256) && decide (p.autoArm < 256) &&
    decide (p.autoPosition < 256) && fits32 p.kStrain && fits32 p.kForce && decide (p.criterion < 256) &&
    fits32 p.removalStrain && decide (0 ≤ p.removalTimeout) && decide (p.removalTimeout < 65536) && fits32 p.slip &&
    decide (p.segments.length ≤ 43) && p.segments.all RawSegment.wf

/-- An Evaluation Parameters LOAD (section 11.5). -/
def EvalParams.wf (p : EvalParams) : Bool :=
  fits16 p.yieldDrop && fits32 p.yieldMinForce && fits32 p.yieldWindowEnd && fits32 p.transient && fits32 p.fLo &&
    fits32 p.fHi && fits32 p.offsetStrain && fits16 p.breakDrop && fitsByte p.breakConfirm && fits32 p.breakMinForce

/-- A candidate of a link: it opens with the delimiter and has at most the bytes of the longest frame (R172). -/
def candidateWf (longest : Nat) (bytes : List Byte) : Bool :=
  decide (bytes.head? = some 165) && decide (bytes.length ≤ longest)

/-- A command whose operands a link, the STORE port or a block can carry. -/
def Instr.wf : Instr → Bool
  | .autoloadHeaderRead bytes => decide (bytes.length = 11)
  | .autoloadImageRead bytes => decide (4 ≤ bytes.length) && decide (bytes.length ≤ 1013)
  | .readBackComplete bytes => decide (bytes.length ≤ 1024)
  | .sampleFrame bytes => candidateWf 24 bytes
  | .driveStatusFrame bytes => candidateWf 10 bytes
  | .consoleFrameError bytes => candidateWf 1032 bytes
  | .loadCalibration _ l => l.wf
  | .loadProgram _ l => l.all RawProgram.wf
  | .loadEvaluationParameters _ l => l.all EvalParams.wf
  | .jog _ rate => fits32 rate
  | .captureSet _ _ n _ => fitsWord n
  | .captureDrain _ n => fitsWord n
  | .streamSet _ _ n => fitsWord n
  | .unknownKind kind _ => decide (kind.toNat < 16) || decide (45 < kind.toNat)
  | .unknownTable _ kind index => !Machine.tableKnown kind.toNat index.toNat
  | .reset | .autoloadReadError | .autoloadSilent | .inletSilent | .inletStateTag | .receptionTimerExpiry _
  | .conditionedSampleConversion | .mcStateTag | .dropArmRequest | .programNoticeAtMc | .tare _ | .zeroExt _
  | .zeroPosition _ | .loadFrameTable | .loadCrossheadTable | .loadArmTable | .loadRangeTable
  | .removeCalibrationTable | .loadOutcome _ | .calibrationSummary | .evaluationParametersAtTe | .store _ | .storeAtMc
  | .writeComplete | .storeWriteError | .storeSilent | .storeDoneNotice | .readbackCalibration _ _ _ _ _
  | .readbackProgram _ _ _ | .readbackEvaluationParameters _ | .inquire _ | .arm _ | .armCopyAtTe | .armCopyAtEs
  | .start _ | .pause _ | .resume _ | .stop _ | .abort _ | .resetTest _ | .jogStop _ | .conditionedSampleAtMs
  | .faultEventAtMs _ | .criterionEventAtMs | .extRemovalHold | .removalComplete | .removalTimeout | .breakAtMs
  | .extensometerTag | .conditionedSampleAtEs | .esStateTag | .programNoticeAtEs | .removalEventAtEs | .extRemove _
  | .extConfirm _ | .removalTimerExpiry | .breakAtEs | .conditionedSampleAtTe | .teStateTag | .segmentLogEntry
  | .snapHold _ | .snapRelease _ | .readResults _ _ | .holdTimerExpiry | .conditionedSampleAtCr
  | .triggerEventAtCr _ | .captureTrigger _ | .captureRearm _ | .linkError _ | .storeStateNotice | .statusNotice _
  | .conditionedSampleAtCp | .eventAtCp _ | .replyReport _ | .reportTransmitted | .hold | .go | .status _ | .clear _ _
  | .maskSet _ _ | .attnMode _ _ | .attnPulseExpiry | .startDelimiter _ _ => true

end Sys2Proof
end

