-- ==== Sys2Proof/Certificates/Slice0/Obligations.lean ====
section
/-! DEFINITION. The statements for the provers, in the order of OBLIGATIONS.json: the queue and reset, the laws that every
step keeps, then the commands chapter by chapter. -/

open Sys2Proof Sys2Proof.Machine

/-! ## The queue, RESET, the service during LOADING, and what every step keeps -/

/-- A step takes the command at the front of the queue and runs it with the queue's rest; on an empty queue the part idles
(log entry 1: the model's choice). -/
def Obligations.StepRunsFrontCommand : Prop :=
  (∀ (c : Instr) (s : State), step { s with pending := c :: s.pending } = exec c s) ∧
  (∀ s : State, s.pending = [] → step s = .next s)

/-- No command faults or is refused, and none changes the queue of waiting commands (log entry 1). -/
def Obligations.EveryCommandCompletesAndKeepsQueue : Prop :=
  ∀ (c : Instr) (s : State), ∃ t, exec c s = .next t ∧ t.pending = s.pending

/-- RESET has the effect of power-on (R8, R24, R32, R41, R57, R80, R96, R117, R136, R137, R145, R153, R170): in every state it
completes, with each register of the reset tables at its value and nothing under way. That the paths and the history are
empty, and that what the part has sent and the commands that wait stay, is log entry 28; the demand and the enable last
sent, 0 and clear, and ES's absent sample are log entry 32; SP's empty image and tag are log entries 32, 33. -/
def Obligations.ResetRestoresPowerOnState : Prop :=
  ∀ s : State,
    (let noTables : CalSummary :=
       { frame := none, crosshead := false, armA := false, armB := false, range0 := false, range1 := false,
         range2 := false, range3 := false, complete := false }
     let noCause : PauseCauses := { console := false, extRemoval := false, extFailed := false }
     let record : Results :=
       { label := none, s0 := 0, reH := none, reL := none, reLFinal := false, outcome := .pending,
         fitStatus := .notStarted, fitReason := none, fitN := 0, fitK := 0, fitB := 0, rp := none, fm := none,
         brk := none, sReH := 0, sReL := 0, sRp := 0, sRm := 0, endCause := .none, log := [] }
     exec .reset s = .next
       { rx := { front := .hunt, drive := .hunt, console := .hunt }
         inlet := { lastSeq := none, period := none, rebase := true, silence := none, tag := .idle false }
         mc :=
           { cal := { frame := none, crosshead := none, armA := none, armB := none, range0 := none, range1 := none,
                      range2 := none, range3 := none }
             identity := { present := false, serial := 0, capacity := 0 }
             storeInFlight := false
             zero := { tare := 0, armA := 0, armB := 0, pZero := 0, fZ := 0 }
             source := none, permitted := { both := true, armA := true, armB := true, crosshead := true }
             offset := 0, lastFCal := 0, testTime := 0, pendTare := [], pendZeroExt := [], pendZeroPosition := []
             armingZeros := none, offsetRezero := false, dropArms := [], tag := .idle false, last := none
             program := none, generation := 0 }
         ms :=
           { state := .idle, cause := .none, pauses := noCause, cursor := none, continuation := none
             fallbackUsed := false, segmentTime := 0, yieldMark := false, proofMark := false, releasedMark := false
             pendingTransition := none, jogRate := 0, jogEnabling := false, demand := 0, eTarget := 0, fTarget := 0
             rateInUse := 0, gainInUse := 0, continuationRate := none, program := none, generation := 0
             extTag := { name := .notFitted, generation := 0 }, summary := noTables, loadCount := 0
             armReply := none, armingCount := 0, last := none }
         drive :=
           { history := [], unanswered := 0, status := none, faultMark := false, endMark := false
             notReadyMark := false, sentDemand := 0, sentEnable := false }
         es :=
           { state := .notFitted, fitted := none, generation := 0, copy := none, tag := .idle false, history := none
             sourceSeen := none, requestedA := false, requestedB := false, eventMark := false, timer := none
             timedOut := false, last := none }
         te :=
           { loaded := none, copy := none, params := none, tag := .idle false, testOpen := false
             breakConfirmed := false, yieldState := .seeking, peak := none, sums := { e := 0, f := 0, ee := 0, ef := 0 }
             fitSource := none, proofState := .awaitingFit, breakState := .waiting, run := 0, candidate := none
             working := record, published := record, count := 0, hold := .free, holdTimer := none, expired := none }
         cr :=
           { ring := [], state := .off, enable := false, mask := 0, post := 0, remaining := 0, trigger := none
             cause := none }
         cp :=
           { frontErrors := 0, driveErrors := 0, consoleErrors := 0, store := .loading, hold := .go, queue := []
             transmitting := false, lossMark := false, lastStreamed := none, stream := false, decimation := 1
             flags := 0, mask := 0, mode := .latched, attnLow := false, pulse := none, lastSample := none
             motion :=
               { state := .idle, cause := .none, pauses := noCause, cursor := none, pending := none, demand := 0
                 enable := false, unanswered := 0, status := none }
             ext := .notFitted
             capture := { state := .off, held := 0, trigger := none } }
         sp := { state := .loading, timer := some 50000, image := [], tag := none }
         paths := .empty, driveLine := s.driveLine, consoleLine := s.consoleLine, pending := s.pending })

/-- R157. While CP holds the store state LOADING it answers every request but INQUIRE and STATUS with NOT_READY, and
routes none of them, also one of an unknown kind and a LOAD of an unknown table. That LOADING goes before the checks of R156
is the model's reading (log entry 6). -/
def Obligations.LoadingAnswersNotReady : Prop :=
  ∀ (s : State) (tag : Tag), s.cp.store = .loading →
    (∀ (c : Instr) (k : RequestKind), requestOf c = some (k, tag) → k ≠ .inquire → k ≠ .status →
      exec c s = .next { s with cp := s.cp.offerReply (answer k tag .notReady .none) }) ∧
    (∀ (kind : Byte) (r : Reply), kind.toNat < 16 ∨ 45 < kind.toNat →
      r = { tag := tag, kind := kind, status := .notReady, reason := none, payload := .none } →
      exec (.unknownKind kind tag) s = .next { s with cp := s.cp.offerReply r }) ∧
    (∀ kind index : Byte,
      kind.toNat = 0 ∨ 6 < kind.toNat ∨ (kind.toNat = 3 ∧ 1 < index.toNat) ∨
        (kind.toNat ≠ 3 ∧ kind.toNat ≠ 4 ∧ 0 < index.toNat) →
      exec (.unknownTable tag kind index) s = .next { s with cp := s.cp.offerReply (answer .load tag .notReady .none) })

/-- The law of the ring (R146) and the law of the queue (R161): every step keeps at most 4,096 records in the ring, in strictly
rising sample number, and at most 64 reports in the queue, its Sample Reports in strictly rising number. -/
def Obligations.StepKeepsLawsOfRingAndQueue : Prop :=
  (∀ s t : State, s.cr.LawfulRing → step s = .next t → t.cr.LawfulRing) ∧
  (∀ s t : State, s.cp.LawfulQueue → step s = .next t → t.cp.LawfulQueue)

/-- The law of result order: every step keeps ReL ≤ ReH ≤ Fm, Rp ≤ Fm and the pre-break force ≤ Fm, in the working and the
published record. -/
def Obligations.StepKeepsLawOfResultOrder : Prop :=
  ∀ s t : State, s.te.LawfulOrder → step s = .next t → t.te.LawfulOrder

/-- The table lock (R28, R30, R47, R49) is kept by every step: outside IDLE and FAULTED no load is under way, and the summary
that MS holds is that of the set MC uses. With it the law of fixed tables is kept: in JOGGING, ARMING, ARMED, RUNNING,
PAUSED and STOPPED no step changes the Calibration Set, the Test Program or the Evaluation Parameters, but RESET and a step
that hands on several frames. That a DONE's summary goes ahead of its outcome is log entry 35. -/
def Obligations.StepKeepsTablesLocked : Prop :=
  ∀ s t : State, s.TablesLocked → step s = .next t →
    t.TablesLocked ∧
    (s.ms.state ≠ .idle → s.ms.state ≠ .faulted → s.singleStep →
      t.mc.cal = s.mc.cal ∧ t.ms.program = s.ms.program ∧ t.te.loaded = s.te.loaded)

/-- The law of the permitted set (R18): while MC's tag is neither IDLE nor ARMING, no step but RESET and the taking of
RESET_TEST's IDLE tag adds a member. -/
def Obligations.PermittedSetGainsNoMemberInTest : Prop :=
  ∀ s t : State, s.mc.LawfulZeros → step s = .next t →
    s.mc.tag.state ≠ .idle → (∀ n, s.mc.tag ≠ .arming n) → s.pending.head? ≠ some .reset →
    (s.pending.head? = some .mcStateTag → s.paths.msToMc.head? ≠ some (.tag (.idle true))) →
    ∀ x : Source, t.mc.permitted.has x = true → s.mc.permitted.has x = true

/-- The law of publication (R139): a step changes the published record only outside a hold or at its end, where it is made
equal to the working record. -/
def Obligations.PublishedRecordChangesOnlyOutsideHold : Prop :=
  ∀ s t : State, step s = .next t → s.singleStep → s.te.hold = .held →
    (t.te.hold = .held → t.te.published = s.te.published ∧ t.te.count = s.te.count) ∧
    (t.te.hold = .free → t.te.published = t.te.working ∧ t.te.count = (s.te.count + 1) % 4294967296)

/-- The law of enable (R90): only the taking of a Conditioned Sample by MS sends a Drive Frame, one for each sample, with the
sample's wire sequence, round(D) saturated, and the enable asserted only in JOGGING, ARMED, RUNNING, PAUSED and STOPPED. -/
def Obligations.DriveFramesOnlyOnSamplesWithLawfulEnable : Prop :=
  ∀ s t : State, step s = .next t →
    (s.pending.head? ≠ some .conditionedSampleAtMs → t.driveLine = s.driveLine) ∧
    (s.pending.head? = some .conditionedSampleAtMs → s.paths.samplesMs = [] → t.driveLine = s.driveLine) ∧
    (∀ x rest, s.pending.head? = some .conditionedSampleAtMs → s.paths.samplesMs = x :: rest →
      t.driveLine = s.driveLine ++
        [driveFrame x.seq (max (-2147483648) (min 2147483647 (roundDiv t.ms.demand 4294967296)))
          (decide (t.ms.state = .jogging ∨ t.ms.state = .armed ∨ t.ms.state = .running ∨ t.ms.state = .paused ∨
            t.ms.state = .stopped))])

/-- The law of segment order (R63): in a test no step lowers the segment cursor, and the Segment Log entries it sends to TE
rise strictly in index, from the cursor on, up to the cursor it leaves. -/
def Obligations.SegmentsEndInOrder : Prop :=
  ∀ (s t : State) (c : Cursor), step s = .next t → s.singleStep →
    (s.ms.state = .running ∨ s.ms.state = .paused) → s.ms.cursor = some c →
    ∃ c' sent, t.ms.cursor = some c' ∧ c.index ≤ c'.index ∧
      (∃ l, t.paths.msToTe = s.paths.msToTe.drop l ++ sent) ∧
      (sent.filterMap fun m => match m with | .entry e => some e.index | _ => none).Pairwise (· < ·) ∧
      (∀ e, TeMessage.entry e ∈ sent → c.index ≤ e.index ∧ e.index ≤ c'.index ∧
        (c.phase ≠ .running → c.index < e.index))

/-- The status notices (R169): every step keeps what CP holds, together with the notices under way, equal to what MS with
the Drive Port, ES, CR and SP report of themselves. When a notice is sent is the model's choice (log entry 30). -/
def Obligations.StepKeepsStatusNoticesCurrent : Prop :=
  ∀ s t : State, s.NoticesCurrent → step s = .next t → t.NoticesCurrent

/-- What every step keeps within a block: the snapshot hold, the ATTN pin, the pause causes, pending zeros, the Drive Port's
bounds and the post count. -/
def Obligations.StepKeepsBlocksLawful : Prop :=
  ∀ s t : State, s.BlocksLawful → step s = .next t → t.BlocksLawful

/-- What every step keeps of a test across MS, ES and TE: an installed program has segments, RUNNING and PAUSED have a running
segment and a last sample, supervision and the detectors have their arm copies, PLATEAU a ReH and WATCHING a candidate. -/
def Obligations.StepKeepsTestLawful : Prop :=
  ∀ s t : State, s.TestLawful → step s = .next t → t.TestLawful

/-- The part right after reset meets every invariant above. -/
def Obligations.ResetMeetsInvariants : Prop :=
  State.reset.cr.LawfulRing ∧ State.reset.cp.LawfulQueue ∧ State.reset.te.LawfulOrder ∧ State.reset.TablesLocked ∧
    State.reset.NoticesCurrent ∧ State.reset.BlocksLawful ∧ State.reset.TestLawful

/-! ## Chapter 1: frames, conversion, zeros -/

/-- O: R13, R14, R15. What a conversion forms from the counts of the frame it takes, with the zeros that stand after it; the
rest of the part is unchanged. -/
def Obligations.ConversionFormsElongationPositionStrain : Prop :=
  ∀ (s : State) (g : GoodFrame) (rest : List GoodFrame), s.paths.inletToMc = g :: rest →
    ∃ t x, exec .conditionedSampleConversion s = .next t ∧ t.mc.last = some x ∧
      (x.sample.dLA =
          match s.mc.cal.armA with
          | none => 0
          | some gain => sat32 (roundDiv ((g.frame.countA - t.mc.zero.armA) * gain) 65536)) ∧
      (x.sample.dLB =
          match s.mc.cal.armB with
          | none => 0
          | some gain => sat32 (roundDiv ((g.frame.countB - t.mc.zero.armB) * gain) 65536)) ∧
      (x.sample.validA = true ↔
        g.frame.contactA = true ∧ g.frame.overA = false ∧ s.mc.cal.armA.isSome = true) ∧
      (x.sample.validB = true ↔
        g.frame.contactB = true ∧ g.frame.overB = false ∧ s.mc.cal.armB.isSome = true) ∧
      (x.sample.position =
          match s.mc.cal.crosshead with
          | none => 0
          | some scale => sat32 (roundDiv (g.frame.crosshead * scale) 65536)) ∧
      x.sample.relPosition = sat32 (x.sample.position - t.mc.zero.pZero) ∧
      (let l0 := (s.mc.program.map McProgram.l0).getD 50000
       let lc := (s.mc.program.map McProgram.lc).getD 50000
       let c := (s.mc.cal.frame.map FrameTable.compliance).getD 0
       x.raw.both = sat32 (roundDiv ((x.sample.dLA + x.sample.dLB) * 5000) l0) ∧
       x.raw.armA = sat32 (roundDiv (x.sample.dLA * 10000) l0) ∧
       x.raw.armB = sat32 (roundDiv (x.sample.dLB * 10000) l0) ∧
       x.raw.crosshead =
         sat32 (roundDiv
           (((x.sample.position - t.mc.zero.pZero) * 100 -
               roundDiv (c * (x.sample.force - t.mc.zero.fZ)) 65536) * 10000) lc)) ∧
      t = { s with mc := t.mc, paths := t.paths }

/-- R9. The number, test time and frame fields of the sample that a conversion makes, and its delivery to the five blocks. The
contact bits go with it by log entry 13. -/
def Obligations.ConversionNumbersTimesAndDeliversSample : Prop :=
  ∀ (s : State) (g : GoodFrame) (rest : List GoodFrame), s.paths.inletToMc = g :: rest →
    ∃ t x, exec .conditionedSampleConversion s = .next t ∧ t.mc.last = some x ∧
      (x.sample.number =
          match s.mc.last with
          | none => 0
          | some l => min 4294967295 (l.sample.number + g.advance)) ∧
      (x.sample.testTime =
          if s.mc.tag.state = .running ∨ s.mc.tag.state = .paused ∨ s.mc.tag.state = .stopped then
            min 4294967295 (s.mc.testTime + g.gap * g.frame.period.us)
          else s.mc.testTime) ∧
      t.mc.testTime = x.sample.testTime ∧ x.sample.seq = g.frame.seq ∧ x.sample.gap = g.gap ∧
      x.sample.period = g.frame.period ∧ x.sample.range = g.frame.range ∧
      x.sample.overrange = g.frame.overrange ∧ x.sample.contactA = g.frame.contactA ∧
      x.sample.contactB = g.frame.contactB ∧ x.sample.armingMark = s.mc.armingZeros ∧
      t.mc.source = some x.sample.source ∧
      x.sample.strain = sat32 (x.raw.get x.sample.source + t.mc.offset) ∧
      t.paths = { s.paths with
        inletToMc := rest
        samplesMs := s.paths.samplesMs ++ [x.sample]
        samplesEs := s.paths.samplesEs ++ [x.sample]
        samplesTe := s.paths.samplesTe ++ [x.sample]
        samplesCr := s.paths.samplesCr ++ [x.sample]
        samplesCp := s.paths.samplesCp ++ [x.sample]
        mcFaults := t.paths.mcFaults
        events := { s.paths.events with mc := t.paths.events.mc }
        triggers := { s.paths.triggers with mc := t.paths.triggers.mc }
        replies := { s.paths.replies with mc := t.paths.replies.mc } } ∧
      t.mc = { s.mc with
        zero := t.mc.zero, source := t.mc.source, permitted := t.mc.permitted, offset := t.mc.offset,
        lastFCal := t.mc.lastFCal, testTime := t.mc.testTime, pendTare := [], pendZeroExt := [],
        pendZeroPosition := [], armingZeros := none, offsetRezero := t.mc.offsetRezero, dropArms := [],
        last := t.mc.last }

/-- R10, R11, R12. The force of a calibrated range, by the segment of the breakpoints that the count falls in, or the
first or the last segment outside them, less the tare and saturated; an uncalibrated range holds F_cal. And when a
conversion raises RANGE_INVALID and OVERLOAD, to MS, CP and CR alike; their order on the paths is left open (log entry
16). The onset on a first sample and the force that OVERLOAD judges are the model's reading (log entry 12). -/
def Obligations.ConversionFormsForceAndItsEvents : Prop :=
  (∀ (s : State) (g : GoodFrame) (rest : List GoodFrame), s.paths.inletToMc = g :: rest →
     ∃ t x, exec .conditionedSampleConversion s = .next t ∧ t.mc.last = some x ∧
       x.sample.force = max (-2147483647) (min 2147483647 (t.mc.lastFCal - t.mc.zero.tare)) ∧
       ((s.mc.cal.range g.frame.range.val = none ∨
           (∃ f, s.mc.cal.frame = some f ∧ f.rangesInUse ≤ (g.frame.range.val : Int))) →
         x.sample.held = true ∧ x.sample.uncal = false ∧ t.mc.lastFCal = s.mc.lastFCal) ∧
       (∀ (table : RangeTable) (i : Nat) (p q first final : Int × Int),
         s.mc.cal.range g.frame.range.val = some table →
         (∀ f, s.mc.cal.frame = some f → (g.frame.range.val : Int) < f.rangesInUse) →
         table.points.Pairwise (fun a b => a.1 < b.1) →
         table.points[i]? = some p → table.points[i + 1]? = some q →
         table.points.head? = some first → table.points.getLast? = some final →
         (let c := g.frame.load - table.zeroOffset
          ((p.1 ≤ c ∧ c < q.1) ∨ (i = 0 ∧ c < p.1) ∨ (i + 2 = table.points.length ∧ q.1 ≤ c)) →
          x.sample.held = false ∧
          t.mc.lastFCal = p.2 + roundDiv ((c - p.1) * (q.2 - p.2)) (q.1 - p.1) ∧
          (x.sample.uncal = true ↔ c < first.1 ∨ final.1 < c)))) ∧
  (∀ (s : State) (g : GoodFrame) (rest : List GoodFrame), s.paths.inletToMc = g :: rest →
     ∃ t x, exec .conditionedSampleConversion s = .next t ∧ t.mc.last = some x ∧
       (let active := s.mc.tag.state ≠ .idle ∧ s.mc.tag.state ≠ .faulted
        let held := ∃ l, s.mc.last = some l ∧ l.sample.held = true
        let before := ∃ l, s.mc.last = some l ∧ l.overload = true
        let overload := g.frame.overrange = true ∨
          ∃ f, s.mc.cal.frame = some f ∧ f.fMax < (x.sample.force.natAbs : Int)
        (x.overload = true ↔ overload) ∧ x.sample.overrange = g.frame.overrange ∧
        ∃ kinds : List (FaultKind × Event),
          (∀ e, e ∈ kinds ↔
            (x.sample.held = true ∧ (active ∨ ¬ held) ∧ e = (.rangeInvalid, .rangeInvalid g.frame.range)) ∨
            (overload ∧ (active ∨ ¬ before) ∧ e = (.overload, .overload x.sample.force g.frame.range))) ∧
          kinds.Nodup ∧
          t.paths.mcFaults = s.paths.mcFaults ++ kinds.map (·.1) ∧
          t.paths.events.mc = s.paths.events.mc ++ kinds.map (·.2) ∧
          t.paths.triggers.mc = s.paths.triggers.mc ++ kinds.map fun e => Trigger.fault e.1))

/-- R16, R17, R18. The source that a conversion selects, from the permitted set as it stands after drop-arm requests and
restorations, and the permitted set it leaves: on a switch to a lower source under ARMED, RUNNING, PAUSED or STOPPED, the
sources unusable on this sample are removed, but CROSSHEAD. And the law of continuity: on a sample that switches the
source, the offset is the last strain less the new source's raw strain for the last sample. That the first conversion
leaves the offset is log entry 10. -/
def Obligations.ConversionSelectsSourceWithContinuity : Prop :=
  (∀ (s : State) (g : GoodFrame) (rest : List GoodFrame), s.paths.inletToMc = g :: rest →
     s.mc.source.isSome = s.mc.last.isSome →
     ∃ t x, exec .conditionedSampleConversion s = .next t ∧ t.mc.last = some x ∧
       (let p : Permitted :=
         if s.mc.armingZeros ≠ none ∨ (s.mc.pendZeroExt ≠ [] ∧ s.mc.tag.state = .idle) then
           restored (s.mc.program.map McProgram.fitted)
         else s.mc.dropArms.foldl Permitted.drop s.mc.permitted
        let lower := ∃ cur, s.mc.source = some cur ∧ cur.code < x.sample.source.code
        let prunes := s.mc.tag.state = .armed ∨ s.mc.tag.state = .running ∨ s.mc.tag.state = .paused ∨
          s.mc.tag.state = .stopped
        x.sample.source =
          (if p.both ∧ x.sample.validA ∧ x.sample.validB then .both
           else if p.armA ∧ x.sample.validA then .armA
           else if p.armB ∧ x.sample.validB then .armB
           else .crosshead) ∧
        (lower ∧ prunes →
          t.mc.permitted =
            { both := p.both && x.sample.validA && x.sample.validB, armA := p.armA && x.sample.validA,
              armB := p.armB && x.sample.validB, crosshead := p.crosshead }) ∧
        (¬ (lower ∧ prunes) → t.mc.permitted = p)) ∧
       t.mc.dropArms = [] ∧
       (x.sample.sourceChanged = true ↔ ∃ cur, s.mc.source = some cur ∧ cur ≠ x.sample.source) ∧
       t.mc.source = some x.sample.source ∧
       (s.mc.source = none → t.mc.offset = s.mc.offset)) ∧
  (∀ (s : State) (g : GoodFrame) (rest : List GoodFrame) (cur : Source) (l : LastSample),
     s.paths.inletToMc = g :: rest → s.mc.source = some cur → s.mc.last = some l →
     ∃ t x, exec .conditionedSampleConversion s = .next t ∧ t.mc.last = some x ∧
       t.mc.source = some x.sample.source ∧
       (x.sample.source ≠ cur →
         t.mc.offset = l.sample.strain - l.raw.get x.sample.source ∧ x.sample.sourceChanged = true ∧
         x.sample.strain =
           sat32 (x.raw.get x.sample.source + (l.sample.strain - l.raw.get x.sample.source))) ∧
       (x.sample.source = cur → x.sample.sourceChanged = false)) ∧
  (∀ (p : Permitted),
     Permitted.drop p .a = { p with both := false, armA := false } ∧
     Permitted.drop p .b = { p with both := false, armB := false }) ∧
  (let only (both a b : Bool) : Permitted := { both := both, armA := a, armB := b, crosshead := true }
   restored none = only true true true ∧ restored (some .none) = only false false false ∧
   restored (some .both) = only true true true ∧ restored (some .armA) = only false true false ∧
   restored (some .armB) = only false false true)

/-- R9, R20, R22. Pending zero requests on the conversion that applies them, with no arming zeros pending, and the offset and
the rezero mark with no request, which stay as they are with no mark and no switch; and the pending arming zeros, under
whose tag no zero request is pending. On a first conversion the zeros and the replies are the same, and the offset and the mark
stay as they are (log entry 10). A rezero mark that meets a request on one sample is left out here (log entry 11). -/
def Obligations.ConversionAppliesPendingZeros : Prop :=
  (∀ (s : State) (g : GoodFrame) (rest : List GoodFrame), s.paths.inletToMc = g :: rest → s.mc.armingZeros = none →
     ∃ t x, exec .conditionedSampleConversion s = .next t ∧ t.mc.last = some x ∧
       (let tare := s.mc.pendTare ≠ []
        let ext := s.mc.pendZeroExt ≠ []
        let pos := s.mc.pendZeroPosition ≠ []
        t.mc.zero.tare = (if tare then t.mc.lastFCal else s.mc.zero.tare) ∧
        t.mc.zero.armA = (if ext then g.frame.countA else s.mc.zero.armA) ∧
        t.mc.zero.armB = (if ext then g.frame.countB else s.mc.zero.armB) ∧
        t.mc.zero.pZero = (if pos then x.sample.position else s.mc.zero.pZero) ∧
        t.mc.zero.fZ = (if pos then x.sample.force else if tare then 0 else s.mc.zero.fZ) ∧
        t.mc.pendTare = [] ∧ t.mc.pendZeroExt = [] ∧ t.mc.pendZeroPosition = [] ∧
        (∃ replies : List Reply,
          t.paths.replies.mc = s.paths.replies.mc ++ replies ∧
          replies.Perm
            (s.mc.pendTare.map (fun tag => answer .tare tag .done .none) ++
              s.mc.pendZeroExt.map (fun tag => answer .zeroExt tag .done .none) ++
              s.mc.pendZeroPosition.map (fun tag => answer .zeroPosition tag .done .none))) ∧
        (s.mc.source = none ∨ s.mc.last = none →
          t.mc.offset = s.mc.offset ∧ t.mc.offsetRezero = s.mc.offsetRezero ∧ x.sample.sourceChanged = false) ∧
        (∀ (cur : Source) (l : LastSample), s.mc.source = some cur → s.mc.last = some l →
          (let arm := cur ≠ .crosshead
           (x.sample.source = cur → s.mc.offsetRezero = false → (tare ∨ ext ∨ pos) →
             t.mc.offset = (if ext ∧ arm then 0 else l.sample.strain - x.raw.get cur) ∧
             t.mc.offsetRezero = false) ∧
           (x.sample.source ≠ cur → t.mc.offset = l.sample.strain - l.raw.get x.sample.source ∧
             (t.mc.offsetRezero = true ↔ ext ∨ s.mc.offsetRezero = true)) ∧
           (x.sample.source = cur → s.mc.offsetRezero = true → ¬ (tare ∨ ext ∨ pos) →
             t.mc.offset = (if arm then 0 else s.mc.offset) ∧ t.mc.offsetRezero = false) ∧
           (x.sample.source = cur → s.mc.offsetRezero = false → ¬ (tare ∨ ext ∨ pos) →
             t.mc.offset = s.mc.offset ∧ t.mc.offsetRezero = false))))) ∧
  (∀ (s : State) (g : GoodFrame) (rest : List GoodFrame) (cur : Source) (l : LastSample) (n : Nat),
     s.paths.inletToMc = g :: rest → s.mc.source = some cur → s.mc.last = some l → s.mc.armingZeros = some n →
     s.mc.tag = .arming n → s.mc.pendTare = [] → s.mc.pendZeroExt = [] → s.mc.pendZeroPosition = [] →
     s.mc.offsetRezero = false →
     ∃ t x, exec .conditionedSampleConversion s = .next t ∧ t.mc.last = some x ∧
       x.sample.armingMark = some n ∧ t.mc.armingZeros = none ∧
       (let auto (f : McProgram → Bool) : Bool := (s.mc.program.map f).getD false
        t.mc.zero.tare = (if auto McProgram.autoTare then t.mc.lastFCal else s.mc.zero.tare) ∧
        t.mc.zero.armA = (if auto McProgram.autoArm then g.frame.countA else s.mc.zero.armA) ∧
        t.mc.zero.armB = (if auto McProgram.autoArm then g.frame.countB else s.mc.zero.armB) ∧
        t.mc.zero.pZero = (if auto McProgram.autoPosition then x.sample.position else s.mc.zero.pZero) ∧
        t.mc.zero.fZ =
          (if auto McProgram.autoPosition then x.sample.force
           else if auto McProgram.autoTare then 0 else s.mc.zero.fZ) ∧
        t.mc.permitted = restored (s.mc.program.map McProgram.fitted) ∧
        (x.sample.source = cur →
          t.mc.offset = (if cur = .crosshead then l.sample.strain - x.raw.get cur else 0) ∧
          t.mc.offsetRezero = false) ∧
        (x.sample.source ≠ cur →
          t.mc.offset = l.sample.strain - l.raw.get x.sample.source ∧
          t.mc.offsetRezero = auto McProgram.autoArm)))

/-- R18, R19, R21, R23, R42. TARE, ZERO_EXT and ZERO_POSITION: pending, merged with one of their kind, or WRONG_STATE. MC
takes a motion state tag: what becomes of pending zero requests, of the arming zeros (R22), of the test time (R9), and of the
permitted set on RESET_TEST, restored in the step that takes its tag (log entry 42). A drop-arm request waits for the next
conversion, and a program notice is used from there on. -/
def Obligations.ZeroRequestsPendAndMcTakesTagsAndNotices : Prop :=
  (∀ (s : State) (tag : Tag), s.cp.store ≠ .loading →
     (s.mc.tag.state = .idle ∨ s.mc.tag.state = .armed →
       exec (.tare tag) s = .next { s with mc := { s.mc with pendTare := s.mc.pendTare ++ [tag] } } ∧
       exec (.zeroExt tag) s = .next { s with mc := { s.mc with pendZeroExt := s.mc.pendZeroExt ++ [tag] } } ∧
       exec (.zeroPosition tag) s =
         .next { s with mc := { s.mc with pendZeroPosition := s.mc.pendZeroPosition ++ [tag] } }) ∧
     (s.mc.tag.state ≠ .idle → s.mc.tag.state ≠ .armed →
       exec (.tare tag) s =
         .next { s with paths := s.paths.sendReply .mc (answer .tare tag .wrongState .none) } ∧
       exec (.zeroExt tag) s =
         .next { s with paths := s.paths.sendReply .mc (answer .zeroExt tag .wrongState .none) } ∧
       exec (.zeroPosition tag) s =
         .next { s with paths := s.paths.sendReply .mc (answer .zeroPosition tag .wrongState .none) })) ∧
  (∀ (s : State) (m : MotionTag) (rest : List McMessage), s.paths.msToMc = .tag m :: rest →
     ∃ t, exec .mcStateTag s = .next t ∧
       (let keeps := m.state = .idle ∨ m.state = .armed
        t = { s with
          mc := { s.mc with
            tag := m
            armingZeros := (match m with | .arming n => some n | _ => none)
            testTime := (match m with
              | .idle _ => 0
              | .running => if s.mc.tag = .armed then 0 else s.mc.testTime
              | _ => s.mc.testTime)
            permitted :=
              if m = .idle true then restored (s.mc.program.map McProgram.fitted) else s.mc.permitted
            offsetRezero := if m = .idle true then false else s.mc.offsetRezero
            pendTare := if keeps then s.mc.pendTare else []
            pendZeroExt := if keeps then s.mc.pendZeroExt else []
            pendZeroPosition := if keeps then s.mc.pendZeroPosition else [] }
          paths := { s.paths with
            msToMc := rest
            replies := { s.paths.replies with mc := t.paths.replies.mc } } } ∧
        ∃ replies : List Reply,
          t.paths.replies.mc = s.paths.replies.mc ++ replies ∧
          replies.Perm
            (if keeps then []
             else
               s.mc.pendTare.map (fun tag => answer .tare tag .cancelled .none) ++
                 s.mc.pendZeroExt.map (fun tag => answer .zeroExt tag .cancelled .none) ++
                 s.mc.pendZeroPosition.map (fun tag => answer .zeroPosition tag .cancelled .none)))) ∧
  ((∀ (s : State) (i : ArmId) (rest : List ArmId), s.paths.dropArms = i :: rest →
     exec .dropArmRequest s =
       .next { s with mc := { s.mc with dropArms := s.mc.dropArms ++ [i] }, paths := { s.paths with dropArms := rest } }) ∧
   (∀ (s : State) (n : Nat) (p : Option McProgram) (rest : List McMessage), s.paths.msToMc = .notice n p :: rest →
     exec .programNoticeAtMc s =
       .next { s with mc := { s.mc with program := p, generation := n }, paths := { s.paths with msToMc := rest } }))

/-- R2 to R6. How the Inlet Port takes a Sample Frame: duplicates, gaps, INLET_GAP and PERIOD_CHANGED, the re-base mark; the
silence timer, restarted by good frames, started and stopped by tags, and INLET_SILENT at its expiry; and the frames that are
not taken. That a frame in LOADING is discarded with the receiver in HUNT is log entries 26 and 39, and the sample number of
INLET_SILENT log entry 18. -/
def Obligations.InletTakesFramesTagsAndSilence : Prop :=
  ((∀ (s : State) (bs : List Byte) (f : SampleFrame), s.sp.state ≠ .loading → readSampleFrame bs = some f →
     ∃ t, exec (.sampleFrame bs) s = .next t ∧
       (let raw : Nat := (f.seq.toNat + 65536 - (s.inlet.lastSeq.getD 0).toNat) % 65536
        let first := s.inlet.rebase = true ∨ s.inlet.lastSeq = none
        let active := s.inlet.tag.state ≠ .idle ∧ s.inlet.tag.state ≠ .faulted
        let far := ¬ first ∧ 9 ≤ raw ∧ active
        let changed := active ∧ ∃ was, s.inlet.period = some was ∧ was ≠ f.period
        (¬ first ∧ raw = 0 → t = { s with rx := { s.rx with front := .hunt } }) ∧
        (first ∨ raw ≠ 0 →
          t = { s with
            rx := { s.rx with front := .hunt }
            inlet := { s.inlet with
              lastSeq := some f.seq, period := some f.period, rebase := false, silence := t.inlet.silence }
            paths := { s.paths with
              inletToMc := s.paths.inletToMc ++
                [{ frame := f
                   gap := if first then 1 else if raw ≤ 8 then raw else if active then 8 else 1
                   advance := if first then 1 else if raw ≤ 8 ∨ active then raw else 1 }]
              inletFaults := t.paths.inletFaults
              events := { s.paths.events with inlet := t.paths.events.inlet }
              triggers := { s.paths.triggers with inlet := t.paths.triggers.inlet } } } ∧
          ∃ kinds : List (FaultKind × Event),
            (∀ e, e ∈ kinds ↔
              (far ∧ e = (.inletGap, .inletGap f.seq raw)) ∨
              (changed ∧ ∃ was, s.inlet.period = some was ∧ e = (.periodChanged, .periodChanged was f.period))) ∧
            kinds.Nodup ∧
            t.paths.inletFaults = s.paths.inletFaults ++ kinds.map (·.1) ∧
            t.paths.events.inlet = s.paths.events.inlet ++ kinds.map (·.2) ∧
            t.paths.triggers.inlet = s.paths.triggers.inlet ++ kinds.map fun e => Trigger.fault e.1))) ∧
   (∀ (s : State) (m : MotionTag) (rest : List MotionTag), s.paths.msToInlet = m :: rest →
     ∃ t, exec .inletStateTag s = .next t ∧
       (t.inlet.rebase = true ↔
         s.inlet.rebase = true ∨ m = .idle true ∨ (m.state = .idle ∧ s.inlet.tag.state ≠ .idle))) ∧
   State.reset.inlet.rebase = true) ∧
  ((∀ (s : State) (bs : List Byte) (f : SampleFrame), s.sp.state ≠ .loading → readSampleFrame bs = some f →
     s.inlet.rebase = true ∨ s.inlet.lastSeq ≠ some f.seq →
     ∃ t, exec (.sampleFrame bs) s = .next t ∧
       t.inlet.silence =
         (if s.inlet.tag.state = .idle ∨ s.inlet.tag.state = .faulted then s.inlet.silence
          else some (16 * f.period.us))) ∧
   (∀ (s : State) (m : MotionTag) (rest : List MotionTag), s.paths.msToInlet = m :: rest →
     ∃ t, exec .inletStateTag s = .next t ∧
       t = { s with
         inlet := { s.inlet with tag := m, rebase := t.inlet.rebase, silence := t.inlet.silence }
         paths := { s.paths with msToInlet := rest } } ∧
       t.inlet.silence =
         (if m.state = .idle ∨ m.state = .faulted then none
          else if s.inlet.silence.isSome then s.inlet.silence
          else some (match s.inlet.period with | some p => 16 * p.us | none => 32000))) ∧
   (∀ (s : State) (n : Nat), s.inlet.silence = some n →
     exec .inletSilent s =
       .next { s with
         inlet := { s.inlet with silence := none }
         paths := s.paths.raiseFault .inlet .inletSilent
           (.inletSilent s.inlet.lastSeq (s.mc.last.map fun x => x.sample.number)) }) ∧
   (∀ s : State, s.inlet.silence = none → exec .inletSilent s = .next s)) ∧
  ((∀ (s : State) (bs : List Byte), s.sp.state = .loading →
     exec (.sampleFrame bs) s = .next { s with rx := { s.rx with front := .hunt } }) ∧
   (∀ (s : State) (bs : List Byte), s.sp.state ≠ .loading → readSampleFrame bs = none →
     (∀ b ∈ bs.drop 1, b ≠ 165) →
     exec (.sampleFrame bs) s =
       .next { s with
         rx := { s.rx with front := .hunt }
         paths := { s.paths with frontErrors := s.paths.frontErrors + 1 } }))

/-! ## Chapter 2: the Calibration Set and the store -/

/-- R25, R26, R27. The checks and clamps of each calibration table, as MC makes them on a LOAD passed on by MS with no STORE
in flight (R29). That the summary of a DONE goes ahead of its outcome is log entry 35. -/
def Obligations.CalibrationTablesCheckedAndClamped : Prop :=
  ∀ (s : State) (tag : Tag) (rest : List McMessage), s.mc.storeInFlight = false →
    (∀ t : FrameTable, s.paths.msToMc = .load tag (.frame t) :: rest →
      (t.travelMin < t.travelMax →
        let fMax := clampTo 1 2147483647 t.fMax
        let table : FrameTable :=
          { fMax := fMax, vMax := clampTo 1 1000000 t.vMax, travelMin := t.travelMin, travelMax := t.travelMax,
            compliance := clampTo 0 65536000 t.compliance, rangesInUse := clampTo 1 4 t.rangesInUse,
            jogForceLimit := clampTo 1 fMax t.jogForceLimit }
        let cal : CalSet := { s.mc.cal with frame := some table }
        let n := clampCounts 1 2147483647 t.fMax + clampCounts 1 1000000 t.vMax +
          clampCounts 0 65536000 t.compliance + clampCounts 1 4 t.rangesInUse + clampCounts 1 fMax t.jogForceLimit
        exec .loadFrameTable s = .next { s with
          mc := { s.mc with cal := cal }
          paths := s.paths.mcAnswersLoad rest (answer .load tag .done (.clampCount n)) .done [cal.summary] }) ∧
      (t.travelMax ≤ t.travelMin →
        exec .loadFrameTable s = .next { s with
          paths := s.paths.mcAnswersLoad rest (refuse .load tag .badTable .travelOrder (.entryIndex 0)) .badTable
            [] })) ∧
    (∀ g : Int, s.paths.msToMc = .load tag (.crosshead g) :: rest →
      exec .loadCrossheadTable s = .next
        (if g = 0 then
          { s with paths :=
              s.paths.mcAnswersLoad rest (refuse .load tag .badTable .zeroGain (.entryIndex 0)) .badTable [] }
         else
          let cal : CalSet := { s.mc.cal with crosshead := some g }
          { s with
            mc := { s.mc with cal := cal }
            paths := s.paths.mcAnswersLoad rest (answer .load tag .done (.clampCount 0)) .done [cal.summary] })) ∧
    (∀ (i : ArmId) (g : Int), s.paths.msToMc = .load tag (.arm i g) :: rest →
      exec .loadArmTable s = .next
        (if g = 0 then
          { s with paths :=
              s.paths.mcAnswersLoad rest (refuse .load tag .badTable .zeroGain (.entryIndex 0)) .badTable [] }
         else
          let cal : CalSet := match i with
            | .a => { s.mc.cal with armA := some g }
            | .b => { s.mc.cal with armB := some g }
          { s with
            mc := { s.mc with cal := cal }
            paths := s.paths.mcAnswersLoad rest (answer .load tag .done (.clampCount 0)) .done [cal.summary] })) ∧
    (∀ (code : Nat) (t : RangeTable), s.paths.msToMc = .load tag (.range code t) :: rest →
      (∀ (r : Reason) (i : Nat),
        (3 < code ∧ r = .unknownCode ∧ i = 0) ∨
        (code ≤ 3 ∧ (t.points.length < 2 ∨ 16 < t.points.length) ∧ r = .breakpointCount ∧ i = 0) ∨
        (code ≤ 3 ∧ 2 ≤ t.points.length ∧ t.points.length ≤ 16 ∧
          ∃ j, FirstNotRising (t.points.map (·.1)) j ∧ r = .countOrder ∧ i = j + 1) ∨
        (code ≤ 3 ∧ 2 ≤ t.points.length ∧ t.points.length ≤ 16 ∧ (t.points.map (·.1)).Pairwise (· < ·) ∧
          ∃ j, FirstNotRising (t.points.map (·.2)) j ∧ r = .forceOrder ∧ i = j + 1) →
        exec .loadRangeTable s = .next { s with
          paths := s.paths.mcAnswersLoad rest (refuse .load tag .badTable r (.entryIndex i)) .badTable [] }) ∧
      (code ≤ 3 → 2 ≤ t.points.length → t.points.length ≤ 16 → (t.points.map (·.1)).Pairwise (· < ·) →
        (t.points.map (·.2)).Pairwise (· < ·) →
        let table : RangeTable := { t with zeroOffset := clampTo (-8388608) 8388607 t.zeroOffset }
        ∃ cal : CalSet, cal.range code = some table ∧ (∀ c, c ≠ code → cal.range c = s.mc.cal.range c) ∧
          cal.frame = s.mc.cal.frame ∧ cal.crosshead = s.mc.cal.crosshead ∧ cal.armA = s.mc.cal.armA ∧
          cal.armB = s.mc.cal.armB ∧
          exec .loadRangeTable s = .next { s with
            mc := { s.mc with cal := cal }
            paths := s.paths.mcAnswersLoad rest
              (answer .load tag .done (.clampCount (clampCounts (-8388608) 8388607 t.zeroOffset))) .done
              [cal.summary] }))

/-- R27, R29, R30, R31, R40. Removals, which leave every other table as it is, loads refused while a STORE is in flight, and
the summary that MC sends after an install or a removal; READBACK of a calibration table and INQUIRE, which change nothing
else. INQUIRE is answered in every store state. A READBACK index outside its kind goes to MC (log entry 23), and the
summary that goes ahead of the outcome is log entry 35. -/
def Obligations.McAnswersRemovalsReadbackAndInquire : Prop :=
  ((∀ (s : State) (tag : Tag) (r : TableRef) (rest : List McMessage), s.mc.storeInFlight = false →
     s.paths.msToMc = .load tag (.remove r) :: rest →
     ((∀ code, r = .range code → code ≤ 3) →
       ∀ cal : CalSet, cal =
           { frame := if r = .frame then none else s.mc.cal.frame
             crosshead := if r = .crosshead then none else s.mc.cal.crosshead
             armA := if r = .arm .a then none else s.mc.cal.armA
             armB := if r = .arm .b then none else s.mc.cal.armB
             range0 := if r = .range 0 then none else s.mc.cal.range0
             range1 := if r = .range 1 then none else s.mc.cal.range1
             range2 := if r = .range 2 then none else s.mc.cal.range2
             range3 := if r = .range 3 then none else s.mc.cal.range3 } →
         exec .removeCalibrationTable s = .next { s with
           mc := { s.mc with cal := cal }
           paths := s.paths.mcAnswersLoad rest (answer .load tag .done (.clampCount 0)) .done [cal.summary] }) ∧
     (∀ code, r = .range code → 3 < code →
       exec .removeCalibrationTable s = .next { s with
         paths := s.paths.mcAnswersLoad rest (refuse .load tag .badTable .unknownCode (.entryIndex 0)) .badTable
           [] })) ∧
   (∀ (s : State) (tag : Tag) (l : CalLoad) (rest : List McMessage), s.mc.storeInFlight = true →
     s.paths.msToMc = .load tag l :: rest →
     exec (match l with
       | .frame _ => .loadFrameTable
       | .crosshead _ => .loadCrossheadTable
       | .arm _ _ => .loadArmTable
       | .range _ _ => .loadRangeTable
       | .remove _ => .removeCalibrationTable) s =
       .next { s with
         paths := s.paths.mcAnswersLoad rest (answer .load tag .notReady .none) .notReady [] }) ∧
   (∀ c : CalSet,
     c.summary.frame = c.frame ∧ c.summary.crosshead = c.crosshead.isSome ∧ c.summary.armA = c.armA.isSome ∧
     c.summary.armB = c.armB.isSome ∧ c.summary.range0 = c.range0.isSome ∧ c.summary.range1 = c.range1.isSome ∧
     c.summary.range2 = c.range2.isSome ∧ c.summary.range3 = c.range3.isSome ∧
     (c.summary.complete = true ↔
       ∃ f, c.frame = some f ∧
         ∀ code : Nat, code ≤ 3 → (code : Int) < f.rangesInUse → (c.range code).isSome = true))) ∧
  ((∀ (s : State) (tag : Tag) (kind index pointer count : Byte), s.cp.store ≠ .loading →
     ∃ r : Reply,
       exec (.readbackCalibration tag kind index pointer count) s =
         .next { s with paths := s.paths.sendReply .mc r } ∧
       r.tag = tag ∧ r.kind = 17 ∧
       (let gives (st : Status) (p : Payload) : Prop := r.status = st ∧ r.reason = none ∧ r.payload = p
        let whole (p : Option Payload) : Prop :=
          match p with
          | none => gives .absent .none
          | some p => gives .done (if pointer = 0 then p else .entryTotal 1)
        (kind = 1 → index = 0 → whole (s.mc.cal.frame.map Payload.frameTable)) ∧
        (kind = 2 → index = 0 → whole (s.mc.cal.crosshead.map Payload.gain)) ∧
        (kind = 3 → index = 0 → whole (s.mc.cal.armA.map Payload.gain)) ∧
        (kind = 3 → index = 1 → whole (s.mc.cal.armB.map Payload.gain)) ∧
        (kind = 4 → index.toNat ≤ 3 →
          match s.mc.cal.range index.toNat with
          | none => gives .absent .none
          | some t =>
            gives .done (.rangePart t.zeroOffset t.points.length pointer.toNat
              ((t.points.drop pointer.toNat).take count.toNat))) ∧
        ((kind = 4 ∧ 3 < index.toNat) ∨ (kind = 3 ∧ 1 < index.toNat) ∨ ((kind = 1 ∨ kind = 2) ∧ index ≠ 0) ∨
            ((kind = 5 ∨ kind = 6) ∧ index ≠ 0) ∨ kind = 0 ∨ 6 < kind.toNat →
          r.status = .badTable ∧ r.reason = some .unknownCode ∧ r.payload = .none))) ∧
   (∀ (s : State) (tag : Tag),
     let c : Capability :=
       { identity := if s.mc.identity.present then s.mc.identity else { present := false, serial := 0, capacity := 0 }
         summary := s.mc.cal.summary
         vMax := match s.mc.cal.frame with | none => 0 | some f => f.vMax
         rMax := match s.mc.cal.frame with
           | none => 0
           | some f =>
             min 1000000 (f.vMax * 1000000 / (6 * ((s.mc.program.map McProgram.lp).getD 50000)))
         forceRate := match s.mc.cal.frame, s.mc.program with
           | some f, some p =>
             if p.kForce = 0 then 0 else min 100000000 (roundDiv (f.vMax * 65536) (6 * p.kForce))
           | _, _ => 0 }
     exec (.inquire tag) s =
       .next { s with paths := s.paths.sendReply .mc (answer .inquire tag .done (.capability c)) }))

/-- R33 to R36, R174. Autoload ends in one of its outcomes: the header's checks, the CRC and the records of the image, a memory
error, silence. The records that pass, one after another up to the CRC, are all installed and counted; behind any number of such
records BAD_TABLE ends the image at a byte that is left over, a kind outside 1 … 4, an Arm index above 1, a body that runs past
the records' end, a second record of a table, or a table that fails its check. The form of the CRC-32 and a record's index byte
are the model's reading (log entries 36, 38), and SP's image is empty at the end by log entry 33. -/
def Obligations.AutoloadEndsInItsOutcomes : Prop :=
  ∀ (s : State), s.sp.state = .loading →
    (let ends (cal : CalSet) (i : Identity) (e : Event) : State :=
      { s with
        mc := { s.mc with cal := cal, identity := i }
        sp := { s.sp with state := .ready, timer := none, image := [] }
        paths := { s.paths with
          events := { s.paths.events with sp := s.paths.events.sp ++ [e] }
          storeStates := s.paths.storeStates ++ [.ready]
          mcToMs := s.paths.mcToMs ++ [.summary cal.summary] } }
     let fails (r : StoreReason) : State := ends .empty .zero (.storeError r)
     (∀ h : List Byte, s.sp.image = [] → h.length = 11 →
       exec (.autoloadHeaderRead h) s = .next
         (if h.take 2 ≠ [178, 41] then fails .badSignature
          else if h[2]? ≠ some 1 then fails .badRevision
          else if u16 h 3 < 15 ∨ 1024 < u16 h 3 then fails .badLength
          else { s with sp := { s.sp with image := h, timer := some 50000 } })) ∧
     (∀ rest : List Byte, s.sp.image ≠ [] → rest.length + 11 = u16 s.sp.image 3 →
       let image := s.sp.image ++ rest
       let checked := image.take (image.length - 4)
       ((crc32 checked).toNat ≠ u32 image (image.length - 4) →
         exec (.autoloadImageRead rest) s = .next (fails .badCheck)) ∧
       ((crc32 checked).toNat = u32 image (image.length - 4) →
         ∀ records : List TableRecord, (∀ r ∈ records, r.good) → (records.map TableRecord.table).Nodup →
           (checked.drop 11 = records.flatMap TableRecord.bytes →
             exec (.autoloadImageRead rest) s = .next
               (ends (records.foldl TableRecord.installIn .empty)
                 (if u8 s.sp.image 5 = 0 then .zero
                  else { present := true, serial := u32 s.sp.image 6, capacity := u8 s.sp.image 10 })
                 (.autoloadDone records.length))) ∧
           (∀ left : List Byte, checked.drop 11 = records.flatMap TableRecord.bytes ++ left →
             left.length = 1 ∨
               (∃ (kind index : Byte) (body : List Byte), left = kind :: index :: body ∧
                 (kind.toNat = 0 ∨ 4 < kind.toNat ∨ (kind.toNat = 3 ∧ 1 < index.toNat) ∨
                   body.length < recordLength kind.toNat body)) ∨
               (∃ (r : TableRecord) (more : List Byte), left = r.bytes ++ more ∧ r.fits ∧ r.table.isSome = true ∧
                 (r.table ∈ records.map TableRecord.table ∨ ¬ r.good)) →
             exec (.autoloadImageRead rest) s = .next (fails .badTable)))) ∧
     exec .autoloadReadError s = .next (fails .readError) ∧
     (∀ n, s.sp.timer = some n → exec .autoloadSilent s = .next (fails .silent)))

/-- R34, R37, R174. The image that MC builds for STORE passes the checks of autoload and gives back the Calibration Set
and the identity, for every set whose tables have passed their checks and fit their fields. The image's CRC-32 is log
entry 36. -/
def Obligations.StoredImageLoadsBack : Prop :=
  ∀ (c : CalSet) (i : Identity),
    (∀ t, c.frame = some t → t.wf = true ∧ checkFrameTable t = .ok (t, 0)) →
    (∀ g, c.crosshead = some g → fits32 g = true ∧ g ≠ 0) →
    (∀ g, c.armA = some g → fits32 g = true ∧ g ≠ 0) → (∀ g, c.armB = some g → fits32 g = true ∧ g ≠ 0) →
    (∀ code t, c.range code = some t → t.wf = true ∧ checkRangeTable code t = .ok (t, 0)) →
    i.serial < 4294967296 → i.capacity < 256 → (i.present = false → i = .zero) →
    headerFault ((storeImage c i).take 11) = none ∧
      imageLength ((storeImage c i).take 11) = (storeImage c i).length ∧
      judgeImage (storeImage c i) = .ok c ∧ imageIdentity ((storeImage c i).take 11) = i

/-- R37, R38. A STORE from MC's taking it to its end, and the store-done notice. That SP's image and tag are empty at the end
is log entry 33, and the order of its reply and event log entry 16. -/
def Obligations.StoreRunsToItsOutcome : Prop :=
  (∀ (s : State) (tag : Tag) (rest : List McMessage), s.paths.msToMc = .store tag :: rest →
    exec .storeAtMc s = .next
      (if s.mc.storeInFlight then
        { s with paths := { s.paths with msToMc := rest }.sendReply .mc (answer .store tag .notReady .none) }
       else
        { s with
          mc := { s.mc with storeInFlight := true }
          sp := { state := .writing, timer := some 50000, image := storeImage s.mc.cal s.mc.identity, tag := some tag }
          paths := { s.paths with msToMc := rest, storeStates := s.paths.storeStates ++ [.writing] } })) ∧
  (∀ s : State, s.sp.state = .writing →
    exec .writeComplete s = .next { s with
      sp := { s.sp with state := .verifying, timer := some 50000 }
      paths := { s.paths with storeStates := s.paths.storeStates ++ [.verifying] } }) ∧
  (∀ (s : State) (tag : Tag), s.sp.tag = some tag →
    (let ends (r : Reply) (events : List Event) : State :=
      { s with
        sp := { state := .ready, timer := none, image := [], tag := none }
        paths := { s.paths with
          replies := { s.paths.replies with sp := s.paths.replies.sp ++ [r] }
          events := { s.paths.events with sp := s.paths.events.sp ++ events }
          storeStates := s.paths.storeStates ++ [.ready]
          storeDone := s.paths.storeDone + 1 } }
     let fails (r : Reason) (e : StoreReason) : State :=
       ends (refuse .store tag .storeFailed r .none) [.storeError e]
     (∀ bytes : List Byte, s.sp.state = .verifying →
       exec (.readBackComplete bytes) s = .next
         (if bytes = s.sp.image then ends (answer .store tag .done .none) []
          else fails .verifyMismatch .verifyMismatch)) ∧
     (s.sp.state = .writing ∨ s.sp.state = .verifying →
       exec .storeWriteError s = .next (fails .writeError .writeError) ∧
       (∀ n, s.sp.timer = some n → exec .storeSilent s = .next (fails .silent .silent))))) ∧
  (∀ s : State, 0 < s.paths.storeDone →
    exec .storeDoneNotice s = .next { s with
      mc := { s.mc with storeInFlight := false }
      paths := { s.paths with storeDone := s.paths.storeDone - 1 } })

/-! ## Chapter 3: loads, the program, ARM -/

/-- R28, R47. The table lock: loads and STORE pass MS in IDLE and FAULTED alone, the load count counts those under way, and
ARM and a starting JOG are refused above 0. -/
def Obligations.LoadsPassTableLock : Prop :=
  (∀ (s : State) (tag : Tag) (cal : CalLoad) (eval : EvalLoad), s.cp.store ≠ .loading →
    (s.ms.state = .idle ∨ s.ms.state = .faulted →
      exec (.loadCalibration tag cal) s = .next { s with
        ms := { s.ms with loadCount := s.ms.loadCount + 1 }
        paths := { s.paths with msToMc := s.paths.msToMc ++ [.load tag cal] } } ∧
      exec (.loadEvaluationParameters tag eval) s = .next { s with
        ms := { s.ms with loadCount := s.ms.loadCount + 1 }
        paths := { s.paths with msToTe := s.paths.msToTe ++ [.params tag eval] } } ∧
      exec (.store tag) s = .next { s with
        paths := { s.paths with msToMc := s.paths.msToMc ++ [.store tag] } }) ∧
    (s.ms.state ≠ .idle → s.ms.state ≠ .faulted →
      exec (.loadCalibration tag cal) s = .next (s.msAnswers (answer .load tag .wrongState .none)) ∧
      exec (.loadEvaluationParameters tag eval) s = .next (s.msAnswers (answer .load tag .wrongState .none)) ∧
      exec (.store tag) s = .next (s.msAnswers (answer .store tag .wrongState .none))) ∧
    (s.ms.state = .idle → 0 < s.ms.loadCount →
      exec (.arm tag) s = .next (s.msAnswers (refuse .arm tag .wrongState .loadInProgress .none)) ∧
      ∀ rate, exec (.jog tag rate) s =
        .next (s.msAnswers (refuse .jog tag .wrongState .loadInProgress .none)))) ∧
  (∀ (s : State) (o : LoadOutcome),
    (∀ rest : List McToMs, s.paths.mcToMs = .outcome o :: rest →
      exec (.loadOutcome .mc) s = .next { s with
        ms := { s.ms with loadCount := s.ms.loadCount - 1 }, paths := { s.paths with mcToMs := rest } }) ∧
    (∀ rest : List LoadOutcome, s.paths.teOutcomes = o :: rest →
      exec (.loadOutcome .te) s = .next { s with
        ms := { s.ms with loadCount := s.ms.loadCount - 1 }, paths := { s.paths with teOutcomes := rest } })) ∧
  (∀ (s : State) (c : CalSummary) (rest : List McToMs), s.paths.mcToMs = .summary c :: rest →
    exec .calibrationSummary s = .next { s with
      ms := { s.ms with summary := c }, paths := { s.paths with mcToMs := rest } })

/-- R42, R46. Program loads and removals at MS, and READBACK of the program held. The payloads of READBACK are log entry
24. -/
def Obligations.ProgramInstalledRemovedAndReadBack : Prop :=
  ∀ (s : State) (tag : Tag), s.cp.store ≠ .loading →
    (let installed (p : Option Program) (clamps : Nat) : State :=
      { s with
        ms := { s.ms with program := p, generation := s.ms.generation + 1 }
        paths := { s.paths with
          msToMc := s.paths.msToMc ++ [.notice (s.ms.generation + 1) (p.map fun p =>
            { l0 := p.l0, lc := p.lc, lp := p.lp, kForce := p.kForce, fitted := p.fitted, autoTare := p.autoTare,
              autoArm := p.autoArm, autoPosition := p.autoPosition })]
          msToEs := s.paths.msToEs ++ [.notice (s.ms.generation + 1) (p.map Program.fitted)]
          replies := { s.paths.replies with
            ms := s.paths.replies.ms ++ [answer .load tag .done (.clampCount clamps)] } } }
     (s.ms.state = .idle ∨ s.ms.state = .faulted →
       exec (.loadProgram tag none) s = .next (installed none 0) ∧
       (∀ r p n, checkProgram r = .ok (p, n) → exec (.loadProgram tag (some r)) s = .next (installed (some p) n)) ∧
       (∀ r f, checkProgram r = .error f →
         exec (.loadProgram tag (some r)) s =
           .next (s.msAnswers (refuse .load tag .badTable f.reason (.entryIndex f.index))))) ∧
     (s.ms.state ≠ .idle → s.ms.state ≠ .faulted → ∀ l,
       exec (.loadProgram tag l) s = .next (s.msAnswers (answer .load tag .wrongState .none))) ∧
     (∀ pointer count : Byte,
       (s.ms.program = none →
         exec (.readbackProgram tag pointer count) s = .next (s.msAnswers (answer .readback tag .absent .none))) ∧
       (∀ p, s.ms.program = some p →
         exec (.readbackProgram tag pointer count) s = .next (s.msAnswers
           (if pointer.toNat = 32 then answer .readback tag .done (.programHeader s.ms.generation p)
            else if pointer.toNat < 32 then
              answer .readback tag .done (.programSegments s.ms.generation p.segments.length
                ((p.segments.drop pointer.toNat).take count.toNat))
            else refuse .readback tag .badTable .unknownCode (.generation s.ms.generation))))))

/-- R43, R44, R45. The first structural fault of a program, header before segments, refuses it with its reason and entry
index. A program without one passes, with every field at the nearest bound of its range and each clamped field counted
once. That a label of length 0 is an absent one is log entry 22. -/
def Obligations.ProgramCheckedAndClamped : Prop :=
  ∀ r : RawProgram,
    (let codes := r.fitted ≤ 3 ∧ r.criterion ≤ 4
     let bare := r.criterion ≠ 0 ∧ r.fitted = 0
     let counted := 1 ≤ r.segments.length ∧ r.segments.length ≤ 32
     (16 < r.labelLength → checkProgram r = .error ⟨.labelLength, 32⟩) ∧
     (r.labelLength ≤ 16 → ¬ codes → checkProgram r = .error ⟨.unknownCode, 32⟩) ∧
     (r.labelLength ≤ 16 → codes → bare → checkProgram r = .error ⟨.removalWithoutExtensometer, 32⟩) ∧
     (r.labelLength ≤ 16 → codes → ¬ bare → ¬ counted → checkProgram r = .error ⟨.segmentCount, 32⟩) ∧
     (r.labelLength ≤ 16 → codes → ¬ bare → counted →
       (∀ (i : Nat) (raw : RawSegment) (reason : Reason), r.segments[i]? = some raw →
         segmentFault r.criterion raw = some reason →
         (∀ j raw', j < i → r.segments[j]? = some raw' → segmentFault r.criterion raw' = none) →
         checkProgram r = .error ⟨reason, i⟩) ∧
       ((∀ raw ∈ r.segments, segmentFault r.criterion raw = none) →
         ∃ p : Program,
           checkProgram r = .ok (p,
             clampCounts 1000 2000000 r.l0 + clampCounts 1000 2000000 r.lc + clampCounts 1000 2000000 r.lp +
             clampCounts 1 10000000 r.s0 + clampCounts 0 65536000 r.kStrain + clampCounts 0 65536000 r.kForce +
             (if r.criterion = 1 then clampCounts 1 2147483647 r.removalStrain else 0) +
             clampCounts 5 600 r.removalTimeout + clampCounts 1 10000000 r.slip +
             (r.segments.map segmentClamps).sum) ∧
           p.label = (if r.labelLength = 0 then none else some (r.label.take r.labelLength)) ∧
           [Fitted.none, .both, .armA, .armB][r.fitted]? = some p.fitted ∧
           [Criterion.none, .atStrain, .afterYield, .afterProof, .manual][r.criterion]? = some p.criterion ∧
           p.l0 = clampTo 1000 2000000 r.l0 ∧ p.lc = clampTo 1000 2000000 r.lc ∧ p.lp = clampTo 1000 2000000 r.lp ∧
           p.s0 = clampTo 1 10000000 r.s0 ∧ p.kStrain = clampTo 0 65536000 r.kStrain ∧
           p.kForce = clampTo 0 65536000 r.kForce ∧ p.removalTimeout = clampTo 5 600 r.removalTimeout ∧
           p.slip = clampTo 1 10000000 r.slip ∧
           p.removalStrain = (if r.criterion = 1 then clampTo 1 2147483647 r.removalStrain else 0) ∧
           (p.autoTare = true ↔ r.autoTare ≠ 0) ∧ (p.autoArm = true ↔ r.autoArm ≠ 0) ∧
           (p.autoPosition = true ↔ r.autoPosition ≠ 0) ∧
           p.segments.length = r.segments.length ∧
           ∀ (i : Nat) (raw : RawSegment), r.segments[i]? = some raw →
             ∃ g, p.segments[i]? = some g ∧
               [SegmentMode.position, .strain, .force, .hold][raw.mode]? = some g.mode ∧
               [EndKind.strainReached, .forceReached, .positionReached, .timeElapsed, .extReleased, .yieldDone,
                 .proofDone, .none][raw.endKind]? = some g.endKind ∧
               (if raw.endKind ≤ 3 then [EndSense.atOrAbove, .atOrBelow][raw.endSense]? = some g.sense
                else g.sense = .atOrAbove) ∧
               [EndAction.next, .finish][raw.endAction]? = some g.action ∧
               (let signed (top : Int) : Int :=
                  if 0 ≤ raw.rate then clampTo 1 top raw.rate else clampTo (-top) (-1) raw.rate
                g.rate = (match g.mode with
                  | .position => signed 1000000
                  | .strain => clampTo 1 1000000 raw.rate
                  | .force => signed 100000000
                  | .hold => 0)) ∧
               g.endValue =
                 (if raw.endKind ≤ 2 then raw.endValue
                  else if raw.endKind = 3 then clampTo 1 4294967 raw.endValue else 0) ∧
               g.fallback = raw.fallback.map (clampTo 1 1000000) ∧ g.gain = raw.gain.map (clampTo 0 65536000))))

/-- R51, R52. ARM is refused by the first check of the table that fails; with every check passed it enters ARMING: the pending
reply, the arming count, and the tag before the arm copies. -/
def Obligations.ArmRefusedOrAccepted : Prop :=
  (∀ (s : State) (tag : Tag), s.cp.store ≠ .loading →
     (let refuses (st : Status) (r : Reason) (p : Payload) : Prop :=
       exec (.arm tag) s = .next (s.msAnswers (refuse .arm tag st r p))
      (s.ms.state = .arming → refuses .wrongState .armInProgress .none) ∧
      (s.ms.state ≠ .idle → s.ms.state ≠ .arming → refuses .wrongState .notIdle .none) ∧
      (s.ms.state = .idle → 0 < s.ms.loadCount → refuses .wrongState .loadInProgress .none) ∧
      (s.ms.state = .idle → s.ms.loadCount = 0 → s.ms.program = none → refuses .badTable .noProgram .none) ∧
      (∀ p, s.ms.state = .idle → s.ms.loadCount = 0 → s.ms.program = some p →
        (s.ms.summary.frame = none ∨ s.ms.summary.crosshead = false ∨ s.ms.summary.complete = false →
          refuses .badTable .incompleteCalibration .none) ∧
        (∀ f, s.ms.summary.frame = some f → s.ms.summary.crosshead = true → s.ms.summary.complete = true →
          (let needsA := p.fitted = .both ∨ p.fitted = .armA
           let needsB := p.fitted = .both ∨ p.fitted = .armB
           let armsThere := (needsA → s.ms.summary.armA = true) ∧ (needsB → s.ms.summary.armB = true)
           let bare (i : Nat) : Prop := ∃ g, p.segments[i]? = some g ∧ g.mode = .strain ∧ g.fallback = none
           (¬ armsThere → refuses .badTable .armTableMissing .none) ∧
           (∀ i, armsThere → p.fitted = .none → bare i → (∀ j, j < i → ¬ bare j) →
             refuses .badTable .strainWithoutExtensometer (.entryIndex i)) ∧
           (armsThere → (p.fitted = .none → ∀ i, ¬ bare i) →
             (s.drive.status = none → refuses .wrongState .driveNotReady .none) ∧
             (∀ st, s.drive.status = some st →
               (st.fault = true → refuses .wrongState .driveFault .none) ∧
               (st.fault = false → st.endSwitch = true → refuses .wrongState .endSwitch .none) ∧
               (st.fault = false → st.endSwitch = false → st.ready = false →
                 refuses .wrongState .driveNotReady .none) ∧
               (st.fault = false → st.endSwitch = false → st.ready = true →
                 (s.ms.last = none → refuses .wrongState .noSample .none) ∧
                 (∀ x, s.ms.last = some x →
                   (x.position < f.travelMin ∨ f.travelMax < x.position → refuses .wrongState .outsideTravel .none) ∧
                   (f.travelMin ≤ x.position → x.position ≤ f.travelMax → p.fitted ≠ .none →
                     s.ms.extTag ≠ { name := .seated, generation := s.ms.generation } →
                     refuses .wrongState .extensometerNotSeated .none)))))))))) ∧
  (∀ (s : State) (tag : Tag) (p : Program) (f : FrameTable) (st : DriveStatus) (x : Sample),
     s.cp.store ≠ .loading → s.ms.state = .idle → s.ms.loadCount = 0 → s.ms.program = some p →
     s.ms.summary.frame = some f → s.ms.summary.crosshead = true → s.ms.summary.complete = true →
     (p.fitted = .both ∨ p.fitted = .armA → s.ms.summary.armA = true) →
     (p.fitted = .both ∨ p.fitted = .armB → s.ms.summary.armB = true) →
     (p.fitted = .none → ∀ g ∈ p.segments, g.mode = .strain → g.fallback ≠ none) →
     s.drive.status = some st → st.fault = false → st.endSwitch = false → st.ready = true →
     s.ms.last = some x → f.travelMin ≤ x.position → x.position ≤ f.travelMax →
     (p.fitted ≠ .none → s.ms.extTag = { name := .seated, generation := s.ms.generation }) →
     ∃ t, exec (.arm tag) s = .next t ∧
       (let m : MotionTag := .arming (s.ms.armingCount + 1)
        let copyEs : EsArmCopy :=
          { fitted := p.fitted, criterion := p.criterion, removalStrain := p.removalStrain,
            removalTimeout := p.removalTimeout, slip := p.slip }
        let copyTe : TeArmCopy := { s0 := p.s0, label := p.label, fMax := f.fMax }
        t = { s with
          ms := { s.ms with
            state := .arming, cause := .none, armingCount := s.ms.armingCount + 1, armReply := some tag,
            cursor := some { index := 0, phase := .notStarted }, pauses := .empty, pendingTransition := none }
          paths := { s.paths with
            msToInlet := s.paths.msToInlet ++ [m]
            msToMc := s.paths.msToMc ++ [.tag m]
            msToEs := s.paths.msToEs ++ [.tag m, .armCopy copyEs]
            msToTe := s.paths.msToTe ++ [.tag m, .armCopy copyTe]
            msNotices := t.paths.msNotices } }))

/-- R47, R48, R52. TE takes Evaluation Parameters and the arm copies are taken by TE, with the defaults for absent
parameters, and by ES. READBACK of the parameters. -/
def Obligations.EvaluationParametersAndArmCopiesTaken : Prop :=
  (∀ (s : State) (tag : Tag) (p : EvalParams) (rest : List TeMessage),
    s.paths.msToTe = .params tag (some p) :: rest →
    (let q : EvalParams :=
      { yieldDrop := clampTo 1 500 p.yieldDrop, yieldMinForce := clampTo 0 2147483647 p.yieldMinForce,
        yieldWindowEnd := clampTo 1 2147483647 p.yieldWindowEnd, transient := clampTo 0 1000000 p.transient,
        fLo := clampTo 0 2147483647 p.fLo, fHi := clampTo 0 2147483647 p.fHi,
        offsetStrain := clampTo 1 1000000 p.offsetStrain, breakDrop := clampTo 1 900 p.breakDrop,
        breakConfirm := clampTo 1 16 p.breakConfirm, breakMinForce := clampTo 0 2147483647 p.breakMinForce }
     let n := clampCounts 1 500 p.yieldDrop + clampCounts 0 2147483647 p.yieldMinForce +
       clampCounts 1 2147483647 p.yieldWindowEnd + clampCounts 0 1000000 p.transient +
       clampCounts 0 2147483647 p.fLo + clampCounts 0 2147483647 p.fHi + clampCounts 1 1000000 p.offsetStrain +
       clampCounts 1 900 p.breakDrop + clampCounts 1 16 p.breakConfirm + clampCounts 0 2147483647 p.breakMinForce
     (q.fLo < q.fHi →
       exec .evaluationParametersAtTe s = .next { s with
         te := { s.te with loaded := some q }
         paths := { ({ s.paths with msToTe := rest }.sendReply .te (answer .load tag .done (.clampCount n))) with
           teOutcomes := s.paths.teOutcomes ++ [.done] } }) ∧
     (q.fHi ≤ q.fLo →
       exec .evaluationParametersAtTe s = .next { s with
         paths := { ({ s.paths with msToTe := rest }.sendReply .te
             (refuse .load tag .badTable .fitWindowOrder (.entryIndex 0))) with
           teOutcomes := s.paths.teOutcomes ++ [.badTable] } }))) ∧
  (∀ (s : State) (tag : Tag) (rest : List TeMessage), s.paths.msToTe = .params tag none :: rest →
    exec .evaluationParametersAtTe s = .next { s with
      te := { s.te with loaded := none }
      paths := { ({ s.paths with msToTe := rest }.sendReply .te (answer .load tag .done (.clampCount 0))) with
        teOutcomes := s.paths.teOutcomes ++ [.done] } }) ∧
  (∀ (s : State) (tag : Tag), s.cp.store ≠ .loading →
    exec (.readbackEvaluationParameters tag) s = .next { s with
      paths := s.paths.sendReply .te
        (match s.te.loaded with
         | none => answer .readback tag .absent .none
         | some p => answer .readback tag .done (.evalParams p)) }) ∧
  (∀ (s : State) (c : TeArmCopy) (rest : List TeMessage), s.paths.msToTe = .armCopy c :: rest →
    (let defaults : EvalParams :=
      { yieldDrop := 5, yieldMinForce := c.fMax / 50, yieldWindowEnd := 50000, transient := 2000,
        fLo := c.fMax / 100, fHi := c.fMax * 4 / 100, offsetStrain := 20000, breakDrop := 500, breakConfirm := 3,
        breakMinForce := c.fMax / 100 }
     exec .armCopyAtTe s = .next { s with
       te := { s.te with copy := some c, params := some (s.te.loaded.getD defaults) }
       paths := { s.paths with msToTe := rest } })) ∧
  (∀ (s : State) (c : EsArmCopy) (rest : List EsMessage), s.paths.msToEs = .armCopy c :: rest →
    exec .armCopyAtEs s = .next { s with
      es := { s.es with copy := some c }, paths := { s.paths with msToEs := rest } })

/-! ## Chapter 4: motion sequencing -/

/-- R65. START: in ARMED it clears the marks, enters RUNNING and starts segment 0 from MS's last sample. The gain in
use of a segment that uses none is log entry 44, a STRAIN target started at the lowest strain log entry 45. -/
def Obligations.StartBeginsFirstSegment : Prop :=
  ∀ (s : State) (tag : Tag), s.cp.store ≠ .loading →
    (∀ p g x, s.ms.state = .armed → s.ms.program = some p → p.segments[0]? = some g → s.ms.last = some x →
      ∃ t, exec (.start tag) s = .next t ∧
        (let m : Ms := { s.ms with
          state := .running, cause := .none, pauses := .empty, pendingTransition := none, yieldMark := false,
          proofMark := false, releasedMark := false }
         t = s.msDoes s.paths
           { ms := m.started 0 g x, toTe := [.tag .running], tags := [.running], events := m.startEvents 0 g x }
           [answer .start tag .done (.startedFrom x.number)] t)) ∧
    (s.ms.state = .arming →
      exec (.start tag) s =
        .next (s.msAnswers (refuse .start tag .wrongState .armInProgress (.motionState .arming)))) ∧
    (s.ms.state ≠ .armed → s.ms.state ≠ .arming →
      exec (.start tag) s = .next (s.msAnswers (answer .start tag .wrongState (.motionState s.ms.state))))

/-- R66, R67, R68. STOP ends a test in STOPPED, ABORT moves every state but FAULTED to FAULTED, and RESET_TEST returns to
IDLE; in the other states each is answered without a change. That a pending ARM's CANCELLED comes before the DONE, and
SEGMENT_END before TEST_END, is log entry 16. -/
def Obligations.StopAbortAndResetTest : Prop :=
  ∀ (s : State) (tag : Tag), s.cp.store ≠ .loading →
    (∀ i g x, s.ms.state = .running ∨ s.ms.state = .paused → s.ms.inSegment i g x →
      ∃ t, exec (.stop tag) s = .next t ∧
        t = s.msDoes s.paths (s.ms.testStops i .stop .consoleStop x) [answer .stop tag .done .none] t) ∧
    (s.ms.state ≠ .running → s.ms.state ≠ .paused →
      exec (.stop tag) s = .next (s.msAnswers (answer .stop tag .wrongState (.motionState s.ms.state)))) ∧
    (s.ms.state ≠ .faulted →
      ∃ t, exec (.abort tag) s = .next t ∧
        t = s.msDoes s.paths (s.ms.faults .consoleAbort) (s.ms.armCancelled ++ [answer .abort tag .done .none]) t) ∧
    (s.ms.state = .faulted → exec (.abort tag) s = .next (s.msAnswers (answer .abort tag .done .none))) ∧
    (s.ms.state = .stopped ∨ s.ms.state = .faulted ∨ s.ms.state = .armed ∨ s.ms.state = .arming →
      ∃ t, exec (.resetTest tag) s = .next t ∧
        t = { s.msDoes s.paths
          { ms := { s.ms with
              state := .idle, cause := .none, pauses := .empty, cursor := none, continuation := none,
              continuationRate := none, fallbackUsed := false, segmentTime := 0, pendingTransition := none,
              jogRate := 0, jogEnabling := false, armReply := none }
            toTe := [.tag (.idle true)], tags := [.idle true], events := [] }
          (s.ms.armCancelled ++ [answer .resetTest tag .done .none]) t with
          drive := { s.drive with unanswered := 0, faultMark := false, endMark := false, notReadyMark := false } }) ∧
    (s.ms.state = .idle ∨ s.ms.state = .jogging ∨ s.ms.state = .running ∨ s.ms.state = .paused →
      exec (.resetTest tag) s = .next (s.msAnswers (answer .resetTest tag .wrongState (.motionState s.ms.state))))

/-- R69, R70, R71. PAUSE and the hold of ES each add their cause, and RESUME removes CONSOLE and EXT_FAILED: with no cause
left MS returns to RUNNING and applies a pending transition (R62). RESUME's payload, and that PAUSE answered WRONG_STATE
carries none, is log entry 20; the order of SEGMENT_END and TEST_END at RESUME is log entry 16. -/
def Obligations.PauseCausesAddedAndRemoved : Prop :=
  (∀ (s : State) (tag : Tag), s.cp.store ≠ .loading →
    (∀ b, s.ms.state = .running ∧ b = true ∨ s.ms.state = .paused ∧ b = false →
      ∃ t, exec (.pause tag) s = .next t ∧
        t = s.msDoes s.paths
          { ms := { s.ms with
              state := .paused, cause := if b then .none else s.ms.cause
              pauses := { s.ms.pauses with console := true } }
            toTe := if b then [.tag .paused] else [], tags := if b then [.paused] else [], events := [] }
          [answer .pause tag .done .none] t) ∧
    (s.ms.state ≠ .running → s.ms.state ≠ .paused →
      exec (.pause tag) s = .next (s.msAnswers (answer .pause tag .wrongState .none))) ∧
    (s.ms.state = .paused → s.ms.pauses.extRemoval = true →
      ∃ t, exec (.resume tag) s = .next t ∧
        t = s.msDoes s.paths
          { ms := { s.ms with pauses := { console := false, extRemoval := true, extFailed := false } }
            toTe := [], tags := [], events := [] }
          [answer .resume tag .done (.resumed .paused true)] t) ∧
    (∀ i g x, s.ms.state = .paused → s.ms.pauses.extRemoval = false → s.ms.inSegment i g x →
      ∃ t, exec (.resume tag) s = .next t ∧
        t = s.msDoes s.paths (s.ms.returns i g x)
          [answer .resume tag .done (.resumed (s.ms.returns i g x).ms.state false)] t) ∧
    (s.ms.state ≠ .paused → exec (.resume tag) s = .next (s.msAnswers (answer .resume tag .wrongState .none)))) ∧
  (∀ (s : State) (n : Nat), s.paths.holds = n + 1 →
    (∀ b, s.ms.state = .running ∧ b = true ∨ s.ms.state = .paused ∧ b = false →
      ∃ t, exec .extRemovalHold s = .next t ∧
        t = s.msDoes { s.paths with holds := n }
          { ms := { s.ms with
              state := .paused, cause := if b then .none else s.ms.cause
              pauses := { s.ms.pauses with extRemoval := true } }
            toTe := if b then [.tag .paused] else [], tags := if b then [.paused] else [], events := [] } [] t) ∧
    (s.ms.state ≠ .running → s.ms.state ≠ .paused →
      exec .extRemovalHold s = .next { s with paths := { s.paths with holds := n } }))

/-- R62, R72. Removal complete sets the mark, meets an EXT_RELEASED criterion or becomes the pending transition, and removes
EXT_REMOVAL; with no cause left MS returns to RUNNING. YIELD_DONE and PROOF mark, meet their criterion in RUNNING and become
the pending transition in PAUSED. Outside a test each is disregarded. SEGMENT_END goes before TEST_END by log entry 16. -/
def Obligations.RemovalCompleteAndCriterionEvents : Prop :=
  (∀ (s : State) (rest : List RemovalMessage), s.paths.removals = .complete :: rest →
     (let p : Paths := { s.paths with removals := rest }
      let marked : Ms := { s.ms with releasedMark := true }
      let freed : PauseCauses := { s.ms.pauses with extRemoval := false }
      (s.ms.state ≠ .running → s.ms.state ≠ .paused → exec .removalComplete s = .next { s with paths := p }) ∧
      (∀ i g x, s.ms.inSegment i g x →
        (s.ms.state = .running → s.ms.pauses = .empty →
          ∃ t, exec .removalComplete s = .next t ∧
            t = s.msDoes p
              (if g.endKind = .extReleased then marked.criterionEnds i g x
               else { ms := marked, toTe := [], tags := [], events := [] }) [] t) ∧
        (s.ms.state = .paused →
          (let waiting : Ms := { marked with
             pauses := freed
             pendingTransition :=
               if g.endKind = .extReleased ∧ s.ms.pendingTransition = none then some i else s.ms.pendingTransition }
           ∃ t, exec .removalComplete s = .next t ∧
             t = s.msDoes p
               (if freed = .empty then waiting.returns i g x
                else { ms := waiting, toTe := [], tags := [], events := [] }) [] t))))) ∧
  (∀ (s : State) (e : TeEvent) (rest : List TeEvent) (kind : EndKind) (n : Nat) (strain : Int),
     s.paths.teToMs = e :: rest →
     (e = .yieldDone n strain ∧ kind = .yieldDone ∨ e = .proof n strain ∧ kind = .proofDone) →
     (let p : Paths := { s.paths with teToMs := rest }
      let marked : Ms := { s.ms with
        yieldMark := decide (kind = .yieldDone) || s.ms.yieldMark
        proofMark := decide (kind = .proofDone) || s.ms.proofMark }
      (s.ms.state ≠ .running → s.ms.state ≠ .paused → exec .criterionEventAtMs s = .next { s with paths := p }) ∧
      (∀ i g x, s.ms.inSegment i g x →
        (s.ms.state = .running →
          ∃ t, exec .criterionEventAtMs s = .next t ∧
            t = s.msDoes p
              (if g.endKind = kind then marked.criterionEnds i g x
               else { ms := marked, toTe := [], tags := [], events := [] }) [] t) ∧
        (s.ms.state = .paused →
          ∃ t, exec .criterionEventAtMs s = .next t ∧
            t = s.msDoes p
              { ms := { marked with
                  pendingTransition :=
                    if g.endKind = kind ∧ s.ms.pendingTransition = none then some i else s.ms.pendingTransition }
                toTe := [], tags := [], events := [] } [] t))))

/-- R73, R74, R76. The removal timeout and BREAK stop a test and are disregarded outside one; a fault moves every state but
IDLE and FAULTED to FAULTED, with the pending ARM answered CANCELLED (R56). SEGMENT_END goes before TEST_END by log entry
16. -/
def Obligations.TimeoutBreakAndFaultsEndTheTest : Prop :=
  (∀ (s : State) (rest : List RemovalMessage), s.paths.removals = .timeout :: rest →
    (∀ i g x, s.ms.state = .running ∨ s.ms.state = .paused → s.ms.inSegment i g x →
      ∃ t, exec .removalTimeout s = .next t ∧
        t = s.msDoes { s.paths with removals := rest } (s.ms.testStops i .removalTimeout .removalTimeout x) [] t) ∧
    (s.ms.state ≠ .running → s.ms.state ≠ .paused →
      exec .removalTimeout s = .next { s with paths := { s.paths with removals := rest } })) ∧
  (∀ (s : State) (n : Nat) (rest : List TeEvent), s.paths.teToMs = .brk n :: rest →
    (∀ i g x, s.ms.state = .running ∨ s.ms.state = .paused → s.ms.inSegment i g x →
      ∃ t, exec .breakAtMs s = .next t ∧
        t = s.msDoes { s.paths with teToMs := rest } (s.ms.testStops i .brk .brk x) [] t) ∧
    (s.ms.state ≠ .running → s.ms.state ≠ .paused →
      exec .breakAtMs s = .next { s with paths := { s.paths with teToMs := rest } })) ∧
  (∀ (s : State) (b : FaultSource) (k : FaultKind) (rest : List FaultKind), s.paths.faultsOf b = k :: rest →
    (s.ms.state ≠ .idle → s.ms.state ≠ .faulted →
      ∃ t, exec (.faultEventAtMs b) s = .next t ∧
        t = s.msDoes (s.paths.setFaults b rest) (s.ms.faults (.fault k)) s.ms.armCancelled t) ∧
    (s.ms.state = .idle ∨ s.ms.state = .faulted →
      exec (.faultEventAtMs b) s = .next { s with paths := s.paths.setFaults b rest })) ∧
  (∀ (s : State) (tag : ExtTag) (rest : List ExtTag), s.paths.extTags = tag :: rest →
    exec .extensometerTag s =
      .next { s with ms := { s.ms with extTag := tag }, paths := { s.paths with extTags := rest } })

/-- R77, R79. JOG from IDLE with every check passed, a new rate in JOGGING, the refusals in order, and JOG_STOP. That both carry
no payload with WRONG_STATE is log entry 20. -/
def Obligations.JogStartsChangesAndStops : Prop :=
  ∀ (s : State) (tag : Tag) (rate : Int), s.cp.store ≠ .loading →
    (let vMax := s.ms.vMax
     let v := max (-vMax) (min vMax rate)
     let done := answer .jog tag .done (.jogRate v (decide (v ≠ rate)))
     let refuses (st : Status) (r : Reason) : Prop :=
       exec (.jog tag rate) s = .next (s.msAnswers (refuse .jog tag st r .none))
     (s.ms.state = .idle → s.ms.loadCount = 0 → s.ms.summary.frame = none ∨ s.ms.summary.crosshead = false →
       refuses .badTable .incompleteCalibration) ∧
     (∀ f, s.ms.state = .idle → s.ms.loadCount = 0 → s.ms.summary.frame = some f → s.ms.summary.crosshead = true →
       (s.drive.status = none → refuses .wrongState .driveNotReady) ∧
       (∀ st, s.drive.status = some st →
         (st.fault = true → refuses .wrongState .driveFault) ∧
         (st.fault = false → st.endSwitch = true → refuses .wrongState .endSwitch) ∧
         (st.fault = false → st.endSwitch = false → st.ready = false → refuses .wrongState .driveNotReady) ∧
         (st.fault = false → st.endSwitch = false → st.ready = true →
           (s.ms.last = none → refuses .wrongState .noSample) ∧
           (∀ x, s.ms.last = some x →
             (x.position < f.travelMin ∨ f.travelMax < x.position → refuses .wrongState .outsideTravel) ∧
             (f.travelMin ≤ x.position → x.position ≤ f.travelMax →
               ∃ t, exec (.jog tag rate) s = .next t ∧
                 t = s.msDoes s.paths
                   { ms := { s.ms with state := .jogging, cause := .none, jogRate := v, jogEnabling := true }
                     toTe := [.tag .jogging], tags := [.jogging], events := [] } [done] t))))) ∧
     (s.ms.state = .jogging →
       exec (.jog tag rate) s = .next
         { s with ms := { s.ms with jogRate := v }, paths := s.paths.msSends [] [] [] [done] }) ∧
     (s.ms.state ≠ .idle → s.ms.state ≠ .jogging →
       exec (.jog tag rate) s = .next (s.msAnswers (answer .jog tag .wrongState .none))) ∧
     (s.ms.state = .jogging →
       ∃ t, exec (.jogStop tag) s = .next t ∧
         t = { s.msDoes s.paths
           { ms := { s.ms with
               state := .idle, cause := .jogStop, pauses := .empty, continuation := none, continuationRate := none,
               pendingTransition := none, jogRate := 0 }
             toTe := [.tag (.idle false)], tags := [.idle false], events := [] }
           [answer .jogStop tag .done .none] t with
           drive := { s.drive with unanswered := 0, faultMark := false, endMark := false, notReadyMark := false } }) ∧
     (s.ms.state ≠ .jogging →
       exec (.jogStop tag) s = .next (s.msAnswers (answer .jogStop tag .wrongState .none))))

/-! ## Chapter 5: the demand and the drive -/

/-- R53, R60, R86, R90, R91, R92. A sample taken in IDLE, ARMED, PAUSED, STOPPED or FAULTED, or in ARMING without the mark
of the current arming count, leaves the demand and everything else of MS as it stands; its Drive Frame goes out. The
marked sample completes ARMING: the demand is its position, ARM is answered DONE, and MS is ARMED, or, outside travel,
FAULTED at once with the enable clear. The state in TRAVEL_LIMIT and the order of its events are the model's choice (log
entries 15, 16). -/
def Obligations.SamplesOutsideRunningKeepOrSetDemand : Prop :=
  (∀ (s : State) (x : Sample) (rest : List Sample), s.paths.samplesMs = x :: rest →
     (s.ms.state = .idle ∨ s.ms.state = .armed ∨ s.ms.state = .paused ∨ s.ms.state = .stopped ∨ s.ms.state = .faulted ∨
       (s.ms.state = .arming ∧ x.armingMark ≠ some s.ms.armingCount)) →
     exec .conditionedSampleAtMs s = .next
       (s.afterSample rest x { ms := { s.ms with last := some x }, toTe := [], tags := [], events := [] } [] [] s.drive)) ∧
  (∀ (s : State) (x : Sample) (rest : List Sample) (tag : Tag) (p : Program) (f : FrameTable),
     s.paths.samplesMs = x :: rest → s.ms.state = .arming → x.armingMark = some s.ms.armingCount →
     s.ms.armReply = some tag → s.ms.program = some p → s.ms.summary.frame = some f →
     (let permitted : List Source :=
        match p.fitted with
        | .none => [.crosshead]
        | .both => [.both, .armA, .armB, .crosshead]
        | .armA => [.armA, .crosshead]
        | .armB => [.armB, .crosshead]
      let m : Ms := { s.ms with last := some x, demand := x.position * 4294967296, armReply := none, cause := .none }
      let replies := [answer .arm tag .done (.armed x.number x.position x.source permitted)]
      (f.travelMin ≤ x.position → x.position ≤ f.travelMax →
        exec .conditionedSampleAtMs s = .next
          (s.afterSample rest x
            { ms := { m with state := .armed }, toTe := [.tag .armed], tags := [.armed], events := [] } [] replies
            s.drive)) ∧
      (∀ b, x.position < f.travelMin ∧ b = f.travelMin ∨ f.travelMin ≤ x.position ∧ f.travelMax < x.position ∧ b = f.travelMax →
        exec .conditionedSampleAtMs s = .next
          (s.afterSample rest x
            { ms := { m with
                state := .faulted, cause := .travelLimit, pauses := .empty, pendingTransition := none, jogRate := 0,
                cursor := m.cursor.map fun u => if u.phase = .running then { u with phase := .ended } else u }
              toTe := [.tag .armed, .tag (.faulted .travelLimit)]
              tags := [.armed, .faulted .travelLimit]
              events := [.testEnd .faulted .travelLimit (s.ms.cursor.map Cursor.index) (some x.number),
                .travelLimit b x.number .faulted] }
            [.travelLimit] replies s.drive))))

/-- R60, R61, R63, R64 with the arithmetic of R81 to R89. A sample in RUNNING: its time is added, the criterion tested, a
crosshead sample in a STRAIN segment handled, and the demand formed, in the segment that is then current. The order of
events within the step is the model's choice (log entry 16), as are the fraction of a saturated ramp target (log entry 9),
the state RUNNING in TRAVEL_LIMIT (log entry 15), the gain in use at the start of a segment that uses none (log entry 44)
and a STRAIN target started at the lowest strain (log entry 45). -/
def Obligations.RunningSamplePassesTheStages : Prop :=
  ∀ (s : State) (x : Sample) (rest : List Sample) (i : Nat) (g : Segment), s.paths.samplesMs = x :: rest →
    s.ms.state = .running →
    (let m : Ms := { s.ms with
      last := some x, segmentTime := min 4294967295 (s.ms.segmentTime + x.gap * x.period.us) }
     m.inSegment i g x →
     let next := if g.action = .next then s.ms.program.bind fun p => p.segments[i + 1]? else none
     let ended := m.criterionEnds i g x
     (¬ m.meets g x →
       exec .conditionedSampleAtMs s =
         .next (s.afterSample rest x (m.moves i g x).1 (m.moves i g x).2 [] s.drive)) ∧
     (m.meets g x → next = none →
       exec .conditionedSampleAtMs s = .next (s.afterSample rest x ended [] [] s.drive)) ∧
     (∀ g', m.meets g x → next = some g' →
       exec .conditionedSampleAtMs s =
         .next (s.afterSample rest x (ended.andThen (ended.ms.moves (i + 1) g' x).1) (ended.ms.moves (i + 1) g' x).2 []
           s.drive)))

/-- R75, R78, R91. A sample in JOGGING: the force limit, the enabling step, the jog step with its travel bound. The state
that TRAVEL_LIMIT carries is log entry 15. -/
def Obligations.JogSamplePassesTheStages : Prop :=
  ∀ (s : State) (x : Sample) (rest : List Sample) (f : FrameTable), s.paths.samplesMs = x :: rest →
    s.ms.state = .jogging → s.ms.summary.frame = some f →
    (let m : Ms := { s.ms with last := some x }
     let stays (m : Ms) : Prop :=
       exec .conditionedSampleAtMs s = .next
         (s.afterSample rest x { ms := m, toTe := [], tags := [], events := [] } [] [] s.drive)
     let leaves (m : Ms) (c : Cause) (e : Event) (triggers : List Trigger) : Prop :=
       exec .conditionedSampleAtMs s = .next
         (s.afterSample rest x
           { ms := { m with
               state := .idle, cause := c, pauses := .empty, continuation := none, continuationRate := none,
               pendingTransition := none }
             toTe := [.tag (.idle false)], tags := [.idle false], events := [e] }
           triggers []
           { s.drive with unanswered := 0, faultMark := false, endMark := false, notReadyMark := false })
     (f.jogForceLimit < (x.force.natAbs : Int) →
       leaves m .jogForceStop (.jogForceStop x.force x.number) []) ∧
     ((x.force.natAbs : Int) ≤ f.jogForceLimit → s.ms.jogEnabling = true →
       (let m' : Ms := { m with demand := x.position * 4294967296, jogEnabling := false }
        (f.travelMin ≤ x.position → x.position ≤ f.travelMax → stays m') ∧
        (x.position < f.travelMin → leaves m' .travelLimit (.travelLimit f.travelMin x.number .idle) [.travelLimit]) ∧
        (f.travelMin ≤ x.position → f.travelMax < x.position →
          leaves m' .travelLimit (.travelLimit f.travelMax x.number .idle) [.travelLimit]))) ∧
     ((x.force.natAbs : Int) ≤ f.jogForceLimit → s.ms.jogEnabling = false →
       (let d := s.ms.stepped x (positionIncrement s.ms.jogRate x)
        let low := f.travelMin * 4294967296
        let high := f.travelMax * 4294967296
        (low ≤ d → d ≤ high → stays { m with demand := d }) ∧
        (d < low →
          leaves { m with demand := low } .travelLimit (.travelLimit f.travelMin x.number .jogging) [.travelLimit]) ∧
        (low ≤ d → high < d →
          leaves { m with demand := high } .travelLimit (.travelLimit f.travelMax x.number .jogging) [.travelLimit]))))

/-- The law of bounded demand (R82) and, with it, the law of travel (R87): between two samples taken with the drive enabled
the demand changes by at most g × max_q, and a demand within travel stays within travel. -/
def Obligations.DemandBoundedWhileEnabled : Prop :=
  ∀ (s t : State) (x : Sample) (rest : List Sample) (f : FrameTable), step s = .next t →
    s.pending.head? = some .conditionedSampleAtMs → s.paths.samplesMs = x :: rest → s.ms.summary.frame = some f →
    f.travelMin ≤ f.travelMax → 0 ≤ f.vMax →
    (s.ms.state = .armed ∨ s.ms.state = .running ∨ s.ms.state = .paused ∨ s.ms.state = .stopped ∨
      (s.ms.state = .jogging ∧ s.ms.jogEnabling = false)) →
    f.travelMin * 4294967296 ≤ s.ms.demand → s.ms.demand ≤ f.travelMax * 4294967296 →
    (t.ms.demand - s.ms.demand).natAbs ≤ x.gap * roundDiv (f.vMax * 4294967296) (6 * x.period.rate) ∧
      f.travelMin * 4294967296 ≤ t.ms.demand ∧ t.ms.demand ≤ f.travelMax * 4294967296

/-- R93, R94, R95. A Drive Status Frame: a link error when a check fails, else matched with the send history, kept as the
last Drive Status, and its indications judged in order by the motion state and the reported marks. `enabled` says that the
answered frame, the most recent one of the echoed sequence, carried the enable. -/
def Obligations.DriveStatusMatchedAndJudged : Prop :=
  (∀ (s : State) (bs : List Byte) (st : DriveStatus) (enabled : Bool), readDriveStatus bs = some st →
    (enabled = true ↔
      ∃ before after, s.drive.history = before ++ (st.echo, true) :: after ∧ ∀ e, (st.echo, e) ∉ after) →
    ∃ t, exec (.driveStatusFrame bs) s = .next t ∧
      (let active := s.ms.state ≠ .idle ∧ s.ms.state ≠ .faulted
       let matching := (st.echo, true) ∈ s.drive.history ∨ (st.echo, false) ∈ s.drive.history
       let raised :=
         (if st.fault = true ∧ (active ∨ s.drive.faultMark = false) then
             [(FaultKind.driveFault, Event.driveFault st.code st.echo)] else []) ++
         (if st.endSwitch = true ∧ (active ∨ s.drive.endMark = false) then
             [(FaultKind.endSwitch, Event.endSwitch st.echo)] else []) ++
         (if st.ready = false ∧ enabled = true ∧ (active ∨ s.drive.notReadyMark = false) then
             [(FaultKind.driveNotReady, Event.driveNotReady st.echo)] else [])
       t = { s with
         rx := { s.rx with drive := .hunt }
         drive := { s.drive with
           unanswered := if matching then 0 else s.drive.unanswered
           status := some st
           faultMark := st.fault
           endMark := st.endSwitch
           notReadyMark := !st.ready && (s.drive.notReadyMark || enabled) }
         paths := { s.paths with
           driveFaults := s.paths.driveFaults ++ raised.map (·.1)
           events := { s.paths.events with drive := s.paths.events.drive ++ raised.map (·.2) }
           triggers := { s.paths.triggers with
             drive := s.paths.triggers.drive ++ raised.map fun e => Trigger.fault e.1 }
           msNotices := t.paths.msNotices } })) ∧
  (∀ (s : State) (bs : List Byte), readDriveStatus bs = none → (∀ b ∈ bs.drop 1, b ≠ 165) →
    exec (.driveStatusFrame bs) s = .next { s with
      rx := { s.rx with drive := .hunt }, paths := { s.paths with driveErrors := s.paths.driveErrors + 1 } })

/-! ## Chapter 6: the extensometer -/

/-- R97, R98, R99, R100, R114. ES takes motion state tags and program notices: the end of a test, the start of supervision, the
removal timer stopped in FAULTED, seating judged again; its tag follows a change of state name and every notice. -/
def Obligations.EsTakesTagsAndNotices : Prop :=
  (∀ (s : State) (m : MotionTag) (rest : List EsMessage), s.paths.msToEs = .tag m :: rest →
    (let p : Paths := { s.paths with msToEs := rest }
     let seat : ExtState := match s.es.last with
       | none => seatedBy s.es.fitted false false
       | some x => seatedBy s.es.fitted x.contactA x.contactB
     let cleared : Es := { s.es with
       tag := m, timer := none, timedOut := false, eventMark := false, requestedA := false, requestedB := false,
       history := none, sourceSeen := none }
     let gives (e : Es) : Prop :=
       exec .esStateTag s = .next (s.esDoes p e (decide (e.state.name ≠ s.es.state.name)) [] [])
     (m.state = .idle → gives { cleared with state := seat }) ∧
     (∀ c, m = .armed → s.es.copy = some c →
       gives (match c.fitted with
         | .none => { cleared with state := .notFitted }
         | .both => { cleared with state := .active, sourceSeen := some .both }
         | .armA => { cleared with state := .active, sourceSeen := some .armA }
         | .armB => { cleared with state := .active, sourceSeen := some .armB })) ∧
     (m.state = .faulted →
       gives { s.es with
         tag := m, timer := (match s.es.state with | .removalPending _ => none | _ => s.es.timer) }) ∧
     (m.state = .jogging ∨ m.state = .arming ∨ m.state = .running ∨ m.state = .paused ∨ m.state = .stopped →
       gives { s.es with tag := m }))) ∧
  (∀ (s : State) (n : Nat) (fitted : Option Fitted) (rest : List EsMessage), s.paths.msToEs = .notice n fitted :: rest →
    (let p : Paths := { s.paths with msToEs := rest }
     let seat : ExtState := match s.es.last with
       | none => seatedBy fitted false false
       | some x => seatedBy fitted x.contactA x.contactB
     let before := s.es.tag.state = .idle ∨ s.es.tag.state = .jogging ∨ s.es.tag.state = .arming
     exec .programNoticeAtEs s = .next
       (s.esDoes p { s.es with fitted := fitted, generation := n, state := if before then seat else s.es.state } true []
         [])))

/-- R98, R101, R105, R110. A sample at ES outside ACTIVE: seating before a test, the arms judged open in REMOVAL_PENDING,
and the record of stage 5. The sample that EXT_RELEASED names is log entry 14. -/
def Obligations.EsJudgesSeatingAndOpening : Prop :=
  ∀ (s : State) (x : Sample) (rest : List Sample), s.paths.samplesEs = x :: rest →
    (let p : Paths := { s.paths with samplesEs := rest }
     let before := s.es.tag.state = .idle ∨ s.es.tag.state = .jogging ∨ s.es.tag.state = .arming
     let unchanged : Prop := exec .conditionedSampleAtEs s = .next (s.esDoes p (s.es.recorded x) false [] [])
     (s.es.state = .notFitted ∨ s.es.state = .unseated ∨ s.es.state = .seated →
       (before →
         (let e : Es := { s.es.recorded x with state := seatedBy s.es.fitted x.contactA x.contactB }
          exec .conditionedSampleAtEs s = .next (s.esDoes p e (decide (e.state ≠ s.es.state)) [] []))) ∧
       (¬ before → unchanged)) ∧
     (s.es.state = .released ∨ (∃ c, s.es.state = .failed c) → unchanged) ∧
     (∀ sub, s.es.state = .removalPending sub →
       (let e : Es := { s.es.recorded x with sourceSeen := some x.source }
        let opened := x.contactA = false ∧ x.contactB = false
        let released (inTime : Bool) (p : Paths) : Prop :=
          exec .conditionedSampleAtEs s = .next
            (s.esDoes p { e with state := .released, timer := none } true
              [.extReleased (some x.number) (some x.source) inTime] [])
        (opened → sub = .awaitBoth → s.es.timedOut = false →
          exec .conditionedSampleAtEs s = .next
            (s.esDoes p { e with state := .removalPending .awaitConfirm } false [] [])) ∧
        (opened → sub = .awaitArms → s.es.timedOut = false →
          released true { p with removals := p.removals ++ [.complete] }) ∧
        (opened → sub = .awaitBoth → s.es.timedOut = true → released false p) ∧
        (¬ opened ∨ sub = .awaitConfirm ∨ (sub = .awaitArms ∧ s.es.timedOut = true) →
          exec .conditionedSampleAtEs s = .next (s.esDoes p e false [] [])))))

/-- R101 to R104, R106, R109. A sample at ES in ACTIVE: the loss of the last arm, or a demotion, slip of each arm, and the
removal criterion, in this order. That a source above the source seen changes nothing at stage 1 is log entry 55. -/
def Obligations.EsSupervisesTheArms : Prop :=
  ∀ (s : State) (x : Sample) (rest : List Sample) (seen : Source) (c : EsArmCopy), s.paths.samplesEs = x :: rest →
    s.es.state = .active → s.es.sourceSeen = some seen → s.es.copy = some c →
    (let p : Paths := { s.paths with samplesEs := rest }
     let demoted := seen.code < x.source.code
     let usesA := x.source = .both ∨ x.source = .armA
     let usesB := x.source = .both ∨ x.source = .armB
     (demoted → x.source = .crosshead →
       (let cause : FailCause :=
          if (s.es.requestedA = true ∧ (c.fitted = .both ∨ c.fitted = .armA)) ∨
             (s.es.requestedB = true ∧ (c.fitted = .both ∨ c.fitted = .armB)) then .slip else .armsLost
        exec .conditionedSampleAtEs s = .next
          (s.esDoes { p with triggers := { p.triggers with es := p.triggers.es ++ [.extFailed] } }
            { s.es.recorded x with state := .failed cause, sourceSeen := some .crosshead } true
            [.extFailed cause x.number seen] []))) ∧
     (¬ (demoted ∧ x.source = .crosshead) →
       ∀ slipA slipB met : Bool,
         (slipA = true ↔ s.es.tag = .running ∧ usesA ∧ s.es.requestedA = false ∧
           ∃ h, s.es.history = some h ∧ x.dLA < h.dLA - c.slip ∧ h.force ≤ x.force) →
         (slipB = true ↔ s.es.tag = .running ∧ usesB ∧ s.es.requestedB = false ∧
           ∃ h, s.es.history = some h ∧ x.dLB < h.dLB - c.slip ∧ h.force ≤ x.force) →
         (met = true ↔ s.es.tag = .running ∧
           ((c.criterion = .atStrain ∧ c.removalStrain ≤ x.strain) ∨
             ((c.criterion = .afterYield ∨ c.criterion = .afterProof) ∧ s.es.eventMark = true))) →
         (let fallA := s.es.history.map fun h => h.dLA - x.dLA
          let fallB := s.es.history.map fun h => h.dLB - x.dLB
          let lost : ArmId := if x.source = .armA then .b else .a
          let requested : Bool := match lost with | .a => s.es.requestedA | .b => s.es.requestedB
          let e : Es := { s.es.recorded x with
            sourceSeen := some (if demoted then x.source else seen)
            requestedA := s.es.requestedA || slipA
            requestedB := s.es.requestedB || slipB }
          let sub : RemovalSub := if x.contactA = false ∧ x.contactB = false then .awaitConfirm else .awaitBoth
          exec .conditionedSampleAtEs s = .next
            (s.esDoes
              { p with
                dropArms := p.dropArms ++ (if slipA then [.a] else []) ++ (if slipB then [.b] else [])
                holds := if met then p.holds + 1 else p.holds }
              (if met then { e.removalStarted c.removalTimeout with state := .removalPending sub } else e) met
              ((if demoted ∧ requested = false then
                  [.armDemoted lost .contactOrRange x.number none x.source] else []) ++
                (if slipA then [.armDemoted .a .slip x.number fallA x.source] else []) ++
                (if slipB then [.armDemoted .b .slip x.number fallB x.source] else []) ++
                (if met then [.extRemovalRequest c.criterion (some x.number) x.strain c.removalTimeout] else []))
              []))))

/-- R107, R108, R109, R111, R112, R113, R115. The removal asked for by an event of TE or by EXT_REMOVE, and their
refusals; EXT_CONFIRM and the expiry of the removal timer in each substate; BREAK at ES. A removal event's strain and the
cases without a last sample are log entry 14, the state that a TOO_LATE in RELEASED carries log entry 54. -/
def Obligations.RemovalRequestedConfirmedOrTimedOut : Prop :=
  ((∀ (s : State) (e : TeEvent) (rest : List TeEvent) (kind : Criterion) (n : Nat) (strain : Int),
     s.paths.teToEs = e :: rest →
     (e = .yieldDone n strain ∧ kind = .afterYield ∨ e = .proof n strain ∧ kind = .afterProof) →
     (let p : Paths := { s.paths with teToEs := rest }
      (∀ c, s.es.copy = some c → s.es.state = .active → c.criterion = kind →
        (s.es.tag = .running →
          exec .removalEventAtEs s = .next
            (s.esDoes { p with holds := p.holds + 1 } (s.es.removalStarted c.removalTimeout) true
              [.extRemovalRequest kind (some n) strain c.removalTimeout] [])) ∧
        (s.es.tag ≠ .running →
          exec .removalEventAtEs s = .next (s.esDoes p { s.es with eventMark := true } false [] []))) ∧
      (s.es.state ≠ .active ∨ (∀ c, s.es.copy = some c → c.criterion ≠ kind) →
        exec .removalEventAtEs s = .next (s.esDoes p s.es false [] [])))) ∧
   (∀ (s : State) (tag : Tag), s.cp.store ≠ .loading →
     (∀ c x, s.es.copy = some c → s.es.last = some x → s.es.state = .active →
       (s.es.tag = .running ∨ s.es.tag = .paused → c.criterion ≠ .none →
         exec (.extRemove tag) s = .next
           (s.esDoes { s.paths with holds := s.paths.holds + 1 } (s.es.removalStarted c.removalTimeout) true
             [.extRemovalRequest .manual (some x.number) x.strain c.removalTimeout]
             [answer .extRemove tag .done (.sampleNumber (some x.number))])) ∧
       (c.criterion = .none →
         exec (.extRemove tag) s = .next
           (s.esDoes s.paths s.es false [] [refuse .extRemove tag .wrongState .noRemoval .none])) ∧
       (c.criterion ≠ .none → s.es.tag ≠ .running → s.es.tag ≠ .paused →
         exec (.extRemove tag) s = .next
           (s.esDoes s.paths s.es false [] [answer .extRemove tag .wrongState (.extState .active)]))) ∧
     (s.es.state ≠ .active →
       exec (.extRemove tag) s = .next
         (s.esDoes s.paths s.es false [] [answer .extRemove tag .wrongState (.extState s.es.state)])))) ∧
  ((∀ (s : State) (tag : Tag), s.cp.store ≠ .loading →
     (∀ sub, s.es.state = .removalPending sub →
       (s.es.timedOut = true →
         exec (.extConfirm tag) s = .next
           (s.esDoes s.paths s.es false [] [refuse .extConfirm tag .wrongState .tooLate .none])) ∧
       (s.es.timedOut = false → sub = .awaitBoth →
         exec (.extConfirm tag) s = .next
           (s.esDoes s.paths { s.es with state := .removalPending .awaitArms, timer := none } false []
             [answer .extConfirm tag .done (.extSubstate (some .awaitArms))])) ∧
       (s.es.timedOut = false → sub = .awaitConfirm →
         exec (.extConfirm tag) s = .next
           (s.esDoes { s.paths with removals := s.paths.removals ++ [.complete] }
             { s.es with state := .released, timer := none } true
             [.extReleased (s.es.last.map EsLast.number) (s.es.last.map EsLast.source) true]
             [answer .extConfirm tag .done (.extSubstate none)])) ∧
       (s.es.timedOut = false → sub = .awaitArms →
         exec (.extConfirm tag) s = .next
           (s.esDoes s.paths s.es false [] [answer .extConfirm tag .done (.extSubstate (some .awaitArms))]))) ∧
     (s.es.state = .released → s.es.timedOut = true →
       exec (.extConfirm tag) s = .next
         (s.esDoes s.paths s.es false [] [refuse .extConfirm tag .wrongState .tooLate (.extState .released)])) ∧
     ((∀ sub, s.es.state ≠ .removalPending sub) → s.es.state ≠ .released ∨ s.es.timedOut = false →
       exec (.extConfirm tag) s = .next
         (s.esDoes s.paths s.es false [] [answer .extConfirm tag .wrongState (.extState s.es.state)]))) ∧
   (∀ (s : State) (sub : RemovalSub) (n : Nat), s.es.state = .removalPending sub → s.es.timer = some n →
     (let number := s.es.last.map EsLast.number
      let p : Paths := { s.paths with removals := s.paths.removals ++ [.timeout] }
      let e : Es := { s.es with timedOut := true, timer := none }
      (sub ≠ .awaitConfirm →
        exec .removalTimerExpiry s = .next (s.esDoes p e false [.extRemovalTimeout sub number] [])) ∧
      (sub = .awaitConfirm →
        exec .removalTimerExpiry s = .next
          (s.esDoes p { e with state := .released } true
            [.extRemovalTimeout sub number, .extReleased number (s.es.last.map EsLast.source) false] [])))) ∧
   (∀ s : State, s.es.timer = none ∨ (∀ sub, s.es.state ≠ .removalPending sub) → exec .removalTimerExpiry s = .next s)) ∧
  (∀ (s : State) (n : Nat) (rest : List TeEvent), s.paths.teToEs = .brk n :: rest →
     (let p : Paths := { s.paths with teToEs := rest }
      let fails : Prop :=
        exec .breakAtEs s = .next
          (s.esDoes p { s.es with state := .failed .atBreak, timer := none } true
            [.extAtBreak s.es.state.name (s.es.last.map EsLast.source) n] [])
      let keeps : Prop := exec .breakAtEs s = .next (s.esDoes p s.es false [] [])
      (s.es.state = .active → fails) ∧
      (∀ sub x, s.es.state = .removalPending sub → s.es.last = some x →
        (x.source ≠ .crosshead → fails) ∧ (x.source = .crosshead → keeps)) ∧
      (s.es.state ≠ .active → (∀ sub, s.es.state ≠ .removalPending sub) → keeps)))

/-! ## Chapter 7: the test evaluator -/

/-- R118, R121, R134 with R54. TE takes motion state tags: ARMED clears the record and the detectors, RUNNING after ARMED
starts the fit, the first STOPPED or FAULTED tag of a test closes what is open and records the test end cause, IDLE closes
the test; the record is published while the hold is FREE. That a RUNNING tag publishes nothing is log entry 17. -/
def Obligations.TeTakesMotionStateTags : Prop :=
  ∀ (s : State) (m : MotionTag) (rest : List TeMessage), s.paths.msToTe = .tag m :: rest →
    ∃ t evs, exec .teStateTag s = .next t ∧
      t = { s with
        te := t.te
        paths := { s.paths with
          msToTe := rest
          events := { s.paths.events with te := s.paths.events.te ++ evs } } } ∧
      (let cleared : Results :=
         { label := s.te.copy.bind TeArmCopy.label, s0 := (s.te.copy.map TeArmCopy.s0).getD 0, reH := none, reL := none,
           reLFinal := false, outcome := .pending, fitStatus := .notStarted, fitReason := none, fitN := 0, fitK := 0,
           fitB := 0, rp := none, fm := none, brk := none, sReH := 0, sReL := 0, sRp := 0, sRm := 0,
           endCause := .none, log := [] }
       let count := (s.te.count + 1) % 4294967296
       (m = .armed →
         t.te = { s.te with
           tag := m, testOpen := true, breakConfirmed := false, yieldState := .seeking, peak := none,
           sums := { e := 0, f := 0, ee := 0, ef := 0 }, fitSource := none, proofState := .awaitingFit,
           breakState := .waiting, run := 0, candidate := none, working := cleared, published := cleared, count := count,
           hold := .free, holdTimer := if s.te.hold = .held then none else s.te.holdTimer,
           expired := if s.te.hold = .held then some .armed else s.te.expired } ∧
         evs = if s.te.hold = .held then [.holdExpired .armed count] else []) ∧
       (m = .running → evs = [] ∧
         t.te = { s.te with
           tag := m
           working := { s.te.working with
             fitStatus :=
               if s.te.tag = .armed ∧ s.te.working.fitStatus = .notStarted then .collecting
               else s.te.working.fitStatus } }) ∧
       (m = .jogging ∨ m = .paused ∨ (∃ n, m = .arming n) → evs = [] ∧ t.te = { s.te with tag := m }) ∧
       (m.state = .idle → evs = [] ∧ t.te = { s.te with tag := m, testOpen := false }) ∧
       (∀ c, m = .stopped c ∨ m = .faulted c →
         (s.te.testOpen = false → evs = [] ∧ t.te = { s.te with tag := m }) ∧
         (s.te.testOpen = true →
           (let closes := s.te.breakConfirmed = false
            let fails := closes ∧ s.te.working.fitStatus = .collecting
            let ends := closes ∧ s.te.yieldState = .plateau
            let working : Results := { s.te.working with
              endCause := c
              fitStatus := if fails then .failed else s.te.working.fitStatus
              fitReason := if fails then some .windowNotPassed else s.te.working.fitReason
              fitK := if fails then 0 else s.te.working.fitK
              fitB := if fails then 0 else s.te.working.fitB
              reLFinal := if ends then s.te.working.reL.isSome else s.te.working.reLFinal
              outcome := if ends then .discontinuous else s.te.working.outcome }
            evs = (if fails then [.fitFailed .windowNotPassed s.te.working.fitN none] else []) ∧
            t.te = { s.te with
              tag := m
              testOpen := false
              working := working
              yieldState := if ends then .done else s.te.yieldState
              proofState :=
                if closes ∧ (fails ∨ s.te.proofState = .seeking ∨ s.te.proofState = .awaitingFit) then .notFound
                else s.te.proofState
              run := if closes then 0 else s.te.run
              published := if s.te.hold = .free then working else s.te.published
              count := if s.te.hold = .free then count else s.te.count }))))

/-- R119, R129 to R133, R139. A sample at TE while the test is open: the maximum force, the break detector with the record of a
confirmed break, the stresses and the publication. PAUSED freezes the other detectors, and with the test closed or the break
confirmed no detector works. On the confirming sample the steps of R131 act on what the stages before leave: `u` is what the
same sample leaves under a k_b that it does not reach. A fit still collecting fails with WINDOW_NOT_PASSED, the proof
detector ends NOT_FOUND, and a plateau ends without YIELD_DONE. -/
def Obligations.TeTracksMaximumAndBreak : Prop :=
  (∀ (s : State) (x : Sample) (rest : List Sample), s.paths.samplesTe = x :: rest →
    s.te.testOpen = false ∨ s.te.breakConfirmed = true ∨ (s.te.tag ≠ .running ∧ s.te.tag ≠ .paused) →
    exec .conditionedSampleAtTe s = .next { s with paths := { s.paths with samplesTe := rest } }) ∧
  (∀ (s : State) (x : Sample) (rest : List Sample) (p : EvalParams), s.paths.samplesTe = x :: rest →
    s.te.params = some p → s.te.testOpen = true → s.te.breakConfirmed = false →
    s.te.tag = .running ∨ s.te.tag = .paused →
    ∃ t evs msgs trig, exec .conditionedSampleAtTe s = .next t ∧
      t = { s with
        te := { t.te with
          loaded := s.te.loaded, copy := s.te.copy, params := s.te.params, tag := s.te.tag, testOpen := true,
          hold := s.te.hold, holdTimer := s.te.holdTimer, expired := s.te.expired }
        paths := { s.paths with
          samplesTe := rest
          teToMs := s.paths.teToMs ++ msgs
          teToEs := s.paths.teToEs ++ msgs
          events := { s.paths.events with te := s.paths.events.te ++ evs }
          triggers := { s.paths.triggers with te := s.paths.triggers.te ++ trig } } } ∧
      (let point : Point := { force := x.force, strain := x.strain, number := x.number }
       let raised := ∀ m ∈ s.te.working.fm, m.force < x.force
       let s0 := (s.te.copy.map TeArmCopy.s0).getD 0
       let stressOf (f : Option Int) : Int :=
         match f with
         | none => 0
         | some f => clampTo (-2147483648) 2147483647 (roundDiv (1000 * f) s0)
       (raised → t.te.working.fm = some point) ∧ (¬ raised → t.te.working.fm = s.te.working.fm) ∧
       t.te.working.sRm = stressOf (t.te.working.fm.map Point.force) ∧
       t.te.working.sReH = stressOf (t.te.working.reH.map SourcePoint.force) ∧
       t.te.working.sReL = stressOf (t.te.working.reL.map Point.force) ∧
       t.te.working.sRp = stressOf (t.te.working.rp.map SourcePoint.force) ∧
       (if t.te.working ≠ s.te.working ∧ s.te.hold = .free then
          t.te.published = t.te.working ∧ t.te.count = (s.te.count + 1) % 4294967296
        else t.te.published = s.te.published ∧ t.te.count = s.te.count) ∧
       (s.te.tag = .paused → t.te.breakConfirmed = false →
         t.te = { s.te with
           breakState := t.te.breakState, run := t.te.run, candidate := t.te.candidate, published := t.te.published,
           count := t.te.count
           working := { s.te.working with
             fm := t.te.working.fm, sRm := t.te.working.sRm, sReH := t.te.working.sReH, sReL := t.te.working.sReL,
             sRp := t.te.working.sRp } } ∧ evs = [] ∧ msgs = [] ∧ trig = []) ∧
       (∀ m, t.te.working.fm = some m →
         (let watches := s.te.breakState = .watching ∨ (s.te.breakState = .waiting ∧ p.breakMinForce ≤ m.force)
          let drops := ¬ raised ∧ x.force ≤ m.force - roundDiv (m.force * p.breakDrop) 1000
          (s.te.breakState = .waiting → m.force < p.breakMinForce →
            t.te.breakState = .waiting ∧ t.te.run = s.te.run ∧ t.te.candidate = s.te.candidate ∧
              t.te.breakConfirmed = false) ∧
          (watches → ¬ drops →
            t.te.breakState = .watching ∧ t.te.run = 0 ∧ t.te.candidate = some point ∧ t.te.breakConfirmed = false) ∧
          (watches → drops → (s.te.run : Int) + 1 < p.breakConfirm →
            t.te.breakState = .watching ∧ t.te.run = s.te.run + 1 ∧ t.te.candidate = s.te.candidate ∧
              t.te.breakConfirmed = false) ∧
          (∀ pre, watches → drops → p.breakConfirm ≤ (s.te.run : Int) + 1 → s.te.candidate = some pre →
            t.te.breakState = .confirmed ∧ t.te.breakConfirmed = true ∧ t.te.candidate = some pre ∧
            t.te.working.fitStatus ≠ .collecting ∧ t.te.proofState ≠ .seeking ∧ t.te.proofState ≠ .awaitingFit ∧
            t.te.yieldState ≠ .plateau ∧
            (let record : BreakRecord :=
               { pre := pre
                 elongation :=
                   if t.te.working.fitStatus = .done then
                     clampTo (-2147483648) 2147483647
                       (pre.strain - roundDiv (pre.force * 65536) t.te.working.fitK)
                   else pre.strain
                 elasticKept := decide (t.te.working.fitStatus ≠ .done) }
             t.te.working.brk = some record ∧ evs.getLast? = some (.brk x.number record) ∧
             msgs.getLast? = some (.brk x.number) ∧ trig.getLast? = some .brk ∧
             ∃ u evs' msgs' trig',
               exec .conditionedSampleAtTe
                   { s with te := { s.te with params := some { p with breakConfirm := s.te.run + 2 } } } = .next u ∧
               u.paths.events.te = s.paths.events.te ++ evs' ∧ u.paths.teToMs = s.paths.teToMs ++ msgs' ∧
               u.paths.triggers.te = s.paths.triggers.te ++ trig' ∧ u.te.breakConfirmed = false ∧
               (let v := u.te.working
                let w' := t.te.working
                let fails := v.fitStatus = .collecting
                let closes := u.te.yieldState = .plateau
                w'.fitStatus = (if fails then .failed else v.fitStatus) ∧
                w'.fitReason = (if fails then some .windowNotPassed else v.fitReason) ∧
                w'.fitK = (if fails then 0 else v.fitK) ∧ w'.fitB = (if fails then 0 else v.fitB) ∧
                w'.fitN = v.fitN ∧
                t.te.proofState =
                  (if fails ∨ u.te.proofState = .seeking ∨ u.te.proofState = .awaitingFit then .notFound
                   else u.te.proofState) ∧
                t.te.yieldState = (if closes then .done else u.te.yieldState) ∧
                w'.outcome = (if closes then .discontinuous else v.outcome) ∧
                w'.reLFinal = (if closes then v.reL.isSome else v.reLFinal) ∧
                w'.reH = v.reH ∧ w'.reL = v.reL ∧ w'.rp = v.rp ∧ w'.fm = v.fm ∧
                evs = evs' ++ (if fails then [.fitFailed .windowNotPassed v.fitN (some x.number)] else []) ++
                  [.brk x.number record] ∧
                msgs = msgs' ++ [.brk x.number] ∧ trig = trig' ++ [.brk])))))))

/-- R122, R123, R124. The yield detector on a sample in RUNNING that does not confirm a break: the peak and its fall, the yield
window, the plateau with its transient, its lower yield point and its end, each with exactly the yield events, messages and
triggers it sends. The strain in TE's message is log entry 14. -/
def Obligations.TeJudgesYield : Prop :=
  ∀ (s : State) (x : Sample) (rest : List Sample) (p : EvalParams), s.paths.samplesTe = x :: rest →
    s.te.params = some p → s.te.testOpen = true → s.te.breakConfirmed = false → s.te.tag = .running →
    ∃ t evs msgs, exec .conditionedSampleAtTe s = .next t ∧ t.paths.events.te = s.paths.events.te ++ evs ∧
      t.paths.teToMs = s.paths.teToMs ++ msgs ∧ t.paths.teToEs = s.paths.teToEs ++ msgs ∧
      (t.te.breakConfirmed = false →
        (let w := s.te.working
         let w' := t.te.working
         let point : SourcePoint := { force := x.force, strain := x.strain, number := x.number, source := x.source }
         let sends (es : List Event) (ms : List TeEvent) (trig : List Trigger) : Prop :=
           evs.filter Event.isYield = es ∧ msgs.filter TeEvent.isYield = ms ∧
             t.paths.triggers.te = s.paths.triggers.te ++ trig
         let same := t.te.yieldState = s.te.yieldState ∧ w'.reH = w.reH ∧ w'.reL = w.reL ∧ w'.reLFinal = w.reLFinal ∧
           w'.outcome = w.outcome ∧ sends [] [] []
         let told := sends [.yieldDone w'.outcome w'.reH w'.reL w'.reLFinal x.number] [.yieldDone x.number x.strain] []
         (s.te.yieldState = .seeking →
           ∀ peak : SourcePoint,
             peak = (match s.te.peak with
               | none => point
               | some q => if q.force < x.force then point else q) →
             (let falls := p.yieldMinForce ≤ peak.force ∧
                x.force ≤ peak.force - roundDiv (peak.force * p.yieldDrop) 1000
              t.te.peak = some peak ∧
              (falls →
                t.te.yieldState = .plateau ∧ w'.reH = some peak ∧ w'.reL = w.reL ∧ w'.reLFinal = w.reLFinal ∧
                  w'.outcome = w.outcome ∧ sends [.yieldUpper peak x.number] [] [.yieldUpper]) ∧
              (¬ falls → p.yieldWindowEnd ≤ x.strain →
                t.te.yieldState = .none ∧ w'.outcome = .continuous ∧ w'.reH = w.reH ∧ w'.reL = w.reL ∧
                  w'.reLFinal = w.reLFinal ∧ told) ∧
              (¬ falls → x.strain < p.yieldWindowEnd → same))) ∧
         (∀ h, s.te.yieldState = .plateau → w.reH = some h →
           (let ends := h.force < x.force ∨ p.yieldWindowEnd ≤ x.strain
            t.te.peak = s.te.peak ∧
            (ends →
              t.te.yieldState = .done ∧ w'.outcome = .discontinuous ∧ w'.reH = w.reH ∧ w'.reL = w.reL ∧
                w'.reLFinal = w.reL.isSome ∧ told) ∧
            (¬ ends → x.strain < h.strain + p.transient → same) ∧
            (¬ ends → h.strain + p.transient ≤ x.strain →
              t.te.yieldState = .plateau ∧ w'.outcome = w.outcome ∧ w'.reH = w.reH ∧ w'.reLFinal = w.reLFinal ∧
                w'.reL =
                  (if ∀ l ∈ w.reL, x.force < l.force then
                    some { force := x.force, strain := x.strain, number := x.number } else w.reL) ∧
                sends [] [] []))) ∧
         (s.te.yieldState = .done ∨ s.te.yieldState = .none → same ∧ t.te.peak = s.te.peak)))

/-- R125, R126, R127, R128. The modulus fit and the proof detector on a sample in RUNNING that does not confirm a break.
Each
case sends exactly its events and messages, and the sample sends nothing else, stage by stage (R120). While the fit collects the
proof detector awaits it, which every step keeps. That b is formed from k before its saturation
is log entry 41. With F_lo at or above F_hi no sample lies in the window (R48 and the text of section 7.3 after R127). -/
def Obligations.TeFitsModulusAndJudgesProof : Prop :=
  ∀ (s : State) (x : Sample) (rest : List Sample) (p : EvalParams), s.paths.samplesTe = x :: rest →
    s.te.params = some p → s.te.testOpen = true → s.te.breakConfirmed = false → s.te.tag = .running →
    ∃ t evs msgs, exec .conditionedSampleAtTe s = .next t ∧ t.paths.events.te = s.paths.events.te ++ evs ∧
      t.paths.teToMs = s.paths.teToMs ++ msgs ∧ t.paths.teToEs = s.paths.teToEs ++ msgs ∧
      (t.te.breakConfirmed = false →
        (let w := s.te.working
         let w' := t.te.working
         let q := s.te.sums
         let n := w.fitN
         let den := n * q.ee - q.e * q.e
         let slope := roundDiv ((n * q.ef - q.e * q.f) * 65536) den
         let k := clampTo (-2147483648) 2147483647 slope
         let b := clampTo (-2147483648) 2147483647 (roundDiv (q.f * 65536 - slope * q.e) (n * 65536))
         let fitTells (es : List Event) : Prop := evs.filter Event.isFit = es
         let proofTells (es : List Event) (ms : List TeEvent) : Prop :=
           evs.filter Event.isProof = es ∧ msgs.filter TeEvent.isProof = ms
         let kept := t.te.sums = q ∧ t.te.fitSource = s.te.fitSource ∧ w'.fitN = n
         let unchanged := kept ∧ w'.fitStatus = w.fitStatus ∧ w'.fitReason = w.fitReason ∧ w'.fitK = w.fitK ∧
           w'.fitB = w.fitB ∧ fitTells []
         let fails (r : FitReason) : Prop :=
           kept ∧ w'.fitStatus = .failed ∧ w'.fitReason = some r ∧ w'.fitK = 0 ∧ w'.fitB = 0 ∧
             t.te.proofState = .notFound ∧ fitTells [.fitFailed r n (some x.number)]
         let other := ∃ src, s.te.fitSource = some src ∧ src ≠ x.source
         (w.fitStatus = .collecting → s.te.proofState = .awaitingFit →
           (other → fails .sourceChanged) ∧
           (¬ other → p.fHi < x.force →
             (n < 16 → fails .tooFew) ∧
             (16 ≤ n → den ≤ 0 → fails .flat) ∧
             (16 ≤ n → 0 < den → k ≤ 0 → fails .negative) ∧
             (16 ≤ n → 0 < den → 0 < k →
               kept ∧ w'.fitStatus = .done ∧ w'.fitReason = w.fitReason ∧ w'.fitK = k ∧ w'.fitB = b ∧
                 t.te.proofState = .seeking ∧ fitTells [.fitDone n k b x.number])) ∧
           (¬ other → p.fLo < p.fHi → p.fLo ≤ x.force → x.force ≤ p.fHi → n < 65535 →
             t.te.sums = { e := q.e + x.strain, f := q.f + x.force, ee := q.ee + x.strain * x.strain,
                           ef := q.ef + x.strain * x.force } ∧
             t.te.fitSource = some x.source ∧ w'.fitN = n + 1 ∧ w'.fitStatus = .collecting ∧ fitTells []) ∧
           (¬ other → x.force ≤ p.fHi → p.fHi ≤ p.fLo ∨ x.force < p.fLo ∨ 65535 ≤ n → unchanged)) ∧
         (w.fitStatus ≠ .collecting → unchanged) ∧
         (w.fitStatus = .done → s.te.proofState = .seeking →
           (let line := clampTo (-2147483648) 2147483647
              (roundDiv (w.fitK * (x.strain - p.offsetStrain)) 65536 + w.fitB)
            let point : SourcePoint := { force := x.force, strain := x.strain, number := x.number, source := x.source }
            (p.offsetStrain < x.strain → x.force ≤ line →
              t.te.proofState = .found ∧ w'.rp = some point ∧
                proofTells [.proof point line] [.proof x.number x.strain]) ∧
            (x.strain ≤ p.offsetStrain ∨ line < x.force →
              t.te.proofState = .seeking ∧ w'.rp = w.rp ∧ proofTells [] []))) ∧
         (s.te.proofState ≠ .seeking → proofTells [] []) ∧
         evs = evs.filter Event.isYield ++ evs.filter Event.isFit ++ evs.filter Event.isProof ∧
         msgs = msgs.filter TeEvent.isYield ++ msgs.filter TeEvent.isProof ∧
         (s.te.proofState = .found ∨ s.te.proofState = .notFound → w.fitStatus ≠ .collecting →
           t.te.proofState = s.te.proofState ∧ w'.rp = w.rp)))

/-! ## Chapter 8: the results store -/

/-- R138, R139, R140, R141, R142, R144. The Segment Log entry, the snapshot hold and its end, and READ_RESULTS, which changes
nothing. -/
def Obligations.ResultsStoreHoldsPublishesAndReads : Prop :=
  (∀ (s : State) (e : LogEntry) (rest : List TeMessage), s.paths.msToTe = .entry e :: rest →
    ∀ w : Results, w = { s.te.working with log := s.te.working.log ++ [e] } →
    exec .segmentLogEntry s = .next { s with
      paths := { s.paths with msToTe := rest }
      te := { s.te with
        working := w
        published := if s.te.hold = .free then w else s.te.published
        count := if s.te.hold = .free then (s.te.count + 1) % 4294967296 else s.te.count } }) ∧
  (∀ (s : State) (tag : Tag), s.cp.store ≠ .loading →
    (exec (.snapHold tag) s = .next { s with
      te := { s.te with hold := .held, holdTimer := some 1000000, expired := none }
      paths := s.paths.sendReply .te (answer .snapHold tag .done (.snapHold s.te.count s.te.hold)) }) ∧
    (s.te.hold = .held → ∀ n : Nat, n = (s.te.count + 1) % 4294967296 →
      exec (.snapRelease tag) s = .next { s with
        te := { s.te with
          hold := .free, holdTimer := none, expired := none, published := s.te.working, count := n }
        paths := s.paths.sendReply .te (answer .snapRelease tag .done (.snapRelease n .held)) }) ∧
    (s.te.hold = .free →
      exec (.snapRelease tag) s = .next { s with
        te := { s.te with expired := none }
        paths := s.paths.sendReply .te
          (answer .snapRelease tag .done
            (.snapRelease s.te.count (if s.te.expired = none then .none else .expired))) }) ∧
    (∀ part : Byte, exec (.readResults tag part) s = .next { s with
      paths := s.paths.sendReply .te
        (let st : Status := if s.te.expired = none then .done else .holdExpired
         let r := s.te.published
         if part = 0 then answer .readResults tag st (.results r s.te.count s.te.hold s.te.expired)
         else if part = 1 then answer .readResults tag st (.resultsLog r.log s.te.count s.te.hold s.te.expired)
         else refuse .readResults tag .badRequest .unknownPart .none) })) ∧
  (∀ (s : State) (us : Nat), s.te.hold = .held → s.te.holdTimer = some us →
    ∀ n : Nat, n = (s.te.count + 1) % 4294967296 →
    exec .holdTimerExpiry s = .next { s with
      te := { s.te with
        hold := .free, holdTimer := none, expired := some .timer, published := s.te.working, count := n }
      paths := s.paths.sendEvent .te (.holdExpired .timer n) })

/-! ## Chapter 9: the Capture Ring -/

/-- R146 to R152. Samples and trigger events at CR: FILLING and POST record, the first masked trigger in FILLING sets the trigger
point, POST counts samples and enters HELD with CAPTURE_HELD, and in every other case CR stays as it is. CAPTURE_SET,
CAPTURE_TRIGGER, CAPTURE_DRAIN and CAPTURE_REARM outside LOADING. That a non-zero enable byte means set is log entry 51, and
that two of the replies repeat fields of the capture prefix log entry 53. -/
def Obligations.CaptureRingRecordsTriggersAndAnswers : Prop :=
  ((∀ (s : State) (x : Sample) (rest : List Sample), s.paths.samplesCr = x :: rest →
     ∀ p : Paths, p = { s.paths with samplesCr := rest } →
     (s.cr.state = .off ∨ s.cr.state = .held → exec .conditionedSampleAtCr s = .next { s with paths := p }) ∧
     (s.cr.state = .filling →
       exec .conditionedSampleAtCr s = .next (s.crDoes p { s.cr with ring := s.cr.recorded x } [] [])) ∧
     (s.cr.state = .post → ∀ c : Cr, c = { s.cr with
         ring := s.cr.recorded x, remaining := s.cr.remaining - 1 } →
       (1 < s.cr.remaining → exec .conditionedSampleAtCr s = .next (s.crDoes p c [] [])) ∧
       (s.cr.remaining = 1 →
         exec .conditionedSampleAtCr s = .next (s.crDoes p c.enteredHeld.1 c.enteredHeld.2 [])))) ∧
   (∀ (s : State) (b : Block) (t : Trigger) (rest : List Trigger), s.paths.triggers.get b = t :: rest →
     ∀ p : Paths, p = { s.paths with triggers := s.paths.triggers.set b rest } →
     ∀ bit : Nat, bit = (match t with
       | .brk => 0 | .fault _ => 1 | .travelLimit => 1 | .yieldUpper => 2 | .extFailed => 3 | .console => 4) →
     (s.cr.state = .filling → s.cr.mask.getLsbD bit = true →
       exec (.triggerEventAtCr b) s = .next (s.crDoes p (s.cr.triggered t).1 (s.cr.triggered t).2 [])) ∧
     (s.cr.state ≠ .filling ∨ s.cr.mask.getLsbD bit = false →
       exec (.triggerEventAtCr b) s = .next { s with paths := p }))) ∧
  (∀ (s : State) (tag : Tag), s.cp.store ≠ .loading →
     (∀ (enable mask : Byte) (post : Nat), mask.toNat < 32 →
       ∀ c : Cr, c = { s.cr with
         enable := decide (enable ≠ 0), post := min post 4095, mask := mask.setWidth 5, ring := [], trigger := none,
         cause := none, remaining := 0, state := if enable = 0 then .off else .filling } →
       exec (.captureSet tag enable post mask) s = .next
         (s.crDoes s.paths c [] [c.says .captureSet tag .done none (.clamped (decide (4095 < post)))])) ∧
     (∀ (enable mask : Byte) (post : Nat), 32 ≤ mask.toNat →
       exec (.captureSet tag enable post mask) s = .next
         { s with cp := s.cp.offerReply (refuse .captureSet tag .badRequest .unknownFlag .none) }) ∧
     (s.cr.state = .filling → s.cr.mask.getLsbD 4 = true → ∀ c : Cr, c = (s.cr.triggered .console).1 →
       exec (.captureTrigger tag) s = .next (s.crDoes s.paths c (s.cr.triggered .console).2
         [c.says .captureTrigger tag .done none (.triggered s.cr.newest c.state)])) ∧
     (s.cr.state = .filling → s.cr.mask.getLsbD 4 = false →
       exec (.captureTrigger tag) s = .next
         (s.crDoes s.paths s.cr [] [s.cr.says .captureTrigger tag .wrongState (some .notInMask) .nothing])) ∧
     (s.cr.state ≠ .filling →
       exec (.captureTrigger tag) s = .next
         (s.crDoes s.paths s.cr [] [s.cr.says .captureTrigger tag .wrongState none .nothing])) ∧
     (∀ k : Nat,
       (s.cr.state = .held → s.cr.ring ≠ [] → ∀ c : Cr, c = { s.cr with ring := s.cr.ring.drop (min k 32) } →
         exec (.captureDrain tag k) s = .next (s.crDoes s.paths c []
           [c.says .captureDrain tag .done none (.drained c.ring.length (s.cr.ring.take (min k 32)))])) ∧
       (s.cr.state = .held → s.cr.ring = [] →
         exec (.captureDrain tag k) s = .next
           (s.crDoes s.paths s.cr [] [s.cr.says .captureDrain tag .empty none (.drained 0 [])])) ∧
       (s.cr.state ≠ .held →
         exec (.captureDrain tag k) s = .next
           (s.crDoes s.paths s.cr [] [s.cr.says .captureDrain tag .wrongState none .nothing]))) ∧
     (∀ c : Cr, c = { s.cr with
         ring := [], trigger := none, cause := none, remaining := 0,
         state := if s.cr.enable = true then .filling else .off } →
       exec (.captureRearm tag) s = .next
         (s.crDoes s.paths c [] [c.says .captureRearm tag .done none (.entered c.state)])))

/-! ## Chapter 10: the Console Port -/

/-- R159, R162, R164. Events and replies at CP: the flag by R164's table, the Event Report with its sample number and
"loss before", and the Report Queue by R162's table. Each kind has its code of section
11.5 and the sample number that its rule names; which one where the rule lists several, or none that is there, is log entry
18. -/
def Obligations.EventsAndRepliesQueued : Prop :=
  (∀ (s : State) (b : Block) (r : Reply) (rest : List Reply), s.paths.replies.get b = r :: rest →
    exec (.replyReport b) s = .next { s with
      cp := s.cp.replied r
      paths := { s.paths with replies := s.paths.replies.set b rest } }) ∧
  (∀ (s : State) (b : Block) (e : Event) (rest : List Event), s.paths.events.get b = e :: rest →
    exec (.eventAtCp b) s = .next { s with
      cp := s.cp.told e e.flag (if e.number.isSome then e.number else s.cp.lastSample)
      paths := { s.paths with events := s.paths.events.set b rest } }) ∧
  (∀ e : Event, (e.code, e.number) =
    (match e with
     | .inletGap _ _ => (1, none)
     | .inletSilent _ n => (2, n)
     | .periodChanged _ _ => (3, none)
     | .overload _ _ => (4, none)
     | .rangeInvalid _ => (5, none)
     | .driveFault _ _ => (6, none)
     | .endSwitch _ => (7, none)
     | .driveNotReady _ => (8, none)
     | .driveSilent _ _ => (9, none)
     | .travelLimit _ n _ => (10, some n)
     | .jogForceStop _ n => (11, some n)
     | .storeError _ => (12, none)
     | .autoloadDone _ => (13, none)
     | .testEnd _ _ _ n => (14, n)
     | .segmentEnd entry => (15, some entry.number)
     | .segmentFallback _ n _ _ _ => (16, some n)
     | .rateClamped _ _ _ _ _ => (17, none)
     | .armDemoted _ _ n _ _ => (18, some n)
     | .extFailed _ n _ => (19, some n)
     | .extRemovalRequest _ n _ _ => (20, n)
     | .linkError _ _ => (21, none)
     | .extReleased n _ _ => (23, n)
     | .extRemovalTimeout _ n => (24, n)
     | .extAtBreak _ _ n => (25, some n)
     | .yieldUpper _ falling => (26, some falling)
     | .yieldDone _ _ _ _ n => (27, some n)
     | .fitDone _ _ _ n => (28, some n)
     | .fitFailed _ _ n => (29, n)
     | .proof rp _ => (30, some rp.number)
     | .brk n _ => (31, some n)
     | .holdExpired _ _ => (32, none)
     | .captureHeld _ _ _ _ _ => (33, none))) ∧
  (∀ e : Event, e.code ≠ 16 → e.flag = kindFlag e.code) ∧
  (∀ i n src rate p, (Event.segmentFallback i n src rate p).flag = if src = .equivalent then 16 else 0)

/-- R160, R161. Transmission from the head of the Report Queue, the link control characters HOLD and GO, and the Conditioned
Samples that CP takes and streams. -/
def Obligations.ReportsTransmittedAndSamplesStreamed : Prop :=
  (∀ (s : State) (r : Report) (rest : List Report), s.cp.queue = r :: rest → s.cp.transmitting = true →
    exec .reportTransmitted s = .next { s with
      cp := Cp.begun { s.cp with queue := rest, transmitting := false }
      consoleLine := s.consoleLine ++ [r.frame] }) ∧
  (∀ s : State, s.cp.transmitting = false → exec .reportTransmitted s = .next s) ∧
  (∀ s : State, exec .hold s = .next { s with cp := { s.cp with hold := .held } }) ∧
  (∀ s : State, exec .go s = .next { s with cp := Cp.begun { s.cp with hold := .go } }) ∧
  (∀ (s : State) (x : Sample) (rest : List Sample), s.paths.samplesCp = x :: rest →
    exec .conditionedSampleAtCp s = .next { s with
      paths := { s.paths with samplesCp := rest }
      cp :=
        if s.cp.stream = true ∧ x.number % s.cp.decimation = 0 ∧ s.cp.queue.length ≤ 47 ∧
            (∀ n ∈ s.cp.lastStreamed, n < x.number) then
          Cp.begun { s.cp with
            lastSample := some x.number, lastStreamed := some x.number
            queue := s.cp.queue ++ [.sample x.toConditioned] }
        else { s.cp with lastSample := some x.number } })

/-- R155, R156, R163, R165, R166, R168. Link errors, CLEAR, MASK_SET, ATTN_MODE, STREAM_SET and the end of a pulse. A set
bit above the eleven flags and an unknown mode are refused. CP takes its own link errors at once (log entry 27); that a
non-zero enable byte of STREAM_SET means set is log entry 51. -/
def Obligations.FlagsMaskModePulseAndLinkErrors : Prop :=
  (∀ (s : State) (tag : Tag), s.cp.store ≠ .loading →
    (∀ flags : BitVec 16, flags.toNat < 2048 → ∀ c : Cp,
      c = Cp.settled { s.cp with
        flags := s.cp.flags &&& ~~~(flags.setWidth 11)
        frontErrors := if flags.getLsbD 8 then 0 else s.cp.frontErrors
        driveErrors := if flags.getLsbD 8 then 0 else s.cp.driveErrors
        consoleErrors := if flags.getLsbD 8 then 0 else s.cp.consoleErrors } →
      exec (.clear tag flags) s = .next { s with
        cp := c.replied (answer .clear tag .done (.cleared c.flags (c.flags &&& c.mask))) }) ∧
    (∀ flags : BitVec 16, flags.toNat < 2048 → ∀ c : Cp,
      c = Cp.settled { s.cp with mask := flags.setWidth 11 } →
      exec (.maskSet tag flags) s = .next { s with
        cp := c.replied (answer .maskSet tag .done (.masked c.mask (c.flags &&& c.mask))) }) ∧
    (∀ flags : BitVec 16, 2048 ≤ flags.toNat →
      exec (.clear tag flags) s = .next { s with
        cp := s.cp.replied (refuse .clear tag .badRequest .unknownFlag .none) } ∧
      exec (.maskSet tag flags) s = .next { s with
        cp := s.cp.replied (refuse .maskSet tag .badRequest .unknownFlag .none) }) ∧
    (∀ mode : Byte, exec (.attnMode tag mode) s = .next { s with
      cp :=
        if mode = 0 then
          Cp.replied (Cp.settled { s.cp with mode := .latched, pulse := none })
            (answer .attnMode tag .done (.attnMode .latched))
        else if mode = 1 then
          Cp.replied { s.cp with mode := .pulse, pulse := none, attnLow := false }
            (answer .attnMode tag .done (.attnMode .pulse))
        else s.cp.replied (refuse .attnMode tag .badRequest .unknownCode .none) }) ∧
    (∀ (enable : Byte) (asked : Nat), asked ≤ 65535 → ∃ d : Nat,
      exec (.streamSet tag enable asked) s = .next { s with
        cp := Cp.replied { s.cp with stream := decide (enable ≠ 0), decimation := d }
          (answer .streamSet tag .done (.stream (decide (enable ≠ 0)) d)) } ∧
      (asked = 0 → d = 1) ∧ (256 < asked → d = 256) ∧
      (1 ≤ asked → asked ≤ 256 → ∃ k, d = 2 ^ k ∧ d ≤ asked ∧ asked < 2 * d))) ∧
  (∀ s : State, s.cp.mode = .pulse → s.cp.pulse.isSome = true →
    exec .attnPulseExpiry s = .next { s with cp := { s.cp with attnLow := false, pulse := none } }) ∧
  (∀ (s : State) (n : Nat),
    (s.paths.frontErrors = n + 1 →
      exec (.linkError .front) s = .next { s with
        cp := s.cp.linkErrorTaken .front, paths := { s.paths with frontErrors := n } }) ∧
    (s.paths.driveErrors = n + 1 →
      exec (.linkError .drive) s = .next { s with
        cp := s.cp.linkErrorTaken .drive, paths := { s.paths with driveErrors := n } }) ∧
    exec (.linkError .console) s = .next { s with cp := s.cp.linkErrorTaken .console })

/-- R156, R157, R169. The status notices and the store state that CP keeps, STATUS in every store state, and the requests
of an unknown kind or for an unknown table, which CP refuses itself. What the drive group shows before a first Drive Frame
is log entry 32. -/
def Obligations.StatusFormedAndFaultyRequestsRefused : Prop :=
  (∀ (s : State) (x : StoreState) (rest : List StoreState), s.paths.storeStates = x :: rest →
    exec .storeStateNotice s = .next { s with
      cp := { s.cp with store := x }, paths := { s.paths with storeStates := rest } }) ∧
  (∀ (s : State) (n : MsNotice) (rest : List MsNotice), s.paths.msNotices = n :: rest →
    exec (.statusNotice .ms) s = .next { s with
      cp := { s.cp with motion := n }, paths := { s.paths with msNotices := rest } }) ∧
  (∀ (s : State) (n : ExtState) (rest : List ExtState), s.paths.esNotices = n :: rest →
    exec (.statusNotice .es) s = .next { s with
      cp := { s.cp with ext := n }, paths := { s.paths with esNotices := rest } }) ∧
  (∀ (s : State) (n : CrNotice) (rest : List CrNotice), s.paths.crNotices = n :: rest →
    exec (.statusNotice .cr) s = .next { s with
      cp := { s.cp with capture := n }, paths := { s.paths with crNotices := rest } }) ∧
  (∀ (s : State) (tag : Tag) (c : Cp), c = s.cp →
    exec (.status tag) s = .next { s with
      cp := c.replied (answer .status tag .done (.status
        { flags := c.flags, mask := c.mask, attention := c.flags &&& c.mask, mode := c.mode, attnLow := c.attnLow,
          frontErrors := c.frontErrors, driveErrors := c.driveErrors, consoleErrors := c.consoleErrors, hold := c.hold,
          free := 64 - c.queue.length, lossMark := c.lossMark, stream := c.stream, decimation := c.decimation,
          motion := c.motion, ext := c.ext, capture := c.capture, store := c.store, lastSample := c.lastSample })) }) ∧
  (∀ (s : State) (tag : Tag) (kind : Byte), s.cp.store ≠ .loading → kind.toNat < 16 ∨ 45 < kind.toNat →
    exec (.unknownKind kind tag) s = .next { s with
      cp := s.cp.replied
        { tag := tag, kind := kind, status := .badRequest, reason := some .unknownKind, payload := .none } }) ∧
  (∀ (s : State) (tag : Tag) (kind index : Byte), s.cp.store ≠ .loading →
    kind.toNat = 0 ∨ 6 < kind.toNat ∨ (kind.toNat = 3 ∧ 1 < index.toNat) ∨
      (kind.toNat ≠ 3 ∧ kind.toNat ≠ 4 ∧ 0 < index.toNat) →
    exec (.unknownTable tag kind index) s = .next { s with
      cp := s.cp.replied (refuse .load tag .badRequest .unknownTable .none) })

/-! ## Chapter 11: frames and receivers -/

/-- R171, R173 and sections 11.1, 11.2 and 11.4. A frame built in the envelope passes the CRC test and gives back its kind,
tag and payload; a Sample Frame and a Drive Status Frame give back every field. The bytes that the part sends: the Drive Frame
(11.4), and the Sample Report, Event Report, Reply Report, capture prefix and Capture Record (11.5). The forms of event fields
that no layout gives are log entries 14, 18, 19, 43 and 47 to 49, the codes of the trigger causes log entry 19. -/
def Obligations.FramesReadBackAsBuilt : Prop :=
  crc16 [49, 50, 51, 52, 53, 54, 55, 56, 57] = 10673 ∧
  (∀ (kind : Nat) (tag : Tag) (p : List Byte), kind < 256 → p.length < 65536 →
    ∀ bs : List Byte, bs = envelope kind tag p →
    bs.length = 8 + p.length ∧ bs.head? = some 165 ∧ crcPasses bs = true ∧ frameLength bs = p.length ∧
      frameKind bs = kind ∧ frameTag bs = tag ∧ framePayload bs = p) ∧
  (∀ f : SampleFrame, -8388608 ≤ f.load → f.load ≤ 8388607 → -8388608 ≤ f.countA → f.countA ≤ 8388607 →
    -8388608 ≤ f.countB → f.countB ≤ 8388607 → -2147483648 ≤ f.crosshead → f.crosshead ≤ 2147483647 →
    (writeSampleFrame f).length = 24 ∧ readSampleFrame (writeSampleFrame f) = some f) ∧
  (∀ d : DriveStatus, d.code < 256 →
    (writeDriveStatus d).length = 10 ∧ readDriveStatus (writeDriveStatus d) = some d) ∧
  (∀ (seq : Seq) (demand : Int) (enable : Bool),
    isFrame (driveFrame seq demand enable) 2 seq (littleEndian 4 demand ++ [if enable then 1 else 0])) ∧
  (∀ x : Sample,
    isFrame (Report.frame (.sample x.toConditioned)) 64 0
      (littleEndian 4 x.number ++ littleEndian 2 x.seq.toNat ++ littleEndian 1 x.gap ++
        littleEndian 1 (match x.period with | .us2000 => 0 | .us1000 => 1 | .us500 => 2 | .us200 => 3) ++
        littleEndian 4 x.testTime ++ littleEndian 4 x.force ++ littleEndian 1 x.range.val ++
        [packed [x.uncal, x.held, x.overrange, x.validA, x.validB, x.sourceChanged]] ++ littleEndian 4 x.dLA ++
        littleEndian 4 x.dLB ++ littleEndian 4 x.position ++ littleEndian 4 x.relPosition ++ littleEndian 4 x.strain ++
        littleEndian 1 (match x.source with | .both => 0 | .armA => 1 | .armB => 2 | .crosshead => 3))) ∧
  (∀ (e : Event) (n : Option Nat) (loss : Bool), (listedFields e).length ≤ 96 ∧
    isFrame (Report.frame (.event e n loss)) 65 0
      (littleEndian 1 e.code ++ [packed [loss, n.isSome]] ++ littleEndian 4 (n.getD 0) ++
        littleEndian 1 (listedFields e).length ++ listedFields e)) ∧
  (∀ (r : Reply) (reason payload : List Byte), payload = r.payload.bytes → payload.length ≤ 1024 →
    reason = (match r.reason with
      | none => []
      | some x => x.name.toList.map fun c => BitVec.ofNat 8 c.toNat) →
    reason.length ≤ 31 ∧
    isFrame (Report.frame (.reply r)) 66 r.tag
      ([r.kind] ++
        littleEndian 1 (match r.status with
          | .done => 0 | .wrongState => 1 | .badTable => 2 | .badRequest => 3 | .notReady => 4 | .cancelled => 5
          | .absent => 6 | .empty => 7 | .holdExpired => 8 | .storeFailed => 9) ++
        littleEndian 1 reason.length ++ reason ++ littleEndian 2 payload.length ++ payload)) ∧
  (∀ c : CaptureRecord, CaptureRecord.bytes c =
    littleEndian 4 c.number ++ littleEndian 4 c.force ++ littleEndian 4 c.strain ++ littleEndian 4 c.position ++
      littleEndian 1 (match c.source with | .both => 0 | .armA => 1 | .armB => 2 | .crosshead => 3) ++
      [packed [c.uncal, c.held, c.overrange, c.validA, c.validB, c.sourceChanged, c.gap]]) ∧
  (∀ c : CapturePrefix, CapturePrefix.bytes c =
    littleEndian 1 (match c.state with | .off => 0 | .filling => 1 | .post => 2 | .held => 3) ++ littleEndian 2 c.held ++
      present 4 (c.trigger.map Int.ofNat) ++
      (match c.cause with
       | none => [0, 0]
       | some .brk => [1, 0]
       | some .yieldUpper => [2, 0]
       | some .extFailed => [3, 0]
       | some .console => [4, 0]
       | some (.fault k) => [5, BitVec.ofNat 8 k.eventCode]
       | some .travelLimit => [5, 10]))

/-- R156, R158 and section 11.5. A Management Frame that passes the check has the effect of the command it carries, with
every operand at every value the layout admits; the receiver is then in HUNT. A payload of another length than its kind's is
answered BAD_LENGTH, also INQUIRE and STATUS in LOADING; LOADING goes first for the other kinds (log entry 6). The order
of R156's faults is log entry 37, the signed d_y and d_b of a LOAD log entry 21, the unsigned post count of CAPTURE_SET log
entry 52, and a whole candidate for one command log entry 26. -/
def Obligations.ManagementFramesActAsTheirCommands : Prop :=
  (∀ (c : Instr) (bs : List Byte) (s : State), c.wf = true → managementFrame c = some bs →
    exec (.consoleFrameError bs) s = exec c { s with rx := { s.rx with console := .hunt } }) ∧
  (∀ (kind : Byte) (tag : Tag) (p : List Byte) (s : State), kind.toNat < 16 ∨ 45 < kind.toNat → p.length ≤ 1024 →
    exec (.consoleFrameError (envelope kind.toNat tag p)) s =
      exec (.unknownKind kind tag) { s with rx := { s.rx with console := .hunt } }) ∧
  (∀ (tag : Tag) (kind index : Byte) (p : List Byte) (s : State), (Instr.unknownTable tag kind index).wf = true →
    p.take 2 = [kind, index] → payloadFits 16 p →
    exec (.consoleFrameError (envelope 16 tag p)) s =
      exec (.unknownTable tag kind index) { s with rx := { s.rx with console := .hunt } }) ∧
  (∀ (kind : Byte) (tag : Tag) (p : List Byte) (s : State), 16 ≤ kind.toNat → kind.toNat ≤ 45 → p.length ≤ 1024 →
    ¬ payloadFits kind.toNat p →
    (let answers (st : Status) (r : Option Reason) : Prop :=
       exec (.consoleFrameError (envelope kind.toNat tag p)) s = .next { s with
         rx := { s.rx with console := .hunt }
         cp := s.cp.replied { tag := tag, kind := kind, status := st, reason := r, payload := .none } }
     (s.cp.store ≠ .loading ∨ kind = 19 ∨ kind = 41 → answers .badRequest (some .badLength)) ∧
     (s.cp.store = .loading → kind ≠ 19 → kind ≠ 41 → answers .notReady none)))

/-- R2, R93, R154, R172, R173. Each receiver in HUNT and RECEIVING: a delimiter starts a candidate, a character extends
it, a complete one is judged, and one that fails at the length, breaks off or fails its checks is one link error, after
which the bytes behind its delimiter are examined as if they arrived now. A frame handed on is taken in the same step (log
entry 26); on FRONT in LOADING complete candidates are discarded whole (log entry 39). -/
def Obligations.ReceiversFindFrames : Prop :=
  ∀ (s : State) (l : Link),
    (s.rx.get l = .hunt →
      exec (.startDelimiter l 165) s = .next { s with rx := s.rx.set l (.receiving [165] 8) } ∧
      (∀ c : Byte, c ≠ 165 → l ≠ .console ∨ (c ≠ 204 ∧ c ≠ 51) → exec (.startDelimiter l c) s = .next s) ∧
      (l = .console → exec (.startDelimiter l 204) s = exec .hold s ∧ exec (.startDelimiter l 51) s = exec .go s)) ∧
    (∀ (held bs : List Byte) (us : Nat) (c : Byte), s.rx.get l = .receiving held us → held.head? = some 165 →
      bs = held ++ [c] →
      (bs.length < 3 ∨ (3 ≤ bs.length ∧ lengthAllowed l (frameLength bs) ∧ bs.length < 8 + frameLength bs) →
        exec (.startDelimiter l c) s = .next { s with rx := s.rx.set l (.receiving bs 8) }) ∧
      (3 ≤ bs.length → ¬ lengthAllowed l (frameLength bs) →
        exec (.startDelimiter l c) s = s.examinesAgain l bs.tail) ∧
      (lengthAllowed l (frameLength bs) → bs.length = 8 + frameLength bs →
        exec (.startDelimiter l c) s = exec (frameCommand l bs) s)) ∧
    (∀ (held : List Byte) (us : Nat), s.rx.get l = .receiving held us →
      exec (.receptionTimerExpiry l) s = s.examinesAgain l held.tail) ∧
    (∀ bs : List Byte, bs.head? = some 165 → ¬ checksPass l bs → l ≠ .front ∨ s.sp.state ≠ .loading →
      exec (frameCommand l bs) s = s.examinesAgain l bs.tail) ∧
    (∀ bs : List Byte, s.sp.state = .loading →
      exec (.sampleFrame bs) s = .next { s with rx := s.rx.set .front .hunt })
end

