-- ==== Sys2Proof/Laws/State.lean ====
section
/-! SUPPORT. One lemma per field of the state for each operation that puts a block's desk back, and of the items kept per
block; all true by unfolding, so that no later proof unfolds a record update. -/

namespace Sys2Proof.Machine

/-! ## The state after a block has worked -/

@[simp] theorem State.onInlet_rx (s : State) (f : InletDesk → InletDesk) : (s.onInlet f).rx = s.rx := rfl
@[simp] theorem State.onInlet_inlet (s : State) (f : InletDesk → InletDesk) : (s.onInlet f).inlet = (f ⟨s.inlet, s.paths⟩).inlet := rfl
@[simp] theorem State.onInlet_mc (s : State) (f : InletDesk → InletDesk) : (s.onInlet f).mc = s.mc := rfl
@[simp] theorem State.onInlet_ms (s : State) (f : InletDesk → InletDesk) : (s.onInlet f).ms = s.ms := rfl
@[simp] theorem State.onInlet_drive (s : State) (f : InletDesk → InletDesk) : (s.onInlet f).drive = s.drive := rfl
@[simp] theorem State.onInlet_es (s : State) (f : InletDesk → InletDesk) : (s.onInlet f).es = s.es := rfl
@[simp] theorem State.onInlet_te (s : State) (f : InletDesk → InletDesk) : (s.onInlet f).te = s.te := rfl
@[simp] theorem State.onInlet_cr (s : State) (f : InletDesk → InletDesk) : (s.onInlet f).cr = s.cr := rfl
@[simp] theorem State.onInlet_cp (s : State) (f : InletDesk → InletDesk) : (s.onInlet f).cp = s.cp := rfl
@[simp] theorem State.onInlet_sp (s : State) (f : InletDesk → InletDesk) : (s.onInlet f).sp = s.sp := rfl
@[simp] theorem State.onInlet_paths (s : State) (f : InletDesk → InletDesk) : (s.onInlet f).paths = (f ⟨s.inlet, s.paths⟩).paths := rfl
@[simp] theorem State.onInlet_driveLine (s : State) (f : InletDesk → InletDesk) : (s.onInlet f).driveLine = s.driveLine := rfl
@[simp] theorem State.onInlet_consoleLine (s : State) (f : InletDesk → InletDesk) : (s.onInlet f).consoleLine = s.consoleLine := rfl
@[simp] theorem State.onInlet_pending (s : State) (f : InletDesk → InletDesk) : (s.onInlet f).pending = s.pending := rfl

@[simp] theorem State.onMc_rx (s : State) (f : McDesk → McDesk) : (s.onMc f).rx = s.rx := rfl
@[simp] theorem State.onMc_inlet (s : State) (f : McDesk → McDesk) : (s.onMc f).inlet = s.inlet := rfl
@[simp] theorem State.onMc_mc (s : State) (f : McDesk → McDesk) : (s.onMc f).mc = (f ⟨s.mc, s.paths⟩).mc := rfl
@[simp] theorem State.onMc_ms (s : State) (f : McDesk → McDesk) : (s.onMc f).ms = s.ms := rfl
@[simp] theorem State.onMc_drive (s : State) (f : McDesk → McDesk) : (s.onMc f).drive = s.drive := rfl
@[simp] theorem State.onMc_es (s : State) (f : McDesk → McDesk) : (s.onMc f).es = s.es := rfl
@[simp] theorem State.onMc_te (s : State) (f : McDesk → McDesk) : (s.onMc f).te = s.te := rfl
@[simp] theorem State.onMc_cr (s : State) (f : McDesk → McDesk) : (s.onMc f).cr = s.cr := rfl
@[simp] theorem State.onMc_cp (s : State) (f : McDesk → McDesk) : (s.onMc f).cp = s.cp := rfl
@[simp] theorem State.onMc_sp (s : State) (f : McDesk → McDesk) : (s.onMc f).sp = s.sp := rfl
@[simp] theorem State.onMc_paths (s : State) (f : McDesk → McDesk) : (s.onMc f).paths = (f ⟨s.mc, s.paths⟩).paths := rfl
@[simp] theorem State.onMc_driveLine (s : State) (f : McDesk → McDesk) : (s.onMc f).driveLine = s.driveLine := rfl
@[simp] theorem State.onMc_consoleLine (s : State) (f : McDesk → McDesk) : (s.onMc f).consoleLine = s.consoleLine := rfl
@[simp] theorem State.onMc_pending (s : State) (f : McDesk → McDesk) : (s.onMc f).pending = s.pending := rfl

@[simp] theorem State.onTe_rx (s : State) (f : TeDesk → TeDesk) : (s.onTe f).rx = s.rx := rfl
@[simp] theorem State.onTe_inlet (s : State) (f : TeDesk → TeDesk) : (s.onTe f).inlet = s.inlet := rfl
@[simp] theorem State.onTe_mc (s : State) (f : TeDesk → TeDesk) : (s.onTe f).mc = s.mc := rfl
@[simp] theorem State.onTe_ms (s : State) (f : TeDesk → TeDesk) : (s.onTe f).ms = s.ms := rfl
@[simp] theorem State.onTe_drive (s : State) (f : TeDesk → TeDesk) : (s.onTe f).drive = s.drive := rfl
@[simp] theorem State.onTe_es (s : State) (f : TeDesk → TeDesk) : (s.onTe f).es = s.es := rfl
@[simp] theorem State.onTe_te (s : State) (f : TeDesk → TeDesk) : (s.onTe f).te = (f ⟨s.te, s.paths⟩).te := rfl
@[simp] theorem State.onTe_cr (s : State) (f : TeDesk → TeDesk) : (s.onTe f).cr = s.cr := rfl
@[simp] theorem State.onTe_cp (s : State) (f : TeDesk → TeDesk) : (s.onTe f).cp = s.cp := rfl
@[simp] theorem State.onTe_sp (s : State) (f : TeDesk → TeDesk) : (s.onTe f).sp = s.sp := rfl
@[simp] theorem State.onTe_paths (s : State) (f : TeDesk → TeDesk) : (s.onTe f).paths = (f ⟨s.te, s.paths⟩).paths := rfl
@[simp] theorem State.onTe_driveLine (s : State) (f : TeDesk → TeDesk) : (s.onTe f).driveLine = s.driveLine := rfl
@[simp] theorem State.onTe_consoleLine (s : State) (f : TeDesk → TeDesk) : (s.onTe f).consoleLine = s.consoleLine := rfl
@[simp] theorem State.onTe_pending (s : State) (f : TeDesk → TeDesk) : (s.onTe f).pending = s.pending := rfl

@[simp] theorem State.onCp_rx (s : State) (f : CpDesk → CpDesk) : (s.onCp f).rx = s.rx := rfl
@[simp] theorem State.onCp_inlet (s : State) (f : CpDesk → CpDesk) : (s.onCp f).inlet = s.inlet := rfl
@[simp] theorem State.onCp_mc (s : State) (f : CpDesk → CpDesk) : (s.onCp f).mc = s.mc := rfl
@[simp] theorem State.onCp_ms (s : State) (f : CpDesk → CpDesk) : (s.onCp f).ms = s.ms := rfl
@[simp] theorem State.onCp_drive (s : State) (f : CpDesk → CpDesk) : (s.onCp f).drive = s.drive := rfl
@[simp] theorem State.onCp_es (s : State) (f : CpDesk → CpDesk) : (s.onCp f).es = s.es := rfl
@[simp] theorem State.onCp_te (s : State) (f : CpDesk → CpDesk) : (s.onCp f).te = s.te := rfl
@[simp] theorem State.onCp_cr (s : State) (f : CpDesk → CpDesk) : (s.onCp f).cr = s.cr := rfl
@[simp] theorem State.onCp_cp (s : State) (f : CpDesk → CpDesk) : (s.onCp f).cp = (f ⟨s.cp, s.paths, s.consoleLine⟩).cp := rfl
@[simp] theorem State.onCp_sp (s : State) (f : CpDesk → CpDesk) : (s.onCp f).sp = s.sp := rfl
@[simp] theorem State.onCp_paths (s : State) (f : CpDesk → CpDesk) : (s.onCp f).paths = (f ⟨s.cp, s.paths, s.consoleLine⟩).paths := rfl
@[simp] theorem State.onCp_driveLine (s : State) (f : CpDesk → CpDesk) : (s.onCp f).driveLine = s.driveLine := rfl
@[simp] theorem State.onCp_consoleLine (s : State) (f : CpDesk → CpDesk) : (s.onCp f).consoleLine = (f ⟨s.cp, s.paths, s.consoleLine⟩).line := rfl
@[simp] theorem State.onCp_pending (s : State) (f : CpDesk → CpDesk) : (s.onCp f).pending = s.pending := rfl

@[simp] theorem State.onStore_rx (s : State) (f : StoreDesk → StoreDesk) : (s.onStore f).rx = s.rx := rfl
@[simp] theorem State.onStore_inlet (s : State) (f : StoreDesk → StoreDesk) : (s.onStore f).inlet = s.inlet := rfl
@[simp] theorem State.onStore_mc (s : State) (f : StoreDesk → StoreDesk) : (s.onStore f).mc = (f ⟨s.mc, s.sp, s.paths⟩).mc := rfl
@[simp] theorem State.onStore_ms (s : State) (f : StoreDesk → StoreDesk) : (s.onStore f).ms = s.ms := rfl
@[simp] theorem State.onStore_drive (s : State) (f : StoreDesk → StoreDesk) : (s.onStore f).drive = s.drive := rfl
@[simp] theorem State.onStore_es (s : State) (f : StoreDesk → StoreDesk) : (s.onStore f).es = s.es := rfl
@[simp] theorem State.onStore_te (s : State) (f : StoreDesk → StoreDesk) : (s.onStore f).te = s.te := rfl
@[simp] theorem State.onStore_cr (s : State) (f : StoreDesk → StoreDesk) : (s.onStore f).cr = s.cr := rfl
@[simp] theorem State.onStore_cp (s : State) (f : StoreDesk → StoreDesk) : (s.onStore f).cp = s.cp := rfl
@[simp] theorem State.onStore_sp (s : State) (f : StoreDesk → StoreDesk) : (s.onStore f).sp = (f ⟨s.mc, s.sp, s.paths⟩).sp := rfl
@[simp] theorem State.onStore_paths (s : State) (f : StoreDesk → StoreDesk) : (s.onStore f).paths = (f ⟨s.mc, s.sp, s.paths⟩).paths := rfl
@[simp] theorem State.onStore_driveLine (s : State) (f : StoreDesk → StoreDesk) : (s.onStore f).driveLine = s.driveLine := rfl
@[simp] theorem State.onStore_consoleLine (s : State) (f : StoreDesk → StoreDesk) : (s.onStore f).consoleLine = s.consoleLine := rfl
@[simp] theorem State.onStore_pending (s : State) (f : StoreDesk → StoreDesk) : (s.onStore f).pending = s.pending := rfl

@[simp] theorem State.putMs_rx (s : State) (d : MsDesk) : (s.putMs d).rx = s.rx := rfl
@[simp] theorem State.putMs_inlet (s : State) (d : MsDesk) : (s.putMs d).inlet = s.inlet := rfl
@[simp] theorem State.putMs_mc (s : State) (d : MsDesk) : (s.putMs d).mc = s.mc := rfl
@[simp] theorem State.putMs_ms (s : State) (d : MsDesk) : (s.putMs d).ms = d.ms := rfl
@[simp] theorem State.putMs_drive (s : State) (d : MsDesk) : (s.putMs d).drive = d.drive := rfl
@[simp] theorem State.putMs_es (s : State) (d : MsDesk) : (s.putMs d).es = s.es := rfl
@[simp] theorem State.putMs_te (s : State) (d : MsDesk) : (s.putMs d).te = s.te := rfl
@[simp] theorem State.putMs_cr (s : State) (d : MsDesk) : (s.putMs d).cr = s.cr := rfl
@[simp] theorem State.putMs_cp (s : State) (d : MsDesk) : (s.putMs d).cp = s.cp := rfl
@[simp] theorem State.putMs_sp (s : State) (d : MsDesk) : (s.putMs d).sp = s.sp := rfl
@[simp] theorem State.putMs_paths (s : State) (d : MsDesk) : (s.putMs d).paths = d.paths := rfl
@[simp] theorem State.putMs_driveLine (s : State) (d : MsDesk) : (s.putMs d).driveLine = d.line := rfl
@[simp] theorem State.putMs_consoleLine (s : State) (d : MsDesk) : (s.putMs d).consoleLine = s.consoleLine := rfl
@[simp] theorem State.putMs_pending (s : State) (d : MsDesk) : (s.putMs d).pending = s.pending := rfl

@[simp] theorem State.onMs_rx (s : State) (f : MsDesk → MsDesk) : (s.onMs f).rx = s.rx := rfl
@[simp] theorem State.onMs_inlet (s : State) (f : MsDesk → MsDesk) : (s.onMs f).inlet = s.inlet := rfl
@[simp] theorem State.onMs_mc (s : State) (f : MsDesk → MsDesk) : (s.onMs f).mc = s.mc := rfl
@[simp] theorem State.onMs_es (s : State) (f : MsDesk → MsDesk) : (s.onMs f).es = s.es := rfl
@[simp] theorem State.onMs_te (s : State) (f : MsDesk → MsDesk) : (s.onMs f).te = s.te := rfl
@[simp] theorem State.onMs_cr (s : State) (f : MsDesk → MsDesk) : (s.onMs f).cr = s.cr := rfl
@[simp] theorem State.onMs_cp (s : State) (f : MsDesk → MsDesk) : (s.onMs f).cp = s.cp := rfl
@[simp] theorem State.onMs_sp (s : State) (f : MsDesk → MsDesk) : (s.onMs f).sp = s.sp := rfl
@[simp] theorem State.onMs_consoleLine (s : State) (f : MsDesk → MsDesk) : (s.onMs f).consoleLine = s.consoleLine := rfl
@[simp] theorem State.onMs_pending (s : State) (f : MsDesk → MsDesk) : (s.onMs f).pending = s.pending := rfl

@[simp] theorem State.onEs_rx (s : State) (f : EsDesk → EsDesk) : (s.onEs f).rx = s.rx := rfl
@[simp] theorem State.onEs_inlet (s : State) (f : EsDesk → EsDesk) : (s.onEs f).inlet = s.inlet := rfl
@[simp] theorem State.onEs_mc (s : State) (f : EsDesk → EsDesk) : (s.onEs f).mc = s.mc := rfl
@[simp] theorem State.onEs_ms (s : State) (f : EsDesk → EsDesk) : (s.onEs f).ms = s.ms := rfl
@[simp] theorem State.onEs_drive (s : State) (f : EsDesk → EsDesk) : (s.onEs f).drive = s.drive := rfl
@[simp] theorem State.onEs_te (s : State) (f : EsDesk → EsDesk) : (s.onEs f).te = s.te := rfl
@[simp] theorem State.onEs_cr (s : State) (f : EsDesk → EsDesk) : (s.onEs f).cr = s.cr := rfl
@[simp] theorem State.onEs_cp (s : State) (f : EsDesk → EsDesk) : (s.onEs f).cp = s.cp := rfl
@[simp] theorem State.onEs_sp (s : State) (f : EsDesk → EsDesk) : (s.onEs f).sp = s.sp := rfl
@[simp] theorem State.onEs_driveLine (s : State) (f : EsDesk → EsDesk) : (s.onEs f).driveLine = s.driveLine := rfl
@[simp] theorem State.onEs_consoleLine (s : State) (f : EsDesk → EsDesk) : (s.onEs f).consoleLine = s.consoleLine := rfl
@[simp] theorem State.onEs_pending (s : State) (f : EsDesk → EsDesk) : (s.onEs f).pending = s.pending := rfl

@[simp] theorem State.onCr_rx (s : State) (f : CrDesk → CrDesk) : (s.onCr f).rx = s.rx := rfl
@[simp] theorem State.onCr_inlet (s : State) (f : CrDesk → CrDesk) : (s.onCr f).inlet = s.inlet := rfl
@[simp] theorem State.onCr_mc (s : State) (f : CrDesk → CrDesk) : (s.onCr f).mc = s.mc := rfl
@[simp] theorem State.onCr_ms (s : State) (f : CrDesk → CrDesk) : (s.onCr f).ms = s.ms := rfl
@[simp] theorem State.onCr_drive (s : State) (f : CrDesk → CrDesk) : (s.onCr f).drive = s.drive := rfl
@[simp] theorem State.onCr_es (s : State) (f : CrDesk → CrDesk) : (s.onCr f).es = s.es := rfl
@[simp] theorem State.onCr_te (s : State) (f : CrDesk → CrDesk) : (s.onCr f).te = s.te := rfl
@[simp] theorem State.onCr_cp (s : State) (f : CrDesk → CrDesk) : (s.onCr f).cp = s.cp := rfl
@[simp] theorem State.onCr_sp (s : State) (f : CrDesk → CrDesk) : (s.onCr f).sp = s.sp := rfl
@[simp] theorem State.onCr_driveLine (s : State) (f : CrDesk → CrDesk) : (s.onCr f).driveLine = s.driveLine := rfl
@[simp] theorem State.onCr_consoleLine (s : State) (f : CrDesk → CrDesk) : (s.onCr f).consoleLine = s.consoleLine := rfl
@[simp] theorem State.onCr_pending (s : State) (f : CrDesk → CrDesk) : (s.onCr f).pending = s.pending := rfl

@[simp] theorem State.cpAnswer_rx (s : State) (r : Reply) : (s.cpAnswer r).rx = s.rx := rfl
@[simp] theorem State.cpAnswer_inlet (s : State) (r : Reply) : (s.cpAnswer r).inlet = s.inlet := rfl
@[simp] theorem State.cpAnswer_mc (s : State) (r : Reply) : (s.cpAnswer r).mc = s.mc := rfl
@[simp] theorem State.cpAnswer_ms (s : State) (r : Reply) : (s.cpAnswer r).ms = s.ms := rfl
@[simp] theorem State.cpAnswer_drive (s : State) (r : Reply) : (s.cpAnswer r).drive = s.drive := rfl
@[simp] theorem State.cpAnswer_es (s : State) (r : Reply) : (s.cpAnswer r).es = s.es := rfl
@[simp] theorem State.cpAnswer_te (s : State) (r : Reply) : (s.cpAnswer r).te = s.te := rfl
@[simp] theorem State.cpAnswer_cr (s : State) (r : Reply) : (s.cpAnswer r).cr = s.cr := rfl
@[simp] theorem State.cpAnswer_cp (s : State) (r : Reply) : (s.cpAnswer r).cp = s.cp.offerReply r := rfl
@[simp] theorem State.cpAnswer_sp (s : State) (r : Reply) : (s.cpAnswer r).sp = s.sp := rfl
@[simp] theorem State.cpAnswer_paths (s : State) (r : Reply) : (s.cpAnswer r).paths = s.paths := rfl
@[simp] theorem State.cpAnswer_driveLine (s : State) (r : Reply) : (s.cpAnswer r).driveLine = s.driveLine := rfl
@[simp] theorem State.cpAnswer_consoleLine (s : State) (r : Reply) : (s.cpAnswer r).consoleLine = s.consoleLine := rfl
@[simp] theorem State.cpAnswer_pending (s : State) (r : Reply) : (s.cpAnswer r).pending = s.pending := rfl

/-- A step of MS: its own state, the Drive Port and the Drive Frames are what the desk holds. -/
@[simp] theorem State.onMs_ms (s : State) (f : MsDesk → MsDesk) : (s.onMs f).ms = (f s.msDesk).ms := by
  unfold State.onMs MsDesk.notice; split <;> rfl
@[simp] theorem State.onMs_drive (s : State) (f : MsDesk → MsDesk) : (s.onMs f).drive = (f s.msDesk).drive := by
  unfold State.onMs MsDesk.notice; split <;> rfl
@[simp] theorem State.onMs_driveLine (s : State) (f : MsDesk → MsDesk) : (s.onMs f).driveLine = (f s.msDesk).line := by
  unfold State.onMs MsDesk.notice; split <;> rfl

/-- A step of ES leaves the state that the desk holds. -/
@[simp] theorem State.onEs_es (s : State) (f : EsDesk → EsDesk) : (s.onEs f).es = (f ⟨s.es, s.paths⟩).es := by
  unfold State.onEs EsDesk.notice; simp only; split <;> rfl

/-- A step of CR leaves the ring that the desk holds. -/
@[simp] theorem State.onCr_cr (s : State) (f : CrDesk → CrDesk) : (s.onCr f).cr = (f ⟨s.cr, s.paths⟩).cr := by
  unfold State.onCr CrDesk.notice; simp only; split <;> rfl

/-! ## Requests (R157) -/

/-- Outside LOADING the owner takes a request. -/
theorem State.request_ready (s : State) (k : RequestKind) (tag : Tag) (take : State → State)
    (h : s.cp.store ≠ .loading) : s.request k tag take = take s := by
  simp [State.request, h]

/-- In LOADING CP answers it itself. -/
theorem State.request_loading (s : State) (k : RequestKind) (tag : Tag) (take : State → State)
    (h : s.cp.store = .loading) : s.request k tag take = s.cpAnswer (answer k tag .notReady .none) := by
  simp [State.request, h]

/-! ## Items per block, receivers -/

@[simp] theorem PerBlock.get_set {α : Type} (p : PerBlock α) (b : Block) (x : α) : (p.set b x).get b = x := by
  cases b <;> rfl

theorem PerBlock.get_set_other {α : Type} (p : PerBlock α) (a b : Block) (x : α) (h : a ≠ b) :
    (p.set b x).get a = p.get a := by
  cases a <;> cases b <;> first | rfl | exact absurd rfl h

@[simp] theorem PerBlock.get_push {α : Type} (p : PerBlock (List α)) (b : Block) (x : α) :
    (p.push b x).get b = p.get b ++ [x] := by
  cases b <;> rfl

@[simp] theorem Receivers.get_set (r : Receivers) (l : Link) (x : Receiver) : (r.set l x).get l = x := by
  cases l <;> rfl

theorem Receivers.get_set_other (r : Receivers) (a b : Link) (x : Receiver) (h : a ≠ b) : (r.set b x).get a = r.get a := by
  cases a <;> cases b <;> first | rfl | exact absurd rfl h

@[simp] theorem Receivers.set_get (r : Receivers) (l : Link) : r.set l (r.get l) = r := by
  cases l <;> rfl

@[simp] theorem Receivers.set_set (r : Receivers) (l : Link) (x y : Receiver) : (r.set l x).set l y = r.set l y := by
  cases l <;> rfl

end Sys2Proof.Machine
end

