-- ==== Sys2Proof/Laws/CaptureRing.lean ====
section
/-! SUPPORT. What a step of the Capture Ring does, in the words of Sys2Proof/Safety.lean. -/

namespace Sys2Proof.Machine

/-- The ring after a sample taken in FILLING or POST (R146). -/
theorem appendRecord_eq_recorded (c : Cr) (x : Sample) : appendRecord c.ring x = c.recorded x := by
  unfold appendRecord Cr.recorded newestNumber Cr.newest captureRecord Config.ringRecords
  cases h : c.ring.getLast?.map CaptureRecord.number with
  | none => simp [h]; split <;> split <;> first | rfl | omega
  | some n =>
    simp [h]
    by_cases h1 : n < x.number
    · have : ¬ x.number ≤ n := by omega
      simp [h1, this]
      split <;> split <;> first | rfl | omega
    · have : x.number ≤ n := by omega
      simp [h1, this]

/-- A step of CR from what it leaves at its desk: `p` holds what it has taken (R169). -/
theorem State.onCr_eq_crDoes (s : State) (f : CrDesk → CrDesk) (p : Paths) (c : Cr) (e : List Event) (r : List Reply)
    (h : f ⟨s.cr, s.paths⟩ = ⟨c, { p with
      events := { p.events with cr := p.events.cr ++ e }
      replies := { p.replies with cr := p.replies.cr ++ r } }⟩) :
    s.onCr f = s.crDoes p c e r := by
  unfold State.onCr State.crDoes CrDesk.notice
  rw [h]
  split <;> simp_all

/-- A step of CR that changes nothing of its own and sends nothing. -/
theorem State.crDoes_same (s : State) (p : Paths) : s.crDoes p s.cr [] [] = { s with paths := p } := by
  simp [State.crDoes]

/-- Entering HELD (R148). -/
theorem CrDesk.hold_eq (d : CrDesk) :
    d.hold = ⟨d.cr.enteredHeld.1, { d.paths with
      events := { d.paths.events with cr := d.paths.events.cr ++ d.cr.enteredHeld.2 } }⟩ := by
  simp [CrDesk.hold, Cr.enteredHeld, Paths.sendEvent, PerBlock.push, PerBlock.set, PerBlock.get, Cr.heldEvent,
    newestNumber, Cr.newest, Cr.oldest]

/-- A masked trigger taken in FILLING (R147). -/
theorem CrDesk.trigger_eq (d : CrDesk) (t : Trigger) :
    d.trigger t = ⟨(d.cr.triggered t).1, { d.paths with
      events := { d.paths.events with cr := d.paths.events.cr ++ (d.cr.triggered t).2 } }⟩ := by
  unfold CrDesk.trigger Cr.triggered
  by_cases h : d.cr.post = 0
  · simp only [h, if_true]
    rw [hold_eq]
    rfl
  · simp [h, newestNumber, Cr.newest]

end Sys2Proof.Machine
end

