-- ==== Sys2Proof/Laws/Console.lean ====
section
/-! SUPPORT. What the shared operations of the Console Port do, said once: the flags and the pin, the admission of reports,
events, replies and link errors, in the words of Sys2Proof/Safety.lean. -/

namespace Sys2Proof.Machine

/-- Starting the head report (R160). -/
theorem Cp.startTransmission_eq_begun (c : Cp) : c.startTransmission = c.begun := by
  unfold Cp.startTransmission Cp.begun
  cases hh : c.transmitting <;> by_cases h2 : c.queue = [] <;> cases h3 : c.hold <;> simp [hh, h2, h3] <;>
    (first | rfl | (cases c; simp_all))

/-- The queue without its oldest Sample Report. -/
theorem dropOldestSample_eq_eraseP (l : List Report) :
    dropOldestSample l = if l.any Report.isSample then some (l.eraseP Report.isSample) else none := by
  induction l with
  | nil => rfl
  | cons r rs ih =>
    cases r <;> simp [dropOldestSample, Report.isSample, ih, List.eraseP_cons] <;> split <;> simp_all

/-- R162's table. -/
theorem Cp.admit_eq_queued (c : Cp) (r : Report) : c.admission r = c.queued r := by
  unfold Cp.admission Cp.queued Cp.free Cp.withoutSample
  have : (1 ≤ Config.queuePlaces - c.queue.length) ↔ c.queue.length < 64 := by simp [Config.queuePlaces]; omega
  simp only [this]
  split
  · rfl
  · cases ht : c.transmitting
    · simp only [dropOldestSample_eq_eraseP, List.drop_zero, List.take_zero]; simp
    · cases hq : c.queue with
      | nil => simp
      | cons q qs => simp [dropOldestSample_eq_eraseP]

/-- The pin after a change that starts no pulse (R165 to R167). -/
theorem Cp.settlePin_eq_settled (c : Cp) : c.settlePin = c.settled := by
  unfold Cp.settlePin Cp.settled
  cases hm : c.mode
  · simp only [if_true]; rfl
  · cases c; simp_all

/-- Flags set by an event, and the pin (R164, R167, R168). -/
theorem Cp.setFlags_eq_raised (c : Cp) (f : BitVec 11) : c.setFlags f = c.raised f := by
  unfold Cp.setFlags Cp.raised
  cases hm : c.mode
  · cases hp : c.pulse <;> (simp only [settlePin_eq_settled, Cp.startPulse, hm, Cp.settled, if_true, ite_self])
  · cases hp : c.pulse <;> simp [settlePin_eq_settled, Cp.startPulse, hm, Cp.settled, hp, Config.pulseUs]

@[simp] theorem Cp.raised_lossMark (c : Cp) (f : BitVec 11) : (c.raised f).lossMark = c.lossMark := by
  unfold Cp.raised; cases c.mode <;> simp; split <;> rfl
@[simp] theorem Cp.raised_lastSample (c : Cp) (f : BitVec 11) : (c.raised f).lastSample = c.lastSample := by
  unfold Cp.raised; cases c.mode <;> simp; split <;> rfl
@[simp] theorem Cp.raised_queue (c : Cp) (f : BitVec 11) : (c.raised f).queue = c.queue := by
  unfold Cp.raised; cases c.mode <;> simp; split <;> rfl
@[simp] theorem Cp.raised_transmitting (c : Cp) (f : BitVec 11) : (c.raised f).transmitting = c.transmitting := by
  unfold Cp.raised; cases c.mode <;> simp; split <;> rfl
@[simp] theorem Cp.raised_lastStreamed (c : Cp) (f : BitVec 11) : (c.raised f).lastStreamed = c.lastStreamed := by
  unfold Cp.raised; cases c.mode <;> simp; split <;> rfl

/-- A Reply Report offered (R159, R162). -/
theorem Cp.offerReply_eq_replied (c : Cp) (r : Reply) : c.offerReply r = c.replied r := by
  unfold Cp.offerReply Cp.replied Cp.lose Cp.lost
  rw [admit_eq_queued]
  cases c.queued (.reply r) <;> simp [startTransmission_eq_begun, setFlags_eq_raised, flagQueueLoss]

/-- An event taken (R162, R164). -/
theorem Cp.takeEvent_eq_told (c : Cp) (e : Event) :
    c.takeEvent e = c.told e e.flag (if e.number.isSome then e.number else c.lastSample) := by
  unfold Cp.takeEvent Cp.told Cp.offerEvent Cp.lose Cp.lost
  simp only [setFlags_eq_raised, admit_eq_queued, raised_lossMark, flagQueueLoss, Cp.eventNumber, startTransmission_eq_begun]
  cases e.number <;> simp <;> split <;> simp_all

/-- The flag LINK_ERROR as a bit. -/
theorem flagLinkError_clear_iff (f : BitVec 11) : (f &&& flagLinkError = 0) ↔ f.getLsbD 8 = false := by
  unfold flagLinkError
  constructor
  · intro h
    have := congrArg (fun b => b.getLsbD 8) h
    simpa using this
  · intro h
    apply BitVec.eq_of_getLsbD_eq
    intro i hi
    simp at h ⊢
    interval_cases i <;> simp_all <;> decide

/-- A link error taken by CP (R155). -/
theorem Cp.takeLinkError_eq (c : Cp) (l : Link) : c.takeLinkError l = c.linkErrorTaken l := by
  unfold Cp.takeLinkError Cp.linkErrorTaken
  simp only [flagLinkError_clear_iff, takeEvent_eq_told]
  cases l <;> cases hx : c.flags.getLsbD 8 <;>
    simp [Cp.countLinkError, Cp.counted, Cp.linkErrors, Cp.countOf, Event.number, Event.flag, flagLinkError, Nat.min_comm]

/-- CLEAR of a flag set (R165). -/
theorem Cp.clearSet_eq (c : Cp) (f : BitVec 11) :
    c.clearSet f = Cp.settled { c with
      flags := c.flags &&& ~~~f
      frontErrors := if f.getLsbD 8 then 0 else c.frontErrors
      driveErrors := if f.getLsbD 8 then 0 else c.driveErrors
      consoleErrors := if f.getLsbD 8 then 0 else c.consoleErrors } := by
  unfold Cp.clearSet Cp.clearFlags
  simp only [flagLinkError_clear_iff, settlePin_eq_settled]
  cases hf : f.getLsbD 8 <;> simp [Cp.settled]

/-- The bytes after the first few. -/
theorem u8_drop (p : List Byte) (i j : Nat) : u8 (p.drop i) j = u8 p (i + j) := by
  simp [u8, field, List.drop_drop]

/-- The lengths of section 11.5, by kind. -/
theorem lengthFits_iff_payloadFits (kind : Nat) (k : RequestKind) (h : RequestKind.ofCode kind = some k) (p : List Byte) :
    k.lengthFits p = true ↔ payloadFits kind p := by
  have hk : k.code.toNat = kind := by simpa using List.find?_some h
  subst hk
  unfold RequestKind.lengthFits
  rw [Bool.and_eq_true, Bool.and_eq_true, decide_eq_true_iff, decide_eq_true_iff, and_assoc]
  cases k
  case load =>
    simp only [RequestKind.lengthBounds, payloadFits, RequestKind.code, BitVec.reduceToNat]
    refine and_congr_right fun h1 => and_congr_right fun h2 => ?_
    by_cases h3 : u8 p 2 = 0 <;> simp [h3]
    generalize u8 p 0 = n
    match n with
    | 0 => simp
    | 1 | 2 | 3 | 6 => simp [bodyLength]; omega
    | 4 => simp [bodyLength, u8_drop]; omega
    | 5 => simp [bodyLength, u8_drop]; omega
    | n + 7 => simp
  all_goals simp [payloadFits, RequestKind.lengthBounds, RequestKind.code]
  all_goals omega

end Sys2Proof.Machine
end

