-- ==== Sys2Proof/Laws/Conversion.lean ====
section
/-! SUPPORT. What applying zeros leaves of the values a conversion forms, and the force segment of a count. -/

namespace Sys2Proof.Machine

/-- The values of a conversion that every zero applied leaves formed from the counts and the zeros then held. -/
structure Mc.Keeps (m : Mc) (f : SampleFrame) (x : Forming) : Prop where
  a : x.dLA = elongation m.cal.armA f.countA x.zero.armA
  b : x.dLB = elongation m.cal.armB f.countB x.zero.armB
  p : x.position = positionOf m.cal.crosshead f.crosshead
  fo : x.force = forceOf x.fCal x.zero.tare
  fc : x.fCal = (m.form f).fCal
  he : x.held = (m.form f).held
  un : x.uncal = (m.form f).uncal

/-- A property that a step keeps is kept by the step under a condition. -/
theorem applyIf_preserves (P : Forming → Prop) (b f x) (h : P x) (hf : ∀ y, P y → P (f y)) : P (applyIf b f x) := by
  unfold applyIf; split <;> simp_all

/-- Every zero applied keeps the values formed from the counts (R20, R22). -/
theorem Mc.applyZeros_keeps (m : Mc) (f : SampleFrame) : Mc.Keeps m f (m.applyZeros f (m.form f)) := by
  unfold Mc.applyZeros
  have ht : ∀ y, Mc.Keeps m f y → Mc.Keeps m f y.applyTare := by
    rintro y ⟨a,b,c,d,e,f,g⟩; constructor <;> simp_all [Forming.applyTare]
  have ha : ∀ y, Mc.Keeps m f y → Mc.Keeps m f (Forming.applyArms m.cal f y) := by
    rintro y ⟨a,b,c,d,e,f,g⟩; constructor <;> simp_all [Forming.applyArms]
  have hp : ∀ y, Mc.Keeps m f y → Mc.Keeps m f (Forming.applyPosition y) := by
    rintro y ⟨a,b,c,d,e,f,g⟩; constructor <;> simp_all [Forming.applyPosition]
  have h0 : Mc.Keeps m f (m.form f) := by constructor <;> simp [Mc.form]
  repeat' apply applyIf_preserves (Mc.Keeps m f)
  all_goals assumption

/-- The segment of the breakpoints that a count falls in (R10). -/
theorem segmentFrom_eq (c : Int) (p : Int × Int) (ps : List (Int × Int)) (hs : (p :: ps).Pairwise (fun a b => a.1 < b.1)) (i : Nat) (a b : Int × Int)
  (ha : (p :: ps)[i]? = some a) (hb : (p :: ps)[i+1]? = some b)
  (hc : (a.1 ≤ c ∧ c < b.1) ∨ (i = 0 ∧ c < a.1) ∨ (i + 2 = (p :: ps).length ∧ b.1 ≤ c)) :
  segmentFrom c p ps = (a, b) := by
  induction ps generalizing p i with
  | nil => simp at hb
  | cons q qs ih =>
    unfold segmentFrom
    cases i with
    | zero =>
      simp at ha hb; subst ha hb
      have : c < q.1 ∨ qs = [] := by
        rcases hc with h | h | h
        · exact .inl h.2
        · left; have := (List.pairwise_cons.1 hs).1 q (by simp); omega
        · right; simpa using h.1
      rw [if_pos this]
    | succ i =>
      have hqa : q.1 ≤ a.1 := by
        cases i with
        | zero => simp at ha; subst ha; omega
        | succ i =>
          have hm : a ∈ qs := by
            have : qs[i]? = some a := by simpa using ha
            exact List.mem_of_getElem? this
          have := (List.pairwise_cons.1 (List.pairwise_cons.1 hs).2).1 a hm; omega
      have hab : a.1 < b.1 := by
        have := List.pairwise_iff_getElem.1 hs (i+1) (i+2) 
        have h1 := List.getElem?_eq_some_iff.1 ha
        have h2 := List.getElem?_eq_some_iff.1 hb
        obtain ⟨h1, e1⟩ := h1; obtain ⟨h2, e2⟩ := h2
        have := this h1 h2 (by omega); simp_all
      have hn : ¬ (c < q.1 ∨ qs = []) := by
        intro h
        rcases h with h | h
        · rcases hc with k | k | k
          · omega
          · omega
          · omega
        · subst h; simp at hb
      rw [if_neg hn]
      refine ih q (List.pairwise_cons.1 hs).2 i (by simpa using ha) (by simpa using hb) ?_
      rcases hc with k | k | k
      · exact .inl k
      · omega
      · right; right; simp at k ⊢; omega

end Sys2Proof.Machine
end

