-- ==== Sys2Proof/Laws/Extensometer.lean ====
section
/-! SUPPORT. What the shared operations of the Extensometer Supervisor do, in the words of Sys2Proof/Safety.lean. -/

namespace Sys2Proof.Machine

/-- The paths with events of ES added. -/
def Paths.esEvents (p : Paths) (l : List Event) : Paths := { p with events := { p.events with es := p.events.es ++ l } }

/-- A step of ES from what it leaves at its desk: `p` holds what it has taken (R97, R169). -/
theorem State.onEs_eq_esDoes (s : State) (f : EsDesk → EsDesk) (p : Paths) (e : Es) (tag : Bool) (evs : List Event) (rs : List Reply)
  (h1 : (f ⟨s.es, s.paths⟩).es = e)
  (h2 : (f ⟨s.es, s.paths⟩).paths = { p with extTags := p.extTags ++ (if tag then [{ name := e.state.name, generation := e.generation }] else []), events := { p.events with es := p.events.es ++ evs }, replies := { p.replies with es := p.replies.es ++ rs } })
  : s.onEs f = s.esDoes p e tag evs rs := by
  unfold State.onEs State.esDoes EsDesk.notice
  simp only [h1]
  split
  · rename_i h; simp [h1, h2, h]
  · rename_i h; simp [h1, h2, h]

/-- Seating (R98). -/
theorem seating_eq_seatedBy (f a b) : seating f a b = seatedBy f a b := by
  unfold seating seatedBy; rcases f with _ | f <;> (try cases f) <;> simp

/-- Seating judged on the last sample (R98, R100). -/
theorem Es.judge_eq (e : Es) : e.judge = (match e.last with
       | none => seatedBy e.fitted false false
       | some x => seatedBy e.fitted x.contactA x.contactB) := by
  unfold Es.judge; split <;> simp [seating_eq_seatedBy, *]

/-- The tags under which seating is judged (R98). -/
theorem MotionState.judgesSeating_iff (m : MotionState) : m.judgesSeating = true ↔ (m = .idle ∨ m = .jogging ∨ m = .arming) := by cases m <;> simp [MotionState.judgesSeating]

/-- Stage 5 of R101. -/
theorem Es.record_eq_recorded (e : Es) (x) : e.record x = e.recorded x := rfl

/-- An item of ES. -/
theorem PerBlock.push_es (p : PerBlock (List α)) (x : α) : p.push .es x = { p with es := p.es ++ [x] } := rfl

/-- The tag that follows a change of state name (R97). -/
theorem EsDesk.tagIfChanged_does (d : EsDesk) (was : ExtName) : d.tagIfChanged was = { d with paths := { d.paths with extTags := d.paths.extTags ++ (if decide (d.es.state.name ≠ was) then [{ name := d.es.state.name, generation := d.es.generation }] else []) } } := by
  unfold EsDesk.tagIfChanged EsDesk.sendTag
  by_cases h : d.es.state.name = was <;> simp [h]

/-- A demotion that leaves an arm (R103). -/
theorem EsDesk.demote_does (d : EsDesk) (x : Sample) (seen : Source) (hs : d.es.sourceSeen = some seen) (hn : ¬ (seen.code < x.source.code ∧ x.source = .crosshead)) :
  d.demote x = { es := { d.es with sourceSeen := some (if seen.code < x.source.code then x.source else seen) },
                 paths := Paths.esEvents d.paths (if seen.code < x.source.code ∧ d.es.requested (lostArm x.source) = false then [.armDemoted (lostArm x.source) .contactOrRange x.number none x.source] else []) } := by
  unfold EsDesk.demote
  rw [hs]
  simp only []
  by_cases hd : seen.code < x.source.code
  · have : ¬ (x.source.code ≤ seen.code) := by omega
    have hx : x.source ≠ .crosshead := fun h => hn ⟨hd, h⟩
    simp only [this, hd, hx, if_false, if_true, true_and]
    cases hr : d.es.requested (lostArm x.source) <;> simp [Paths.esEvents, EsDesk.event, Paths.sendEvent, PerBlock.push_es]
  · have : (x.source.code ≤ seen.code) := by omega
    simp [this, hd, Paths.esEvents]
    rw [← hs]

/-- Slip of one arm (R102). -/
theorem EsDesk.slip_does (d : EsDesk) (x : Sample) (i : ArmId) : d.slip x i = { es := if d.es.slipped x i then d.es.request i else d.es, paths := { Paths.esEvents d.paths (if d.es.slipped x i then [.armDemoted i .slip x.number (some (d.es.fall x i)) x.source] else []) with dropArms := d.paths.dropArms ++ if d.es.slipped x i then [i] else [] } } := by
  unfold EsDesk.slip
  split <;> simp [Paths.esEvents, EsDesk.event, Paths.sendEvent, PerBlock.push_es, *]

end Sys2Proof.Machine
end

