-- ==== Sys2Proof/Laws/Frames.lean ====
section
/-! SUPPORT. The bytes that the part sends: the field encodings of section 11.1 as the statements spell them, and the fields of an
Event Report. -/

namespace Sys2Proof.Machine

/-- The two spellings of a little-endian field. -/
theorem littleEndian_eq_writeInt (n : Nat) (v : Int) : littleEndian n v = writeInt n v := by
  unfold littleEndian
  induction n generalizing v with
  | zero => rfl
  | succ n ih =>
    rw [List.range_succ_eq_map, List.map_cons, List.map_map, writeInt, ← ih]
    simp only [Int.pow_zero, Int.ediv_one, List.cons.injEq, true_and]
    apply List.map_congr_left
    intro i _
    simp only [Function.comp, Nat.succ_eq_add_one]
    rw [Int.ediv_ediv_of_nonneg (by decide), ← Int.pow_succ']

/-- A flag byte is its flags packed. -/
theorem flagByte_eq_packed (l : List Bool) : flagByte l = [packed l] := by
  have : ∀ l : List Bool, packBits l = l.foldr (fun b n => b.toNat + 2*n) 0 := by
    intro l; induction l with
    | nil => rfl
    | cons b l ih => simp [packBits, ih]; cases b <;> rfl
  simp [flagByte, c1, writeInt, packed, this]

@[simp] theorem writeInt_length (n : Nat) (v : Int) : (writeInt n v).length = n := by
  induction n generalizing v with
  | zero => rfl
  | succ n ih => simp [writeInt, ih]

theorem packed_one : packed [true] = 1 ∧ packed [false] = 0 := by decide

/-- The fields of every event, as its rule lists them. -/
theorem Event.fields_eq_listedFields (e : Event) : e.fields = listedFields e := by
  cases e
  case inletSilent seq n => cases seq <;> cases n <;> simp [Event.fields, listedFields, optCount, littleEndian_eq_writeInt, quantity, c1, present,
    packed_one, flagByte_eq_packed, writeInt]
  case testEnd _ _ segment n => cases segment <;> cases n <;> simp [Event.fields, listedFields, optCount, littleEndian_eq_writeInt, quantity, c1, present,
    packed_one, flagByte_eq_packed, writeInt]
  case rateClamped source => cases source <;> simp [Event.fields, listedFields, optCode, littleEndian_eq_writeInt, quantity, c1, present,
    packed_one, flagByte_eq_packed, writeInt]
  case armDemoted arm _ _ fall _ =>
    cases arm <;> cases fall <;> simp [Event.fields, listedFields, optQuantity, armCode, littleEndian_eq_writeInt, quantity, c1, present,
    packed_one, flagByte_eq_packed, writeInt]
  case linkError link _ => cases link <;> simp [Event.fields, listedFields, linkCode, littleEndian_eq_writeInt, quantity, c1, present,
    packed_one, flagByte_eq_packed, writeInt]
  case yieldDone _ reH reL _ _ =>
    cases reH <;> cases reL <;> simp [Event.fields, listedFields, sourcePointBytes, pointBytes, optCode, littleEndian_eq_writeInt, quantity, c1, present,
    packed_one, flagByte_eq_packed, writeInt]
  case fitFailed _ _ number => cases number <;> simp [Event.fields, listedFields, optCount, littleEndian_eq_writeInt, quantity, c1, present,
    packed_one, flagByte_eq_packed, writeInt]
  case captureHeld cause trigger _ oldest newest =>
    cases cause <;> cases trigger <;> cases oldest <;> cases newest <;>
      simp [Event.fields, listedFields, causeBytes, optCount, littleEndian_eq_writeInt, quantity, c1, present,
    packed_one, flagByte_eq_packed, writeInt]
  all_goals simp [Event.fields, listedFields, LogEntry.bytes, SourcePoint.bytes, littleEndian_eq_writeInt, quantity, c1, present,
    packed_one, flagByte_eq_packed, writeInt]

@[simp] theorem optCount_length (o) : (optCount o).length = 5 := by cases o <;> simp [optCount, c1, quantity]
@[simp] theorem optQuantity_length (o) : (optQuantity o).length = 5 := by cases o <;> simp [optQuantity, c1, quantity]
@[simp] theorem optCode_length (o) : (optCode o).length = 2 := by cases o <;> simp [optCode, c1]
@[simp] theorem causeBytes_length (o) : (causeBytes o).length = 2 := by cases o <;> simp [causeBytes, c1]
@[simp] theorem pointBytes_length (o) : (pointBytes o).length = 12 := by cases o <;> simp [pointBytes, quantity]
@[simp] theorem sourcePointBytes_length (o) : (sourcePointBytes o).length = 14 := by cases o <;> simp [sourcePointBytes, quantity]

/-- The bound of section 11.5 on the field byte count. -/
theorem listedFields_length_le (e : Event) : (listedFields e).length ≤ 96 := by
  rw [← Event.fields_eq_listedFields]
  cases e <;> simp [Event.fields, quantity, c1, flagByte, LogEntry.bytes, SourcePoint.bytes]

end Sys2Proof.Machine
end

