-- ==== Sys2Proof/Laws/Tables.lean ====
section
/-! SUPPORT. The checks of tables and of ARM: clamps with their counts, rising breakpoints, STRAIN segments without a fallback. -/

namespace Sys2Proof.Machine

/-- A clamp and its count (R25, R43, R45, R47). -/
theorem clampField_eq (lo hi x : Int) (h : lo ≤ hi) : clampField lo hi x = (clampTo lo hi x, clampCounts lo hi x) := by
  unfold clampField clampTo clampCounts; split
  · rw [if_pos (by omega)]; congr 1; omega
  · split
    · rw [if_pos (by omega)]; congr 1; omega
    · rw [if_neg (by omega)]; congr 1; omega

/-- The first breakpoint that does not rise (R27). -/
theorem notRising_of_first (l : List Int) (j : Nat) (h : FirstNotRising l j) : notRising l = some (j+1) := by
  cases l with
  | nil => obtain ⟨⟨a, b, h, _⟩, _⟩ := h; simp at h
  | cons x xs =>
    suffices ∀ (xs : List Int) (x : Int) (i j : Nat), FirstNotRising (x :: xs) j → firstFall i x xs = some (i + j + 1) by
      have := this xs x 0 j h; simpa [notRising] using this
    clear h
    intro xs
    induction xs with
    | nil => intro x i j ⟨⟨a, b, h, h2, _⟩, _⟩; simp at h2
    | cons y ys ih =>
      intro x i j h
      unfold firstFall
      cases j with
      | zero => obtain ⟨⟨a, b, h1, h2, h3⟩, _⟩ := h; simp at h1 h2; subst h1 h2; simp [h3]
      | succ j =>
        have hlt := h.2 0 (by omega) x y (by simp) (by simp)
        rw [if_neg (by omega), ih y (i+1) j]
        · congr 1; omega
        · obtain ⟨⟨a, b, h1, h2, h3⟩, h4⟩ := h
          refine ⟨⟨a, b, by simpa using h1, by simpa using h2, h3⟩, ?_⟩
          intro k hk a b ha hb
          exact h4 (k+1) (by omega) a b (by simpa using ha) (by simpa using hb)

/-- Rising breakpoints pass (R27). -/
theorem notRising_none (l : List Int) (h : l.Pairwise (· < ·)) : notRising l = none := by
  cases l with
  | nil => rfl
  | cons x xs =>
    simp only [notRising]
    suffices ∀ (xs : List Int) (x : Int) (i : Nat), (x :: xs).Pairwise (· < ·) → firstFall i x xs = none from this xs x 0 h
    intro xs
    induction xs with
    | nil => intros; rfl
    | cons y ys ih =>
      intro x i h
      unfold firstFall
      have := (List.pairwise_cons.1 h).1 y (by simp)
      rw [if_neg (by omega)]; exact ih y _ (List.pairwise_cons.1 h).2

/-- The first STRAIN segment without a fallback rate (R51). -/
theorem firstBareStrain_some (l : List Segment) (k i : Nat) (g : Segment) (hg : l[i]? = some g) (h1 : g.mode = .strain ∧ g.fallback = none)
  (hj : ∀ j, j < i → ¬ ∃ g : Segment, l[j]? = some g ∧ g.mode = .strain ∧ g.fallback = none) : firstBareStrain k l = some (k + i) := by
  induction l generalizing i k with
  | nil => simp at hg
  | cons a l ih =>
    unfold firstBareStrain
    cases i with
    | zero => simp at hg; subst hg; simp [h1]
    | succ i =>
      have h0 : ¬ (a.mode = .strain ∧ a.fallback = none) := fun h => hj 0 (by omega) ⟨a, rfl, h.1, h.2⟩
      rw [if_neg h0, ih (k+1) i (by simpa using hg)]
      · congr 1; omega
      · intro j hjj ⟨g', hg', hg2⟩
        exact hj (j+1) (by omega) ⟨g', by simpa using hg', hg2⟩

/-- No STRAIN segment without a fallback rate (R51). -/
theorem firstBareStrain_none (l : List Segment) (k : Nat) (hj : ∀ j : Nat, ¬ ∃ g : Segment, l[j]? = some g ∧ g.mode = .strain ∧ g.fallback = none) : firstBareStrain k l = none := by
  induction l generalizing k with
  | nil => rfl
  | cons a l ih =>
    unfold firstBareStrain
    have h0 : ¬ (a.mode = .strain ∧ a.fallback = none) := fun h => hj 0 ⟨a, rfl, h.1, h.2⟩
    rw [if_neg h0, ih]
    intro j ⟨g', hg', hg2⟩
    exact hj (j+1) ⟨g', by simpa using hg', hg2⟩

/-! ## The path of MC to MS (R28, R29, R30) -/

@[simp] theorem outcomesToMs_append (l r : List McToMs) : outcomesToMs (l ++ r) = outcomesToMs l + outcomesToMs r := by
  induction l with
  | nil => simp [outcomesToMs]
  | cons a l ih => cases a <;> simp [outcomesToMs, ih]; omega

@[simp] theorem summariesToMs_append (l r : List McToMs) : summariesToMs (l ++ r) = summariesToMs l ++ summariesToMs r := by
  induction l with
  | nil => rfl
  | cons a l ih => cases a <;> simp [summariesToMs, ih]

@[simp] theorem endsInOutcome_append_outcome (l : List McToMs) (o : LoadOutcome) :
    endsInOutcome (l ++ [.outcome o]) = true := by
  induction l with
  | nil => rfl
  | cons a l ih => cases a <;> cases l <;> first | rfl | simpa [endsInOutcome] using ih

/-- An outcome at the path's end is counted there. -/
theorem outcomesToMs_pos_of_endsInOutcome (l : List McToMs) (h : endsInOutcome l = true) : 0 < outcomesToMs l := by
  induction l with
  | nil => simp [endsInOutcome] at h
  | cons a l ih =>
    cases a with
    | outcome o => simp [outcomesToMs]
    | summary c =>
      cases l with
      | nil => simp [endsInOutcome] at h
      | cons b l => simpa [outcomesToMs] using ih (by simpa [endsInOutcome] using h)

/-- What MC does with a load (R29): refuse it under a STORE, refuse its fault, or install its table and answer DONE with the
summary ahead of the outcome (log entry 35). -/
theorem McDesk.takeLoad_eq (d : McDesk) (tag : Tag) (l : CalLoad) :
    d.takeLoad tag l =
      (let answers (r : Reply) (o : LoadOutcome) (sums : List CalSummary) : Paths :=
         d.paths.mcAnswersLoad d.paths.msToMc r o sums
       if d.mc.storeInFlight then { d with paths := answers (answer .load tag .notReady .none) .notReady [] }
       else
         match d.mc.cal.load l with
         | .error f => { d with paths := answers (refuse .load tag .badTable f.reason (.entryIndex f.index)) .badTable [] }
         | .ok r =>
           { mc := { d.mc with cal := r.1 }
             paths := answers (answer .load tag .done (.clampCount r.2)) .done [r.1.summary] }) := by
  unfold McDesk.takeLoad
  split
  · simp [Paths.mcAnswersLoad, Paths.sendReply, Paths.sendMcOutcome, PerBlock.push, PerBlock.set, PerBlock.get]
  · split <;>
      simp_all [Paths.mcAnswersLoad, Paths.sendReply, Paths.sendMcOutcome, Paths.sendSummary, PerBlock.push, PerBlock.set,
        PerBlock.get]

end Sys2Proof.Machine
end

