-- ==== Sys2Proof/Laws/Image.lean ====
section
/-! SUPPORT. The table records of a store image (R174): what one record does, and the records of an image one after another. -/

namespace Sys2Proof.Machine

/-- A record names the same table in both readings of its kind and index bytes. -/
theorem recordRef_eq_table (r : TableRecord) : recordRef r.kind.toNat r.index.toNat = r.table := by
  obtain ⟨k, i, b⟩ := r
  have hi (n : Nat) (h : n < 256) : i = BitVec.ofNat 8 n ↔ i.toNat = n := by
    constructor
    · rintro rfl; simp; omega
    · intro h; apply BitVec.eq_of_toNat_eq; simp; omega
  have hk (n : Nat) (h : n < 256) : k = BitVec.ofNat 8 n ↔ k.toNat = n := by
    constructor
    · rintro rfl; simp; omega
    · intro h; apply BitVec.eq_of_toNat_eq; simp; omega
  unfold recordRef TableRecord.table
  simp only [show (1 : Byte) = BitVec.ofNat 8 1 from rfl, show (2 : Byte) = BitVec.ofNat 8 2 from rfl,
    show (3 : Byte) = BitVec.ofNat 8 3 from rfl, show (4 : Byte) = BitVec.ofNat 8 4 from rfl,
    show (0 : Byte) = BitVec.ofNat 8 0 from rfl, hi _ (show 0 < 256 by decide), hi _ (show 1 < 256 by decide),
    hk _ (show 1 < 256 by decide), hk _ (show 2 < 256 by decide), hk _ (show 3 < 256 by decide),
    hk _ (show 4 < 256 by decide)]
  generalize k.toNat = n
  match n with
  | 0 => simp
  | 1 => simp
  | 2 => simp
  | 3 => simp
  | 4 => simp
  | n + 5 => simp

theorem u8_append (a b : List Byte) (i : Nat) (h : i < a.length) : u8 (a ++ b) i = u8 a i := by
  simp only [u8, field]
  rw [List.drop_append_of_le_length (by omega), List.take_append_of_le_length (by simp; omega)]

/-- The body length read from a record that fits. -/
theorem bodyLength_of_fits (r : TableRecord) (t : TableRef) (ht : r.table = some t) (hf : r.fits) (more : List Byte) :
    bodyLength r.kind.toNat (r.body ++ more) = some r.body.length := by
  rw [← recordRef_eq_table] at ht
  unfold TableRecord.fits at hf
  generalize r.kind.toNat = n at hf ht
  match n with
  | 0 => simp [recordRef] at ht
  | 1 | 2 | 3 => simp [bodyLength, recordLength] at hf ⊢; omega
  | 4 =>
    simp only [recordLength] at hf
    have h5 : ¬ r.body.length < 5 := by intro h; rw [if_pos h] at hf; omega
    rw [if_neg h5] at hf
    have h6 : ¬ (r.body ++ more).length < 5 := by simp; omega
    have h7 : u8 (r.body ++ more) 4 = u8 r.body 4 := u8_append _ _ 4 (by omega)
    simp only [bodyLength, h6, if_false, h7]
    rw [← hf]
  | n + 5 => simp [recordRef] at ht

/-- A load of a table that passes its check installs it, and any other is refused. -/
theorem load_of_passes (c : CalSet) (l : CalLoad) (h : tablePasses l) : ∃ n, c.load l = .ok (c.installed l, n) := by
  cases l with
  | frame t =>
    simp only [CalSet.load, checkFrameTable, if_pos (show t.travelMin < t.travelMax from h), Except.map, CalSet.installed]
    rw [clampField_eq 1 2147483647 _ (by decide), clampField_eq 1 1000000 _ (by decide), clampField_eq 0 65536000 _ (by decide),
      clampField_eq 1 4 _ (by decide), clampField_eq 1 _ _ (by simp [clampTo])]
    exact ⟨_, rfl⟩
  | crosshead g => exact ⟨0, by simp [CalSet.load, checkGain, show g ≠ 0 from h, Except.map, CalSet.installed]⟩
  | arm i g => exact ⟨0, by cases i <;> simp [CalSet.load, checkGain, show g ≠ 0 from h, Except.map, CalSet.installed, CalSet.setArm]⟩
  | range code t =>
    obtain ⟨h1, h2, h3, h4, h5⟩ := h
    refine ⟨(clampField (-8388608) 8388607 t.zeroOffset).2, ?_⟩
    simp only [CalSet.load, checkRangeTable, show ¬ 3 < code by omega, show ¬ (t.points.length < 2 ∨ 16 < t.points.length) by omega,
      if_false, notRising_none _ h4, notRising_none _ h5, Except.map, CalSet.installed, CalSet.setRange]
    rw [clampField_eq _ _ _ (by decide)]
    match code with
    | 0 | 1 | 2 | 3 => simp
    | n + 4 => omega
  | remove t => exact h.elim

theorem firstFall_some (i : Nat) (x : Int) (l : List Int) (h : ¬ (x :: l).Pairwise (· < ·)) : (firstFall i x l).isSome = true := by
  induction l generalizing i x with
  | nil => simp at h
  | cons y ys ih =>
    unfold firstFall
    split
    · rfl
    · apply ih
      intro hp
      apply h
      rw [List.pairwise_cons]
      refine ⟨?_, hp⟩
      intro z hz
      rw [List.pairwise_cons] at hp
      rcases List.mem_cons.1 hz with rfl | hz
      · omega
      · have := hp.1 z hz; omega

theorem notRising_some (l : List Int) (h : ¬ l.Pairwise (· < ·)) : ∃ i, notRising l = some i := by
  cases l with
  | nil => simp at h
  | cons x l => exact Option.isSome_iff_exists.1 (firstFall_some 0 x l h)

theorem load_of_not_passes (c : CalSet) (t : TableRef) (b : List Byte) (h : ¬ tablePasses (readTable t b)) :
    ∃ f, c.load (readTable t b) = .error f := by
  cases t with
  | frame =>
    have h' : ¬ (readFrameTable b).travelMin < (readFrameTable b).travelMax := h
    simp only [readTable, CalSet.load, checkFrameTable, if_neg h', Except.map]; exact ⟨_, rfl⟩
  | crosshead =>
    have h' : i32 b 0 = 0 := by_contra fun hn => h hn
    simp only [readTable, CalSet.load, checkGain, if_pos h', Except.map]; exact ⟨_, rfl⟩
  | arm i =>
    have h' : i32 b 0 = 0 := by_contra fun hn => h hn
    simp only [readTable, CalSet.load, checkGain, if_pos h', Except.map]; exact ⟨_, rfl⟩
  | range code =>
    simp only [readTable, CalSet.load, checkRangeTable]
    split
    · exact ⟨_, rfl⟩
    split
    · exact ⟨_, rfl⟩
    rename_i h1 h2
    by_cases h3 : ((readRangeTable b).points.map (·.1)).Pairwise (· < ·)
    · by_cases h4 : ((readRangeTable b).points.map (·.2)).Pairwise (· < ·)
      · exact absurd ⟨by omega, by omega, by omega, h3, h4⟩ h
      · obtain ⟨i, hi⟩ := notRising_some _ h4
        rw [notRising_none _ h3]; simp only [hi, Except.map]; exact ⟨_, rfl⟩
    · obtain ⟨i, hi⟩ := notRising_some _ h3
      simp only [hi, Except.map]; exact ⟨_, rfl⟩

/-- A good record of a table not yet there is taken and installed. -/
theorem takeRecord_good (c : CalSet) (r : TableRecord) (more : List Byte) (h : r.good)
    (hn : ∀ t, r.table = some t → c.has t = false) : takeRecord c (r.bytes ++ more) = some (r.installIn c, more) := by
  obtain ⟨hf, t, ht, hp⟩ := h
  obtain ⟨n, hl⟩ := load_of_passes c _ hp
  simp only [TableRecord.bytes, List.cons_append, takeRecord, recordRef_eq_table, bodyLength_of_fits r t ht hf, ht, hn t ht,
    TableRecord.installIn]
  simp [hl]

/-- What ends the records with BAD_TABLE. -/
theorem takeRecord_bad (c : CalSet) (left : List Byte)
    (h : left.length = 1 ∨
      (∃ (kind index : Byte) (body : List Byte), left = kind :: index :: body ∧
        (kind.toNat = 0 ∨ 4 < kind.toNat ∨ (kind.toNat = 3 ∧ 1 < index.toNat) ∨ body.length < recordLength kind.toNat body)) ∨
      (∃ (r : TableRecord) (more : List Byte) (t : TableRef), left = r.bytes ++ more ∧ r.fits ∧ r.table = some t ∧
        (c.has t = true ∨ ¬ r.good))) :
    takeRecord c left = none := by
  rcases h with h | ⟨k, i, b, rfl, h⟩ | ⟨r, more, t, rfl, hf, ht, h⟩
  · match left, h with
    | [x], _ => rfl
  · simp only [takeRecord]
    split
    · rename_i t n h1 h2
      rw [if_pos]
      left
      generalize k.toNat = m at *
      match m with
      | 0 => simp [recordRef] at h1
      | 1 | 2 => simp [recordLength, bodyLength] at h h2; omega
      | 3 =>
        simp only [recordRef] at h1
        simp [recordLength, bodyLength] at h h2
        split at h1
        · omega
        · split at h1
          · omega
          · cases h1
      | 4 =>
        simp [recordLength, bodyLength] at h h2
        obtain ⟨h3, h4⟩ := h2
        rw [if_neg (by omega)] at h
        omega
      | m + 5 => simp [recordRef] at h1
    · rfl
  · simp only [TableRecord.bytes, List.cons_append, takeRecord, recordRef_eq_table, bodyLength_of_fits r t ht hf, ht]
    by_cases hh : c.has t = true
    · simp [hh]
    · rcases h with h | h
      · exact absurd h hh
      · obtain ⟨f, hl⟩ := load_of_not_passes c t r.body fun hp => h ⟨hf, t, ht, hp⟩
        simp [hl]

/-- The tables of a set after a good record. -/
theorem has_installIn (c : CalSet) (r : TableRecord) (h : r.good) (t : TableRef) :
    (r.installIn c).has t = true ↔ c.has t = true ∨ r.table = some t := by
  obtain ⟨hf, u, hu, hp⟩ := h
  unfold TableRecord.installIn
  rw [hu]
  cases u with
  | frame => cases t <;> simp [readTable, CalSet.installed, CalSet.has, CalSet.armGain, CalSet.range]
  | crosshead => cases t <;> simp [readTable, CalSet.installed, CalSet.has, CalSet.armGain, CalSet.range]
  | arm i =>
    cases i <;> cases t <;> simp [readTable, CalSet.installed, CalSet.has, CalSet.range]
    all_goals (rename_i j; cases j <;> simp [CalSet.armGain])
  | range code =>
    have hc : code ≤ 3 := hp.1
    cases t with
    | range m =>
      simp only [readTable, CalSet.installed, CalSet.has]
      match m with
      | 0 | 1 | 2 | 3 => simp only [CalSet.range]; split <;> simp_all
      | m + 4 => simp [CalSet.range]; omega
    | _ => simp [readTable, CalSet.installed, CalSet.has, CalSet.armGain]

/-- The records of an image, one after another: good ones of different tables are installed, and what stands behind them is
judged with the set they leave. -/
theorem takeRecords_append (records : List TableRecord) (left : List Byte) :
    ∀ (fuel : Nat) (c : CalSet), (records.flatMap TableRecord.bytes ++ left).length ≤ fuel → (∀ r ∈ records, r.good) →
      (records.map TableRecord.table).Nodup → (∀ r ∈ records, ∀ t, r.table = some t → c.has t = false) →
      ∃ m, left.length ≤ m ∧ takeRecords fuel c (records.flatMap TableRecord.bytes ++ left) =
        takeRecords m (records.foldl TableRecord.installIn c) left := by
  induction records with
  | nil => intro fuel c hl _ _ _; exact ⟨fuel, by simpa using hl, rfl⟩
  | cons r rs ih =>
    intro fuel c hl hg hd hn
    rw [List.map_cons, List.nodup_cons] at hd
    have hr := hg r (List.mem_cons_self ..)
    rw [List.flatMap_cons, List.append_assoc] at hl ⊢
    match fuel, hl with
    | 0, hl => simp [TableRecord.bytes] at hl
    | fuel + 1, hl =>
      have hstep := takeRecord_good c r (rs.flatMap TableRecord.bytes ++ left) hr (hn r (List.mem_cons_self ..))
      obtain ⟨m, hm, h⟩ := ih fuel (r.installIn c) (by simp [TableRecord.bytes] at hl ⊢; omega)
        (fun x hx => hg x (List.mem_cons_of_mem _ hx)) hd.2 (by
          intro x hx t ht
          rw [Bool.eq_false_iff]
          intro hh
          rcases (has_installIn c r hr t).1 hh with h1 | h1
          · rw [hn x (List.mem_cons_of_mem _ hx) t ht] at h1; cases h1
          · exact hd.1 (List.mem_map.2 ⟨x, hx, by rw [ht, h1]⟩))
      refine ⟨m, hm, ?_⟩
      rw [List.foldl_cons, ← h]
      rw [show r.bytes ++ (rs.flatMap TableRecord.bytes ++ left) = r.kind :: (r.index :: r.body ++ (rs.flatMap TableRecord.bytes ++ left)) from rfl]
      simp only [takeRecords]
      rw [show r.kind :: (r.index :: r.body ++ (rs.flatMap TableRecord.bytes ++ left)) = r.bytes ++ (rs.flatMap TableRecord.bytes ++ left) from rfl, hstep]

/-- The tables that the records leave. -/
theorem has_foldl_installIn (records : List TableRecord) (hg : ∀ r ∈ records, r.good) (c : CalSet) (t : TableRef) :
    (records.foldl TableRecord.installIn c).has t = true ↔ c.has t = true ∨ some t ∈ records.map TableRecord.table := by
  induction records generalizing c with
  | nil => simp
  | cons r rs ih =>
    rw [List.foldl_cons, ih (fun x hx => hg x (List.mem_cons_of_mem _ hx)),
      has_installIn c r (hg r (List.mem_cons_self ..))]
    simp only [List.map_cons, List.mem_cons, or_assoc, eq_comm]

end Sys2Proof.Machine
end

