-- ==== Sys2Proof/Laws/Motion.lean ====
section
/-! SUPPORT. What the shared operations of the Motion Sequencer do, said once in the words of Sys2Proof/Safety.lean: its status
notice, entering a state, starting and ending a segment, meeting a criterion, stopping, faulting, returning to RUNNING. -/

namespace Sys2Proof.Machine

/-- A status notice changes only the path of notices. -/
theorem MsDesk.notice_eq (d : MsDesk) (w : MsNotice) : d.notice w = { d with paths := d.paths.noticesOf (d.notice w).paths } := by
  unfold MsDesk.notice Paths.noticesOf; split <;> rfl

/-- A step of MS, with the notices as they come out (R169). -/
theorem State.onMs_eq (s : State) (f : MsDesk → MsDesk) :
    s.onMs f = { s with
      ms := (f s.msDesk).ms
      drive := (f s.msDesk).drive
      driveLine := (f s.msDesk).line
      paths := (f s.msDesk).paths.noticesOf (s.onMs f).paths } := by
  unfold State.onMs State.putMs
  rw [MsDesk.notice_eq]
  rfl

/-- A step of MS from what it leaves at its desk. -/
theorem State.onMs_eq_msDoes (s : State) (f : MsDesk → MsDesk) (p : Paths) (e : MsEffect) (rs : List Reply)
  (h1 : (f s.msDesk).ms = e.ms) (h2 : (f s.msDesk).drive = s.drive) (h3 : (f s.msDesk).line = s.driveLine)
  (h4 : (f s.msDesk).paths = p.msSends e.toTe e.tags e.events rs) :
  s.onMs f = s.msDoes p e rs (s.onMs f) := by
  refine (State.onMs_eq s f).trans ?_
  unfold State.msDoes
  rw [h1, h2, h3, h4]

/-- The Segment Log entry (R63). -/
theorem Ms.entry_eq_logEntry (m : Ms) (i c x) : m.entry i c x = m.logEntry i c x := rfl

/-- A segment of the program held. -/
theorem Ms.segmentAt_eq (m : Ms) (i) : m.segmentAt i = m.program.bind fun p => p.segments[i]? := rfl

/-- What a segment start sets (R59, R88). -/
theorem Ms.startRates_eq_started (m : Ms) (g : Segment) (x : Sample) (i : Nat) :
  Ms.startRates { m with
      cursor := some { index := i, phase := .running }, continuation := none, continuationRate := none, fallbackUsed := false,
      segmentTime := 0 } g x = m.started i g x := by
  cases hm : g.mode <;> simp [Ms.startRates, Ms.started, hm, segmentRate, clampMagnitude, strainRateMax, q32, Ms.vMax, Ms.lp]

/-- Starting a segment (R59, R88). -/
theorem MsDesk.startSegment_does (d : MsDesk) (i : Nat) (g : Segment) (x : Sample) (hg : d.ms.segmentAt i = some g) (hx : d.ms.last = some x) :
   d.startSegment i = { d with ms := d.ms.started i g x, paths := d.paths.msSends [] [] (d.ms.startEvents i g x) [] } := by
  unfold MsDesk.startSegment
  rw [hg, hx]
  clear hg hx
  have h0 : ∀ p : Paths, p.msSends [] [] [] [] = p := by intro p; simp [Paths.msSends]
  simp only []
  rw [Ms.startRates_eq_started]
  unfold Ms.startEvents
  simp only []
  split
  · rw [h0]
  · simp only [MsDesk.event, Paths.sendEvent, PerBlock.push, PerBlock.get, PerBlock.set, Paths.msSends]
    cases hm : g.mode <;> simp [segmentRate, hm]

/-- Starting the next segment, after the cursor and the paths have changed. -/
theorem MsDesk.startSegment_next (d : MsDesk) (i j : Nat) (g g' : Segment) (x : Sample) (c : Option Cursor) (p : Paths) (hg : (d.ms.program.bind fun p => p.segments[j]?) = some g') (hx : d.ms.last = some x) :
   MsDesk.startSegment { d with ms := { d.ms with cursor := c }, paths := p } j = { d with ms := d.ms.started j g' x, paths := p.msSends [] [] (d.ms.startEvents j g' x) [] } := by
  exact (MsDesk.startSegment_does { d with ms := { d.ms with cursor := c }, paths := p } j g' x hg hx).trans rfl

/-- Sending twice. -/
theorem Paths.msSends_msSends (p : Paths) (a b c e a' b' c' e') : (p.msSends a b c e).msSends a' b' c' e' = p.msSends (a ++ a') (b ++ b') (c ++ c') (e ++ e') := by
  simp [Paths.msSends]

/-- Ending a running segment (R63). -/
theorem MsDesk.endSegment_does (d : MsDesk) (i : Nat) (x : Sample) (c : EndCause) (hc : d.ms.cursor = some { index := i, phase := .running }) (hx : d.ms.last = some x) :
   d.endSegment c = { d with ms := { d.ms with cursor := some { index := i, phase := .ended } }, paths := d.paths.msSends [.entry (d.ms.logEntry i c x)] [] [.segmentEnd (d.ms.logEntry i c x)] [] } := by
  simp [MsDesk.endSegment, hc, hx, Cursor.ended, Paths.msSends, Paths.sendEvent, PerBlock.push, PerBlock.get, PerBlock.set, Ms.entry_eq_logEntry, Ms.entry, Ms.logEntry]

/-- Entering STOPPED (R58). -/
theorem MsDesk.enterStopped_does (d : MsDesk) (c : Cause) : d.enterStopped c = { d with ms := { d.ms with state := .stopped, cause := c, pauses := .empty, pendingTransition := none, cursor := d.ms.cursor.map Cursor.ended }, paths := d.paths.msSends [.tag (.stopped c)] [.stopped c] [.testEnd .stopped c (d.ms.cursor.map Cursor.index) d.ms.lastNumber] [] } := by
  simp only [MsDesk.enterStopped, MsDesk.enter, Ms.enter, MotionTag.endsTest, MsDesk.event, DrivePort.enter]
  cases hh : d.ms.cursor <;> simp [hh, Cursor.ended, Ms.lastNumber, Paths.sendTag, Paths.msSends, Paths.sendEvent, PerBlock.push, PerBlock.get, PerBlock.set]

/-- Entering FAULTED (R58, R76). -/
theorem MsDesk.enterFaulted_does (d : MsDesk) (c : Cause) : d.enterFaulted c = { d with ms := { d.ms with state := .faulted, cause := c, pauses := .empty, pendingTransition := none, jogRate := 0, cursor := d.ms.cursor.map Cursor.stopRunning }, paths := d.paths.msSends [.tag (.faulted c)] [.faulted c] [.testEnd .faulted c (d.ms.cursor.map Cursor.index) d.ms.lastNumber] [] } := by
  simp only [MsDesk.enterFaulted, MsDesk.enter, Ms.enter, MotionTag.endsTest, MsDesk.event, DrivePort.enter]
  cases hh : d.ms.cursor <;> simp [hh, Cursor.stopRunning, Ms.lastNumber, Paths.sendTag, Paths.msSends, Paths.sendEvent, PerBlock.push, PerBlock.get, PerBlock.set]
  split <;> simp [Cursor.ended]

/-- The segment in effect. -/
theorem Ms.running_of_inSegment (m : Ms) (i g x) (h : m.inSegment i g x) : m.running = some (i, g) := by
  obtain ⟨h1, h2, h3⟩ := h
  simp [Ms.running, h1, Ms.segmentAt, h2]

/-- A criterion met (R63). -/
theorem MsDesk.criterionMet_does (d : MsDesk) (i g x) (h : d.ms.inSegment i g x) :
   d.criterionMet = { d with ms := (d.ms.criterionEnds i g x).ms, paths := d.paths.msSends (d.ms.criterionEnds i g x).toTe (d.ms.criterionEnds i g x).tags (d.ms.criterionEnds i g x).events [] } := by
  unfold MsDesk.criterionMet
  rw [Ms.running_of_inSegment _ _ _ _ h]
  obtain ⟨h1, h2, h3⟩ := h
  simp only [MsDesk.endSegment_does _ _ _ _ h1 h3]
  rw [Ms.segmentAt_eq]
  unfold Ms.criterionEnds
  by_cases ha : g.action = .next
  · cases hn : (d.ms.program.bind fun p => p.segments[i+1]?) with
    | none =>
      simp [ha, hn, MsDesk.enterStopped_does, Paths.msSends_msSends, Ms.lastNumber, h3, Cursor.ended]
    | some g' =>
      simp only [ha, hn]
      simp only [Option.isSome_some, and_self, ↓reduceIte]
      rw [MsDesk.startSegment_next d i (i+1) g g' x _ _ hn h3]
      simp [Paths.msSends_msSends]
  · simp [ha, MsDesk.enterStopped_does, Paths.msSends_msSends, Ms.lastNumber, h3, Cursor.ended]

/-- An answer of MS. -/
theorem MsDesk.reply_does (d : MsDesk) (r : Reply) : d.reply r = { d with paths := d.paths.msSends [] [] [] [r] } := by
  simp [MsDesk.reply, Paths.msSends, Paths.sendReply, PerBlock.push, PerBlock.set, PerBlock.get]

/-- A command that MS answers at once and that changes nothing else. -/
theorem State.onMs_eq_msAnswers (s : State) (f : MsDesk → MsDesk) (r : Reply) (h : f s.msDesk = s.msDesk.reply r) : s.onMs f = s.msAnswers r := by
  unfold State.onMs
  rw [h]
  simp [MsDesk.reply_does, MsDesk.notice, State.putMs, State.msDesk, State.msAnswers, MsNotice.of]

/-- Entering a state that ends no test. -/
theorem MsDesk.enter_does (d : MsDesk) (t : MotionTag) (c : Cause) (h : t.endsTest = false) : d.enter t c = { d with ms := d.ms.enter t c, drive := d.drive.enter t, paths := d.paths.msSends [.tag t] [t] [] [] } := by
  simp [MsDesk.enter, h, Paths.msSends, Paths.sendTag]

/-- The answer to a pending ARM when ARMING ends without completing (R56). -/
theorem MsDesk.answerArm_cancelled (d : MsDesk) : d.answerArm .cancelled .none = { d with ms := { d.ms with armReply := none }, paths := d.paths.msSends [] [] [] d.ms.armCancelled } := by
  unfold MsDesk.answerArm Ms.armCancelled
  cases h : d.ms.armReply
  · simp [Paths.msSends]
    rw [← h]
  · simp [MsDesk.reply_does]

/-- A test is under way. -/
theorem Ms.testing_iff (m : Ms) : m.testing = true ↔ (m.state = .running ∨ m.state = .paused) := by simp [Ms.testing]

/-- A fault in any state (R76). -/
theorem MsDesk.fault_does (d : MsDesk) (c : Cause) : d.fault c = { d with ms := (d.ms.faults c).ms, paths := d.paths.msSends (d.ms.faults c).toTe (d.ms.faults c).tags (d.ms.faults c).events d.ms.armCancelled } := by
  unfold MsDesk.fault
  simp only [MsDesk.enterFaulted_does, MsDesk.answerArm_cancelled]
  by_cases ht : d.ms.testing = true
  · have ht' := (Ms.testing_iff _).1 ht
    cases hc : d.ms.cursor with
    | none => simp [ht, MsDesk.endSegment, hc, Ms.faults, Paths.msSends_msSends, Ms.armCancelled]
    | some u =>
      cases hx : d.ms.last with
      | none => simp [ht, ht', MsDesk.endSegment, hc, hx, Ms.faults, Paths.msSends_msSends, Ms.armCancelled, Cursor.stopRunning, Cursor.ended]
      | some x =>
        by_cases hp : u.phase = .running
        · obtain ⟨i, ph⟩ := u
          simp at hp; subst hp
          simp [ht, ht', MsDesk.endSegment_does _ _ _ _ hc hx, hc, hx, Ms.faults, Paths.msSends_msSends, Ms.armCancelled, Cursor.stopRunning, Cursor.ended, Ms.lastNumber]
        · simp [ht, ht', MsDesk.endSegment, hc, hx, hp, Ms.faults, Paths.msSends_msSends, Ms.armCancelled, Cursor.stopRunning, Cursor.ended, Ms.lastNumber]
  · have ht' : ¬(d.ms.state = .running ∨ d.ms.state = .paused) := fun h => ht ((Ms.testing_iff _).2 h)
    cases hc : d.ms.cursor <;> cases hx : d.ms.last <;>
      simp [ht, ht', hc, hx, Ms.faults, Paths.msSends_msSends, Ms.armCancelled, Cursor.stopRunning, Cursor.ended, Ms.lastNumber]

/-- A test stopped in its segment (R58, R63). -/
theorem MsDesk.stops_does (d : MsDesk) (i g x) (e : EndCause) (c : Cause) (h : d.ms.inSegment i g x) :
   (d.endSegment e).enterStopped c = { d with ms := (d.ms.testStops i e c x).ms, paths := d.paths.msSends (d.ms.testStops i e c x).toTe (d.ms.testStops i e c x).tags (d.ms.testStops i e c x).events [] } := by
  obtain ⟨ha, hb, hc⟩ := h
  rw [MsDesk.endSegment_does _ _ _ _ ha hc, MsDesk.enterStopped_does]
  simp [Paths.msSends_msSends, Ms.testStops, Cursor.ended, Ms.lastNumber, hc, Ms.logEntry]

/-- The return to RUNNING with no pause cause left (R62, R70, R72). -/
theorem MsDesk.resumeIfFree_does (d : MsDesk) (i g x) (h : d.ms.inSegment i g x) (hs : d.ms.state = .paused) (hp : d.ms.pauses = .empty) :
   d.resumeIfFree = { d with ms := (d.ms.returns i g x).ms, paths := d.paths.msSends (d.ms.returns i g x).toTe (d.ms.returns i g x).tags (d.ms.returns i g x).events [] } := by
  simp only [MsDesk.resumeIfFree, hs, hp, and_self, if_true, MsDesk.enter_does _ _ _ (show MotionTag.endsTest .running = false from rfl)]
  unfold MsDesk.applyPending Ms.returns
  simp only [Ms.enter, DrivePort.enter]
  cases hq : d.ms.pendingTransition with
  | none => simp [hp]
  | some j =>
    simp only []
    rw [MsDesk.criterionMet_does _ i g x (by simpa [Ms.inSegment] using h)]
    simp [Paths.msSends_msSends, hp]

end Sys2Proof.Machine
end

