-- ==== Sys2Proof/Laws/Setpoint.lean ====
section
/-! SUPPORT. The demand, the stages of a sample and the Drive Frame, in the words of Sys2Proof/Safety.lean. -/

namespace Sys2Proof.Machine

/-- The Drive Frame that ends every sample taken by MS (R90, R92, R169). -/
theorem State.sendFrame_eq_afterSample (s : State) (x : Sample) (rest : List Sample) (f : MsEffect) (trig : List Trigger) (rs : List Reply) (d : MsDesk)
  (h1 : d.ms = f.ms) (h3 : d.line = s.driveLine)
  (h4 : d.paths = { (Paths.msSends { s.paths with samplesMs := rest } f.toTe f.tags f.events rs) with triggers := { s.paths.triggers with ms := s.paths.triggers.ms ++ trig } }) :
  s.putMs (d.sendFrame x) = s.afterSample rest x f trig rs d.drive := by
  have he : f.ms.state.enables = decide (f.ms.state = .jogging ∨ f.ms.state = .armed ∨ f.ms.state = .running ∨ f.ms.state = .paused ∨
      f.ms.state = .stopped) := by cases f.ms.state <;> rfl
  simp only [MsDesk.sendFrame, State.putMs, State.afterSample, MsDesk.noticeAlways, h1, h3, h4, he, pushHistory, countAfter, fallsSilent, Config.unansweredLimit, Ms.demandField, sat32, saturate, clampTo, qRound, q32]
  generalize decide (f.ms.state = .jogging ∨ f.ms.state = .armed ∨ f.ms.state = .running ∨ f.ms.state = .paused ∨ f.ms.state = .stopped) = e
  cases e <;> by_cases hu : d.drive.unanswered = 7 <;> simp [hu, Paths.raiseFault, Paths.setFaults, Paths.sendEvent, Paths.sendTrigger, Paths.faultsOf, PerBlock.push, PerBlock.set, PerBlock.get, faultBlock, Paths.msSends]

/-- Saturation is clamping. -/
theorem saturate_eq_clampTo (a b x : Int) : saturate a b x = clampTo a b x := rfl

/-- The increment of the mode in effect (R83 to R86). -/
theorem Ms.increment_eq (m : Ms) (g : Segment) (x : Sample) : m.increment g x = ((m.increments g x).2, (m.increments g x).1.eTarget, (m.increments g x).1.fTarget) := by
  unfold Ms.increment Ms.increments
  cases hc : m.continuation <;> cases hm : g.mode <;> simp [rateStep, positionIncrement, advanceTarget, rampTarget, satTarget, satForce, saturate_eq_clampTo, q32, qFloor, feedForward, correction]

/-- Forming an increment changes the ramp targets alone. -/
theorem Ms.increments_ms (m : Ms) (g : Segment) (x : Sample) : (m.increments g x).1 = { m with eTarget := (m.increments g x).1.eTarget, fTarget := (m.increments g x).1.fTarget } := by
  unfold Ms.increments
  cases hc : m.continuation <;> cases hm : g.mode <;> simp <;> rw [← hc]

/-- Stage 4 of R60. -/
theorem MsDesk.formDemand_does (d : MsDesk) (i g x) (h : d.ms.inSegment i g x) (hs : d.ms.state = .running) :
   d.formDemand g x = { d with ms := (d.ms.formsDemand i g x).1.ms, paths := { (d.paths.msSends (d.ms.formsDemand i g x).1.toTe (d.ms.formsDemand i g x).1.tags (d.ms.formsDemand i g x).1.events []) with triggers := { d.paths.triggers with ms := d.paths.triggers.ms ++ (d.ms.formsDemand i g x).2 } } } := by
  unfold MsDesk.formDemand
  rw [Ms.increment_eq]
  simp only []
  rw [show ({ d.ms with eTarget := (d.ms.increments g x).1.eTarget, fTarget := (d.ms.increments g x).1.fTarget } : Ms) = (d.ms.increments g x).1 from (Ms.increments_ms _ _ _).symm]
  have hd : d.ms.advance x (d.ms.increments g x).2 = applyTravel (d.ms.increments g x).1.summary.frame ((d.ms.increments g x).1.stepped x (d.ms.increments g x).2) := by
    rw [Ms.increments_ms]
    simp [Ms.advance, Ms.stepped, boundStep, maxStep, q32, saturate_eq_clampTo, Ms.vMax]
  rw [hd]
  have hi : (d.ms.increments g x).1.inSegment i g x := by rw [Ms.increments_ms]; simpa [Ms.inSegment] using h
  have hst : (d.ms.increments g x).1.state = .running := by rw [Ms.increments_ms]; simpa using hs
  have hsum : (d.ms.increments g x).1.summary = d.ms.summary := by rw [Ms.increments_ms]
  unfold Ms.formsDemand
  simp only []
  rw [← hsum]
  clear hsum hd
  cases hf : (d.ms.increments g x).1.summary.frame with
  | none => simp [applyTravel, MsDesk.setDemand, Paths.msSends]
  | some t =>
    simp only [applyTravel, travelBound, q32]
    generalize hm : (d.ms.increments g x).1 = m at *
    generalize hv : m.stepped x (d.ms.increments g x).2 = v
    by_cases h1 : v < t.travelMin * 4294967296
    · have h2 : ¬ (t.travelMin * 4294967296 ≤ v ∧ v ≤ t.travelMax * 4294967296) := by omega
      simp only [h1, h2, if_true, if_false, MsDesk.setDemand, hst, MsDesk.reportTravel]
      rw [MsDesk.stops_does _ i g x _ _ (by simpa [Ms.inSegment] using hi)]
      simp [Paths.msSends, Paths.sendEvent, Paths.sendTrigger, PerBlock.push, PerBlock.set, PerBlock.get, Ms.testStops]
    · by_cases h3 : t.travelMax * 4294967296 < v
      · have h2 : ¬ (t.travelMin * 4294967296 ≤ v ∧ v ≤ t.travelMax * 4294967296) := by omega
        simp only [h1, h2, h3, if_true, if_false, MsDesk.setDemand, hst, MsDesk.reportTravel]
        rw [MsDesk.stops_does _ i g x _ _ (by simpa [Ms.inSegment] using hi)]
        simp [Paths.msSends, Paths.sendEvent, Paths.sendTrigger, PerBlock.push, PerBlock.set, PerBlock.get, Ms.testStops]
      · have h2 : (t.travelMin * 4294967296 ≤ v ∧ v ≤ t.travelMax * 4294967296) := by omega
        simp [h1, h2, h3, MsDesk.setDemand, Paths.msSends]

/-- Stages 3 and 4 of R60. -/
theorem MsDesk.moveDemand_does (d : MsDesk) (i g x) (h : d.ms.inSegment i g x) (hs : d.ms.state = .running) :
   (d.checkSource x).moveDemand x = { d with ms := (d.ms.moves i g x).1.ms, paths := { (d.paths.msSends (d.ms.moves i g x).1.toTe (d.ms.moves i g x).1.tags (d.ms.moves i g x).1.events []) with triggers := { d.paths.triggers with ms := d.paths.triggers.ms ++ (d.ms.moves i g x).2 } } } := by
  have hr := Ms.running_of_inSegment _ _ _ _ h
  unfold MsDesk.checkSource Ms.moves
  rw [hr]
  simp only []
  by_cases hc : g.mode = .strain ∧ d.ms.continuation = none ∧ x.source = .crosshead
  · rw [if_pos ⟨hs, hc⟩, if_pos hc]
    unfold MsDesk.crossheadSample
    cases hfb : g.fallback with
    | some v =>
      simp only [Option.isSome_some, if_true]
      have hcm : d.ms.continues i g x = { ms := { d.ms with continuation := some .fallback, continuationRate := some (min v d.ms.vMax), fallbackUsed := true }, toTe := [], tags := [], events := (if min v d.ms.vMax = v then [] else [.rateClamped i v (min v d.ms.vMax) .vMax (some .fallback)]) ++ [.segmentFallback i x.number .fallback (min v d.ms.vMax) false] } := by
        simp [Ms.continues, hfb]
      rw [hcm]
      simp only []
      have key : ((if min v d.ms.vMax = v then
            ({ d with ms := { d.ms with continuation := some .fallback, continuationRate := some (min v d.ms.vMax), fallbackUsed := true } } : MsDesk)
          else MsDesk.event { d with ms := { d.ms with continuation := some .fallback, continuationRate := some (min v d.ms.vMax), fallbackUsed := true } } (.rateClamped i v (min v d.ms.vMax) .vMax (some .fallback))).event (.segmentFallback i x.number .fallback (min v d.ms.vMax) false))
          = { d with ms := { d.ms with continuation := some .fallback, continuationRate := some (min v d.ms.vMax), fallbackUsed := true }, paths := d.paths.msSends [] [] ((if min v d.ms.vMax = v then [] else [.rateClamped i v (min v d.ms.vMax) .vMax (some .fallback)]) ++ [.segmentFallback i x.number .fallback (min v d.ms.vMax) false]) [] } := by
        split <;> simp [MsDesk.event, Paths.sendEvent, PerBlock.push, PerBlock.set, PerBlock.get, Paths.msSends]
      rw [key]
      have hi : Ms.inSegment { d.ms with continuation := some .fallback, continuationRate := some (min v d.ms.vMax), fallbackUsed := true } i g x := by simpa [Ms.inSegment] using h
      unfold MsDesk.moveDemand
      simp only []
      rw [Ms.running_of_inSegment _ _ _ _ hi]
      simp only []
      rw [if_pos hs]
      rw [MsDesk.formDemand_does ⟨_, _, _, _⟩ i g x hi hs]
      simp [MsEffect.andThen, Paths.msSends_msSends]
      repeat' constructor
    | none =>
      simp only [Ms.continues, hfb, Option.isSome_none]
      unfold MsDesk.pauseIfRunning
      simp only [hs, if_true, MsDesk.enter_does _ .paused _ rfl]
      unfold MsDesk.moveDemand
      have hi : Ms.inSegment { d.ms with continuation := some .equivalent, continuationRate := some (equivalentRate d.ms.rateInUse d.ms.lp), pauses := { d.ms.pauses with extFailed := true }, state := .paused, cause := .none } i g x := by simpa [Ms.inSegment] using h
      simp [MsDesk.event, Ms.enter, equivalentRate, DrivePort.enter, Paths.sendEvent, PerBlock.push, PerBlock.set, PerBlock.get, Paths.msSends]
      split <;> simp
  · rw [if_neg (fun hh => hc hh.2), if_neg hc]
    unfold MsDesk.moveDemand
    rw [hr]
    simp only []
    rw [if_pos hs, MsDesk.formDemand_does _ i g x h hs]

/-- Stage 2 of R60. -/
theorem Ms.criterionMetBy_iff_meets (m : Ms) (g : Segment) (x : Sample) : m.criterionMetBy g x = true ↔ m.meets g x := by
  unfold Ms.criterionMetBy Ms.meets
  cases g.endKind <;> cases g.sense <;> simp [reached]

end Sys2Proof.Machine
end

