-- ==== Sys2Proof/Tests/Slice0.lean ====
section
/-! SUPPORT. Tests: ill-formed operands refused, the worked examples of the manual on small states (each names its source),
and for every statement with hypotheses a concrete state and operands that meet them. -/

namespace Sys2Proof.Tests

open Sys2Proof.Machine

/-! ## Helpers -/

/-- The part after reset, once autoload has ended and CP has taken READY. -/
def ready : State :=
  { State.reset with cp := { Cp.reset with store := .ready }, sp := { Sp.reset with state := .ready, timer := none } }

/-- The state after a command. -/
def after (o : Host.Outcome State Fault Refusal) : State :=
  match o with
  | .next t => t
  | .fault _ => State.reset
  | .refused _ => State.reset

/-- Commands one after another. -/
def runs (cs : List Instr) (s : State) : State := cs.foldl (fun s c => after (exec c s)) s

def frame0 : SampleFrame :=
  { seq := 5, period := .us1000, range := 1, overrange := false, overA := false, overB := false, contactA := true,
    contactB := true, load := 0, countA := 0, countB := 0, crosshead := 0 }

def sample0 : Sample :=
  { number := 7, seq := 5, gap := 1, period := .us1000, testTime := 0, force := 0, range := 0, uncal := false, held := false,
    overrange := false, dLA := 0, validA := true, dLB := 0, validB := true, position := 0, relPosition := 0, strain := 0,
    source := .both, sourceChanged := false, contactA := true, contactB := true, armingMark := none }

def frameTable0 : FrameTable :=
  { fMax := 8000000, vMax := 60000, travelMin := 100000, travelMax := 9000000, compliance := 3277, rangesInUse := 2,
    jogForceLimit := 50000 }

/-- The range of the force example of section 1.2. -/
def range1 : RangeTable :=
  { zeroOffset := 1250, points := [(0, 0), (400000, 2000000), (800000, 4001500), (1600000, 8010000)] }

def segment0 : Segment :=
  { mode := .position, rate := 5000, endKind := .none, endValue := 0, sense := .atOrAbove, action := .next, fallback := none,
    gain := none }

def program0 : Program :=
  { label := none, l0 := 50000, lc := 60000, lp := 60000, s0 := 31416, fitted := .both, autoTare := true, autoArm := false,
    autoPosition := true, kStrain := 16384, kForce := 655, criterion := .atStrain, removalStrain := 500,
    removalTimeout := 30, slip := 2000, segments := [segment0, segment0] }

/-- MC with a sample converted, its source current, and the tables of the examples. -/
def mc0 : Mc :=
  { Mc.reset with
    cal := { CalSet.empty with frame := some frameTable0, crosshead := some 16384, armA := some 32768, armB := some 32768,
                               range1 := some range1 }
    source := some .both
    last := some { sample := sample0, raw := { both := 0, armA := 0, armB := 0, crosshead := 0 }, overload := false } }

def onFrame (m : Mc) (f : SampleFrame) : State :=
  { ready with mc := m, paths := { Paths.empty with inletToMc := [{ frame := f, gap := 1, advance := 1 }] } }

/-- The sample that a conversion makes. -/
def converted (m : Mc) (f : SampleFrame) : Option Sample :=
  (after (exec .conditionedSampleConversion (onFrame m f))).mc.last.map fun x => x.sample

/-- MS in RUNNING, in segment 0 of `g`. -/
def ms0 (g : Segment) : Ms :=
  { Ms.reset with
    state := .running, cursor := some { index := 0, phase := .running }, last := some sample0
    program := some { program0 with segments := [g, g] }
    summary := { CalSummary.empty with frame := some frameTable0, crosshead := true, armA := true, armB := true,
                                       complete := true } }

/-! ## Well-formed operands: each check refuses an ill-formed term -/

theorem test_wf_autoload_header_length : (Instr.autoloadHeaderRead []).wf = false := by decide
theorem test_wf_autoload_image_short : (Instr.autoloadImageRead [1, 2, 3]).wf = false := by decide
theorem test_wf_frame_without_delimiter : (Instr.sampleFrame [1]).wf = false := by decide
theorem test_wf_drive_status_too_long : (Instr.driveStatusFrame (165 :: List.replicate 10 0)).wf = false := by decide
theorem test_wf_console_frame_empty : (Instr.consoleFrameError []).wf = false := by decide
theorem test_wf_frame_table_field : (Instr.loadCalibration 0 (.frame { frameTable0 with vMax := 2147483648 })).wf = false := by
  decide
theorem test_wf_ranges_in_use_byte : (Instr.loadCalibration 0 (.frame { frameTable0 with rangesInUse := 256 })).wf = false := by
  decide
theorem test_wf_gain_field : (Instr.loadCalibration 0 (.crosshead (-2147483649))).wf = false := by decide
theorem test_wf_arm_gain_field : (Instr.loadCalibration 0 (.arm .a 2147483648)).wf = false := by decide
theorem test_wf_range_code_byte : (Instr.loadCalibration 0 (.range 256 range1)).wf = false := by decide
theorem test_wf_range_point_field :
    (Instr.loadCalibration 0 (.range 1 { range1 with points := [(2147483648, 0)] })).wf = false := by decide
theorem test_wf_removed_range_code : (Instr.loadCalibration 0 (.remove (.range 256))).wf = false := by decide

def rawSegment0 : RawSegment :=
  { mode := 0, endKind := 3, endSense := 0, endAction := 0, rate := 5000, endValue := 10, fallback := none, gain := none }

def rawProgram0 : RawProgram :=
  { labelLength := 0, label := List.replicate 16 0, l0 := 50000, lc := 60000, lp := 60000, s0 := 31416, fitted := 1,
    autoTare := 1, autoArm := 0, autoPosition := 1, kStrain := 16384, kForce := 655, criterion := 1, removalStrain := 500,
    removalTimeout := 30, slip := 2000, segments := [rawSegment0] }

theorem test_wf_program_label_length : (Instr.loadProgram 0 (some { rawProgram0 with label := [] })).wf = false := by decide
theorem test_wf_program_timeout_word : (Instr.loadProgram 0 (some { rawProgram0 with removalTimeout := 65536 })).wf = false := by
  decide
theorem test_wf_segment_code_byte :
    (Instr.loadProgram 0 (some { rawProgram0 with segments := [{ rawSegment0 with mode := 256 }] })).wf = false := by decide
theorem test_wf_segment_fallback_field :
    (Instr.loadProgram 0 (some { rawProgram0 with segments := [{ rawSegment0 with fallback := some 2147483648 }] })).wf =
      false := by decide

def params0 : EvalParams :=
  { yieldDrop := 5, yieldMinForce := 80000, yieldWindowEnd := 50000, transient := 2000, fLo := 20000, fHi := 325000,
    offsetStrain := 20000, breakDrop := 500, breakConfirm := 3, breakMinForce := 80000 }

theorem test_wf_parameters_word : (Instr.loadEvaluationParameters 0 (some { params0 with yieldDrop := 32768 })).wf = false := by
  decide
theorem test_wf_parameters_byte : (Instr.loadEvaluationParameters 0 (some { params0 with breakConfirm := 256 })).wf = false := by
  decide
theorem test_wf_jog_rate : (Instr.jog 0 2147483648).wf = false := by decide
theorem test_wf_post_count : (Instr.captureSet 0 1 65536 0).wf = false := by decide
theorem test_wf_drain_count : (Instr.captureDrain 0 65536).wf = false := by decide
theorem test_wf_decimation : (Instr.streamSet 0 1 65536).wf = false := by decide
theorem test_wf_known_kind : (Instr.unknownKind 16 0).wf = false := by decide
theorem test_wf_known_table : (Instr.unknownTable 0 1 0).wf = false := by decide

/-! ## The worked examples of the manual -/

/-- R3: last sequence 65,534, frame 1: gap 3. -/
theorem test_gap_across_wrap :
    (after (exec (.sampleFrame (writeSampleFrame { frame0 with seq := 1 }))
      { ready with inlet := { Inlet.reset with lastSeq := some 65534, rebase := false } })).paths.inletToMc.map GoodFrame.gap =
      [3] := by decide +kernel

/-- Section 1.2, worked example: force. -/
theorem test_force_example_row1 :
    (converted { mc0 with zero := { mc0.zero with tare := 3420 } } { frame0 with load := 501250 }).map
      (fun x => (x.force, x.uncal)) = some (2496955, false) := by decide
theorem test_force_example_row2 :
    (converted { mc0 with zero := { mc0.zero with tare := 3420 } } { frame0 with load := 1701250 }).map
      (fun x => (x.force, x.uncal)) = some (8507643, true) := by decide
theorem test_force_example_row3 :
    (converted { mc0 with zero := { mc0.zero with tare := 3420 } } { frame0 with load := -750 }).map
      (fun x => (x.force, x.uncal)) = some (-13420, true) := by decide
/-- The same example: a range without a table holds F. -/
theorem test_force_example_held :
    (converted { mc0 with zero := { mc0.zero with tare := 3420 }, lastFCal := 8511063 } { frame0 with range := 3 }).map
      (fun x => (x.force, x.held)) = some (8507643, true) := by decide

/-- R14: crosshead count 4,938,268 at scale 16,384. -/
theorem test_position_example :
    (converted mc0 { frame0 with crosshead := 4938268 }).map (fun x => x.position) = some 1234567 := by decide

/-- Section 1.2, worked example: arms and strain. -/
theorem test_arms_example :
    (converted mc0 { frame0 with countA := 202468, countB := 198012 }).map (fun x => (x.dLA, x.dLB, x.strain)) =
      some (101234, 99006, 20024) := by decide

/-- Section 1.3, worked example: demotion to a single arm, under RUNNING. -/
theorem test_demotion_example :
    (converted
      { mc0 with
        tag := .running
        last := some { sample := { sample0 with strain := 20024 },
                       raw := { both := 20024, armA := 20247, armB := 19801, crosshead := 0 }, overload := false } }
      { frame0 with countA := 202600, contactB := false }).map (fun x => (x.strain, x.source, x.sourceChanged)) =
      some (20037, .armA, true) := by decide

/-- Section 1.4, worked example: a tare and a position zero together. -/
theorem test_zero_requests_example :
    (let s := after (exec .conditionedSampleConversion (onFrame
        { mc0 with
          cal := { mc0.cal with range1 := some { zeroOffset := 0, points := [(0, 0), (6210, 6210)] } }
          zero := { mc0.zero with tare := 3420 }
          source := some .crosshead
          pendTare := [12, 14]
          pendZeroPosition := [13]
          last := some { sample := { sample0 with strain := 5 },
                         raw := { both := 0, armA := 0, armB := 0, crosshead := 5 }, overload := false } }
        { frame0 with load := 6210, crosshead := 4938268, contactA := false, contactB := false }))
     (s.mc.zero.tare, s.mc.zero.pZero, s.mc.zero.fZ, s.mc.offset, s.paths.replies.mc.map Reply.tag)) =
      (6210, 1234567, 0, 5, [12, 14, 13]) := by decide

/-- Section 2.1, worked example: count 3 does not rise. -/
theorem test_count_order_example :
    (after (exec .loadRangeTable { ready with paths := { Paths.empty with msToMc :=
      [.load 9 (.range 1 { range1 with points := [(0, 0), (400000, 2000000), (800000, 4001500), (800000, 8010000)] })] } })).paths.replies.mc =
      [refuse .load 9 .badTable .countOrder (.entryIndex 3)] := by decide

/-- Section 2.1, worked example: three fields of a Frame Table clamped. -/
theorem test_frame_table_example :
    (let s := after (exec .loadFrameTable { ready with paths := { Paths.empty with msToMc :=
       [.load 9 (.frame { fMax := 8000000, vMax := 60000, travelMin := 100000, travelMax := 9000000, compliance := -50,
                          rangesInUse := 6, jogForceLimit := 9500000 })] } })
     (s.mc.cal.frame, s.paths.replies.mc)) =
      (some { fMax := 8000000, vMax := 60000, travelMin := 100000, travelMax := 9000000, compliance := 0, rangesInUse := 4,
              jogForceLimit := 8000000 }, [answer .load 9 .done (.clampCount 3)]) := by decide

/-- Section 2.5, worked example: limits for the rebar frame. -/
theorem test_limits_example :
    (after (exec (.inquire 4) { ready with mc := { mc0 with program := some (Program.forMc program0) } })).paths.replies.mc.map
      (fun r => match r.payload with | .capability c => (c.vMax, c.rMax, c.forceRate) | _ => (0, 0, 0)) =
      [(60000, 166666, 1000550)] := by decide

/-- MS on one sample, as a triple: demand, strain target, enable. -/
def onSample (m : Ms) (x : Sample) : State :=
  after (exec .conditionedSampleAtMs { ready with ms := m, paths := { Paths.empty with samplesMs := [x] } })

/-- Section 5.1, worked example: one sample in STRAIN mode. -/
theorem test_strain_mode_example :
    (let s := onSample
        { ms0 { segment0 with mode := .strain, rate := 25000 } with
          demand := 1234567 * 4294967296, eTarget := 20025 * 4294967296, rateInUse := 25000, gainInUse := 16384 }
        { sample0 with strain := 20024 }
     (s.ms.demand, s.ms.eTarget, s.drive.sentDemand)) =
      (1234575 * 4294967296, 20050 * 4294967296, 1234575) := by decide

/-- Section 5.1, worked example: a lost frame in POSITION mode. -/
theorem test_position_mode_lost_frame :
    (let s := onSample { ms0 segment0 with demand := 1234575 * 4294967296, rateInUse := 5000 } { sample0 with gap := 3 }
     (s.ms.demand, s.drive.sentDemand)) = (1234575 * 4294967296 + 10737418239, 1234577) := by decide

/-- Section 5.1, worked example: a force correction under the step bound. -/
theorem test_force_mode_step_bound :
    (onSample
      { ms0 { segment0 with mode := .force, rate := 50000 } with
        demand := 1234567 * 4294967296, fTarget := 2000000 * 4294967296, rateInUse := 50000, gainInUse := 655 }
      { sample0 with force := 1999000 }).ms.demand = 1234577 * 4294967296 := by decide

/-- TE on one sample under RUNNING. -/
def onTeSample (t : Te) (x : Sample) : Te :=
  (after (exec .conditionedSampleAtTe { ready with te := t, paths := { Paths.empty with samplesTe := [x] } })).te

def te0 : Te :=
  { Te.reset with tag := .running, testOpen := true, params := some params0, copy := some { s0 := 50265, label := none, fMax := 4000000 } }

/-- Section 7.3, worked example: the closing sample of a fit of sixteen points. -/
theorem test_fit_example :
    (let t := onTeSample
        { te0 with
          sums := { e := 136000, f := 2736000, ee := 1496000000, ef := 30056000000 }, fitSource := some .armA
          working := { te0.working with fitStatus := .collecting, fitN := 16 } }
        { sample0 with strain := 17000, force := 341000, source := .armA }
     (t.working.fitStatus, t.working.fitK, t.working.fitB, t.proofState)) = (.done, 1310720, 1000, .seeking) := by decide

/-- Section 7.4, worked example: the second sample lies at or below the offset line, and its stress. -/
theorem test_offset_line_example :
    (let t := onTeSample
        { te0 with proofState := .seeking, working := { te0.working with fitStatus := .done, fitK := 1310720, fitB := 1000 } }
        { sample0 with strain := 40000, force := 400800, source := .armA }
     (t.proofState, t.working.rp, t.working.sRp)) =
      (.found, some { force := 400800, strain := 40000, number := 7, source := .armA }, 7974) := by decide
theorem test_offset_line_first_sample :
    (onTeSample
      { te0 with proofState := .seeking, working := { te0.working with fitStatus := .done, fitK := 1310720, fitB := 1000 } }
      { sample0 with strain := 39980, force := 400700, source := .armA }).proofState = .seeking := by decide

/-- Section 7.6, worked example: the third drop sample confirms the break. -/
theorem test_break_example :
    (let t := onTeSample
        { te0 with
          breakState := .watching, run := 2, candidate := some { force := 265000, strain := 1200400, number := 12302 }
          proofState := .found, yieldState := .none
          working := { te0.working with
            fitStatus := .done, fitK := 1310720, fm := some { force := 520000, strain := 900000, number := 11000 } } }
        { sample0 with strain := 1201150, force := 1500, number := 12305 }
     (t.breakConfirmed, t.working.brk.map BreakRecord.elongation)) = (true, some 1187150) := by decide

/-- Section 8.4, worked example: a release after a change under the hold. -/
theorem test_snapshot_example :
    (let s := runs [.snapHold 80, .snapRelease 83] { ready with te := { te0 with count := 4812 } }
     (s.te.count, s.te.hold, s.paths.replies.te)) =
      (4813, .free, [answer .snapHold 80 .done (.snapHold 4812 .free), answer .snapRelease 83 .done (.snapRelease 4813 .held)]) :=
  by decide

/-- Section 9.3: a trigger on an empty ring carries no trigger sample number, and a post count of 0 holds at once. -/
theorem test_capture_post_zero :
    (let s := runs [.captureSet 1 1 0 16, .captureTrigger 2] ready
     (s.cr.state, s.cr.trigger, s.paths.events.cr.length)) = (.held, none, 1) := by decide

/-- Section 9.6, worked example: POST counts a sample and keeps the trigger. -/
theorem test_capture_post_sample :
    (let s := after (exec .conditionedSampleAtCr
        { ready with cr := { Cr.reset with state := .post, remaining := 1000, post := 1000, trigger := some 12305, cause := some .brk }
                     paths := { Paths.empty with samplesCr := [{ sample0 with number := 12306 }] } })
     (s.cr.state, s.cr.remaining, s.cr.trigger, s.cr.ring.map CaptureRecord.number)) = (.post, 999, some 12305, [12306]) := by
  decide

/-- R163: a requested decimation of 5 gives 4. -/
theorem test_decimation_example :
    (after (exec (.streamSet 3 1 5) ready)).cp.decimation = 4 := by decide

/-- R171: over the digits 1 to 9 the register ends at 10,673. -/
theorem test_crc16_digits : crc16 [49, 50, 51, 52, 53, 54, 55, 56, 57] = 10673 := by decide +kernel

/-- Section 11.7, worked example: a frame whose candidate fails and, within it, a candidate with a length of 9,871. -/
theorem test_damaged_frame_example :
    (let bytes := (writeSampleFrame { frame0 with countA := 0x268FA5, crosshead := 1 }).set 20 7
     let s := after (exec (.sampleFrame bytes) ready)
     (s.paths.frontErrors, s.rx.front, s.paths.inletToMc.length)) = (2, .hunt, 0) := by decide +kernel

/-! ## States and operands that meet the hypotheses of each statement, clause by clause -/

def held0 (n : Nat) : CaptureRecord :=
  { number := n, force := 0, strain := 0, position := 0, source := .both, uncal := false, held := false, overrange := false,
    validA := true, validB := true, sourceChanged := false, gap := false }

def tag1 : Tag := 1

/-- With a command at the front of the queue. -/
def sends (c : Instr) (s : State) : State := { s with pending := [c] }

theorem witness_StepRunsFrontCommand : State.reset.pending = [] := rfl

theorem witness_LoadingAnswersNotReady :
    State.reset.cp.store = .loading ∧
      (∃ c k, requestOf c = some (k, tag1) ∧ k ≠ .inquire ∧ k ≠ .status) ∧
      ((0 : Byte).toNat < 16 ∧ (15 : Byte).toNat < 16 ∧ 45 < (46 : Byte).toNat ∧ 45 < (255 : Byte).toNat) ∧
      ((0 : Byte).toNat = 0 ∧ 6 < (7 : Byte).toNat ∧ (3 : Byte).toNat = 3 ∧ 1 < (2 : Byte).toNat ∧ 0 < (1 : Byte).toNat) :=
  ⟨rfl, ⟨.arm tag1, .arm, rfl, by decide, by decide⟩, by decide, by decide⟩

/-- A ring with a record that takes one more, and a queue that is full. -/
theorem witness_StepKeepsLawsOfRingAndQueue :
    (∃ s t : State, s.cr.LawfulRing ∧ s.cr.ring = [held0 3] ∧ step s = .next t) ∧
      (∃ s t : State, s.cp.LawfulQueue ∧ s.cp.queue.length = 64 ∧ step s = .next t) := by
  refine ⟨⟨sends .conditionedSampleAtCr { ready with
      cr := { Cr.reset with state := .filling, ring := [held0 3] }, paths := { Paths.empty with samplesCr := [sample0] } },
      _, ?_, rfl, rfl⟩,
    ⟨sends (.status tag1) { ready with
      cp := { Cp.reset with queue := List.replicate 64 (.event (.autoloadDone 0) none false) } }, _, ?_, ?_, rfl⟩⟩
  · unfold Cr.LawfulRing; decide
  · unfold Cp.LawfulQueue; exact ⟨by decide, by decide, by decide, by decide⟩
  · decide

def point0 (f : Int) : Point := { force := f, strain := 1000, number := 5 }
def spoint0 (f : Int) : SourcePoint := { force := f, strain := 1000, number := 5, source := .both }

/-- TE in an open test with every point of the record set, at the bounds that the law of result order allows. -/
def teFull : Te :=
  { Te.reset with
    tag := .running, testOpen := true, params := some params0, copy := some { s0 := 50265, label := none, fMax := 4000000 }
    yieldState := .done, peak := some (spoint0 900), candidate := some (point0 900), proofState := .found
    working := { Te.reset.working with
      reH := some (spoint0 900), reL := some (point0 900), rp := some (spoint0 900), fm := some (point0 900)
      brk := some { pre := point0 900, elongation := 0, elasticKept := true }, fitStatus := .done } }

theorem witness_StepKeepsLawOfResultOrder :
    ∃ s t : State, s.te.LawfulOrder ∧ s.te.working.reL = s.te.working.fm ∧ step s = .next t := by
  refine ⟨sends .conditionedSampleAtTe { ready with
      te := teFull, paths := { Paths.empty with samplesTe := [{ sample0 with force := 901 }] } }, _, ?_, rfl, rfl⟩
  refine ⟨⟨?_, ?_, ?_, ?_, ?_⟩, ⟨?_, ?_, ?_, ?_, ?_⟩, ?_, ?_, ?_⟩ <;>
    simp [sends, teFull, Te.reset, Results.cleared, point0, spoint0]

/-- A load refused in RUNNING; a load under way in IDLE; and its summary ahead of its outcome. -/
theorem witness_StepKeepsTablesLocked :
    (∃ s t : State, s.TablesLocked ∧ s.ms.state = .running ∧ s.singleStep ∧ step s = .next t) ∧
      (∃ s t : State, s.TablesLocked ∧ s.ms.loadCount = 1 ∧ step s = .next t) ∧
      (∃ s t : State, s.TablesLocked ∧ s.paths.mcToMs.length = 2 ∧ step s = .next t) := by
  refine ⟨⟨sends (.loadCalibration tag1 (.crosshead 5)) { ready with
      mc := mc0, ms := { ms0 segment0 with summary := mc0.cal.summary } }, _, ?_, rfl, ?_, rfl⟩,
    ⟨sends .loadCrossheadTable { ready with
      ms := { Ms.reset with loadCount := 1 }, paths := { Paths.empty with msToMc := [.load tag1 (.crosshead 5)] } }, _, ?_, rfl,
      rfl⟩,
    ⟨sends .calibrationSummary { ready with
      mc := mc0, ms := { Ms.reset with loadCount := 1 }
      paths := { Paths.empty with mcToMs := [.summary mc0.cal.summary, .outcome .done] } }, _, ?_, rfl, rfl⟩⟩
  · unfold State.TablesLocked State.SummaryAhead; decide
  · intro c h; cases h; decide
  · unfold State.TablesLocked State.SummaryAhead; decide
  · unfold State.TablesLocked State.SummaryAhead; decide

/-- R28, R30: a load's outcome cannot be taken before its summary. -/
theorem test_summary_taken_before_count_falls :
    (let s := runs [.loadCalibration 1 (.crosshead 5), .loadCrossheadTable, .loadOutcome .mc] ready
     let t := runs [.calibrationSummary, .loadOutcome .mc] s
     (s.ms.loadCount, t.ms.loadCount, t.ms.summary.crosshead)) = (1, 0, true) := by decide +kernel

theorem witness_PermittedSetGainsNoMemberInTest :
    ∃ s t : State, s.mc.LawfulZeros ∧ step s = .next t ∧ s.mc.tag.state ≠ .idle ∧ (∀ n, s.mc.tag ≠ .arming n) ∧
      s.pending.head? ≠ some .reset ∧ s.pending.head? ≠ some .mcStateTag ∧ s.mc.dropArms = [.a] ∧
      s.mc.permitted.has .armB = true := by
  refine ⟨sends .conditionedSampleConversion (onFrame { mc0 with tag := .running, dropArms := [.a] } frame0), _, ?_, rfl,
    by decide, (fun n h => by cases h), by decide, by decide, rfl, rfl⟩
  refine ⟨by decide, ?_, by decide, by decide⟩
  intro n h; cases h

theorem witness_PublishedRecordChangesOnlyOutsideHold :
    (∃ s t : State, step s = .next t ∧ s.singleStep ∧ s.te.hold = .held ∧ t.te.hold = .held ∧
      t.te.working ≠ s.te.working) ∧
      (∃ s t : State, step s = .next t ∧ s.singleStep ∧ s.te.hold = .held ∧ t.te.hold = .free) := by
  refine ⟨⟨sends .conditionedSampleAtTe { ready with
      te := { teFull with hold := .held, holdTimer := some 1 }, paths := { Paths.empty with samplesTe := [{ sample0 with force := 901 }] } },
      _, rfl, ?_, rfl, rfl, by decide +kernel⟩,
    ⟨sends .holdTimerExpiry { ready with te := { teFull with hold := .held, holdTimer := some 1, count := 4294967295 } },
      _, rfl, ?_, rfl, rfl⟩⟩ <;> · intro c h; cases h; decide

theorem witness_DriveFramesOnlyOnSamplesWithLawfulEnable :
    (∃ s t : State, step s = .next t ∧ s.pending.head? ≠ some .conditionedSampleAtMs) ∧
      (∃ s t : State, step s = .next t ∧ s.pending.head? = some .conditionedSampleAtMs ∧ s.paths.samplesMs = []) ∧
      (∃ s t : State, step s = .next t ∧ s.pending.head? = some .conditionedSampleAtMs ∧ s.paths.samplesMs = sample0 :: [] ∧
        s.ms.state = .running) :=
  ⟨⟨ready, _, rfl, by decide⟩, ⟨sends .conditionedSampleAtMs ready, _, rfl, rfl, rfl⟩,
    ⟨sends .conditionedSampleAtMs { ready with ms := ms0 segment0, paths := { Paths.empty with samplesMs := [sample0] } }, _,
      rfl, rfl, rfl, rfl⟩⟩

/-- A STOP in segment 0: an entry is sent. -/
theorem witness_SegmentsEndInOrder :
    ∃ s t : State, step s = .next t ∧ s.singleStep ∧ s.ms.state = .running ∧
      s.ms.cursor = some { index := 0, phase := .running } ∧ t.paths.msToTe.length = 2 := by
  refine ⟨sends (.stop tag1) { ready with ms := ms0 segment0 }, _, rfl, ?_, rfl, rfl, by decide +kernel⟩
  intro c h; cases h; decide

theorem witness_StepKeepsStatusNoticesCurrent :
    ∃ s t : State, s.NoticesCurrent ∧ s.paths.crNotices ≠ [] ∧ step s = .next t := by
  refine ⟨sends (.captureSet tag1 1 0 16) { State.reset with
      cr := { Cr.reset with state := .filling }, paths := { Paths.empty with crNotices := [.of { Cr.reset with state := .filling }] } },
      _, ?_, by decide, rfl⟩
  unfold State.NoticesCurrent; decide +kernel

theorem witness_StepKeepsBlocksLawful :
    ∃ s t : State, s.BlocksLawful ∧ s.ms.state = .paused ∧ s.te.hold = .held ∧ s.cr.state = .post ∧ s.cr.remaining = 1 ∧
      s.drive.unanswered = 8 ∧ step s = .next t := by
  refine ⟨sends .conditionedSampleAtCr { ready with
      ms := { ms0 segment0 with state := .paused, pauses := { PauseCauses.empty with console := true } }
      te := { teFull with hold := .held, holdTimer := some 1 }
      cr := { Cr.reset with state := .post, remaining := 1, post := 4095 }
      drive := { DrivePort.reset with unanswered := 8 }
      paths := { Paths.empty with samplesCr := [sample0] } }, _, ?_, rfl, rfl, rfl, rfl, rfl, rfl⟩
  refine ⟨?_, ?_, ?_, ?_, ⟨?_, ?_, ?_, ?_⟩, ?_, ?_⟩ <;>
    simp [Te.LawfulHold, Te.LawfulFit, Cp.LawfulPin, Ms.LawfulPause, DrivePort.Lawful, Cr.LawfulPost, sends, teFull, ready,
      ms0, Ms.reset, Mc.reset, Te.reset, Cp.reset, DrivePort.reset, PauseCauses.empty, State.reset, Cr.reset, Cp.attention,
      Results.cleared, Permitted.all]

/-- RUNNING with TE's test open in PLATEAU, and a RUNNING tag under way to TE. -/
theorem witness_StepKeepsTestLawful :
    ∃ s t : State, s.TestLawful ∧ s.ms.state = .running ∧ s.te.testOpen = true ∧ s.te.yieldState = .plateau ∧
      s.es.state = .active ∧ step s = .next t := by
  refine ⟨sends (.stop tag1) { ready with
      ms := ms0 segment0
      te := { teFull with yieldState := .plateau }
      es := { Es.reset with
        state := .active, tag := .running, sourceSeen := some .both
        copy := some { fitted := .both, criterion := .manual, removalStrain := 0, removalTimeout := 5, slip := 1 } }
      paths := { Paths.empty with msToTe := [.tag .running] } }, _, ⟨⟨?_, ?_, ?_, ?_⟩, ?_, ?_, ?_, ?_, ?_⟩, rfl, rfl, rfl, rfl, rfl⟩
  · intro p h; cases h; decide
  · intro h; cases h
  · intro _; exact ⟨rfl, rfl⟩
  · intro _; exact ⟨0, segment0, sample0, rfl, rfl, rfl⟩
  · intro _; exact ⟨rfl, rfl⟩
  · intro _
    refine ⟨rfl, rfl, fun _ => rfl, fun h => ?_, fun _ m hm p hp => ?_⟩
    · cases h
    · cases hm; cases hp; decide
  · exact ⟨true, true, rfl, fun _ => .inr (.inl rfl), fun h => by cases h⟩
  · intro h; cases h
  · intro l m h
    have : l = [] ∨ ∃ a l', l = a :: l' := by cases l <;> simp
    obtain rfl | ⟨a, l', rfl⟩ := this <;> cases h

theorem witness_ConversionFormsElongationPositionStrain :
    ∃ s : State, ∃ g rest, s.paths.inletToMc = g :: rest ∧ s.mc.cal.armA = some 32768 ∧ s.mc.cal.crosshead = some 16384 :=
  ⟨onFrame mc0 frame0, _, _, rfl, rfl, rfl⟩

/-- The number stands at its top. -/
theorem witness_ConversionNumbersTimesAndDeliversSample :
    ∃ s : State, ∃ g rest, s.paths.inletToMc = g :: rest ∧ s.mc.tag.state = .running ∧
      s.mc.last.map (fun l => l.sample.number) = some 4294967295 :=
  ⟨onFrame { mc0 with
      tag := .running
      last := mc0.last.map fun l => { l with sample := { sample0 with number := 4294967295 } } } frame0, _, _, rfl, rfl, rfl⟩

/-- A range held, by its missing table and by the ranges in use; a count on a breakpoint, below the first and on the last; a
range without a Frame Table; and an overload. -/
theorem witness_ConversionFormsForceAndItsEvents :
    (∃ s : State, ∃ g rest, s.paths.inletToMc = g :: rest ∧ s.mc.cal.range g.frame.range.val = none) ∧
      (∃ s : State, ∃ g rest f, s.paths.inletToMc = g :: rest ∧ s.mc.cal.frame = some f ∧ f.rangesInUse ≤ (g.frame.range.val : Int) ∧
        (s.mc.cal.range g.frame.range.val).isSome = true) ∧
      (∀ load i, (load, i) ∈ [((401250 : Int), 1), (1249, 0), (1601250, 2)] → ∃ s : State, ∃ g rest p q,
        s.paths.inletToMc = g :: rest ∧ s.mc.cal.range g.frame.range.val = some range1 ∧
        (∀ f, s.mc.cal.frame = some f → (g.frame.range.val : Int) < f.rangesInUse) ∧
        range1.points.Pairwise (fun a b => a.1 < b.1) ∧ range1.points[i]? = some p ∧ range1.points[i + 1]? = some q ∧
        range1.points.head? = some (0, 0) ∧ range1.points.getLast? = some (1600000, 8010000) ∧
        (let c := g.frame.load - range1.zeroOffset
         (p.1 ≤ c ∧ c < q.1) ∨ (i = 0 ∧ c < p.1) ∨ (i + 2 = range1.points.length ∧ q.1 ≤ c))) ∧
      (∃ s : State, ∃ g rest, s.paths.inletToMc = g :: rest ∧ s.mc.cal.frame = none ∧
        s.mc.cal.range g.frame.range.val = some range1) ∧
      (∃ s : State, ∃ g rest, s.paths.inletToMc = g :: rest ∧ g.frame.overrange = true ∧ s.mc.tag.state = .running) := by
  refine ⟨⟨onFrame mc0 { frame0 with range := 3 }, _, _, rfl, rfl⟩,
    ⟨onFrame { mc0 with cal := { mc0.cal with range2 := some range1 } } { frame0 with range := 2 }, _, _, frameTable0, rfl, rfl,
      by decide, rfl⟩, ?_, ⟨onFrame { mc0 with cal := { mc0.cal with frame := none } } frame0, _, _, rfl, rfl, rfl⟩,
    ⟨onFrame { mc0 with tag := .running } { frame0 with overrange := true }, _, _, rfl, rfl, rfl⟩⟩
  intro load i h
  have hf (load : Int) : ∀ f, (onFrame mc0 { frame0 with load := load }).mc.cal.frame = some f → ((1 : Nat) : Int) < f.rangesInUse := by
    intro f h; cases h; decide
  simp only [List.mem_cons, Prod.mk.injEq, List.not_mem_nil, or_false] at h
  obtain ⟨rfl, rfl⟩ | ⟨rfl, rfl⟩ | ⟨rfl, rfl⟩ := h
  · exact ⟨onFrame mc0 { frame0 with load := 401250 }, _, _, _, _, rfl, rfl, hf _, by decide, rfl, rfl, rfl, rfl, by decide⟩
  · exact ⟨onFrame mc0 { frame0 with load := 1249 }, _, _, _, _, rfl, rfl, hf _, by decide, rfl, rfl, rfl, rfl, by decide⟩
  · exact ⟨onFrame mc0 { frame0 with load := 1601250 }, _, _, _, _, rfl, rfl, hf _, by decide, rfl, rfl, rfl, rfl, by decide⟩

/-- No source yet, the source kept and the source changed; a switch to a lower source in RUNNING. -/
theorem witness_ConversionSelectsSourceWithContinuity :
    (∃ s : State, ∃ g rest, s.paths.inletToMc = g :: rest ∧ s.mc.source.isSome = s.mc.last.isSome ∧ s.mc.source = none) ∧
      (∀ contactB src, (contactB, src) ∈ [(true, Source.both), (false, Source.armA)] → ∃ s : State, ∃ g rest l,
        s.paths.inletToMc = g :: rest ∧ s.mc.source = some .both ∧ s.mc.last = some l ∧
        (converted mc0 g.frame).map (fun x => x.source) = some src) ∧
      (∃ s : State, ∃ g rest, s.paths.inletToMc = g :: rest ∧ s.mc.source = some .both ∧ s.mc.last.isSome = true ∧
        s.mc.tag.state = .running ∧ (converted s.mc g.frame).map (fun x => x.source) = some .armA) := by
  refine ⟨⟨onFrame Mc.reset frame0, _, _, rfl, rfl, rfl⟩, ?_,
    ⟨onFrame { mc0 with tag := .running } { frame0 with contactB := false }, _, _, rfl, rfl, rfl, rfl, by decide +kernel⟩⟩
  intro contactB src h
  simp only [List.mem_cons, Prod.mk.injEq, List.not_mem_nil, or_false] at h
  obtain ⟨rfl, rfl⟩ | ⟨rfl, rfl⟩ := h
  · exact ⟨onFrame mc0 frame0, _, _, _, rfl, rfl, rfl, by decide +kernel⟩
  · exact ⟨onFrame mc0 { frame0 with contactB := false }, _, _, _, rfl, rfl, rfl, by decide +kernel⟩

/-- Requests of each kind, with the source kept and lost; a rezero mark that waits; neither; the arming zeros, with the source kept and
lost. -/
theorem witness_ConversionAppliesPendingZeros :
    (∀ m : Mc, m ∈ [{ mc0 with pendTare := [1], pendZeroExt := [2], pendZeroPosition := [3] }, { mc0 with offsetRezero := true },
        mc0] →
      ∀ f : SampleFrame, f ∈ [frame0, { frame0 with contactB := false }] →
      ∃ s : State, ∃ g rest cur l, s = onFrame m f ∧ s.paths.inletToMc = g :: rest ∧ s.mc.source = some cur ∧ s.mc.last = some l ∧
        s.mc.armingZeros = none ∧ cur = .both ∧
        (converted m f).map (fun x => x.source) = some (if f.contactB then .both else .armA)) ∧
      (∀ f : SampleFrame, f ∈ [frame0, { frame0 with contactB := false }] →
        ∃ s : State, ∃ g rest cur l n, s.paths.inletToMc = g :: rest ∧ s.mc.source = some cur ∧ s.mc.last = some l ∧
          s.mc.armingZeros = some n ∧ s.mc.tag = .arming n ∧ s.mc.pendTare = [] ∧ s.mc.pendZeroExt = [] ∧
          s.mc.pendZeroPosition = [] ∧ s.mc.offsetRezero = false ∧ g.frame = f) ∧
      (∃ s : State, ∃ g rest, s.paths.inletToMc = g :: rest ∧ s.mc.source = none ∧ s.mc.last = none ∧ s.mc.armingZeros = none ∧
        s.mc.pendTare = [1] ∧ s.mc.pendZeroExt = [2] ∧ s.mc.pendZeroPosition = [3]) := by
  refine ⟨?_, ?_, ⟨onFrame { mc0 with source := none, last := none, pendTare := [1], pendZeroExt := [2], pendZeroPosition := [3] }
    frame0, _, _, rfl, rfl, rfl, rfl, rfl, rfl, rfl⟩⟩
  · intro m hm f hf
    simp only [List.mem_cons, List.not_mem_nil, or_false] at hm hf
    obtain rfl | rfl | rfl := hm <;> obtain rfl | rfl := hf <;>
      exact ⟨_, _, _, _, _, rfl, rfl, rfl, rfl, rfl, rfl, by decide +kernel⟩
  · intro f _
    exact ⟨onFrame { mc0 with tag := .arming 4, armingZeros := some 4, program := some (Program.forMc program0) } f, _, _, _, _, _,
      rfl, rfl, rfl, rfl, rfl, rfl, rfl, rfl, rfl, rfl⟩

theorem witness_ZeroRequestsPendAndMcTakesTagsAndNotices_requests :
    ready.cp.store ≠ .loading ∧ ready.mc.tag.state = .idle ∧
      (onFrame { mc0 with tag := .armed } frame0).mc.tag.state = .armed ∧
      (∃ s : State, s.cp.store ≠ .loading ∧ s.mc.tag.state ≠ .idle ∧ s.mc.tag.state ≠ .armed) :=
  ⟨by decide, by decide, by decide, ⟨onFrame { mc0 with tag := .jogging } frame0, by decide, by decide, by decide⟩⟩

theorem witness_ZeroRequestsPendAndMcTakesTagsAndNotices :
    (∀ m : MotionTag, ∃ s : State, ∃ rest, s.paths.msToMc = .tag m :: rest ∧ s.mc.pendTare ≠ []) ∧
      (∃ s : State, ∃ i rest, s.paths.dropArms = i :: rest) ∧ (∃ s : State, ∃ n p rest, s.paths.msToMc = .notice n p :: rest) :=
  ⟨fun m => ⟨{ ready with mc := { mc0 with pendTare := [1] }, paths := { Paths.empty with msToMc := [.tag m] } }, _, rfl, by
      simp⟩,
    ⟨{ ready with paths := { Paths.empty with dropArms := [.b] } }, _, _, rfl⟩,
    ⟨{ ready with paths := { Paths.empty with msToMc := [.notice 1 none] } }, _, _, _, rfl⟩⟩

/-- A first frame, a duplicate, the raw gaps 8 and 9 in a test, and a new period; tags; silence; a frame that fails its
checks with no delimiter in it. -/
theorem witness_InletTakesFramesTagsAndSilence :
    (∀ last : Option Seq, last ∈ [none, some frame0.seq, some (frame0.seq - 8), some (frame0.seq - 9)] →
      ∀ tag : MotionTag, ∃ s : State, ∃ bs f, s.sp.state ≠ .loading ∧ readSampleFrame bs = some f ∧
        s.inlet.lastSeq = last ∧ s.inlet.rebase = false ∧ s.inlet.tag = tag ∧
        s.inlet.period = some .us200 ∧ f.period = .us1000) ∧
      (∃ s : State, ∃ bs f, s.sp.state ≠ .loading ∧ readSampleFrame bs = some f ∧ (s.inlet.rebase = true ∨ s.inlet.lastSeq ≠ some f.seq)) ∧
      (∀ m : MotionTag, ∃ s : State, ∃ rest, s.paths.msToInlet = m :: rest) ∧
      (∃ (s : State) (n : Nat), s.inlet.silence = some n) ∧ (∃ s : State, s.inlet.silence = none) ∧
      State.reset.sp.state = .loading ∧
      (∃ (s : State) (bs : List Byte), s.sp.state ≠ .loading ∧ readSampleFrame bs = none ∧ bs.head? = some 165 ∧
        ∀ b ∈ bs.drop 1, b ≠ 165) := by
  have hr : readSampleFrame (writeSampleFrame frame0) = some frame0 := by decide +kernel
  refine ⟨?_, ?_, ?_, ?_, ⟨ready, rfl⟩, rfl, ?_⟩
  · intro last _ tag
    exact ⟨{ ready with inlet := { lastSeq := last, period := some .us200, rebase := false, silence := none, tag := tag } },
      writeSampleFrame frame0, frame0, (fun h => by cases h), hr, rfl, rfl, rfl, rfl, rfl⟩
  · exact ⟨ready, _, _, by decide, hr, .inl rfl⟩
  · exact fun m => ⟨{ ready with paths := { Paths.empty with msToInlet := [m] } }, _, rfl⟩
  · exact ⟨{ ready with inlet := { Inlet.reset with silence := some 32000 } }, _, rfl⟩
  · exact ⟨ready, 165 :: List.replicate 23 0, by decide, by decide +kernel, rfl, by decide⟩

/-- Every boundary: travel bounds equal, gains of 0, range codes 3 and 4, 1, 2, 16 and 17 breakpoints, breakpoints that do not rise
at their first and at their last pair. -/
theorem witness_CalibrationTablesCheckedAndClamped :
    (∀ l : CalLoad, ∃ s : State, ∃ tag rest, s.mc.storeInFlight = false ∧ s.paths.msToMc = .load tag l :: rest) ∧
      (frameTable0.travelMin < frameTable0.travelMax) ∧ (∃ t : FrameTable, t.travelMax ≤ t.travelMin) ∧
      ([(0, 0)] : List (Int × Int)).length < 2 ∧ 16 < (List.replicate 17 ((0, 0) : Int × Int)).length ∧
      (range1.points.map (·.1)).Pairwise (· < ·) ∧ (range1.points.map (·.2)).Pairwise (· < ·) ∧
      FirstNotRising [5, 5] 0 ∧ FirstNotRising [1, 2, 2] 1 := by
  refine ⟨fun l => ⟨{ ready with paths := { Paths.empty with msToMc := [.load 9 l] } }, _, _, rfl, rfl⟩, by decide,
    ⟨{ frameTable0 with travelMax := frameTable0.travelMin }, by decide⟩, by decide, by decide, by decide, by decide, ?_, ?_⟩
  · exact ⟨⟨5, 5, rfl, rfl, by decide⟩, fun j h => absurd h (Nat.not_lt_zero j)⟩
  · refine ⟨⟨2, 2, rfl, rfl, by decide⟩, fun j h a b ha hb => ?_⟩
    obtain rfl : j = 0 := by omega
    cases ha; cases hb; decide

theorem witness_McAnswersRemovalsReadbackAndInquire :
    (∀ r : TableRef, r ∈ [.frame, .crosshead, .arm .a, .arm .b, .range 0, .range 3] → ∃ s : State, ∃ tag rest,
      s.mc.storeInFlight = false ∧ s.paths.msToMc = .load tag (.remove r) :: rest ∧ (∀ code, r = .range code → code ≤ 3)) ∧
      (∃ s : State, ∃ tag rest, s.mc.storeInFlight = false ∧ s.paths.msToMc = .load tag (.remove (.range 4)) :: rest) ∧
      (∀ l : CalLoad, ∃ s : State, ∃ tag rest, s.mc.storeInFlight = true ∧ s.paths.msToMc = .load tag l :: rest) ∧
      (∃ f, mc0.cal.frame = some f ∧ (1 : Int) < f.rangesInUse) ∧ ready.cp.store ≠ .loading ∧
      (mc0.cal.range 1 = some range1 ∧ mc0.cal.range 3 = none) ∧
      ((4 : Byte).toNat = 4 ∧ 3 < (4 : Byte).toNat ∧ 1 < (2 : Byte).toNat ∧ 6 < (7 : Byte).toNat) := by
  refine ⟨?_, ⟨{ ready with paths := { Paths.empty with msToMc := [.load 9 (.remove (.range 4))] } }, _, _, rfl, rfl⟩, ?_,
    ⟨frameTable0, rfl, by decide⟩, by decide, ⟨rfl, rfl⟩, by decide⟩
  · intro r hr
    refine ⟨{ ready with paths := { Paths.empty with msToMc := [.load 9 (.remove r)] } }, _, _, rfl, rfl, ?_⟩
    intro code h; subst h
    simp at hr; omega
  · exact fun l => ⟨{ ready with mc := { mc0 with storeInFlight := true }, paths := { Paths.empty with msToMc := [.load 9 l] } }, _,
      _, rfl, rfl⟩

theorem witness_StoredImageLoadsBack :
    ∃ (c : CalSet) (i : Identity),
      (∀ t, c.frame = some t → t.wf = true ∧ checkFrameTable t = .ok (t, 0)) ∧
      (∀ g, c.crosshead = some g → fits32 g = true ∧ g ≠ 0) ∧
      (∀ g, c.armA = some g → fits32 g = true ∧ g ≠ 0) ∧ (∀ g, c.armB = some g → fits32 g = true ∧ g ≠ 0) ∧
      (∀ code t, c.range code = some t → t.wf = true ∧ checkRangeTable code t = .ok (t, 0)) ∧
      i.serial < 4294967296 ∧ i.capacity < 256 ∧ (i.present = false → i = .zero) ∧ c.frame.isSome = true ∧
      c.range 1 = some range1 := by
  refine ⟨{ mc0.cal with range1 := some range1 }, { present := true, serial := 4294967295, capacity := 255 },
    ?_, ?_, ?_, ?_, ?_, by decide, by decide, by decide, rfl, rfl⟩
  · intro t h; cases h; decide
  · intro t h; cases h; decide
  · intro t h; cases h; decide
  · intro t h; cases h; decide
  · intro code t h
    match code with
    | 0 => cases h
    | 1 => cases h; decide
    | 2 => cases h
    | 3 => cases h
    | n + 4 => cases h

theorem witness_StoreRunsToItsOutcome :
    (∀ b : Bool, ∃ s : State, ∃ tag rest, s.paths.msToMc = .store tag :: rest ∧ s.mc.storeInFlight = b) ∧
      (∀ x : StoreState, x = .writing ∨ x = .verifying → ∃ (s : State) (tag : Tag) (n : Nat), s.sp.tag = some tag ∧
        s.sp.state = x ∧ s.sp.timer = some n) ∧
      (∃ s : State, s.paths.storeDone = 1) :=
  ⟨fun b => ⟨{ ready with mc := { mc0 with storeInFlight := b }, paths := { Paths.empty with msToMc := [.store 5] } }, _, _, rfl,
      rfl⟩,
    fun x _ => ⟨{ ready with sp := { state := x, timer := some 50000, image := [1], tag := some 5 } }, _, _, rfl, rfl, rfl⟩,
    ⟨{ ready with paths := { Paths.empty with storeDone := 1 } }, rfl⟩⟩
/-- An image of section 11.6 with one record, the Crosshead Table of R14's example. -/
def image0 : List Byte :=
  [178, 41, 1, 21, 0, 1, 255, 255, 255, 255, 255, 2, 0, 0, 64, 0, 0, 216, 153, 186, 175]

theorem witness_AutoloadEndsInItsOutcomes :
    State.reset.sp.state = .loading ∧ State.reset.sp.image = [] ∧ (List.replicate 11 (0 : Byte)).length = 11 ∧
      State.reset.sp.timer = some 50000 ∧
      (∀ rest : List Byte, rest ∈ [image0.drop 11, List.replicate 10 0] → ∃ s : State,
        s.sp.state = .loading ∧ s.sp.image ≠ [] ∧ rest.length + 11 = u16 s.sp.image 3 ∧ s.sp.image ++ image0.drop 11 = image0) ∧
      (crc32 (image0.take 17)).toNat = u32 image0 17 ∧
      (crc32 (image0.take 11 ++ List.replicate 6 0)).toNat ≠ u32 (image0.take 11 ++ List.replicate 10 0) 17 := by
  refine ⟨rfl, rfl, by decide, rfl, ?_, by decide +kernel, by decide +kernel⟩
  intro rest hr
  refine ⟨{ State.reset with sp := { Sp.reset with image := image0.take 11 } }, rfl, by decide +kernel, ?_, by decide +kernel⟩
  simp only [List.mem_cons, List.not_mem_nil, or_false] at hr
  obtain rfl | rfl := hr <;> decide +kernel

/-- An image of section 11.6 without an identity, with given bytes of records. -/
def imageOf (records : List Byte) : List Byte :=
  let body := [178, 41, 1] ++ littleEndian 2 (15 + records.length) ++ List.replicate 6 0 ++ records
  body ++ littleEndian 4 (crc32 body).toNat

/-- The record of the image above. -/
def record0 : TableRecord := { kind := 2, index := 0, body := [0, 64, 0, 0] }

/-- Behind a good record: nothing, a byte, the kinds next to 1 … 4, an Arm index of 2, a body one byte short, the same table again, a
gain of 0. -/
theorem witness_AutoloadEndsInItsOutcomes_records :
    (record0.good ∧ ([record0].map TableRecord.table).Nodup) ∧
      (∀ left : List Byte, left ∈ [[], [9], [0, 0], [5, 0], [3, 2], [3, 0, 1, 0, 0], record0.bytes, [3, 0, 0, 0, 0, 0]] →
        ∃ s : State, ∃ rest, s.sp.state = .loading ∧ s.sp.image ≠ [] ∧ rest.length + 11 = u16 s.sp.image 3 ∧
          (let image := s.sp.image ++ rest
           let checked := image.take (image.length - 4)
           (crc32 checked).toNat = u32 image (image.length - 4) ∧ checked.drop 11 = [record0].flatMap TableRecord.bytes ++ left)) ∧
      (4 < (5 : Byte).toNat ∧ (3 : Byte).toNat = 3 ∧ 1 < (2 : Byte).toNat ∧ [(1 : Byte), 0, 0].length < recordLength 3 [1, 0, 0] ∧
        record0.fits ∧ record0.table ∈ [record0].map TableRecord.table) ∧
      (∃ r : TableRecord, r.bytes = [3, 0, 0, 0, 0, 0] ∧ r.fits ∧ r.table.isSome = true ∧ ¬ r.good) := by
  refine ⟨⟨⟨rfl, _, rfl, ?_⟩, by decide⟩, ?_, ⟨by decide, by decide, by decide, by decide, rfl, by decide⟩,
    ⟨{ kind := 3, index := 0, body := [0, 0, 0, 0] }, rfl, rfl, rfl, ?_⟩⟩
  · show (i32 _ _ : Int) ≠ 0; decide +kernel
  · intro left h
    refine ⟨{ State.reset with sp := { Sp.reset with image := (imageOf (record0.bytes ++ left)).take 11 } },
      (imageOf (record0.bytes ++ left)).drop 11, rfl, ?_⟩
    simp only [List.mem_cons, List.not_mem_nil, or_false] at h
    obtain rfl | rfl | rfl | rfl | rfl | rfl | rfl | rfl := h <;> decide +kernel
  · rintro ⟨_, t, h1, h2⟩
    obtain rfl : TableRef.arm .a = t := by injection h1
    exact h2 (by decide +kernel)

/-- The image above loads: one table, the identity, READY. -/
theorem test_autoload_image :
    (let s := runs [.autoloadHeaderRead (image0.take 11), .autoloadImageRead (image0.drop 11)] State.reset
     (s.mc.cal, s.mc.identity, s.sp.state, s.paths.events.sp)) =
      ({ CalSet.empty with crosshead := some 16384 }, { present := true, serial := 4294967295, capacity := 255 }, .ready,
        [.autoloadDone 1]) := by decide +kernel

/-- MS in a state, with the load count. -/
def msIn (x : MotionState) (loads : Nat) : State := { ready with ms := { Ms.reset with state := x, loadCount := loads } }

theorem witness_LoadsPassTableLock :
    (∀ x : MotionState, ∃ s : State, s.cp.store ≠ .loading ∧ s.ms.state = x) ∧
      (∃ s : State, s.cp.store ≠ .loading ∧ s.ms.state = .idle ∧ s.ms.loadCount = 1) ∧
      (∃ s : State, ∃ o rest, s.paths.mcToMs = .outcome o :: rest) ∧ (∃ s : State, ∃ o rest, s.paths.teOutcomes = o :: rest) ∧
      (∃ s : State, ∃ c rest, s.paths.mcToMs = .summary c :: rest) :=
  ⟨fun x => ⟨msIn x 0, (fun h => by cases h), rfl⟩, ⟨msIn .idle 1, by decide, rfl, rfl⟩,
    ⟨{ ready with paths := { Paths.empty with mcToMs := [.outcome .done] } }, _, _, rfl⟩,
    ⟨{ ready with paths := { Paths.empty with teOutcomes := [.badTable] } }, _, _, rfl⟩,
    ⟨{ ready with paths := { Paths.empty with mcToMs := [.summary .empty] } }, _, _, rfl⟩⟩

theorem witness_ProgramInstalledRemovedAndReadBack :
    (∀ x : MotionState, ∃ s : State, s.cp.store ≠ .loading ∧ s.ms.state = x) ∧
      (∃ r p n, checkProgram r = .ok (p, n)) ∧ (∃ r f, checkProgram r = .error f) ∧
      (∃ s : State, s.cp.store ≠ .loading ∧ s.ms.program = none) ∧
      (∃ s : State, ∃ p, s.cp.store ≠ .loading ∧ s.ms.program = some p) ∧
      (31 : Byte).toNat < 32 ∧ (32 : Byte).toNat = 32 ∧ 32 < (33 : Byte).toNat :=
  ⟨fun x => ⟨msIn x 0, (fun h => by cases h), rfl⟩, ⟨rawProgram0, _, _, rfl⟩, ⟨{ rawProgram0 with segments := [] }, _, rfl⟩,
    ⟨ready, by decide, rfl⟩, ⟨{ ready with ms := ms0 segment0 }, _, by decide, rfl⟩, by decide, by decide, by decide⟩

/-- Each structural fault of the header at its boundary; each fault of a segment, alone and behind faultless ones; and a
program without a fault at both bounds of the segment count. -/
theorem witness_ProgramCheckedAndClamped :
    (∀ r : RawProgram, r ∈ [{ rawProgram0 with fitted := 4 }, { rawProgram0 with criterion := 5 }] →
        r.labelLength ≤ 16 ∧ ¬ (r.fitted ≤ 3 ∧ r.criterion ≤ 4)) ∧
      (16 < { rawProgram0 with labelLength := 17 }.labelLength ∧
        ({ rawProgram0 with fitted := 0 }.criterion ≠ 0 ∧ { rawProgram0 with fitted := 0 }.fitted = 0)) ∧
      (∀ l : List RawSegment, l ∈ [[], List.replicate 33 rawSegment0] → ¬ (1 ≤ l.length ∧ l.length ≤ 32)) ∧
      (∀ x : RawSegment × Reason, x ∈ [({ rawSegment0 with mode := 4 }, .unknownCode), ({ rawSegment0 with endKind := 8 }, .unknownCode),
          ({ rawSegment0 with mode := 3, endKind := 5 }, .endKindNotAllowed),
          ({ rawSegment0 with endKind := 4 }, .extReleasedWithoutRemoval),
          ({ rawSegment0 with fallback := some 1 }, .fallbackNotAllowed), ({ rawSegment0 with gain := some 1 }, .gainNotAllowed)] →
        segmentFault 0 x.1 = some x.2) ∧
      (∀ n, n = 1 ∨ n = 32 → ∃ r : RawProgram, r.segments.length = n ∧ r.labelLength ≤ 16 ∧ r.fitted ≤ 3 ∧ r.criterion ≤ 4 ∧
        ¬ (r.criterion ≠ 0 ∧ r.fitted = 0) ∧ ∀ raw ∈ r.segments, segmentFault r.criterion raw = none) := by
  refine ⟨by decide, by decide, by decide, by decide, fun n _ =>
    ⟨{ rawProgram0 with segments := List.replicate n rawSegment0 }, by simp, (by decide : 0 ≤ 16), (by decide : 1 ≤ 3),
      (by decide : 1 ≤ 4), (by decide : ¬ (1 ≠ 0 ∧ 1 = 0)), fun raw h => ?_⟩⟩
  obtain rfl := List.eq_of_mem_replicate h
  rfl

/-- R43, R44, R45: L0, a rate of 0 and a segment time of 0 are each counted once, a removal strain without AT_STRAIN is not, and
the fault of the second segment is named by its index. -/
theorem test_program_clamps_and_fault :
    (checkProgram { rawProgram0 with
        criterion := 2, l0 := 0, removalStrain := 0, segments := [{ rawSegment0 with rate := 0, endValue := 0 }] }).map (·.2) =
      .ok 3 ∧
    checkProgram { rawProgram0 with segments := [rawSegment0, { rawSegment0 with gain := some 1 }] } = .error ⟨.gainNotAllowed, 1⟩ := by
  decide +kernel

def status0 : DriveStatus := { echo := 5, ready := true, fault := false, endSwitch := false, code := 0 }

def summary0 : CalSummary := { CalSummary.empty with frame := some frameTable0, crosshead := true, armA := true, armB := true,
                                                     complete := true }

/-- MS in IDLE with a program, a summary, a drive status and a last sample at a position. -/
def idleWith (p : Option Program) (c : CalSummary) (d : Option DriveStatus) (position : Option Int) (e : ExtTag) : State :=
  { ready with
    ms := { Ms.reset with
      program := p, summary := c, extTag := e, last := position.map fun v => { sample0 with position := v } }
    drive := { DrivePort.reset with status := d } }

def seated0 : ExtTag := { name := .seated, generation := 0 }

/-- Each check of R51 as the first that fails, with the position one unit outside travel, and the acceptance at both travel
bounds, with and without an extensometer. -/
theorem witness_ArmRefusedOrAccepted :
    ready.cp.store ≠ .loading ∧ (∃ s : State, s.ms.state = .arming) ∧
      (∃ s : State, s.ms.state ≠ .idle ∧ s.ms.state ≠ .arming) ∧
      (∃ s : State, s.ms.state = .idle ∧ s.ms.loadCount = 0 ∧ s.ms.program = none) ∧
      (∀ c : CalSummary, c ∈ [{ summary0 with frame := none }, { summary0 with crosshead := false },
          { summary0 with complete := false }] → ∃ s : State, ∃ p, s.ms.state = .idle ∧ s.ms.loadCount = 0 ∧
        s.ms.program = some p ∧ s.ms.summary = c ∧
        (s.ms.summary.frame = none ∨ s.ms.summary.crosshead = false ∨ s.ms.summary.complete = false)) ∧
      (∃ s : State, ∃ p f, s.ms.state = .idle ∧ s.ms.loadCount = 0 ∧ s.ms.program = some p ∧ s.ms.summary.frame = some f ∧
        s.ms.summary.crosshead = true ∧ s.ms.summary.complete = true ∧ p.fitted = .both ∧ s.ms.summary.armB = false) ∧
      (∃ p : Program, ∃ g, p.fitted = .none ∧ p.segments[1]? = some g ∧ g.mode = .strain ∧ g.fallback = none ∧
        ∀ j, j < 1 → ¬ ∃ g, p.segments[j]? = some g ∧ g.mode = .strain ∧ g.fallback = none) ∧
      (∀ (d : DriveStatus) (v : Int) (e : ExtTag) (p : Program), p = program0 ∨ p = { program0 with fitted := .none } →
        ∃ (s : State) (f : FrameTable) (x : Sample), s.cp.store ≠ .loading ∧ s.ms.state = .idle ∧ s.ms.loadCount = 0 ∧
          s.ms.program = some p ∧ s.ms.summary.frame = some f ∧ s.ms.summary.crosshead = true ∧
          s.ms.summary.complete = true ∧ s.ms.summary.armA = true ∧ s.ms.summary.armB = true ∧
          (p.fitted = .none → ∀ g ∈ p.segments, g.mode = .strain → g.fallback ≠ none) ∧
          s.drive.status = some d ∧ s.ms.last = some x ∧ x.position = v ∧ f.travelMin = 100000 ∧ f.travelMax = 9000000 ∧
          s.ms.extTag = e ∧ s.ms.generation = 0) ∧
      (∃ s : State, ∃ p f, s.ms.program = some p ∧ s.ms.summary.frame = some f ∧ s.drive.status = none) ∧
      (∃ s : State, s.drive.status = some status0 ∧ s.ms.last = none) := by
  refine ⟨by decide, ⟨msIn .arming 0, rfl⟩, ⟨msIn .armed 0, by decide, by decide⟩, ⟨ready, rfl, rfl, rfl⟩, ?_,
    ⟨idleWith (some program0) { summary0 with armB := false } none none seated0, _, _, rfl, rfl, rfl, rfl, rfl, rfl, rfl, rfl⟩,
    ?_, ?_, ⟨idleWith (some program0) summary0 none none seated0, _, _, rfl, rfl, rfl⟩,
    ⟨idleWith (some program0) summary0 (some status0) none seated0, rfl, rfl⟩⟩
  · intro c hc
    refine ⟨idleWith (some program0) c none none seated0, _, rfl, rfl, rfl, rfl, ?_⟩
    simp only [List.mem_cons, List.not_mem_nil, or_false] at hc
    obtain rfl | rfl | rfl := hc <;> decide
  · refine ⟨{ program0 with fitted := .none, segments := [segment0, { segment0 with mode := .strain }] }, _, rfl, rfl, rfl, rfl,
      fun j h ⟨g, h1, h2, _⟩ => ?_⟩
    obtain rfl : j = 0 := by omega
    cases h1; cases h2
  · intro d v e p hp
    refine ⟨idleWith (some p) summary0 (some d) (some v) e, _, _, fun h => (by cases h), rfl, rfl, rfl, rfl, rfl, rfl, rfl, rfl, ?_, rfl,
      rfl, rfl, rfl, rfl, rfl, rfl⟩
    intro _ g hg h
    obtain rfl | rfl := hp <;>
    · simp [program0] at hg; subst hg; cases h

def copy0 : EsArmCopy := { fitted := .both, criterion := .atStrain, removalStrain := 500, removalTimeout := 30, slip := 2000 }

/-- The fit window with its bounds equal, and one apart. -/
theorem witness_EvaluationParametersAndArmCopiesTaken :
    (∀ p : EvalParams, p ∈ [{ params0 with fLo := 7, fHi := 8 }, { params0 with fLo := 7, fHi := 7 }] → ∃ s : State, ∃ tag rest,
      s.paths.msToTe = .params tag (some p) :: rest) ∧
      clampTo 0 2147483647 7 < clampTo 0 2147483647 8 ∧ clampTo 0 2147483647 7 ≤ clampTo 0 2147483647 7 ∧
      (∃ s : State, ∃ tag rest, s.paths.msToTe = .params tag none :: rest) ∧ ready.cp.store ≠ .loading ∧
      (∃ s : State, ∃ c rest, s.paths.msToTe = .armCopy c :: rest) ∧
      (∃ s : State, ∃ c rest, s.paths.msToEs = .armCopy c :: rest) :=
  ⟨fun p _ => ⟨{ ready with paths := { Paths.empty with msToTe := [.params 3 (some p)] } }, _, _, rfl⟩, by decide, by decide,
    ⟨{ ready with paths := { Paths.empty with msToTe := [.params 3 none] } }, _, _, rfl⟩, by decide,
    ⟨{ ready with paths := { Paths.empty with msToTe := [.armCopy { s0 := 1, label := none, fMax := 99 }] } }, _, _, rfl⟩,
    ⟨{ ready with paths := { Paths.empty with msToEs := [.armCopy copy0] } }, _, _, rfl⟩⟩

/-- MS in a state of a test, in segment 0 with a last sample. -/
def testIn (x : MotionState) (g : Segment) (c : PauseCauses) : State := { ready with ms := { ms0 g with state := x, pauses := c } }

theorem witness_StartBeginsFirstSegment :
    (∃ s : State, ∃ p g x, s.cp.store ≠ .loading ∧ s.ms.state = .armed ∧ s.ms.program = some p ∧ p.segments[0]? = some g ∧
      s.ms.last = some x) ∧
      (∃ s : State, s.cp.store ≠ .loading ∧ s.ms.state = .arming) ∧
      (∃ s : State, s.cp.store ≠ .loading ∧ s.ms.state ≠ .armed ∧ s.ms.state ≠ .arming) :=
  ⟨⟨testIn .armed segment0 .empty, _, _, _, by decide, rfl, rfl, rfl, rfl⟩, ⟨msIn .arming 0, by decide, rfl⟩,
    ⟨msIn .idle 0, by decide, by decide, by decide⟩⟩

theorem witness_inSegment (x : MotionState) (g : Segment) (c : PauseCauses) :
    (testIn x g c).ms.inSegment 0 g sample0 ∧ (testIn x g c).ms.state = x ∧ (testIn x g c).ms.pauses = c ∧
      (testIn x g c).cp.store ≠ .loading :=
  ⟨by unfold Ms.inSegment; exact ⟨rfl, rfl, rfl⟩, rfl, rfl, fun h => by cases h⟩

theorem witness_StopAbortAndResetTest :
    (∀ x, x = .running ∨ x = .paused → ∃ s : State, ∃ i g x', s.cp.store ≠ .loading ∧ s.ms.state = x ∧ s.ms.inSegment i g x') ∧
      (∀ x : MotionState, ∃ s : State, s.cp.store ≠ .loading ∧ s.ms.state = x) :=
  ⟨fun x _ => ⟨testIn x segment0 .empty, 0, segment0, sample0, (witness_inSegment _ _ _).2.2.2, rfl, (witness_inSegment _ _ _).1⟩,
    fun x => ⟨msIn x 0, (fun h => by cases h), rfl⟩⟩

theorem witness_PauseCausesAddedAndRemoved :
    (∀ x : MotionState, ∃ s : State, s.cp.store ≠ .loading ∧ s.ms.state = x) ∧
      (∃ s : State, s.ms.state = .paused ∧ s.ms.pauses.extRemoval = true) ∧
      (∃ s : State, ∃ i g x, s.ms.state = .paused ∧ s.ms.pauses.extRemoval = false ∧ s.ms.inSegment i g x) ∧
      (∀ x : MotionState, ∃ s : State, s.paths.holds = 0 + 1 ∧ s.ms.state = x) :=
  ⟨fun x => ⟨msIn x 0, (fun h => by cases h), rfl⟩,
    ⟨testIn .paused segment0 { console := true, extRemoval := true, extFailed := true }, rfl, rfl⟩,
    ⟨testIn .paused segment0 { console := true, extRemoval := false, extFailed := true }, 0, segment0, sample0, rfl, rfl,
      (witness_inSegment _ _ _).1⟩,
    fun x => ⟨{ msIn x 0 with paths := { Paths.empty with holds := 1 } }, rfl, rfl⟩⟩

theorem witness_RemovalCompleteAndCriterionEvents :
    (∀ (x : MotionState) (k : EndKind) (c : PauseCauses), ∃ s : State, ∃ i g x' rest, s.paths.removals = .complete :: rest ∧
      s.ms.state = x ∧ s.ms.pauses = c ∧ g.endKind = k ∧ s.ms.inSegment i g x') ∧
      (∀ (x : MotionState) (k : EndKind) (e : TeEvent), e = .yieldDone 7 0 ∨ e = .proof 7 0 → ∃ s : State, ∃ i g x' rest,
        s.paths.teToMs = e :: rest ∧ s.ms.state = x ∧ g.endKind = k ∧ s.ms.inSegment i g x') :=
  ⟨fun x k c => ⟨{ testIn x { segment0 with endKind := k } c with paths := { Paths.empty with removals := [.complete] } }, 0,
      { segment0 with endKind := k }, sample0, _, rfl, rfl, rfl, rfl, (witness_inSegment _ _ _).1⟩,
    fun x k e _ => ⟨{ testIn x { segment0 with endKind := k } .empty with paths := { Paths.empty with teToMs := [e] } }, 0,
      { segment0 with endKind := k }, sample0, _, rfl, rfl, rfl, (witness_inSegment _ _ _).1⟩⟩

theorem witness_TimeoutBreakAndFaultsEndTheTest :
    (∀ x : MotionState, ∃ s : State, ∃ i g x' rest, s.paths.removals = .timeout :: rest ∧ s.ms.state = x ∧
      s.ms.inSegment i g x') ∧
      (∀ x : MotionState, ∃ s : State, ∃ i g x' n rest, s.paths.teToMs = .brk n :: rest ∧ s.ms.state = x ∧
        s.ms.inSegment i g x') ∧
      (∀ (x : MotionState) (b : FaultSource), ∃ s : State, ∃ k rest, s.paths.faultsOf b = k :: rest ∧ s.ms.state = x) ∧
      (∃ s : State, ∃ tag rest, s.paths.extTags = tag :: rest) :=
  ⟨fun x => ⟨{ testIn x segment0 .empty with paths := { Paths.empty with removals := [.timeout] } }, 0, segment0, sample0, _, rfl,
      rfl, (witness_inSegment _ _ _).1⟩,
    fun x => ⟨{ testIn x segment0 .empty with paths := { Paths.empty with teToMs := [.brk 7] } }, 0, segment0, sample0, _, _, rfl,
      rfl, (witness_inSegment _ _ _).1⟩,
    fun x b => by
      cases b
      · exact ⟨{ msIn x 0 with paths := { Paths.empty with inletFaults := [.inletGap] } }, _, _, rfl, rfl⟩
      · exact ⟨{ msIn x 0 with paths := { Paths.empty with mcFaults := [.overload] } }, _, _, rfl, rfl⟩
      · exact ⟨{ msIn x 0 with paths := { Paths.empty with driveFaults := [.endSwitch] } }, _, _, rfl, rfl⟩,
    ⟨{ ready with paths := { Paths.empty with extTags := [seated0] } }, _, _, rfl⟩⟩

theorem witness_JogStartsChangesAndStops :
    (∀ x : MotionState, ∃ s : State, s.cp.store ≠ .loading ∧ s.ms.state = x ∧ s.ms.loadCount = 0 ∧ s.ms.summary.frame = none) ∧
      (∃ s : State, s.ms.state = .idle ∧ s.ms.summary.frame = some frameTable0 ∧ s.ms.summary.crosshead = false) ∧
      (∀ (d : Option DriveStatus) (v : Option Int), ∃ s : State, ∃ f, s.cp.store ≠ .loading ∧ s.ms.state = .idle ∧
        s.ms.loadCount = 0 ∧ s.ms.summary.frame = some f ∧ s.ms.summary.crosshead = true ∧ s.drive.status = d ∧
        s.ms.last.map (fun x => x.position) = v ∧ f.travelMin = 100000 ∧ f.travelMax = 9000000) :=
  ⟨fun x => ⟨msIn x 0, (fun h => by cases h), rfl, rfl, rfl⟩,
    ⟨idleWith none { summary0 with crosshead := false } none none seated0, rfl, rfl, rfl⟩,
    fun d v => ⟨idleWith none summary0 d v seated0, _, (fun h => by cases h), rfl, rfl, rfl, rfl, rfl, by cases v <;> rfl, rfl, rfl⟩⟩

/-- A position at each travel bound and one unit outside it. -/
theorem witness_SamplesOutsideRunningKeepOrSetDemand :
    (∀ x : MotionState, x ≠ .running → x ≠ .jogging → ∃ s : State, ∃ y rest, s.paths.samplesMs = y :: rest ∧ s.ms.state = x ∧
      y.armingMark ≠ some s.ms.armingCount) ∧
      (∀ v : Int, v ∈ [99999, 100000, 9000000, 9000001] → ∃ s : State, ∃ x rest tag p f, s.paths.samplesMs = x :: rest ∧
        s.ms.state = .arming ∧ x.armingMark = some s.ms.armingCount ∧ s.ms.armReply = some tag ∧ s.ms.program = some p ∧
        s.ms.summary.frame = some f ∧ x.position = v ∧ f.travelMin = 100000 ∧ f.travelMax = 9000000) :=
  ⟨fun x _ _ => ⟨{ msIn x 0 with paths := { Paths.empty with samplesMs := [sample0] } }, _, _, rfl, rfl, fun h => by cases h⟩,
    fun v _ => ⟨{ ready with
      ms := { ms0 segment0 with state := .arming, armingCount := 2, armReply := some 9 }
      paths := { Paths.empty with samplesMs := [{ sample0 with position := v, armingMark := some 2 }] } }, _, _, _, _, _, rfl, rfl, rfl,
      rfl, rfl, rfl, rfl, rfl, rfl⟩⟩

/-- A criterion not met, met with no next segment, and met with one. -/
theorem witness_RunningSamplePassesTheStages :
    ∀ g : Segment, g ∈ [segment0, { segment0 with endKind := .strainReached, action := .finish },
        { segment0 with endKind := .strainReached }, { segment0 with mode := .strain },
        { segment0 with mode := .force, endKind := .timeElapsed, endValue := 1 }] → ∃ s : State, ∃ x rest i,
      s.paths.samplesMs = x :: rest ∧ s.ms.state = .running ∧
      Ms.inSegment { s.ms with last := some x, segmentTime := min 4294967295 (s.ms.segmentTime + x.gap * x.period.us) } i g x := by
  intro g _
  refine ⟨{ testIn .running g .empty with paths := { Paths.empty with samplesMs := [sample0] } }, _, _, 0, rfl, rfl, ?_⟩
  unfold Ms.inSegment; exact ⟨rfl, rfl, rfl⟩

theorem witness_RunningSamplePassesTheStages_criteria :
    ¬ (ms0 segment0).meets segment0 sample0 ∧
      (ms0 segment0).meets { segment0 with endKind := .strainReached } sample0 ∧
      Ms.meets { ms0 segment0 with segmentTime := 1000 } { segment0 with endKind := .timeElapsed, endValue := 1 } sample0 ∧
      ¬ Ms.meets { ms0 segment0 with segmentTime := 999 } { segment0 with endKind := .timeElapsed, endValue := 1 } sample0 := by
  refine ⟨id, ?_, ?_, ?_⟩
  · show (0 : Int) ≤ 0; decide
  · show (1 : Int) * 1000 ≤ 1000; decide
  · show ¬ (1 : Int) * 1000 ≤ 999; decide

/-- A force at the limit and one above; the enabling sample at a bound and one unit outside; a step at and over a bound. -/
theorem witness_JogSamplePassesTheStages :
    ∀ (force position demand : Int) (enabling : Bool), ∃ s : State, ∃ x rest f, s.paths.samplesMs = x :: rest ∧
      s.ms.state = .jogging ∧ s.ms.summary.frame = some f ∧ x.force = force ∧ x.position = position ∧
      s.ms.demand = demand ∧ s.ms.jogEnabling = enabling ∧ f.jogForceLimit = 50000 ∧ f.travelMin = 100000 ∧
      f.travelMax = 9000000 ∧ s.ms.jogRate = 60000 :=
  fun force position demand enabling => ⟨{ ready with
      ms := { ms0 segment0 with state := .jogging, jogRate := 60000, demand := demand, jogEnabling := enabling }
      paths := { Paths.empty with samplesMs := [{ sample0 with force := force, position := position }] } }, _, _, _, rfl, rfl, rfl, rfl,
      rfl, rfl, rfl, rfl, rfl, rfl, rfl⟩

/-- A demand at each travel bound, in RUNNING and in JOGGING. -/
theorem witness_DemandBoundedWhileEnabled :
    (∀ d : Int, d ∈ [100000 * 4294967296, 9000000 * 4294967296] → ∀ x : MotionState, x = .running ∨ x = .jogging →
      ∃ s t : State, ∃ y rest f, step s = .next t ∧ s.pending.head? = some .conditionedSampleAtMs ∧ s.paths.samplesMs = y :: rest ∧
        s.ms.summary.frame = some f ∧ f.travelMin ≤ f.travelMax ∧ 0 ≤ f.vMax ∧ s.ms.state = x ∧ s.ms.jogEnabling = false ∧
        f.travelMin * 4294967296 ≤ s.ms.demand ∧ s.ms.demand ≤ f.travelMax * 4294967296 ∧ s.ms.demand = d) := by
  intro d hd x hx
  simp only [List.mem_cons, List.not_mem_nil, or_false] at hd
  obtain rfl | rfl := hd <;> obtain rfl | rfl := hx <;>
    exact ⟨sends .conditionedSampleAtMs { ready with
      ms := { ms0 segment0 with state := _, jogRate := 60000, demand := _, rateInUse := 5000 }
      paths := { Paths.empty with samplesMs := [sample0] } }, _, _, _, frameTable0, rfl, rfl, rfl, rfl, by decide, by decide, rfl, rfl,
      by decide, by decide, rfl⟩

/-- A status frame that answers the last frame of the history, one that answers none, and one that fails its checks. -/
theorem witness_DriveStatusMatchedAndJudged :
    (∀ enabled : Bool, ∃ s : State, ∃ bs st, readDriveStatus bs = some st ∧
      (enabled = true ↔
        ∃ before after, s.drive.history = before ++ (st.echo, true) :: after ∧ ∀ e, (st.echo, e) ∉ after)) ∧
      (∃ bs : List Byte, readDriveStatus bs = none ∧ ∀ b ∈ bs.drop 1, b ≠ 165) := by
  refine ⟨fun enabled => ?_, ⟨165 :: List.replicate 9 0, by decide +kernel, by decide⟩⟩
  have hr : readDriveStatus (writeDriveStatus status0) = some status0 := by decide +kernel
  cases enabled
  · refine ⟨ready, _, _, hr, ?_⟩
    constructor
    · intro h; cases h
    · rintro ⟨l, m, h, _⟩; simp [ready, State.reset, DrivePort.reset] at h
  · refine ⟨{ ready with drive := { DrivePort.reset with history := [(5, false), (5, true)] } }, _, _, hr, ?_⟩
    exact ⟨fun _ => ⟨[(5, false)], [], rfl, by simp⟩, fun _ => rfl⟩

/-- ES in a state, under a tag, with the arm copy of the examples and a last sample. -/
def esIn (x : ExtState) (tag : MotionTag) (c : EsArmCopy) : Es :=
  { Es.reset with
    state := x, tag := tag, copy := some c, fitted := some .both, sourceSeen := some .both, timer := some 30
    history := some { dLA := 5000, dLB := 5000, force := 0 }
    last := some { number := 6, strain := 400, source := .both, contactA := true, contactB := true } }

theorem witness_EsTakesTagsAndNotices :
    (∀ m : MotionTag, ∃ s : State, ∃ c rest, s.paths.msToEs = .tag m :: rest ∧ s.es.copy = some c) ∧
      (∀ m : MotionTag, ∃ s : State, ∃ n fitted rest, s.paths.msToEs = .notice n fitted :: rest ∧ s.es.tag = m) :=
  ⟨fun m => ⟨{ ready with es := esIn .active .running copy0, paths := { Paths.empty with msToEs := [.tag m] } }, _, _, rfl, rfl⟩,
    fun m => ⟨{ ready with es := esIn .seated m copy0, paths := { Paths.empty with msToEs := [.notice 1 none] } }, _, _, _, rfl, rfl⟩⟩

theorem witness_EsJudgesSeatingAndOpening :
    ∀ (y : ExtState) (m : MotionTag) (a b timedOut : Bool), ∃ s : State, ∃ x rest, s.paths.samplesEs = x :: rest ∧ s.es.state = y ∧
      s.es.tag = m ∧ x.contactA = a ∧ x.contactB = b ∧ s.es.timedOut = timedOut :=
  fun y m a b timedOut => ⟨{ ready with
    es := { esIn y m copy0 with timedOut := timedOut }
    paths := { Paths.empty with samplesEs := [{ sample0 with contactA := a, contactB := b }] } }, _, _, rfl, rfl, rfl, rfl, rfl, rfl⟩

/-- The last arm lost, a demotion, a fall of slip and one more than slip, and the removal strain reached exactly. -/
theorem witness_EsSupervisesTheArms :
    (∀ src : Source, src ∈ [.both, .armA, .crosshead] → ∃ s : State, ∃ x rest seen c, s.paths.samplesEs = x :: rest ∧
      s.es.state = .active ∧ s.es.sourceSeen = some seen ∧ s.es.copy = some c ∧ x.source = src ∧ s.es.tag = .running ∧
      x.strain = c.removalStrain ∧ c.criterion = .atStrain) ∧
      (∃ (e : Es) (h : SlipHistory) (x : Sample), e.history = some h ∧ e.requestedA = false ∧ x.dLA < h.dLA - copy0.slip ∧
        ¬ x.dLB < h.dLB - copy0.slip ∧ h.force ≤ x.force) := by
  refine ⟨fun src _ => ⟨{ ready with
      es := esIn .active .running copy0
      paths := { Paths.empty with samplesEs := [{ sample0 with source := src, strain := 500 }] } }, _, _, _, _, rfl, rfl, rfl, rfl, rfl,
      rfl, rfl, rfl⟩,
    ⟨esIn .active .running copy0, _, { sample0 with dLA := 2999, dLB := 3000 }, rfl, rfl, by decide, by decide, by decide⟩⟩

/-- R111, R113: arms open, then the expiry, then a confirmation, which is TOO_LATE in RELEASED; within time it is not. -/
theorem test_confirmation_after_the_expiry_is_too_late :
    (let es := esIn (.removalPending .awaitConfirm) .running copy0
     let run (c : Instr) := after (exec (.extConfirm 70) (after (exec c { ready with es := es })))
     (((run .removalTimerExpiry).paths.replies.es.map (·.reason), (run .removalTimerExpiry).es.state),
       (run (.extConfirm 69)).paths.replies.es.map (·.reason))) =
      (([some .tooLate], .released), [none, none]) := by decide +kernel

theorem witness_RemovalRequestedConfirmedOrTimedOut :
    (∀ (y : ExtState) (m : MotionTag) (k : Criterion) (e : TeEvent), ∃ s : State, ∃ rest c, s.paths.teToEs = e :: rest ∧
      s.es.copy = some c ∧ s.es.state = y ∧ s.es.tag = m ∧ c.criterion = k) ∧
      (∀ (y : ExtState) (m : MotionTag) (k : Criterion) (timedOut : Bool), ∃ s : State, ∃ c x n, s.cp.store ≠ .loading ∧
        s.es.copy = some c ∧ s.es.last = some x ∧ s.es.state = y ∧ s.es.tag = m ∧ c.criterion = k ∧ s.es.timedOut = timedOut ∧
        s.es.timer = some n) ∧
      (∃ s : State, s.es.timer = none) ∧
      (∀ (y : ExtState) (src : Source), ∃ s : State, ∃ n rest x, s.paths.teToEs = .brk n :: rest ∧ s.es.state = y ∧
        s.es.last = some x ∧ x.source = src) :=
  ⟨fun y m k e => ⟨{ ready with
      es := esIn y m { copy0 with criterion := k }, paths := { Paths.empty with teToEs := [e] } }, _, _, rfl, rfl, rfl, rfl, rfl⟩,
    fun y m k timedOut => ⟨{ ready with es := { esIn y m { copy0 with criterion := k } with timedOut := timedOut } }, _, _, _,
      (fun h => by cases h), rfl, rfl, rfl, rfl, rfl, rfl, rfl⟩,
    ⟨ready, rfl⟩,
    fun y src => ⟨{ ready with
      es := { esIn y .running copy0 with
        last := some { number := 6, strain := 400, source := src, contactA := true, contactB := true } }
      paths := { Paths.empty with teToEs := [.brk 7] } }, _, _, _, rfl, rfl, rfl, rfl⟩⟩

theorem witness_TeTakesMotionStateTags :
    ∀ (m : MotionTag) (testOpen : Bool), ∃ s : State, ∃ rest, s.paths.msToTe = .tag m :: rest ∧ s.te.testOpen = testOpen ∧
      s.te.hold = .held ∧ s.te.working.fitStatus = .collecting ∧ s.te.yieldState = .plateau :=
  fun m testOpen => ⟨{ ready with
      te := { teFull with
        testOpen := testOpen, hold := .held, holdTimer := some 5, yieldState := .plateau
        working := { teFull.working with fitStatus := .collecting } }
      paths := { Paths.empty with msToTe := [.tag m] } }, _, rfl, rfl, rfl, rfl, rfl⟩

/-- TE in an open test on a sample, with the parameters of the examples. -/
def onTe (t : Te) (x : Sample) : State := { ready with te := t, paths := { Paths.empty with samplesTe := [x] } }

/-- A new maximum, a drop of exactly the fraction as the last of the run and as one before it, a force just above it, and a
maximum just below the lowest one for a break. -/
theorem witness_TeTracksMaximumAndBreak :
    (∃ s : State, ∃ x rest, s.paths.samplesTe = x :: rest ∧ s.te.testOpen = false) ∧
      (∀ m : MotionTag, m = .running ∨ m = .paused → ∀ (run : Nat) (force fm : Int), ∃ s : State, ∃ x rest p,
        s.paths.samplesTe = x :: rest ∧ s.te.params = some p ∧ s.te.testOpen = true ∧ s.te.breakConfirmed = false ∧ s.te.tag = m ∧
        s.te.breakState = .watching ∧ s.te.run = run ∧ x.force = force ∧ s.te.working.fm.map Point.force = some fm ∧
        s.te.candidate.isSome = true ∧ p.breakConfirm = 3 ∧ p.breakMinForce = 80000) ∧
      (520000 : Int) - roundDiv (520000 * 500) 1000 = 260000 :=
  ⟨⟨onTe Te.reset sample0, _, _, rfl, rfl⟩,
    fun m _ run force fm => ⟨onTe { teFull with
        tag := m, breakState := .watching, run := run, working := { teFull.working with fm := some (point0 fm) } }
      { sample0 with force := force }, _, _, _, rfl, rfl, rfl, rfl, rfl, rfl, rfl, rfl, rfl, rfl, rfl, rfl⟩,
    by decide⟩

theorem witness_TeTracksMaximumAndBreak_confirms :
    (onTeSample
      { teFull with breakState := .watching, run := 2, working := { teFull.working with fm := some (point0 520000) } }
      { sample0 with force := 260000 }).breakConfirmed = true ∧
    (onTeSample
      { teFull with breakState := .watching, run := 2, working := { teFull.working with fm := some (point0 520000) } }
      { sample0 with force := 260001 }).breakConfirmed = false := by decide +kernel

/-- R131: on the confirming sample a fit still collecting fails with WINDOW_NOT_PASSED, a plateau ends DISCONTINUOUS and the proof
detector ends NOT_FOUND. -/
theorem test_break_closes_the_detectors :
    (let t := onTeSample
       { teFull with
         tag := .paused, breakState := .watching, run := 2, yieldState := .plateau, proofState := .awaitingFit
         working := { teFull.working with fm := some (point0 520000), fitStatus := .collecting } }
       { sample0 with force := 260000 }
     (t.working.fitStatus, t.working.fitReason, t.yieldState, t.working.outcome, t.proofState)) =
      (.failed, some .windowNotPassed, .done, .discontinuous, .notFound) := by decide +kernel

theorem witness_TeJudgesYield :
    (∀ (y : YieldState) (force strain : Int), ∃ s : State, ∃ x rest p h, s.paths.samplesTe = x :: rest ∧ s.te.params = some p ∧
      s.te.testOpen = true ∧ s.te.breakConfirmed = false ∧ s.te.tag = .running ∧ s.te.yieldState = y ∧
      s.te.working.reH = some h ∧ h.force = 90000 ∧ h.strain = 1000 ∧ x.force = force ∧ x.strain = strain ∧
      p.yieldMinForce = 80000 ∧ p.yieldWindowEnd = 50000 ∧ p.transient = 2000) ∧
      (let t := onTeSample { te0 with peak := some (spoint0 90000) } { sample0 with force := 89550, strain := 2000 }
       t.yieldState = .plateau ∧ t.breakConfirmed = false) ∧
      (onTeSample { te0 with peak := some (spoint0 90000) } { sample0 with force := 89551, strain := 49999 }).yieldState = .seeking ∧
      (onTeSample { te0 with peak := some (spoint0 90000) } { sample0 with force := 89551, strain := 50000 }).yieldState = .none := by
  refine ⟨fun y force strain => ⟨onTe { teFull with
      yieldState := y, working := { teFull.working with reH := some (spoint0 90000), fm := some (point0 90000) } }
      { sample0 with force := force, strain := strain }, _, _, _, _, rfl, rfl, rfl, rfl, rfl, rfl, rfl, rfl, rfl, rfl, rfl, rfl, rfl,
      rfl⟩, by decide +kernel, by decide +kernel, by decide +kernel⟩

/-- R48: below 25 N of force limit F_lo and F_hi are 0, and a sample of force 0 adds no point. -/
theorem test_default_window_of_no_force_takes_no_point :
    (let p := defaultParams 24
     let t := onTeSample { te0 with params := some p, working := { te0.working with fitStatus := .collecting } }
       { sample0 with force := 0 }
     (p.fLo, p.fHi, t.working.fitN, t.working.fitStatus)) = (0, 0, 0, .collecting) := by decide +kernel

/-- Each outcome of the fit, with 15 and 16 points; the sample exactly on the offset line; a strain at the offset; a window
with both bounds 0. -/
theorem witness_TeFitsModulusAndJudgesProof :
    (∀ (st : FitStatus) (ps : ProofState) (n : Nat) (force strain : Int) (src : Option Source), ∃ s : State, ∃ x rest p,
      s.paths.samplesTe = x :: rest ∧ s.te.params = some p ∧ s.te.testOpen = true ∧ s.te.breakConfirmed = false ∧
      s.te.tag = .running ∧ s.te.working.fitStatus = st ∧ s.te.proofState = ps ∧ s.te.working.fitN = n ∧ x.force = force ∧
      x.strain = strain ∧ s.te.fitSource = src ∧ p.fLo = 20000 ∧ p.fHi = 325000 ∧ p.offsetStrain = 20000) ∧
      (∃ s : State, ∃ x rest p, s.paths.samplesTe = x :: rest ∧ s.te.params = some p ∧ s.te.testOpen = true ∧
        s.te.breakConfirmed = false ∧ s.te.tag = .running ∧ x.force = 0 ∧ p.fLo = 0 ∧ p.fHi = 0) ∧
      (∀ n reason, (n, reason) ∈ [(15, some FitReason.tooFew), (16, none)] →
        (onTeSample
          { te0 with
            sums := { e := 136000, f := 2736000, ee := 1496000000, ef := 30056000000 }, fitSource := some .both
            working := { te0.working with fitStatus := .collecting, fitN := n } }
          { sample0 with strain := 17000, force := 325001 }).working.fitReason = reason) ∧
      (onTeSample
        { te0 with fitSource := some .both, working := { te0.working with fitStatus := .collecting, fitN := 16 } }
        { sample0 with force := 325001 }).working.fitReason = some .flat ∧
      (onTeSample { te0 with fitSource := some .armA, working := { te0.working with fitStatus := .collecting, fitN := 65535 } }
        { sample0 with force := 20000 }).working.fitReason = some .sourceChanged ∧
      (onTeSample
        { te0 with proofState := .seeking, working := { te0.working with fitStatus := .done, fitK := 1310720, fitB := 1000 } }
        { sample0 with strain := 40000, force := 401000 }).proofState = .found := by
  refine ⟨fun st ps n force strain src => ⟨onTe { te0 with
      proofState := ps, fitSource := src, working := { te0.working with fitStatus := st, fitN := n } }
      { sample0 with force := force, strain := strain }, _, _, _, rfl, rfl, rfl, rfl, rfl, rfl, rfl, rfl, rfl, rfl, rfl, rfl, rfl, rfl⟩,
    ⟨onTe { te0 with params := some { params0 with fLo := 0, fHi := 0 } } { sample0 with force := 0 }, _, _, _, rfl, rfl, rfl,
      rfl, rfl, rfl, rfl, rfl⟩,
    ?_, by decide +kernel, by decide +kernel, by decide +kernel⟩
  intro n reason h
  simp only [List.mem_cons, Prod.mk.injEq, List.not_mem_nil, or_false] at h
  obtain ⟨rfl, rfl⟩ | ⟨rfl, rfl⟩ := h <;> decide +kernel

theorem witness_ResultsStoreHoldsPublishesAndReads :
    (∃ s : State, ∃ e rest, s.paths.msToTe = .entry e :: rest) ∧
      (∀ h : HoldState, ∃ s : State, s.cp.store ≠ .loading ∧ s.te.hold = h) ∧
      (∃ s : State, ∃ us, s.te.hold = .held ∧ s.te.holdTimer = some us ∧ s.te.count = 4294967295) :=
  ⟨⟨{ ready with paths := { Paths.empty with msToTe := [.entry { index := 31, cause := .stop, number := 9, force := 0, strain := 0, position := 0, time := 0, fallbackUsed := true }] } }, _, _, rfl⟩,
    fun h => ⟨{ ready with te := { Te.reset with hold := h } }, (fun h => by cases h), rfl⟩,
    ⟨{ ready with te := { Te.reset with hold := .held, holdTimer := some 1000000, count := 4294967295 } }, _, rfl, rfl, rfl⟩⟩

/-- A post count of 1 and of 2 left, the masks 31 and 32, a drain of a full and of an empty ring. -/
theorem witness_CaptureRingRecordsTriggersAndAnswers :
    (∀ (y : RingState) (left : Nat), ∃ s : State, ∃ x rest, s.paths.samplesCr = x :: rest ∧ s.cr.state = y ∧
      s.cr.remaining = left) ∧
      (∀ (y : RingState) (mask : BitVec 5), ∃ s : State, ∃ t rest, s.paths.triggers.get .te = t :: rest ∧ t = .brk ∧
        s.cr.state = y ∧ s.cr.mask = mask) ∧
      (∀ (y : RingState) (ring : List CaptureRecord), ∃ s : State, s.cp.store ≠ .loading ∧ s.cr.state = y ∧ s.cr.ring = ring) ∧
      (31 : Byte).toNat < 32 ∧ 32 ≤ (32 : Byte).toNat :=
  ⟨fun y left => ⟨{ ready with
      cr := { Cr.reset with state := y, remaining := left }, paths := { Paths.empty with samplesCr := [sample0] } }, _, _, rfl, rfl, rfl⟩,
    fun y mask => ⟨{ ready with
      cr := { Cr.reset with state := y, mask := mask }
      paths := { Paths.empty with triggers := { PerBlock.all [] with te := [.brk] } } }, _, _, rfl, rfl, rfl, rfl⟩,
    fun y ring => ⟨{ ready with cr := { Cr.reset with state := y, ring := ring } }, (fun h => by cases h), rfl, rfl⟩,
    by decide, by decide⟩

theorem witness_EventsAndRepliesQueued :
    (∃ s : State, ∃ r rest, s.paths.replies.get .ms = r :: rest ∧ s.cp.queue.length = 64) ∧
      (∃ s : State, ∃ e rest, s.paths.events.get .sp = e :: rest ∧ s.cp.queue.length = 63) ∧ (Event.autoloadDone 0).code ≠ 16 := by
  refine ⟨⟨{ ready with
      cp := { Cp.reset with queue := List.replicate 64 (.event (.autoloadDone 0) none false) }
      paths := { Paths.empty with replies := { PerBlock.all [] with ms := [answer .arm tag1 .done .none] } } }, _, _, rfl, ?_⟩,
    ⟨{ ready with
      cp := { Cp.reset with queue := List.replicate 63 (.event (.autoloadDone 0) none false) }
      paths := { Paths.empty with events := { PerBlock.all [] with sp := [.autoloadDone 8] } } }, _, _, rfl, ?_⟩, by decide⟩ <;>
    simp

theorem witness_ReportsTransmittedAndSamplesStreamed :
    (∃ s : State, ∃ r rest, s.cp.queue = r :: rest ∧ s.cp.transmitting = true) ∧ ready.cp.transmitting = false ∧
      (∀ n : Nat, n = 47 ∨ n = 48 → ∃ s : State, ∃ x rest, s.paths.samplesCp = x :: rest ∧ s.cp.queue.length = n ∧
        s.cp.stream = true ∧ x.number % s.cp.decimation = 0) :=
  ⟨⟨{ ready with cp := { Cp.reset with queue := [.event (.autoloadDone 0) none false], transmitting := true } }, _, _, rfl, rfl⟩, rfl,
    fun n _ => ⟨{ ready with
      cp := { Cp.reset with queue := List.replicate n (.event (.autoloadDone 0) none false), stream := true }
      paths := { Paths.empty with samplesCp := [sample0] } }, _, _, rfl, by simp, rfl, Nat.mod_one _⟩⟩

theorem witness_FlagsMaskModePulseAndLinkErrors :
    ready.cp.store ≠ .loading ∧ (2047 : BitVec 16).toNat < 2048 ∧ 2048 ≤ (2048 : BitVec 16).toNat ∧
      (∃ s : State, s.cp.mode = .pulse ∧ s.cp.pulse.isSome = true) ∧
      (∃ s : State, s.paths.frontErrors = 0 + 1 ∧ s.paths.driveErrors = 0 + 1) :=
  ⟨by decide, by decide, by decide, ⟨{ ready with cp := { Cp.reset with mode := .pulse, pulse := some 2000, attnLow := true } }, rfl, rfl⟩,
    ⟨{ ready with paths := { Paths.empty with frontErrors := 1, driveErrors := 1 } }, rfl, rfl⟩⟩

theorem witness_StatusFormedAndFaultyRequestsRefused :
    (∃ s : State, ∃ x rest, s.paths.storeStates = x :: rest) ∧ (∃ s : State, ∃ n rest, s.paths.msNotices = n :: rest) ∧
      (∃ s : State, ∃ n rest, s.paths.esNotices = n :: rest) ∧ (∃ s : State, ∃ n rest, s.paths.crNotices = n :: rest) ∧
      ready.cp.store ≠ .loading ∧ ((15 : Byte).toNat < 16 ∧ 45 < (46 : Byte).toNat) ∧
      ((0 : Byte).toNat = 0 ∧ 6 < (7 : Byte).toNat ∧ (3 : Byte).toNat = 3 ∧ 1 < (2 : Byte).toNat ∧ 0 < (1 : Byte).toNat) :=
  ⟨⟨{ ready with paths := { Paths.empty with storeStates := [.ready] } }, _, _, rfl⟩,
    ⟨{ ready with paths := { Paths.empty with msNotices := [.of .reset .reset] } }, _, _, rfl⟩,
    ⟨{ ready with paths := { Paths.empty with esNotices := [.unseated] } }, _, _, rfl⟩,
    ⟨{ ready with paths := { Paths.empty with crNotices := [.of .reset] } }, _, _, rfl⟩, by decide, by decide, by decide⟩

/-- The fields at the bounds of their widths. -/
theorem witness_FramesReadBackAsBuilt :
    (∃ (kind : Nat) (p : List Byte), kind < 256 ∧ p.length < 65536) ∧
      (∃ f : SampleFrame, f.load = -8388608 ∧ f.countA = 8388607 ∧ f.countB = -8388608 ∧ f.crosshead = 2147483647 ∧
        -8388608 ≤ f.load ∧ f.load ≤ 8388607 ∧ -8388608 ≤ f.countA ∧ f.countA ≤ 8388607 ∧ -8388608 ≤ f.countB ∧
        f.countB ≤ 8388607 ∧ -2147483648 ≤ f.crosshead ∧ f.crosshead ≤ 2147483647) ∧
      (∃ d : DriveStatus, d.code = 255 ∧ d.code < 256) ∧
      (∃ r : Reply, r.reason = some .tooLate ∧ r.payload.bytes.length = 5 ∧ r.payload.bytes.length ≤ 1024) :=
  ⟨⟨255, [1], by decide, by decide⟩,
    ⟨{ frame0 with load := -8388608, countA := 8388607, countB := -8388608, crosshead := 2147483647 }, by decide⟩,
    ⟨{ status0 with code := 255 }, rfl, by decide⟩,
    ⟨refuse .extConfirm tag1 .wrongState .tooLate (.extState .released), rfl, by decide, by decide⟩⟩

/-- Section 11.4: the bytes of a Drive Frame between its delimiter and its CRC. -/
theorem test_drive_frame_bytes :
    ((driveFrame 3101 (-2) true).drop 1).take 10 = [5, 0, 2, 29, 12, 254, 255, 255, 255, 1] := by decide

/-- Section 11.5: a Reply Report, kind 66 under its request's tag. -/
theorem test_reply_report_bytes :
    ((Report.frame (.reply (refuse .start 7 .wrongState .armInProgress .none))).drop 1).take 8 = [20, 0, 66, 7, 0, 24, 1, 15] := by
  decide

theorem witness_ManagementFramesActAsTheirCommands :
    (∃ c bs, Instr.wf c = true ∧ managementFrame c = some bs ∧ c = .jog tag1 (-2147483648)) ∧
      (∃ (kind : Byte) (p : List Byte), kind.toNat < 16 ∧ p.length ≤ 1024) ∧
      ((Instr.unknownTable tag1 7 0).wf = true ∧ payloadFits 16 [7, 0, 1] ∧
        (Instr.unknownTable tag1 3 2).wf = true ∧ payloadFits 16 [3, 2, 0, 0, 0, 0, 9]) ∧
      (∀ kind : Byte, kind = 19 ∨ kind = 41 ∨ kind = 28 → 16 ≤ kind.toNat ∧ kind.toNat ≤ 45 ∧ ¬ payloadFits kind.toNat [0]) ∧
      (ready.cp.store ≠ .loading ∧ State.reset.cp.store = .loading) := by
  refine ⟨⟨_, _, by decide, rfl, rfl⟩, ⟨15, [], by decide, by decide⟩,
    ⟨by decide, ?_, by decide, ?_⟩, ?_, by decide, rfl⟩
  · exact ⟨by decide, by decide, rfl⟩
  · exact ⟨by decide, by decide, rfl⟩
  rintro kind (rfl | rfl | rfl) <;> exact ⟨by decide, by decide, fun h => absurd (show [(0 : Byte)].length = 0 from h) (by decide)⟩

/-- R156: a LOAD of a Crosshead Table whose body is one byte short. -/
theorem test_bad_length :
    ((runs [.consoleFrameError (envelope 16 7 [2, 0, 0, 1, 0, 0])] ready).cp.queue =
      [.reply (refuse .load 7 .badRequest .badLength .none)]) = true := by decide +kernel

/-- R40, R65, R144 with section 11.1: the capability record without the identity-present flag, START's plain sample number, the
presence byte of an absent label, the plain number and source of EXT_RELEASED and of EXT_REMOVE's DONE, YIELD_UPPER's plain
source. -/
theorem test_payload_layouts :
    (Payload.capability mc0.capability).bytes.length = 8 + 5 + 11 * 4 + 2 + 3 * 4 ∧
    (Payload.startedFrom 7).bytes = [7, 0, 0, 0] ∧
    (Payload.sampleNumber (some 7)).bytes = [7, 0, 0, 0] ∧
    (Event.extReleased (some 7) (some .both) true).fields.length = 4 + 1 + 1 ∧
    (Event.yieldUpper (spoint0 900) 6).fields.length = 3 * 4 + 1 + 4 ∧
    (Results.cleared none 258).bytes.take 6 = [0, 0, 2, 1, 0, 0] ∧
    (Results.cleared (some [65]) 258).bytes.take 4 = [1, 1, 65, 2] := by decide +kernel

/-- A receiver in HUNT and in RECEIVING, a length the link allows and one it does not, a complete candidate that fails. -/
theorem witness_ReceiversFindFrames :
    (∀ l : Link, State.reset.rx.get l = .hunt ∧ ∃ s : State, ∃ held us, s.rx.get l = .receiving held us ∧ held.head? = some 165 ∧
      (held ++ [0]).length = 3) ∧
      lengthAllowed .front 16 ∧ ¬ lengthAllowed .front 17 ∧ lengthAllowed .drive 2 ∧ ¬ lengthAllowed .drive 1 ∧
      lengthAllowed .console 0 ∧ lengthAllowed .console 1024 ∧ ¬ lengthAllowed .console 1025 ∧
      frameLength [165, 16, 0] = 16 ∧
      (∃ bs : List Byte, bs.head? = some 165 ∧ ¬ checksPass .front bs) ∧ (∃ s : State, s.sp.state ≠ .loading) := by
  refine ⟨fun l => ?_, ?_, ?_, ?_, ?_, ?_, ?_, ?_, by decide, ⟨[165], rfl, ?_⟩, ⟨ready, by decide⟩⟩
  · refine ⟨by cases l <;> rfl, ?_⟩
    exact ⟨{ ready with rx := ready.rx.set l (.receiving [165, 16] 8) }, [165, 16], 8, by cases l <;> rfl, rfl, rfl⟩
  · show (16 : Nat) = 16; rfl
  · show ¬ (17 : Nat) = 16; decide
  · show (2 : Nat) = 2; rfl
  · show ¬ (1 : Nat) = 2; decide
  · show 0 ≤ 1024; decide
  · show 1024 ≤ 1024; decide
  · show ¬ 1025 ≤ 1024; decide
  · rintro ⟨h, _⟩; revert h; decide +kernel

end Sys2Proof.Tests
end

