-- ==== Sys2Proof/Proofs/ConversionQuantities.lean ====
section
/-! What one conversion forms (R9, R13 to R15): the step as one desk of MC, and each quantity of its sample by the formula
of its rule under the zeros that stand after the conversion. -/

namespace Sys2Proof.Machine

/-! ## The step -/

/-- MC's desk once it has converted the frame `g`, with `rest` still waiting behind it. -/
def State.conversionDesk (s : State) (g : GoodFrame) (rest : List GoodFrame) : McDesk :=
  McDesk.convert ⟨s.mc, { s.paths with inletToMc := rest }⟩ g

/-- With a frame waiting, the command converts it: MC and the paths become those of its desk, the rest of the part stays. -/
theorem exec_conversion_of_waiting (s : State) (g : GoodFrame) (rest : List GoodFrame)
    (h : s.paths.inletToMc = g :: rest) :
    exec .conditionedSampleConversion s =
      .next { s with mc := (s.conversionDesk g rest).mc, paths := (s.conversionDesk g rest).paths } := by
  show Host.Outcome.next (s.onMc _) = _
  simp only [State.onMc, h, State.conversionDesk]

/-- What stage 3 of R9 leaves: the quantities of the frame with the zeros that stand after the conversion. -/
def Mc.formed (m : Mc) (f : SampleFrame) : Forming := m.applyZeros f (m.form f)

@[simp] theorem State.conversionDesk_last (s : State) (g : GoodFrame) (rest : List GoodFrame) :
    (s.conversionDesk g rest).mc.last = some (s.mc.condition g).1 := rfl

@[simp] theorem State.conversionDesk_zero (s : State) (g : GoodFrame) (rest : List GoodFrame) :
    (s.conversionDesk g rest).mc.zero = (s.mc.formed g.frame).zero := rfl

/-! ## The quantities of the sample -/

/-- R13: ΔL_A is the elongation of the frame's count under the zero that stands, whichever zeros the conversion applied. -/
theorem Mc.condition_dLA (m : Mc) (g : GoodFrame) :
    (m.condition g).1.sample.dLA = elongation m.cal.armA g.frame.countA (m.formed g.frame).zero.armA :=
  (m.applyZeros_keeps g.frame).a

/-- R13, arm B. -/
theorem Mc.condition_dLB (m : Mc) (g : GoodFrame) :
    (m.condition g).1.sample.dLB = elongation m.cal.armB g.frame.countB (m.formed g.frame).zero.armB :=
  (m.applyZeros_keeps g.frame).b

/-- R14: no zero changes the absolute position. -/
theorem Mc.condition_position (m : Mc) (g : GoodFrame) :
    (m.condition g).1.sample.position = positionOf m.cal.crosshead g.frame.crosshead :=
  (m.applyZeros_keeps g.frame).p

/-- R14: the zero-relative position is taken from P_zero as it stands after the conversion. -/
theorem Mc.condition_relPosition (m : Mc) (g : GoodFrame) :
    (m.condition g).1.sample.relPosition =
      sat32 ((m.condition g).1.sample.position - (m.formed g.frame).zero.pZero) := rfl

/-- R13: an arm is valid when it is in contact, not overranged and calibrated. -/
theorem Mc.validA_iff (m : Mc) (f : SampleFrame) :
    m.validA f = true ↔ f.contactA = true ∧ f.overA = false ∧ m.cal.armA.isSome = true := by
  simp [Mc.validA, and_assoc]

theorem Mc.validB_iff (m : Mc) (f : SampleFrame) :
    m.validB f = true ↔ f.contactB = true ∧ f.overB = false ∧ m.cal.armB.isSome = true := by
  simp [Mc.validB, and_assoc]

/-- R15: the raw strains kept with the sample are those of the values that stage 3 leaves. -/
theorem Mc.condition_raw (m : Mc) (g : GoodFrame) : (m.condition g).1.raw = m.strains (m.formed g.frame) := rfl

/-! ## The formulas written out -/

/-- R13: an uncalibrated arm has elongation 0, a calibrated one the scaled and saturated difference of the counts. -/
theorem elongation_eq_match (gain : Option Int) (count zero : Int) :
    elongation gain count zero =
      match gain with
      | none => 0
      | some k => sat32 (roundDiv ((count - zero) * k) 65536) := by
  cases gain <;> rfl

/-- R14: an uncalibrated crosshead has position 0, a calibrated one the scaled and saturated count. -/
theorem positionOf_eq_match (scale : Option Int) (count : Int) :
    positionOf scale count =
      match scale with
      | none => 0
      | some k => sat32 (roundDiv (count * k) 65536) := by
  cases scale <;> rfl

end Sys2Proof.Machine

open Sys2Proof.Machine in
/-- Settles O16: the step is one conversion of MC's desk, and every quantity of its sample follows its rule because the zeros
applied on the way re-form what they change (`Mc.applyZeros_keeps`). -/
theorem conversionFormsElongationPositionStrain : Obligations.ConversionFormsElongationPositionStrain := by
  intro s g rest waiting
  refine ⟨_, (s.mc.condition g).1, exec_conversion_of_waiting s g rest waiting, s.conversionDesk_last g rest,
    ?elongationA, ?elongationB, s.mc.validA_iff g.frame, s.mc.validB_iff g.frame, ?position,
    s.mc.condition_relPosition g, ?strains, rfl⟩
  case elongationA => exact (s.mc.condition_dLA g).trans (elongation_eq_match ..)
  case elongationB => exact (s.mc.condition_dLB g).trans (elongation_eq_match ..)
  case position => exact (s.mc.condition_position g).trans (positionOf_eq_match ..)
  case strains =>
    rw [s.mc.condition_raw g]
    exact ⟨rfl, rfl, rfl, rfl⟩
end

