-- ==== Sys2Proof/Proofs/ArmJudged.lean ====
section
/-! How ARM is judged and accepted (R51, R52): the checks of the table in three stages, each with the outcome of its
checks, and the step of MS for a refusal and for the acceptance. -/

namespace Sys2Proof.Machine

/-! ## The checks of R51 in stages -/

/-- What stands of R51's table once drive, sample and extensometer alone are left to be checked. -/
def MsDesk.readinessRefusal (d : MsDesk) (p : Program) : Option (Status × Reason × Payload) :=
  match driveRefusal d.drive.status with
  | some r => some (.wrongState, r, .none)
  | none =>
    match d.ms.positionRefusal with
    | some r => some (.wrongState, r, .none)
    | none =>
      if p.fitted ≠ .none ∧ d.ms.seated = false then some (.wrongState, .extensometerNotSeated, .none) else none

/-- The STRAIN segment that the fitted set NONE leaves without a rate. -/
def Program.unratedStrain (p : Program) : Option Nat :=
  if p.fitted = .none then firstBareStrain 0 p.segments else none

/-- What stands of R51's table once the program `p` is known to be held. -/
def MsDesk.programRefusal (d : MsDesk) (p : Program) : Option (Status × Reason × Payload) :=
  if d.ms.summary.frame.isNone ∨ d.ms.summary.crosshead = false ∨ d.ms.summary.complete = false then
    some (.badTable, .incompleteCalibration, .none)
  else if armTableMissing d.ms.summary p.fitted then some (.badTable, .armTableMissing, .none)
  else
    match p.unratedStrain with
    | some i => some (.badTable, .strainWithoutExtensometer, .entryIndex i)
    | none => d.readinessRefusal p

theorem MsDesk.armRefusal_of_arming (d : MsDesk) (h : d.ms.state = .arming) :
    d.armRefusal = some (.wrongState, .armInProgress, .none) := by
  simp [MsDesk.armRefusal, h]

theorem MsDesk.armRefusal_of_not_idle (d : MsDesk) (h : d.ms.state ≠ .idle) (h' : d.ms.state ≠ .arming) :
    d.armRefusal = some (.wrongState, .notIdle, .none) := by
  simp [MsDesk.armRefusal, h, h']

theorem MsDesk.armRefusal_of_loads (d : MsDesk) (idle : d.ms.state = .idle) (h : 0 < d.ms.loadCount) :
    d.armRefusal = some (.wrongState, .loadInProgress, .none) := by
  simp [MsDesk.armRefusal, idle, h]

theorem MsDesk.armRefusal_of_no_program (d : MsDesk) (idle : d.ms.state = .idle) (loads : d.ms.loadCount = 0)
    (h : d.ms.program = none) : d.armRefusal = some (.badTable, .noProgram, .none) := by
  simp [MsDesk.armRefusal, idle, loads, h]

/-- The first stage passed: R51's table goes on with the program's checks. -/
theorem MsDesk.armRefusal_of_program (d : MsDesk) (p : Program) (idle : d.ms.state = .idle)
    (loads : d.ms.loadCount = 0) (held : d.ms.program = some p) : d.armRefusal = d.programRefusal p := by
  simp only [MsDesk.armRefusal, idle, loads, held]
  rfl

/-! ## The tables and segments that the program needs -/

/-- The calibration summary has what every test needs: the Frame Table `f`, a Crosshead Table, every check passed. -/
structure CalSummary.Ready (c : CalSummary) (f : FrameTable) : Prop where
  frame : c.frame = some f
  crosshead : c.crosshead = true
  complete : c.complete = true

/-- The Arm Tables that a fitted set needs are there. -/
def CalSummary.ArmsThere (c : CalSummary) (x : Fitted) : Prop :=
  (x = .both ∨ x = .armA → c.armA = true) ∧ (x = .both ∨ x = .armB → c.armB = true)

/-- Segment `i` is a STRAIN segment without a fallback rate. -/
def Program.Bare (p : Program) (i : Nat) : Prop :=
  ∃ g, p.segments[i]? = some g ∧ g.mode = .strain ∧ g.fallback = none

theorem armTableMissing_eq_false_iff (c : CalSummary) (x : Fitted) :
    armTableMissing c x = false ↔ c.ArmsThere x := by
  cases x <;> simp [armTableMissing, CalSummary.ArmsThere]

theorem Program.unratedStrain_of_first (p : Program) (i : Nat) (bareSet : p.fitted = .none) (h : p.Bare i)
    (first : ∀ j, j < i → ¬ p.Bare j) : p.unratedStrain = some i := by
  obtain ⟨g, hg, strain⟩ := h
  rw [Program.unratedStrain, if_pos bareSet, firstBareStrain_some p.segments 0 i g hg strain first, Nat.zero_add]

theorem Program.unratedStrain_of_rated (p : Program) (h : p.fitted = .none → ∀ i, ¬ p.Bare i) :
    p.unratedStrain = none := by
  unfold Program.unratedStrain
  split
  · next bareSet => exact firstBareStrain_none p.segments 0 (h bareSet)
  · rfl

theorem MsDesk.programRefusal_of_incomplete (d : MsDesk) (p : Program)
    (h : d.ms.summary.frame = none ∨ d.ms.summary.crosshead = false ∨ d.ms.summary.complete = false) :
    d.programRefusal p = some (.badTable, .incompleteCalibration, .none) := by
  rw [MsDesk.programRefusal, if_pos (by rwa [Option.isNone_iff_eq_none])]

section
variable {d : MsDesk} {p : Program} {f : FrameTable}

/-- With the calibration complete, the Arm Tables and the segments are judged. -/
theorem MsDesk.programRefusal_of_ready (cal : d.ms.summary.Ready f) :
    d.programRefusal p =
      if armTableMissing d.ms.summary p.fitted then some (.badTable, .armTableMissing, .none)
      else
        match p.unratedStrain with
        | some i => some (.badTable, .strainWithoutExtensometer, .entryIndex i)
        | none => d.readinessRefusal p := by
  rw [MsDesk.programRefusal, if_neg (by simp [cal.frame, cal.crosshead, cal.complete])]

theorem MsDesk.programRefusal_of_arm_missing (cal : d.ms.summary.Ready f) (h : ¬ d.ms.summary.ArmsThere p.fitted) :
    d.programRefusal p = some (.badTable, .armTableMissing, .none) := by
  rw [← armTableMissing_eq_false_iff, Bool.not_eq_false] at h
  rw [MsDesk.programRefusal_of_ready cal, if_pos h]

theorem MsDesk.programRefusal_of_bare (cal : d.ms.summary.Ready f) (arms : d.ms.summary.ArmsThere p.fitted) {i : Nat}
    (h : p.unratedStrain = some i) :
    d.programRefusal p = some (.badTable, .strainWithoutExtensometer, .entryIndex i) := by
  rw [← armTableMissing_eq_false_iff] at arms
  simp [MsDesk.programRefusal_of_ready cal, arms, h]

/-- The second stage passed: drive, sample and extensometer are left. -/
theorem MsDesk.programRefusal_of_tables (cal : d.ms.summary.Ready f) (arms : d.ms.summary.ArmsThere p.fitted)
    (rated : p.fitted = .none → ∀ i, ¬ p.Bare i) : d.programRefusal p = d.readinessRefusal p := by
  rw [← armTableMissing_eq_false_iff] at arms
  simp [MsDesk.programRefusal_of_ready cal, arms, p.unratedStrain_of_rated rated]

/-! ## Drive, sample and extensometer -/

theorem driveRefusal_of_clear {st : DriveStatus} (fault : st.fault = false) (endSwitch : st.endSwitch = false)
    (ready : st.ready = true) : driveRefusal (some st) = none := by
  simp [driveRefusal, fault, endSwitch, ready]

theorem MsDesk.readinessRefusal_of_drive {r : Reason} (h : driveRefusal d.drive.status = some r) :
    d.readinessRefusal p = some (.wrongState, r, .none) := by
  simp [MsDesk.readinessRefusal, h]

theorem Ms.positionRefusal_of_sample {m : Ms} {x : Sample} (taken : m.last = some x)
    (frame : m.summary.frame = some f) :
    m.positionRefusal = if outsideTravel f x then some .outsideTravel else none := by
  simp [Ms.positionRefusal, taken, frame]

theorem Ms.positionRefusal_of_no_sample {m : Ms} (h : m.last = none) : m.positionRefusal = some .noSample := by
  simp [Ms.positionRefusal, h]

theorem outsideTravel_iff (x : Sample) :
    outsideTravel f x = true ↔ x.position < f.travelMin ∨ f.travelMax < x.position := by
  simp [outsideTravel]

/-- A sample at or between the travel bounds is no ground to refuse. -/
theorem Ms.positionRefusal_of_inside {m : Ms} {x : Sample} (taken : m.last = some x) (frame : m.summary.frame = some f)
    (low : f.travelMin ≤ x.position) (high : x.position ≤ f.travelMax) : m.positionRefusal = none := by
  rw [Ms.positionRefusal_of_sample taken frame, if_neg]
  rw [outsideTravel_iff]
  omega

theorem Ms.seated_iff (m : Ms) : m.seated = true ↔ m.extTag = { name := .seated, generation := m.generation } := by
  cases h : m.extTag
  simp [Ms.seated, h]

theorem MsDesk.readinessRefusal_of_position (drive : driveRefusal d.drive.status = none) {r : Reason}
    (h : d.ms.positionRefusal = some r) : d.readinessRefusal p = some (.wrongState, r, .none) := by
  simp [MsDesk.readinessRefusal, drive, h]

theorem MsDesk.readinessRefusal_of_travel (drive : driveRefusal d.drive.status = none)
    (h : d.ms.positionRefusal = none) :
    d.readinessRefusal p =
      if p.fitted ≠ .none ∧ d.ms.seated = false then some (.wrongState, .extensometerNotSeated, .none) else none := by
  simp [MsDesk.readinessRefusal, drive, h]

end

/-! ## The step -/

/-- The step of a check that fails: MS answers with its status and reason and stays as it is. -/
theorem exec_arm_of_refusal (s : State) (tag : Tag) (ready : s.cp.store ≠ .loading) {st : Status} {r : Reason}
    {pl : Payload} (h : s.msDesk.armRefusal = some (st, r, pl)) :
    exec (.arm tag) s = .next (s.msAnswers (refuse .arm tag st r pl)) := by
  show Host.Outcome.next (s.request .arm tag fun s => s.onMs fun d => d.takeArm tag) = _
  rw [State.request_ready s _ _ _ ready, State.onMs_eq_msAnswers]
  simp [MsDesk.takeArm, h]

/-- MS after accepting ARM (R52, R53). -/
def Ms.armAccepted (m : Ms) (tag : Tag) : Ms :=
  { m with
    state := .arming, cause := .none, armingCount := m.armingCount + 1, armReply := some tag,
    cursor := some { index := 0, phase := .notStarted }, pauses := .empty, pendingTransition := none }

/-- The paths after MS has accepted ARM: the tag to all four of its takers, then the arm copies. -/
def Paths.armAccepted (q : Paths) (n : Nat) (p : Program) (fMax : Int) : Paths :=
  { q with
    msToInlet := q.msToInlet ++ [.arming n]
    msToMc := q.msToMc ++ [.tag (.arming n)]
    msToEs := q.msToEs ++ [.tag (.arming n), .armCopy p.esCopy]
    msToTe := q.msToTe ++ [.tag (.arming n), .armCopy (p.teCopy fMax)] }

theorem MsDesk.acceptArm_does (d : MsDesk) (tag : Tag) (p : Program) :
    d.acceptArm tag p =
      { d with ms := d.ms.armAccepted tag, paths := d.paths.armAccepted (d.ms.armingCount + 1) p d.ms.fMax } := by
  simp [MsDesk.acceptArm, MsDesk.enter_does _ _ _ (show MotionTag.endsTest (.arming _) = false from rfl), Ms.enter,
    DrivePort.enter, Paths.msSends, Paths.armAccepted, Ms.armAccepted, Ms.fMax]

/-- The step of an ARM that passes every check. -/
theorem exec_arm_of_accepted (s : State) (tag : Tag) (p : Program) (ready : s.cp.store ≠ .loading)
    (held : s.ms.program = some p) (h : s.msDesk.armRefusal = none) :
    ∃ t, exec (.arm tag) s = .next t ∧
      t = { s with
        ms := s.ms.armAccepted tag
        paths := (s.paths.armAccepted (s.ms.armingCount + 1) p s.ms.fMax).noticesOf t.paths } := by
  have accepts : s.msDesk.takeArm tag = s.msDesk.acceptArm tag p := by
    have held' : s.msDesk.ms.program = some p := held
    simp [MsDesk.takeArm, h, held']
  refine ⟨s.onMs fun d => d.takeArm tag, congrArg Host.Outcome.next (State.request_ready s _ _ _ ready), ?_⟩
  refine (State.onMs_eq s _).trans ?_
  rw [accepts, MsDesk.acceptArm_does]
  rfl

end Sys2Proof.Machine

open Sys2Proof.Machine in
/-- Settles O31: a step of ARM is the answer of the first check that fails (`exec_arm_of_refusal`) or the acceptance
(`exec_arm_of_accepted`), and the checks fail in the order of R51's table. -/
theorem armRefusedOrAccepted : Obligations.ArmRefusedOrAccepted := by
  constructor
  · intro s tag ready
    have refused {st r pl} := exec_arm_of_refusal s tag ready (st := st) (r := r) (pl := pl)
    refine ⟨fun h => refused (s.msDesk.armRefusal_of_arming h),
      fun h h' => refused (s.msDesk.armRefusal_of_not_idle h h'),
      fun idle h => refused (s.msDesk.armRefusal_of_loads idle h),
      fun idle loads h => refused (s.msDesk.armRefusal_of_no_program idle loads h), fun p idle loads held => ?_⟩
    -- Idle, no load under way, a program held: the tables are next.
    have judged := s.msDesk.armRefusal_of_program p idle loads held
    refine ⟨fun h => refused (judged.trans (MsDesk.programRefusal_of_incomplete _ p h)),
      fun f frame crosshead complete => ?_⟩
    have cal : s.msDesk.ms.summary.Ready f := ⟨frame, crosshead, complete⟩
    refine ⟨fun h => refused (judged.trans (MsDesk.programRefusal_of_arm_missing cal h)),
      fun i arms bareSet h first => refused (judged.trans
        (MsDesk.programRefusal_of_bare cal arms (p.unratedStrain_of_first i bareSet h first))), fun arms rated => ?_⟩
    -- The tables are there and no segment lacks a rate: drive, position and extensometer are next.
    replace judged := judged.trans (MsDesk.programRefusal_of_tables cal arms rated)
    have drives {r} (h : driveRefusal s.drive.status = some r) :=
      refused (judged.trans (MsDesk.readinessRefusal_of_drive h))
    refine ⟨fun h => drives (by rw [h]; rfl), fun st status => ?_⟩
    rw [status] at drives
    refine ⟨fun h => drives (by simp [driveRefusal, h]), fun h h' => drives (by simp [driveRefusal, h, h']),
      fun h h' h'' => drives (by simp [driveRefusal, h, h', h'']), fun fault endSwitch isReady => ?_⟩
    have drive : driveRefusal s.msDesk.drive.status = none :=
      (congrArg driveRefusal status).trans (driveRefusal_of_clear fault endSwitch isReady)
    have positions {r} (h : s.msDesk.ms.positionRefusal = some r) :=
      refused (judged.trans (MsDesk.readinessRefusal_of_position drive h))
    refine ⟨fun h => positions (Ms.positionRefusal_of_no_sample h), fun x last => ?_⟩
    have position := Ms.positionRefusal_of_sample last frame
    refine ⟨fun h => positions (position.trans (if_pos ((outsideTravel_iff x).2 h))),
      fun low high fitted unseated => ?_⟩
    rw [MsDesk.readinessRefusal_of_travel drive (Ms.positionRefusal_of_inside last frame low high)] at judged
    have notSeated : s.msDesk.ms.seated = false :=
      Bool.eq_false_iff.2 fun h => unseated ((Ms.seated_iff _).1 h)
    exact refused (judged.trans (if_pos ⟨fitted, notSeated⟩))
  · intro s tag p f st x ready idle loads held frame crosshead complete armA armB rated status fault endSwitch isReady
      last low high seated
    have noBare (none : p.fitted = .none) (i : Nat) : ¬ p.Bare i := fun ⟨g, hg, strain, bare⟩ =>
      rated none g (List.mem_of_getElem? hg) strain bare
    have drive : driveRefusal s.msDesk.drive.status = none :=
      (congrArg driveRefusal status).trans (driveRefusal_of_clear fault endSwitch isReady)
    have passes : s.msDesk.armRefusal = none := by
      rw [s.msDesk.armRefusal_of_program p idle loads held,
        MsDesk.programRefusal_of_tables ⟨frame, crosshead, complete⟩ ⟨armA, armB⟩ noBare,
        MsDesk.readinessRefusal_of_travel drive (Ms.positionRefusal_of_inside last frame low high)]
      refine if_neg fun ⟨fitted, unseated⟩ => ?_
      exact Bool.eq_false_iff.1 unseated ((Ms.seated_iff _).2 (seated fitted))
    have fMax : s.ms.fMax = f.fMax := by simp [Ms.fMax, frame]
    have accepted := exec_arm_of_accepted s tag p ready held passes
    rwa [fMax] at accepted
end

