-- ==== Sys2Proof/Proofs/EvaluationParametersTaken.lean ====
section
/-! TE's Evaluation Parameters (R47, R48) and the arm copies that ES and TE take (R52): the check of the parameters by
its clamped fields, and the step of each taking. -/

namespace Sys2Proof.Machine

/-! ## The check of the parameters -/

/-- The parameters with each field at the nearest bound of its range (section 3.2). -/
def clampParams (p : EvalParams) : EvalParams :=
  { yieldDrop := clampTo 1 500 p.yieldDrop, yieldMinForce := clampTo 0 2147483647 p.yieldMinForce,
    yieldWindowEnd := clampTo 1 2147483647 p.yieldWindowEnd, transient := clampTo 0 1000000 p.transient,
    fLo := clampTo 0 2147483647 p.fLo, fHi := clampTo 0 2147483647 p.fHi,
    offsetStrain := clampTo 1 1000000 p.offsetStrain, breakDrop := clampTo 1 900 p.breakDrop,
    breakConfirm := clampTo 1 16 p.breakConfirm, breakMinForce := clampTo 0 2147483647 p.breakMinForce }

/-- How many fields the clamps change. -/
def clampedFields (p : EvalParams) : Nat :=
  clampCounts 1 500 p.yieldDrop + clampCounts 0 2147483647 p.yieldMinForce +
    clampCounts 1 2147483647 p.yieldWindowEnd + clampCounts 0 1000000 p.transient +
    clampCounts 0 2147483647 p.fLo + clampCounts 0 2147483647 p.fHi + clampCounts 1 1000000 p.offsetStrain +
    clampCounts 1 900 p.breakDrop + clampCounts 1 16 p.breakConfirm + clampCounts 0 2147483647 p.breakMinForce

/-- R47: the fields are clamped first, and the order of the window is judged on the clamped bounds. -/
theorem checkEvalParams_eq (p : EvalParams) :
    checkEvalParams p =
      if (clampParams p).fLo < (clampParams p).fHi then .ok (clampParams p, clampedFields p)
      else .error ⟨.fitWindowOrder, 0⟩ := by
  simp (disch := decide) only [checkEvalParams, clampField_eq]
  rfl

theorem checkEvalParams_of_ordered (p : EvalParams) (h : (clampParams p).fLo < (clampParams p).fHi) :
    checkEvalParams p = .ok (clampParams p, clampedFields p) := by
  rw [checkEvalParams_eq, if_pos h]

theorem checkEvalParams_of_unordered (p : EvalParams) (h : (clampParams p).fHi ≤ (clampParams p).fLo) :
    checkEvalParams p = .error ⟨.fitWindowOrder, 0⟩ := by
  rw [checkEvalParams_eq, if_neg (by omega)]

/-- A load that passes is installed with its clamps, and MS is told. -/
theorem TeDesk.takeEvalLoad_of_ordered (d : TeDesk) (tag : Tag) (p : EvalParams)
    (h : (clampParams p).fLo < (clampParams p).fHi) :
    d.takeEvalLoad tag (some p) =
      { te := { d.te with loaded := some (clampParams p) }
        paths := (d.paths.sendReply .te (answer .load tag .done (.clampCount (clampedFields p)))).sendTeOutcome
          .done } := by
  simp only [TeDesk.takeEvalLoad, checkEvalParams_of_ordered p h, TeDesk.reply]

/-- A load whose window is out of order leaves the parameters of TE as they are. -/
theorem TeDesk.takeEvalLoad_of_unordered (d : TeDesk) (tag : Tag) (p : EvalParams)
    (h : (clampParams p).fHi ≤ (clampParams p).fLo) :
    d.takeEvalLoad tag (some p) =
      { d with
        paths := (d.paths.sendReply .te (refuse .load tag .badTable .fitWindowOrder (.entryIndex 0))).sendTeOutcome
          .badTable } := by
  simp only [TeDesk.takeEvalLoad, checkEvalParams_of_unordered p h, TeDesk.reply]

/-! ## The steps -/

section
variable (s : State)

/-- With a parameters load at the head of its path, TE takes it and every other block stays. -/
theorem exec_evaluationParametersAtTe_of_waiting (tag : Tag) (l : EvalLoad) (rest : List TeMessage)
    (h : s.paths.msToTe = .params tag l :: rest) :
    exec .evaluationParametersAtTe s =
      .next (s.onTe fun d => TeDesk.takeEvalLoad { d with paths := { d.paths with msToTe := rest } } tag l) := by
  show Host.Outcome.next (s.onTe _) = _
  simp only [State.onTe, h]

theorem exec_readbackEvaluationParameters_of_ready (tag : Tag) (h : s.cp.store ≠ .loading) :
    exec (.readbackEvaluationParameters tag) s =
      .next { s with paths := s.paths.sendReply .te (s.te.readback tag) } :=
  congrArg Host.Outcome.next (State.request_ready s _ _ _ h)

theorem exec_armCopyAtTe_of_waiting (c : TeArmCopy) (rest : List TeMessage) (h : s.paths.msToTe = .armCopy c :: rest) :
    exec .armCopyAtTe s = .next { s with
      te := { s.te with copy := some c, params := some (s.te.loaded.getD (defaultParams c.fMax)) }
      paths := { s.paths with msToTe := rest } } := by
  show Host.Outcome.next (s.onTe _) = _
  simp only [State.onTe, h]

/-- ES sends no notice with its arm copy: its state stays (R169). -/
theorem exec_armCopyAtEs_of_waiting (c : EsArmCopy) (rest : List EsMessage) (h : s.paths.msToEs = .armCopy c :: rest) :
    exec .armCopyAtEs s = .next { s with
      es := { s.es with copy := some c }, paths := { s.paths with msToEs := rest } } := by
  show Host.Outcome.next (s.onEs _) = _
  simp only [State.onEs, h, EsDesk.notice, if_true]

end

end Sys2Proof.Machine

open Sys2Proof.Machine in
/-- Settles O32: each clause is the step of its taking; the two outcomes of a load are those of the check on the clamped
fields (`checkEvalParams_eq`). -/
theorem evaluationParametersAndArmCopiesTaken : Obligations.EvaluationParametersAndArmCopiesTaken := by
  refine ⟨fun s tag p rest waiting => ?load, fun s tag rest waiting => ?removal, fun s tag ready => ?readback,
    exec_armCopyAtTe_of_waiting, exec_armCopyAtEs_of_waiting⟩
  case load =>
    rw [exec_evaluationParametersAtTe_of_waiting s tag (some p) rest waiting]
    constructor
    · intro ordered
      simp only [State.onTe, TeDesk.takeEvalLoad_of_ordered _ tag p ordered]
      rfl
    · intro unordered
      simp only [State.onTe, TeDesk.takeEvalLoad_of_unordered _ tag p unordered]
      rfl
  case removal => exact exec_evaluationParametersAtTe_of_waiting s tag none rest waiting
  case readback => exact exec_readbackEvaluationParameters_of_ready s tag ready
end

