-- ==== Sys2Proof/Proofs/DriveStatusJudged.lean ====
section
/-! The Drive Status Frames (R93 to R95): the frame that a status answers, the faults of the Drive Port as one list, and the
step of a candidate that passes its checks and of one that fails. -/

namespace Sys2Proof.Machine

/-! ## The answered frame (R93) -/

/-- The answered frame is the most recent of its sequence: none of that sequence follows it. -/
theorem answeredEnable_eq_some_iff (h : List (Seq × Bool)) (echo : Seq) (b : Bool) :
    answeredEnable h echo = some b ↔
      ∃ before after, h = before ++ (echo, b) :: after ∧ ∀ e, (echo, e) ∉ after := by
  simp only [answeredEnable, Option.map_eq_some_iff, List.find?_eq_some_iff_append, decide_eq_true_eq]
  constructor
  · rintro ⟨⟨_, _⟩, ⟨rfl, newer, older, split, unlike⟩, rfl⟩
    refine ⟨older.reverse, newer.reverse, ?_, fun e later => ?_⟩
    · simpa using congrArg List.reverse split
    · simpa using unlike (_, e) (List.mem_reverse.1 later)
  · rintro ⟨before, after, rfl, last⟩
    refine ⟨(echo, b), ⟨rfl, after.reverse, before.reverse, by simp, ?_⟩, rfl⟩
    rintro ⟨_, e⟩ later
    simpa using fun same : _ = echo => last e (same ▸ List.mem_reverse.1 later)

/-- A status matches when the history holds a frame of its echoed sequence, with the enable or without. -/
theorem answeredEnable_isSome_iff (h : List (Seq × Bool)) (echo : Seq) :
    (answeredEnable h echo).isSome = true ↔ (echo, true) ∈ h ∨ (echo, false) ∈ h := by
  simp [answeredEnable, or_comm]

theorem answeredEnable_getD (h : List (Seq × Bool)) (echo : Seq) (enabled : Bool)
    (answers : enabled = true ↔ ∃ before after, h = before ++ (echo, true) :: after ∧ ∀ e, (echo, e) ∉ after) :
    (answeredEnable h echo).getD false = enabled := by
  rw [Bool.eq_iff_iff, answers, ← answeredEnable_eq_some_iff]
  rcases answeredEnable h echo with _ | _ <;> simp

/-! ## The faults of the Drive Port (R94, R95) -/

theorem MotionState.active_iff (m : MotionState) : m.active = true ↔ m ≠ .idle ∧ m ≠ .faulted := by
  cases m <;> decide

theorem raises_iff (m : MotionState) (mark : Bool) :
    raises m mark = true ↔ (m ≠ .idle ∧ m ≠ .faulted) ∨ mark = false := by
  simp [raises, MotionState.active_iff]

/-- `p` with faults of the Drive Port, oldest first, each sent to MS, CP and CR. -/
def Paths.driveRaises (p : Paths) (l : List (FaultKind × Event)) : Paths :=
  { p with
    driveFaults := p.driveFaults ++ l.map (·.1)
    events := { p.events with drive := p.events.drive ++ l.map (·.2) }
    triggers := { p.triggers with drive := p.triggers.drive ++ l.map fun e => Trigger.fault e.1 } }

theorem Paths.driveRaises_driveRaises (p : Paths) (l l' : List (FaultKind × Event)) :
    (p.driveRaises l).driveRaises l' = p.driveRaises (l ++ l') := by
  simp [Paths.driveRaises]

theorem Paths.raiseIf_eq_driveRaises (p : Paths) (b : Bool) (k : FaultKind) (e : Event) :
    p.raiseIf b k e = p.driveRaises (if b then [(k, e)] else []) := by
  cases b
  · simp [Paths.raiseIf, Paths.driveRaises]
  · rfl

/-- What a status raises, in order, when its answered frame carried `enabled` (R94, R95). -/
def State.driveRaised (s : State) (st : DriveStatus) (enabled : Bool) : List (FaultKind × Event) :=
  (if st.fault = true ∧ ((s.ms.state ≠ .idle ∧ s.ms.state ≠ .faulted) ∨ s.drive.faultMark = false) then
      [(.driveFault, .driveFault st.code st.echo)] else []) ++
  (if st.endSwitch = true ∧ ((s.ms.state ≠ .idle ∧ s.ms.state ≠ .faulted) ∨ s.drive.endMark = false) then
      [(.endSwitch, .endSwitch st.echo)] else []) ++
  (if st.ready = false ∧ enabled = true ∧
        ((s.ms.state ≠ .idle ∧ s.ms.state ≠ .faulted) ∨ s.drive.notReadyMark = false) then
      [(.driveNotReady, .driveNotReady st.echo)] else [])

/-- The Drive Port after a status whose answered frame carried `enabled` (R93 to R95). -/
def DrivePort.afterStatus (p : DrivePort) (st : DriveStatus) (enabled : Bool) : DrivePort :=
  { p with
    unanswered := if (st.echo, true) ∈ p.history ∨ (st.echo, false) ∈ p.history then 0 else p.unanswered
    status := some st
    faultMark := st.fault
    endMark := st.endSwitch
    notReadyMark := !st.ready && (p.notReadyMark || enabled) }

section
variable (s : State) (st : DriveStatus) {enabled : Bool}
  (answered : (answeredEnable s.drive.history st.echo).getD false = enabled)
include answered

theorem State.takeStatus_drive : (s.msDesk.takeStatus st).drive = s.drive.afterStatus st enabled := by
  have mark : (!st.ready && (s.drive.notReadyMark || (!st.ready && enabled))) =
      (!st.ready && (s.drive.notReadyMark || enabled)) := by cases st.ready <;> rfl
  simp only [MsDesk.takeStatus, State.msDesk, DrivePort.afterStatus, answered, mark, answeredEnable_isSome_iff]

theorem State.takeStatus_paths :
    (s.msDesk.takeStatus st).paths = s.paths.driveRaises (s.driveRaised st enabled) := by
  simp only [MsDesk.takeStatus, State.msDesk, State.driveRaised, answered, Paths.raiseIf_eq_driveRaises,
    Paths.driveRaises_driveRaises, Bool.and_eq_true, Bool.not_eq_true', raises_iff, and_assoc]

/-- A status taken leaves MS as it is; the notices apart, it changes the Drive Port and what that raises. -/
theorem takeDriveStatus_eq :
    takeDriveStatus st s = { s with
      drive := s.drive.afterStatus st enabled
      paths := (s.paths.driveRaises (s.driveRaised st enabled)).noticesOf (takeDriveStatus st s).paths } := by
  refine (State.onMs_eq s _).trans ?_
  rw [s.takeStatus_drive st answered, s.takeStatus_paths st answered]
  rfl

end

/-! ## A candidate of the DRIVE link (R93, R172) -/

/-- A candidate that passes leaves the receiver in HUNT, and its status is taken. -/
theorem exec_driveStatusFrame_of_passes (s : State) (bs : List Byte) (st : DriveStatus)
    (h : readDriveStatus bs = some st) :
    exec (.driveStatusFrame bs) s =
      .next (takeDriveStatus st { s with rx := { s.rx with drive := .hunt } }) := by
  show Host.Outcome.next (s.candidate .drive bs) = _
  simp [State.candidate, candidatePasses, State.handOn, h, Receivers.set]

/-- Bytes without a delimiter hold no candidate, and on DRIVE no link control character. -/
theorem scan_drive_of_no_delimiter (loading : Bool) (bs : List Byte) (h : ∀ b ∈ bs, b ≠ delimiter) :
    scan .drive loading 0 bs = ([], []) := by
  induction bs with
  | nil => rfl
  | cons b bs ih =>
    obtain ⟨other, rest⟩ := List.forall_mem_cons.1 h
    simp [scan, other, ih rest, huntItem]

/-- A candidate that fails with no delimiter behind its first byte is one link error; the receiver is in HUNT. -/
theorem exec_driveStatusFrame_of_fails (s : State) (bs : List Byte) (h : readDriveStatus bs = none)
    (single : ∀ b ∈ bs.drop 1, b ≠ delimiter) :
    exec (.driveStatusFrame bs) s = .next { s with
      rx := { s.rx with drive := .hunt }, paths := s.paths.sendDriveError } := by
  show Host.Outcome.next (s.candidate .drive bs) = _
  simp only [State.candidate, candidatePasses, h, State.candidateFails, scan_drive_of_no_delimiter _ _ single]
  rfl

end Sys2Proof.Machine

open Sys2Proof.Machine in
/-- Settles O43: the status that passes is taken with the enable of the frame it answers (`answeredEnable_getD`,
`takeDriveStatus_eq`); the candidate that fails leaves nothing to examine (`exec_driveStatusFrame_of_fails`). -/
theorem driveStatusMatchedAndJudged : Obligations.DriveStatusMatchedAndJudged := by
  refine ⟨fun s bs st enabled passes answers => ?_, exec_driveStatusFrame_of_fails⟩
  exact ⟨_, exec_driveStatusFrame_of_passes s bs st passes,
    takeDriveStatus_eq _ st (answeredEnable_getD _ _ _ answers)⟩
end

