-- ==== Sys2Proof/Proofs/ExtensometerSupervision.lean ====
section
/-! What ES takes from MS (R97 to R100, R114): the state that a motion state tag leaves, by the state that it names, and the
steps of a tag and of a program notice. -/

namespace Sys2Proof.Machine

/-! ## ES on a motion state tag -/

section
variable (e : Es) (m : MotionTag)

/-- ES keeps the tag, and what the previous test left is ended (R99, R100). -/
def Es.clearedUnder : Es := Es.clearTest { e with tag := m }

/-- The removal timer once FAULTED is taken: REMOVAL_PENDING stops it, every other state keeps what it has (R114). -/
def Es.timerInFaulted : Option Nat :=
  match e.state with
  | .removalPending _ => none
  | _ => e.timer

variable {e m}

theorem Es.onTag_of_idle (idle : m.state = .idle) :
    e.onTag m = { e.clearedUnder m with state := e.judge } := by
  cases m with
  | idle _ => rfl
  | _ => cases idle

/-- Without a fitted arm there is nothing to supervise. -/
theorem Es.onTag_armed_of_no_source (unfitted : topSource e.copyFitted = none) :
    e.onTag .armed = { e.clearedUnder .armed with state := .notFitted } := by
  simp only [Es.onTag, unfitted]
  rfl

/-- Supervision starts at the top source of the fitted set. -/
theorem Es.onTag_armed_of_source {top : Source} (fitted : topSource e.copyFitted = some top) :
    e.onTag .armed = { e.clearedUnder .armed with state := .active, sourceSeen := some top } := by
  simp only [Es.onTag, fitted]
  rfl

theorem Es.onTag_of_faulted (faulted : m.state = .faulted) :
    e.onTag m = { e with tag := m, timer := e.timerInFaulted } := by
  cases m with
  | faulted _ => simp only [Es.onTag, Es.timerInFaulted]; cases e.state <;> rfl
  | _ => cases faulted

theorem Es.onTag_of_other (idle : m.state ≠ .idle) (armed : m.state ≠ .armed) (faulted : m.state ≠ .faulted) :
    e.onTag m = { e with tag := m } := by
  cases m with
  | idle _ => exact absurd rfl idle
  | armed => exact absurd rfl armed
  | faulted _ => exact absurd rfl faulted
  | jogging | arming _ | running | paused | stopped _ => rfl

end

/-- The fitted set of the arm copy that ES holds. -/
theorem Es.copyFitted_of_copy {e : Es} {c : EsArmCopy} (h : e.copy = some c) : e.copyFitted = c.fitted := by
  simp [Es.copyFitted, h]

/-! ## ES on a program notice -/

/-- ES with the fitted set and the generation of a notice, seating judged again before a test (R98). -/
def Es.noticed (e : Es) (generation : Nat) (fitted : Option Fitted) : Es :=
  { e with
    fitted := fitted, generation := generation
    state := if e.tag.state.judgesSeating then Es.judge { e with fitted := fitted } else e.state }

theorem EsDesk.takeNotice_eq (d : EsDesk) (generation : Nat) (fitted : Option Fitted) :
    d.takeNotice generation fitted = EsDesk.sendTag { d with es := d.es.noticed generation fitted } := by
  simp only [EsDesk.takeNotice, Es.noticed]
  split <;> rfl

/-! ## The steps -/

section
variable (s : State) (rest : List EsMessage)

/-- A tag at the head of the path of MS to ES is taken; ES's own tag follows a change of state name. -/
theorem exec_esStateTag_of_waiting {m : MotionTag} {e : Es} (waiting : s.paths.msToEs = .tag m :: rest)
    (becomes : s.es.onTag m = e) :
    exec .esStateTag s = .next
      (s.esDoes { s.paths with msToEs := rest } e (decide (e.state.name ≠ s.es.state.name)) [] []) := by
  subst becomes
  refine congrArg Host.Outcome.next (s.onEs_eq_esDoes _ _ _ _ [] [] ?_ ?_) <;>
    simp [waiting, EsDesk.takeTag, EsDesk.tagIfChanged_does]

/-- A notice at the head of the path is taken; ES's own tag follows in every case. -/
theorem exec_programNoticeAtEs_of_waiting {n : Nat} {fitted : Option Fitted}
    (waiting : s.paths.msToEs = .notice n fitted :: rest) :
    exec .programNoticeAtEs s = .next
      (s.esDoes { s.paths with msToEs := rest } (s.es.noticed n fitted) true [] []) := by
  refine congrArg Host.Outcome.next (s.onEs_eq_esDoes _ _ _ _ [] [] ?_ ?_) <;>
    simp [waiting, EsDesk.takeNotice_eq, EsDesk.sendTag]

end

end Sys2Proof.Machine

open Sys2Proof.Machine in
/-- Settles O44: the step of a tag is `Es.onTag` by the state that the tag names, the step of a notice `Es.noticed`; both judge
seating by `Es.judge_eq`. -/
theorem esTakesTagsAndNotices : Obligations.EsTakesTagsAndNotices := by
  refine ⟨fun s m rest waiting =>
      ⟨fun idle => ?idle, fun c armed copy => ?armed, fun faulted => ?faulted, fun other => ?other⟩,
    fun s n fitted rest waiting => ?notice⟩
  case idle =>
    refine exec_esStateTag_of_waiting s rest waiting ?_
    rw [Es.onTag_of_idle idle, Es.judge_eq]
    rfl
  case armed =>
    subst armed
    refine exec_esStateTag_of_waiting s rest waiting ?_
    have copied := Es.copyFitted_of_copy copy
    cases fitted : c.fitted with
    | none => exact Es.onTag_armed_of_no_source (by rw [copied, fitted]; rfl)
    | both | armA | armB => exact Es.onTag_armed_of_source (by rw [copied, fitted]; rfl)
  case faulted => exact exec_esStateTag_of_waiting s rest waiting (Es.onTag_of_faulted faulted)
  case other =>
    refine exec_esStateTag_of_waiting s rest waiting (Es.onTag_of_other ?_ ?_ ?_) <;>
      rcases other with h | h | h | h | h <;> simp [h]
  case notice =>
    rw [exec_programNoticeAtEs_of_waiting s rest waiting]
    simp only [Es.noticed, MotionState.judgesSeating_iff, Es.judge_eq] <;> rfl
end

