-- ==== Sys2Proof/Proofs/SnapshotHold.lean ====
section
/-! The results store (R138 to R142, R144): a publication by the hold state, what SNAP_RELEASE and an expiry leave, the answer
of a read, and the step of each command. -/

namespace Sys2Proof.Machine

/-! ## The store by its hold state -/

/-- The published record and the publication count are all that a publication changes, and under a hold it changes neither
(R139). -/
theorem Te.publish_eq_ite (t : Te) :
    t.publish = { t with
      published := if t.hold = .free then t.working else t.published
      count := if t.hold = .free then countUp t.count else t.count } := by
  unfold Te.publish
  split
  · next free => rw [if_pos free, if_pos free]; rfl
  · next held => rw [if_neg (by simp [held]), if_neg (by simp [held])]

/-- A hold released publishes, whether or not the working record changed under it (R141). -/
theorem Te.release_of_held {t : Te} (held : t.hold = .held) :
    t.release = { t with
      hold := .free, holdTimer := none, expired := none, published := t.working, count := countUp t.count } := by
  simp only [Te.release, held, Te.copyOut]

/-- With no hold to release, the expired indication is cleared and nothing is published (R141). -/
theorem Te.release_of_free {t : Te} (free : t.hold = .free) : t.release = { t with expired := none } := by
  simp only [Te.release, free]

theorem Te.releaseFound_of_held {t : Te} (held : t.hold = .held) : t.releaseFound = .held := by
  simp only [Te.releaseFound, held]

theorem Te.releaseFound_of_free {t : Te} (free : t.hold = .free) :
    t.releaseFound = if t.expired = none then .none else .expired := by
  cases expired : t.expired <;> simp [Te.releaseFound, free, expired]

/-- A hold that expires publishes, and the event carries the count that results (R142). -/
theorem TeDesk.expireHold_of_held {d : TeDesk} {us : Nat} (held : d.te.hold = .held) (running : d.te.holdTimer = some us) :
    d.expireHold =
      { te := { d.te with
          hold := .free, holdTimer := none, expired := some .timer, published := d.te.working,
          count := countUp d.te.count }
        paths := d.paths.sendEvent .te (.holdExpired .timer (countUp d.te.count)) } := by
  simp only [TeDesk.expireHold, held, running, TeDesk.holdExpired, TeDesk.event, Te.copyOut]

/-- While the expired indication stands, a read says so (R144). -/
theorem Te.readStatus_eq_ite (t : Te) : t.readStatus = if t.expired = none then .done else .holdExpired := by
  cases expired : t.expired <;> simp [Te.readStatus, expired]

/-! ## The steps -/

section
variable (s : State)

theorem exec_segmentLogEntry_of_waiting (e : LogEntry) (rest : List TeMessage) (h : s.paths.msToTe = .entry e :: rest) :
    exec .segmentLogEntry s = .next { s with
      te := (s.te.onWorking fun r => { r with log := r.log ++ [e] }).publish
      paths := { s.paths with msToTe := rest } } := by
  show Host.Outcome.next (s.onTe _) = _
  simp only [State.onTe, h]

theorem exec_holdTimerExpiry_of_held {us : Nat} (held : s.te.hold = .held) (running : s.te.holdTimer = some us) :
    exec .holdTimerExpiry s = .next { s with
      te := { s.te with
        hold := .free, holdTimer := none, expired := some .timer, published := s.te.working,
        count := countUp s.te.count }
      paths := s.paths.sendEvent .te (.holdExpired .timer (countUp s.te.count)) } := by
  show Host.Outcome.next (s.onTe _) = _
  simp only [State.onTe, TeDesk.expireHold_of_held (d := ⟨s.te, s.paths⟩) held running]

variable (tag : Tag) (ready : s.cp.store ≠ .loading)
include ready

/-- SNAP_HOLD restarts the timer of a hold already there, and the answer tells the hold state found (R140). -/
theorem exec_snapHold_of_ready :
    exec (.snapHold tag) s = .next { s with
      te := { s.te with hold := .held, holdTimer := some 1000000, expired := none }
      paths := s.paths.sendReply .te (answer .snapHold tag .done (.snapHold s.te.count s.te.hold)) } :=
  congrArg Host.Outcome.next (State.request_ready s _ _ _ ready)

/-- SNAP_RELEASE answers the count that it leaves and what it found (R141). -/
theorem exec_snapRelease_of_ready :
    exec (.snapRelease tag) s = .next { s with
      te := s.te.release
      paths := s.paths.sendReply .te
        (answer .snapRelease tag .done (.snapRelease s.te.release.count s.te.releaseFound)) } :=
  congrArg Host.Outcome.next (State.request_ready s _ _ _ ready)

/-- READ_RESULTS changes nothing in the store (R144). -/
theorem exec_readResults_of_ready (part : Byte) :
    exec (.readResults tag part) s = .next { s with paths := s.paths.sendReply .te (s.te.read tag part) } :=
  congrArg Host.Outcome.next (State.request_ready s _ _ _ ready)

end

end Sys2Proof.Machine

open Sys2Proof.Machine in
/-- Settles O52: each clause is the step of its command, with the store that the hold state decides (`Te.publish_eq_ite`,
`Te.release_of_held`, `Te.release_of_free`, `TeDesk.expireHold_of_held`). -/
theorem resultsStoreHoldsPublishesAndReads : Obligations.ResultsStoreHoldsPublishesAndReads := by
  refine ⟨fun s e rest waiting w appended => ?entry,
    fun s tag ready => ⟨exec_snapHold_of_ready s tag ready, fun held n counted => ?releaseHeld, fun free => ?releaseFree,
      fun part => ?read⟩,
    fun s us held running n counted => ?expiry⟩
  case entry =>
    subst appended
    rw [exec_segmentLogEntry_of_waiting s e rest waiting, Te.publish_eq_ite]
    rfl
  case releaseHeld =>
    subst counted
    rw [exec_snapRelease_of_ready s tag ready, Te.releaseFound_of_held held, Te.release_of_held held]
    rfl
  case releaseFree =>
    rw [exec_snapRelease_of_ready s tag ready, Te.releaseFound_of_free free, Te.release_of_free free]
  case read =>
    rw [exec_readResults_of_ready s tag ready part, Te.read, Te.readStatus_eq_ite]
  case expiry =>
    subst counted
    exact exec_holdTimerExpiry_of_held s held running
end

