-- ==== Sys2Proof/Proofs/ReportTransmission.lean ====
section
/-! Reports and samples at CP (R160, R161): a Sample Report offered, a sample taken, and the step of each command. -/

namespace Sys2Proof.Machine

/-! ## Samples taken and streamed (R161) -/

/-- The places that R161 keeps free, in places taken. -/
theorem Cp.sampleRoom_iff (c : Cp) : Config.queueReserve + 1 ≤ c.free ↔ c.queue.length ≤ 47 := by
  unfold Cp.free
  simp only [Config.queueReserve, Config.queuePlaces]
  omega

/-- R161's rule for a Sample Report. -/
theorem Cp.offerSample_eq_ite (c : Cp) (x : Conditioned) :
    c.offerSample x =
      if c.queue.length ≤ 47 ∧ ∀ n ∈ c.lastStreamed, n < x.number then
        Cp.begun { c with queue := c.queue ++ [.sample x], lastStreamed := some x.number }
      else c := by
  unfold Cp.offerSample
  simp only [Cp.sampleRoom_iff, Cp.startTransmission_eq_begun]

/-- A sample whose number is no multiple of D is taken without being offered; one that is offered and refused leaves as
much. -/
theorem Cp.takeSample_eq_ite (c : Cp) (x : Sample) :
    c.takeSample x =
      if c.stream = true ∧ x.number % c.decimation = 0 ∧ c.queue.length ≤ 47 ∧ (∀ n ∈ c.lastStreamed, n < x.number) then
        Cp.begun { c with
          lastSample := some x.number, lastStreamed := some x.number
          queue := c.queue ++ [.sample x.toConditioned] }
      else { c with lastSample := some x.number } := by
  by_cases due : c.stream = true ∧ x.number % c.decimation = 0
  · obtain ⟨on, multiple⟩ := due
    simp only [Cp.takeSample, Cp.offerSample_eq_ite, on, multiple, true_and]
    rfl
  · have notQueued : ¬ (c.stream = true ∧ x.number % c.decimation = 0 ∧ c.queue.length ≤ 47 ∧
        ∀ n ∈ c.lastStreamed, n < x.number) := fun ⟨on, multiple, _⟩ => due ⟨on, multiple⟩
    simp only [Cp.takeSample, if_neg due, if_neg notQueued]

/-! ## The steps -/

/-- The head report transmitted leaves the queue for the line (R160). -/
theorem CpDesk.finishReport_of_transmitting {d : CpDesk} {r : Report} {rest : List Report}
    (transmitting : d.cp.transmitting = true) (queue : d.cp.queue = r :: rest) :
    d.finishReport = { d with
      cp := Cp.begun { d.cp with queue := rest, transmitting := false }
      line := d.line ++ [r.frame] } := by
  simp only [CpDesk.finishReport, transmitting, queue, Cp.startTransmission_eq_begun]

theorem CpDesk.finishReport_of_not_transmitting {d : CpDesk} (idle : d.cp.transmitting = false) : d.finishReport = d := by
  simp only [CpDesk.finishReport, idle]

section
variable (s : State)

theorem exec_reportTransmitted_of_transmitting {r : Report} {rest : List Report} (queue : s.cp.queue = r :: rest)
    (transmitting : s.cp.transmitting = true) :
    exec .reportTransmitted s = .next { s with
      cp := Cp.begun { s.cp with queue := rest, transmitting := false }
      consoleLine := s.consoleLine ++ [r.frame] } := by
  show Host.Outcome.next (s.onCp _) = _
  simp only [State.onCp,
    CpDesk.finishReport_of_transmitting (d := ⟨s.cp, s.paths, s.consoleLine⟩) transmitting queue]

theorem exec_reportTransmitted_of_not_transmitting (idle : s.cp.transmitting = false) : exec .reportTransmitted s = .next s := by
  show Host.Outcome.next (s.onCp _) = _
  simp only [State.onCp, CpDesk.finishReport_of_not_transmitting (d := ⟨s.cp, s.paths, s.consoleLine⟩) idle]

theorem exec_go_eq : exec .go s = .next { s with cp := Cp.begun { s.cp with hold := .go } } := by
  show Host.Outcome.next { s with cp := s.cp.takeGo } = _
  rw [Cp.takeGo, Cp.startTransmission_eq_begun]

theorem exec_conditionedSampleAtCp_of_waiting {x : Sample} {rest : List Sample} (waiting : s.paths.samplesCp = x :: rest) :
    exec .conditionedSampleAtCp s = .next { s with
      paths := { s.paths with samplesCp := rest }
      cp := s.cp.takeSample x } := by
  show Host.Outcome.next (s.onCp _) = _
  simp only [State.onCp, waiting]

end

end Sys2Proof.Machine

open Sys2Proof.Machine in
/-- Settles O55: a transmission is `CpDesk.finishReport`, GO starts the head report by `Cp.startTransmission_eq_begun`, and a
sample is queued by the four conditions that `Cp.takeSample_eq_ite` joins. -/
theorem reportsTransmittedAndSamplesStreamed : Obligations.ReportsTransmittedAndSamplesStreamed := by
  refine ⟨fun s r rest queue transmitting => exec_reportTransmitted_of_transmitting s queue transmitting,
    exec_reportTransmitted_of_not_transmitting, fun s => ?hold, exec_go_eq, fun s x rest waiting => ?sample⟩
  case hold => rfl
  case sample => rw [exec_conditionedSampleAtCp_of_waiting s waiting, Cp.takeSample_eq_ite]
end

