-- ==== Sys2Proof/Proofs/StepMoves.lean ====
section
/-! What a step can do, said once: the moves of each block on its desk, and that every command but RESET is a row of
moves brought about by a link or by requests, or one taking of the command itself. Every statement about all steps is
proved by cases on these moves. -/

namespace Sys2Proof.Machine

open Relation (ReflTransGen)

/-! ## The moves of each block

The index tells what brings a move about: `some c` is the taking that the command `c` names, `none` a request or a frame
that a link hands on. -/

inductive InletMove (d : InletDesk) : Option Instr → InletDesk → Prop
  | frame (f : SampleFrame) : InletMove d none (d.takeFrame f)
  | silence (n : Option Nat) : InletMove d (some .inletSilent) (d.takeSilence n)
  | tag (t : MotionTag) (rest : List MotionTag) (h : d.paths.msToInlet = t :: rest) :
    InletMove d (some .inletStateTag) ⟨d.inlet.takeTag t, { d.paths with msToInlet := rest }⟩

inductive McMove (d : McDesk) : Option Instr → McDesk → Prop
  | reply (r : Reply) : McMove d none { d with paths := d.paths.sendReply .mc r }
  | tare (tag : Tag) :
    McMove d none (d.takeZero .tare tag fun m => { m with pendTare := m.pendTare ++ [tag] })
  | zeroExt (tag : Tag) :
    McMove d none (d.takeZero .zeroExt tag fun m => { m with pendZeroExt := m.pendZeroExt ++ [tag] })
  | zeroPosition (tag : Tag) :
    McMove d none (d.takeZero .zeroPosition tag fun m => { m with pendZeroPosition := m.pendZeroPosition ++ [tag] })
  | convert (g : GoodFrame) (rest : List GoodFrame) (h : d.paths.inletToMc = g :: rest) :
    McMove d (some .conditionedSampleConversion) (McDesk.convert { d with paths := { d.paths with inletToMc := rest } } g)
  | tag (t : MotionTag) (rest : List McMessage) (h : d.paths.msToMc = .tag t :: rest) :
    McMove d (some .mcStateTag) (McDesk.takeTag { d with paths := { d.paths with msToMc := rest } } t)
  | load (c : Instr) (tag : Tag) (l : CalLoad) (rest : List McMessage) (h : d.paths.msToMc = .load tag l :: rest) :
    McMove d (some c) (McDesk.takeLoad { d with paths := { d.paths with msToMc := rest } } tag l)
  | notice (g : Nat) (p : Option McProgram) (rest : List McMessage) (h : d.paths.msToMc = .notice g p :: rest) :
    McMove d (some .programNoticeAtMc)
      ⟨{ d.mc with program := p, generation := g }, { d.paths with msToMc := rest }⟩
  | dropArm (x : ArmId) (rest : List ArmId) (h : d.paths.dropArms = x :: rest) :
    McMove d (some .dropArmRequest)
      ⟨{ d.mc with dropArms := d.mc.dropArms ++ [x] }, { d.paths with dropArms := rest }⟩
  | storeDone (h : d.paths.storeDone ≠ 0) :
    McMove d (some .storeDoneNotice)
      ⟨{ d.mc with storeInFlight := false }, { d.paths with storeDone := d.paths.storeDone - 1 }⟩

inductive StoreMove (d : StoreDesk) : Option Instr → StoreDesk → Prop
  | header (bytes : List Byte) : StoreMove d (some (.autoloadHeaderRead bytes)) (d.takeHeader bytes)
  | image (bytes : List Byte) : StoreMove d (some (.autoloadImageRead bytes)) (d.takeImage bytes)
  | autoloadFails (c : Instr) (r : StoreReason) (h : d.sp.state = .loading) :
    StoreMove d (some c) (d.failAutoload r)
  | store (tag : Tag) (rest : List McMessage) (h : d.paths.msToMc = .store tag :: rest) :
    StoreMove d (some .storeAtMc) (StoreDesk.takeStore { d with paths := { d.paths with msToMc := rest } } tag)
  | written : StoreMove d (some .writeComplete) d.verify
  | readBack (bytes : List Byte) : StoreMove d (some (.readBackComplete bytes)) (d.takeReadBack bytes)
  | storeFails (c : Instr) (r : Reason) (e : StoreReason) (h : d.sp.storing = true) :
    StoreMove d (some c) (d.failStore r e)

inductive MsMove (d : MsDesk) : Option Instr → MsDesk → Prop
  | readback (tag : Tag) (pointer count : Byte) : MsMove d none (d.reply (d.ms.readback tag pointer count))
  | program (tag : Tag) (l : ProgramLoad) : MsMove d none (d.takeProgram tag l)
  | calLoad (tag : Tag) (l : CalLoad) : MsMove d none (d.takeCalLoad tag l)
  | evalLoad (tag : Tag) (l : EvalLoad) : MsMove d none (d.takeEvalLoad tag l)
  | store (tag : Tag) : MsMove d none (d.takeStore tag)
  | arm (tag : Tag) : MsMove d none (d.takeArm tag)
  | start (tag : Tag) : MsMove d none (d.takeStart tag)
  | stop (tag : Tag) : MsMove d none (d.takeStop tag)
  | abort (tag : Tag) : MsMove d none (d.takeAbort tag)
  | resetTest (tag : Tag) : MsMove d none (d.takeResetTest tag)
  | pause (tag : Tag) : MsMove d none (d.takePause tag)
  | resume (tag : Tag) : MsMove d none (d.takeResume tag)
  | jog (tag : Tag) (rate : Int) : MsMove d none (d.takeJog tag rate)
  | jogStop (tag : Tag) : MsMove d none (d.takeJogStop tag)
  | status (st : DriveStatus) : MsMove d none (d.takeStatus st)
  | outcome (b : OutcomeSource) : MsMove d (some (.loadOutcome b)) (d.takeOutcome b)
  | summary : MsMove d (some .calibrationSummary) d.takeSummary
  | fault (b : FaultSource) (k : FaultKind) (rest : List FaultKind) (h : d.paths.faultsOf b = k :: rest) :
    MsMove d (some (.faultEventAtMs b)) (MsDesk.takeFault { d with paths := d.paths.setFaults b rest } k)
  | criterion (e : CriterionEvent) (x : TeEvent) (rest : List TeEvent) (h : d.paths.teToMs = x :: rest) :
    MsMove d (some .criterionEventAtMs) (MsDesk.criterionEvent { d with paths := { d.paths with teToMs := rest } } e)
  | hold (h : d.paths.holds ≠ 0) :
    MsMove d (some .extRemovalHold) (MsDesk.takeHold { d with paths := { d.paths with holds := d.paths.holds - 1 } })
  | removed (rest : List RemovalMessage) (h : d.paths.removals = .complete :: rest) :
    MsMove d (some .removalComplete) (MsDesk.takeRemovalComplete { d with paths := { d.paths with removals := rest } })
  | timeout (rest : List RemovalMessage) (h : d.paths.removals = .timeout :: rest) :
    MsMove d (some .removalTimeout) (MsDesk.takeRemovalTimeout { d with paths := { d.paths with removals := rest } })
  | brk (n : Nat) (rest : List TeEvent) (h : d.paths.teToMs = .brk n :: rest) :
    MsMove d (some .breakAtMs) (MsDesk.takeBreak { d with paths := { d.paths with teToMs := rest } })
  | extTag (t : ExtTag) (rest : List ExtTag) (h : d.paths.extTags = t :: rest) :
    MsMove d (some .extensometerTag)
      { d with ms := { d.ms with extTag := t }, paths := { d.paths with extTags := rest } }

inductive EsMove (d : EsDesk) : Option Instr → EsDesk → Prop
  | remove (tag : Tag) : EsMove d none (d.takeRemove tag)
  | confirm (tag : Tag) : EsMove d none (d.takeConfirm tag)
  | sample (x : Sample) (rest : List Sample) (h : d.paths.samplesEs = x :: rest) :
    EsMove d (some .conditionedSampleAtEs) (EsDesk.takeSample { d with paths := { d.paths with samplesEs := rest } } x)
  | notice (g : Nat) (f : Option Fitted) (rest : List EsMessage) (h : d.paths.msToEs = .notice g f :: rest) :
    EsMove d (some .programNoticeAtEs) (EsDesk.takeNotice { d with paths := { d.paths with msToEs := rest } } g f)
  | armCopy (c : EsArmCopy) (rest : List EsMessage) (h : d.paths.msToEs = .armCopy c :: rest) :
    EsMove d (some .armCopyAtEs) ⟨{ d.es with copy := some c }, { d.paths with msToEs := rest }⟩
  | tag (t : MotionTag) (rest : List EsMessage) (h : d.paths.msToEs = .tag t :: rest) :
    EsMove d (some .esStateTag) (EsDesk.takeTag { d with paths := { d.paths with msToEs := rest } } t)
  | criterion (c : Criterion) (n : Nat) (e : Int) (x : TeEvent) (rest : List TeEvent)
      (h : d.paths.teToEs = x :: rest) :
    EsMove d (some .removalEventAtEs) (EsDesk.takeCriterion { d with paths := { d.paths with teToEs := rest } } c n e)
  | expiry : EsMove d (some .removalTimerExpiry) d.expireRemoval
  | brk (n : Nat) (rest : List TeEvent) (h : d.paths.teToEs = .brk n :: rest) :
    EsMove d (some .breakAtEs) (EsDesk.takeBreak { d with paths := { d.paths with teToEs := rest } } n)

inductive TeMove (d : TeDesk) : Option Instr → TeDesk → Prop
  | reply (r : Reply) : TeMove d none (d.reply r)
  | hold (tag : Tag) : TeMove d none (d.takeHold tag)
  | release (tag : Tag) : TeMove d none (d.takeRelease tag)
  | sample (x : Sample) (rest : List Sample) (h : d.paths.samplesTe = x :: rest) :
    TeMove d (some .conditionedSampleAtTe) (TeDesk.takeSample { d with paths := { d.paths with samplesTe := rest } } x)
  | params (tag : Tag) (l : EvalLoad) (rest : List TeMessage) (h : d.paths.msToTe = .params tag l :: rest) :
    TeMove d (some .evaluationParametersAtTe) (TeDesk.takeEvalLoad { d with paths := { d.paths with msToTe := rest } } tag l)
  | armCopy (c : TeArmCopy) (rest : List TeMessage) (h : d.paths.msToTe = .armCopy c :: rest) :
    TeMove d (some .armCopyAtTe)
      ⟨{ d.te with copy := some c, params := some (d.te.loaded.getD (defaultParams c.fMax)) },
        { d.paths with msToTe := rest }⟩
  | tag (t : MotionTag) (rest : List TeMessage) (h : d.paths.msToTe = .tag t :: rest) :
    TeMove d (some .teStateTag) (TeDesk.takeTag { d with paths := { d.paths with msToTe := rest } } t)
  | entry (e : LogEntry) (rest : List TeMessage) (h : d.paths.msToTe = .entry e :: rest) :
    TeMove d (some .segmentLogEntry)
      ⟨(d.te.onWorking fun r => { r with log := r.log ++ [e] }).publish, { d.paths with msToTe := rest }⟩
  | expiry : TeMove d (some .holdTimerExpiry) d.expireHold

inductive CrMove (d : CrDesk) : Option Instr → CrDesk → Prop
  | set (tag : Tag) (enable : Bool) (post : Nat) (mask : BitVec 5) :
    CrMove d none (d.takeSet tag enable post mask)
  | consoleTrigger (tag : Tag) : CrMove d none (d.takeConsoleTrigger tag)
  | drain (tag : Tag) (count : Nat) : CrMove d none (d.takeDrain tag count)
  | rearm (tag : Tag) : CrMove d none (d.takeRearm tag)
  | sample (x : Sample) (rest : List Sample) (h : d.paths.samplesCr = x :: rest) :
    CrMove d (some .conditionedSampleAtCr) (CrDesk.takeSample { d with paths := { d.paths with samplesCr := rest } } x)
  | trigger (b : Block) (t : Trigger) (rest : List Trigger) (h : d.paths.triggers.get b = t :: rest) :
    CrMove d (some (.triggerEventAtCr b))
      (CrDesk.takeTrigger { d with paths := { d.paths with triggers := d.paths.triggers.set b rest } } t)

/-- What CP does to its own state without taking from a path. -/
inductive CpChange (c : Cp) : Cp → Prop
  | answer (r : Reply) : CpChange c (c.offerReply r)
  | linkError (l : Link) : CpChange c (c.takeLinkError l)
  | hold : CpChange c c.takeHold
  | go : CpChange c c.takeGo
  | endPulse : CpChange c c.endPulse
  | stream (tag : Tag) (enable : Bool) (n : Nat) : CpChange c (c.takeStreamSet tag enable n)
  | clear (tag : Tag) (flags : BitVec 16) : CpChange c (c.takeClear tag flags)
  | mask (tag : Tag) (flags : BitVec 16) : CpChange c (c.takeMaskSet tag flags)
  | mode (tag : Tag) (mode : Byte) : CpChange c (c.takeAttnMode tag mode)

inductive CpMove (d : CpDesk) : Option Instr → CpDesk → Prop
  | frontError : CpMove d (some (.linkError .front))
      { d with cp := d.cp.takeLinkError .front, paths := { d.paths with frontErrors := d.paths.frontErrors - 1 } }
  | driveError : CpMove d (some (.linkError .drive))
      { d with cp := d.cp.takeLinkError .drive, paths := { d.paths with driveErrors := d.paths.driveErrors - 1 } }
  | storeState (x : StoreState) (rest : List StoreState) (h : d.paths.storeStates = x :: rest) :
    CpMove d (some .storeStateNotice)
      { d with cp := { d.cp with store := x }, paths := { d.paths with storeStates := rest } }
  | motion (n : MsNotice) (rest : List MsNotice) (h : d.paths.msNotices = n :: rest) :
    CpMove d (some (.statusNotice .ms))
      { d with cp := { d.cp with motion := n }, paths := { d.paths with msNotices := rest } }
  | ext (n : ExtState) (rest : List ExtState) (h : d.paths.esNotices = n :: rest) :
    CpMove d (some (.statusNotice .es))
      { d with cp := { d.cp with ext := n }, paths := { d.paths with esNotices := rest } }
  | capture (n : CrNotice) (rest : List CrNotice) (h : d.paths.crNotices = n :: rest) :
    CpMove d (some (.statusNotice .cr))
      { d with cp := { d.cp with capture := n }, paths := { d.paths with crNotices := rest } }
  | event (b : Block) (e : Event) (rest : List Event) (h : d.paths.events.get b = e :: rest) :
    CpMove d (some (.eventAtCp b))
      { d with cp := d.cp.takeEvent e, paths := { d.paths with events := d.paths.events.set b rest } }
  | reply (b : Block) (r : Reply) (rest : List Reply) (h : d.paths.replies.get b = r :: rest) :
    CpMove d (some (.replyReport b))
      { d with cp := d.cp.offerReply r, paths := { d.paths with replies := d.paths.replies.set b rest } }
  | transmitted : CpMove d (some .reportTransmitted) d.finishReport
  | sample (x : Sample) (rest : List Sample) (h : d.paths.samplesCp = x :: rest) :
    CpMove d (some .conditionedSampleAtCp)
      { d with cp := d.cp.takeSample x, paths := { d.paths with samplesCp := rest } }

/-! ## The moves of the part -/

/-- While CP holds LOADING it answers the requests for MS itself (R157): MS takes messages and Drive Status alone. -/
def State.takesAtMs (s : State) (o : Option Instr) (d : MsDesk) : Prop :=
  s.cp.store = .loading → o ≠ none ∨ ∃ st, d = s.msDesk.takeStatus st

theorem State.takesAtMs_taking (s : State) (c : Instr) (d : MsDesk) : s.takesAtMs (some c) d := fun _ => .inl (by simp)

theorem State.takesAtMs_ready {s : State} (ready : s.cp.store ≠ .loading) (o : Option Instr) (d : MsDesk) : s.takesAtMs o d :=
  fun h => absurd h ready

/-- One block works: it leaves its desk, which is put back with the status notice of MS, ES and CR. -/
inductive State.Act (s : State) : Option Instr → State → Prop
  | rx (r : Receivers) : Act s none { s with rx := r }
  | frontError : Act s none { s with paths := s.paths.sendFrontError }
  | driveError : Act s none { s with paths := s.paths.sendDriveError }
  | inlet {o : Option Instr} (d : InletDesk) (h : InletMove ⟨s.inlet, s.paths⟩ o d) : Act s o (s.onInlet fun _ => d)
  | mc {o : Option Instr} (d : McDesk) (h : McMove ⟨s.mc, s.paths⟩ o d) : Act s o (s.onMc fun _ => d)
  | store {o : Option Instr} (d : StoreDesk) (h : StoreMove ⟨s.mc, s.sp, s.paths⟩ o d) :
    Act s o (s.onStore fun _ => d)
  | ms {o : Option Instr} (d : MsDesk) (h : MsMove s.msDesk o d) (taken : s.takesAtMs o d) : Act s o (s.onMs fun _ => d)
  | msSample (x : Sample) (rest : List Sample) (h : s.paths.samplesMs = x :: rest) :
    Act s (some .conditionedSampleAtMs)
      (s.putMs (MsDesk.takeSample { s.msDesk with paths := { s.paths with samplesMs := rest } } x))
  | es {o : Option Instr} (d : EsDesk) (h : EsMove ⟨s.es, s.paths⟩ o d) : Act s o (s.onEs fun _ => d)
  | te {o : Option Instr} (d : TeDesk) (h : TeMove ⟨s.te, s.paths⟩ o d) : Act s o (s.onTe fun _ => d)
  | cr {o : Option Instr} (d : CrDesk) (h : CrMove ⟨s.cr, s.paths⟩ o d) : Act s o (s.onCr fun _ => d)
  | cp {o : Option Instr} (d : CpDesk) (h : CpMove ⟨s.cp, s.paths, s.consoleLine⟩ o d) : Act s o (s.onCp fun _ => d)
  | cpOwn (c : Cp) (h : CpChange s.cp c) : Act s none { s with cp := c }

/-- What a character or a frame on FRONT and DRIVE can bring about. -/
inductive State.LinkAct (s : State) : State → Prop
  | rx (r : Receivers) : LinkAct s { s with rx := r }
  | frontError : LinkAct s { s with paths := s.paths.sendFrontError }
  | driveError : LinkAct s { s with paths := s.paths.sendDriveError }
  | inlet (f : SampleFrame) : LinkAct s (s.onInlet fun d => d.takeFrame f)
  | status (st : DriveStatus) : LinkAct s (takeDriveStatus st s)

theorem State.LinkAct.act {s t : State} (h : s.LinkAct t) : s.Act none t := by
  cases h with
  | rx r => exact .rx r
  | frontError => exact .frontError
  | driveError => exact .driveError
  | inlet f => exact .inlet _ (.frame f)
  | status st => exact .ms _ (.status st) fun _ => .inr ⟨st, rfl⟩

/-! ## Requests -/

theorem State.act_cpAnswer (s : State) (r : Reply) : s.Act none (s.cpAnswer r) := .cpOwn _ (.answer r)

/-- A request is answered by CP or taken by its owner. -/
theorem State.act_request {s : State} (k : RequestKind) (tag : Tag) {take : State → State}
    (h : s.cp.store ≠ .loading → s.Act none (take s)) : s.Act none (s.request k tag take) := by
  unfold State.request
  split
  · exact s.act_cpAnswer _
  · next ready => exact h ready

/-- A request that MS owns. -/
theorem State.act_msRequest {s : State} {k : RequestKind} {tag : Tag} {take : MsDesk → MsDesk}
    (h : MsMove s.msDesk none (take s.msDesk)) : s.Act none (s.request k tag fun s => s.onMs take) :=
  act_request k tag fun ready => .ms _ h (takesAtMs_ready ready _ _)

/-- A request that CP owns. -/
theorem State.act_cpRequest {s : State} (k : RequestKind) (tag : Tag) {take : Cp → Cp} (h : CpChange s.cp (take s.cp)) :
    s.Act none (s.cpRequest k tag take) := act_request k tag fun _ => .cpOwn _ h

section
variable (s : State) (tag : Tag)

theorem State.act_reqReadbackCalibration (kind index pointer count : Byte) :
    s.Act none (reqReadbackCalibration tag kind index pointer count s) := act_request _ _ fun _ => .mc _ (.reply _)
theorem State.act_reqInquire : s.Act none (reqInquire tag s) := .mc _ (.reply _)
theorem State.act_reqLoadProgram (l : ProgramLoad) : s.Act none (reqLoadProgram tag l s) :=
  act_msRequest (.program tag l)
theorem State.act_reqLoadCalibration (l : CalLoad) : s.Act none (reqLoadCalibration tag l s) :=
  act_msRequest (.calLoad tag l)
theorem State.act_reqLoadEvaluationParameters (l : EvalLoad) : s.Act none (reqLoadEvaluationParameters tag l s) :=
  act_msRequest (.evalLoad tag l)
theorem State.act_reqStore : s.Act none (reqStore tag s) := act_msRequest (.store tag)
theorem State.act_reqReadbackProgram (pointer count : Byte) : s.Act none (reqReadbackProgram tag pointer count s) :=
  act_msRequest (.readback tag pointer count)
theorem State.act_reqReadbackEvaluationParameters : s.Act none (reqReadbackEvaluationParameters tag s) :=
  act_request _ _ fun _ => .te _ (.reply _)
theorem State.act_reqTare : s.Act none (reqTare tag s) := act_request _ _ fun _ => .mc _ (.tare tag)
theorem State.act_reqZeroExt : s.Act none (reqZeroExt tag s) := act_request _ _ fun _ => .mc _ (.zeroExt tag)
theorem State.act_reqZeroPosition : s.Act none (reqZeroPosition tag s) := act_request _ _ fun _ => .mc _ (.zeroPosition tag)
theorem State.act_reqArm : s.Act none (reqArm tag s) := act_msRequest (.arm tag)
theorem State.act_reqStart : s.Act none (reqStart tag s) := act_msRequest (.start tag)
theorem State.act_reqPause : s.Act none (reqPause tag s) := act_msRequest (.pause tag)
theorem State.act_reqResume : s.Act none (reqResume tag s) := act_msRequest (.resume tag)
theorem State.act_reqStop : s.Act none (reqStop tag s) := act_msRequest (.stop tag)
theorem State.act_reqAbort : s.Act none (reqAbort tag s) := act_msRequest (.abort tag)
theorem State.act_reqResetTest : s.Act none (reqResetTest tag s) := act_msRequest (.resetTest tag)
theorem State.act_reqJog (rate : Int) : s.Act none (reqJog tag rate s) := act_msRequest (.jog tag rate)
theorem State.act_reqJogStop : s.Act none (reqJogStop tag s) := act_msRequest (.jogStop tag)
theorem State.act_reqExtRemove : s.Act none (reqExtRemove tag s) := act_request _ _ fun _ => .es _ (.remove tag)
theorem State.act_reqExtConfirm : s.Act none (reqExtConfirm tag s) := act_request _ _ fun _ => .es _ (.confirm tag)
theorem State.act_reqSnapHold : s.Act none (reqSnapHold tag s) := act_request _ _ fun _ => .te _ (.hold tag)
theorem State.act_reqSnapRelease : s.Act none (reqSnapRelease tag s) := act_request _ _ fun _ => .te _ (.release tag)
theorem State.act_reqReadResults (part : Byte) : s.Act none (reqReadResults tag part s) :=
  act_request _ _ fun _ => .te _ (.reply _)
theorem State.act_reqCaptureSet (enable : Byte) (post : Nat) (mask : Byte) :
    s.Act none (reqCaptureSet tag enable post mask s) := by
  refine act_request _ _ fun _ => ?_
  cases triggerMask mask with
  | none => exact s.act_cpAnswer _
  | some m => exact .cr _ (.set tag _ post m)
theorem State.act_reqCaptureTrigger : s.Act none (reqCaptureTrigger tag s) := act_request _ _ fun _ => .cr _ (.consoleTrigger tag)
theorem State.act_reqCaptureDrain (count : Nat) : s.Act none (reqCaptureDrain tag count s) :=
  act_request _ _ fun _ => .cr _ (.drain tag count)
theorem State.act_reqCaptureRearm : s.Act none (reqCaptureRearm tag s) := act_request _ _ fun _ => .cr _ (.rearm tag)
theorem State.act_reqStatus : s.Act none (reqStatus tag s) := s.act_cpAnswer _
theorem State.act_reqClear (flags : BitVec 16) : s.Act none (reqClear tag flags s) :=
  act_cpRequest _ _ (.clear tag flags)
theorem State.act_reqMaskSet (flags : BitVec 16) : s.Act none (reqMaskSet tag flags s) :=
  act_cpRequest _ _ (.mask tag flags)
theorem State.act_reqAttnMode (mode : Byte) : s.Act none (reqAttnMode tag mode s) :=
  act_cpRequest _ _ (.mode tag mode)
theorem State.act_reqStreamSet (enable : Byte) (n : Nat) : s.Act none (reqStreamSet tag enable n s) :=
  act_cpRequest _ _ (.stream tag _ n)

/-- What a Management Frame brings about: one move, or nothing for a LOAD whose table kind has no table. -/
theorem State.act_routeRequest (k : RequestKind) (p : List Byte) :
    s.Act none (routeRequest k tag p s) ∨ routeRequest k tag p s = s := by
  cases k with
  | load =>
    simp only [routeRequest]
    split
    · unfold takeLoadFrame
      simp only
      split
      · exact .inl (s.act_reqLoadProgram tag _)
      split
      · exact .inl (s.act_reqLoadEvaluationParameters tag _)
      split
      · exact .inl (s.act_reqLoadCalibration tag _)
      · exact .inr rfl
    · exact .inl (act_request _ _ fun _ => s.act_cpAnswer _)
  | readback =>
    left
    simp only [routeRequest, takeReadbackFrame]
    split
    · exact s.act_reqReadbackProgram tag _ _
    split
    · exact s.act_reqReadbackEvaluationParameters tag
    · exact s.act_reqReadbackCalibration tag _ _ _ _
  | store => exact .inl (s.act_reqStore tag)
  | inquire => exact .inl (s.act_reqInquire tag)
  | tare => exact .inl (s.act_reqTare tag)
  | zeroExt => exact .inl (s.act_reqZeroExt tag)
  | zeroPosition => exact .inl (s.act_reqZeroPosition tag)
  | arm => exact .inl (s.act_reqArm tag)
  | start => exact .inl (s.act_reqStart tag)
  | pause => exact .inl (s.act_reqPause tag)
  | resume => exact .inl (s.act_reqResume tag)
  | stop => exact .inl (s.act_reqStop tag)
  | abort => exact .inl (s.act_reqAbort tag)
  | resetTest => exact .inl (s.act_reqResetTest tag)
  | jog => exact .inl (s.act_reqJog tag _)
  | jogStop => exact .inl (s.act_reqJogStop tag)
  | extRemove => exact .inl (s.act_reqExtRemove tag)
  | extConfirm => exact .inl (s.act_reqExtConfirm tag)
  | snapHold => exact .inl (s.act_reqSnapHold tag)
  | snapRelease => exact .inl (s.act_reqSnapRelease tag)
  | readResults => exact .inl (s.act_reqReadResults tag _)
  | captureSet => exact .inl (s.act_reqCaptureSet tag _ _ _)
  | captureTrigger => exact .inl (s.act_reqCaptureTrigger tag)
  | captureDrain => exact .inl (s.act_reqCaptureDrain tag _)
  | captureRearm => exact .inl (s.act_reqCaptureRearm tag)
  | status => exact .inl (s.act_reqStatus tag)
  | clear => exact .inl (s.act_reqClear tag _)
  | maskSet => exact .inl (s.act_reqMaskSet tag _)
  | attnMode => exact .inl (s.act_reqAttnMode tag _)
  | streamSet => exact .inl (s.act_reqStreamSet tag _ _)

theorem State.act_takeRequest (kind : Byte) (p : List Byte) :
    s.Act none (takeRequest kind tag p s) ∨ takeRequest kind tag p s = s := by
  unfold takeRequest
  simp only
  split
  · exact .inl (s.act_cpAnswer _)
  split
  · exact .inl (s.act_cpAnswer _)
  split
  · exact s.act_routeRequest tag _ p
  · exact .inl (s.act_cpAnswer _)

end

/-! ## Links -/

/-- A row of moves that links and requests bring about. -/
abbrev State.Acts (s t : State) : Prop := ReflTransGen (fun s t => State.Act s none t) s t

/-- A row of moves that characters and frames on FRONT and DRIVE bring about. -/
abbrev State.LinkActs (s t : State) : Prop := ReflTransGen State.LinkAct s t

theorem State.LinkActs.acts {s t : State} (h : s.LinkActs t) : s.Acts t :=
  ReflTransGen.mono (fun _ _ => LinkAct.act) _ _ h

/-- On FRONT and DRIVE an examination finds candidates alone: HOLD and GO are characters of CONSOLE. -/
theorem scan_items_of_not_console {l : Link} (hl : l ≠ .console) (loading : Bool) (skip : Nat) (bs : List Byte) :
    ∀ i ∈ (scan l loading skip bs).1, i = .lost ∨ ∃ f, i = .frame f := by
  have quiet (b : Byte) : huntItem l b = [] := by cases l <;> simp_all [huntItem]
  induction bs generalizing skip with
  | nil => simp [scan]
  | cons b bs ih =>
    cases skip with
    | succ n => simpa [scan] using ih n
    | zero =>
      simp only [scan]
      split
      · split
        · simp
        · simpa using ih 0
        · simpa using ih _
        · exact ih _
      · simpa [quiet] using ih 0

theorem State.linkActs_lose (s : State) {l : Link} (hl : l ≠ .console) : s.LinkActs (s.lose l) := by
  cases l with
  | front =>
    simp only [State.lose]
    split
    · exact .refl
    · exact .single (.frontError)
  | drive => exact .single (.driveError)
  | console => exact absurd rfl hl

theorem State.linkActs_handOn (s : State) {l : Link} (hl : l ≠ .console) (bs : List Byte) : s.LinkActs (s.handOn l bs) := by
  cases l with
  | front =>
    simp only [State.handOn]
    split
    · exact .single (.inlet _)
    · exact .refl
  | drive =>
    simp only [State.handOn]
    split
    · exact .single (.status _)
    · exact .refl
  | console => exact absurd rfl hl

theorem State.linkActs_receive (s : State) {l : Link} (hl : l ≠ .console) (loading : Bool) (bs : List Byte) :
    s.LinkActs (s.receive l (scan l loading 0 bs)) := by
  have items : ∀ (is : List RxItem) (u : State), (∀ i ∈ is, i = .lost ∨ ∃ f, i = .frame f) →
      u.LinkActs (is.foldl (fun s i => s.takeItem l i) u) := by
    intro is
    induction is with
    | nil => intro u _; exact .refl
    | cons i is ih =>
      intro u h
      refine .trans ?_ (ih _ fun j hj => h j (List.mem_cons_of_mem _ hj))
      rcases h i (List.mem_cons_self ..) with rfl | ⟨f, rfl⟩
      · exact u.linkActs_lose hl
      · exact u.linkActs_handOn hl f
  exact .trans (.single (.rx _)) (items _ _ (scan_items_of_not_console hl loading 0 bs))

theorem State.linkActs_candidate (s : State) {l : Link} (hl : l ≠ .console) (bs : List Byte) : s.LinkActs (s.candidate l bs) := by
  unfold State.candidate
  split
  · exact .trans (.single (.rx _)) (State.linkActs_handOn _ hl bs)
  · exact .trans (s.linkActs_lose hl) (State.linkActs_receive _ hl _ _)

theorem State.acts_lose (s : State) (l : Link) : s.Acts (s.lose l) := by
  by_cases hl : l = .console
  · subst hl; exact .single (.cpOwn _ (.linkError _))
  · exact (s.linkActs_lose hl).acts

theorem State.acts_handOn (s : State) (l : Link) (bs : List Byte) : s.Acts (s.handOn l bs) := by
  by_cases hl : l = .console
  · subst hl
    rcases s.act_takeRequest (frameTag bs) (BitVec.ofNat 8 (frameKind bs)) (framePayload bs) with h | h
    · exact .single h
    · simp only [State.handOn, h]; exact .refl
  · exact (s.linkActs_handOn hl bs).acts

theorem State.acts_receive (s : State) (l : Link) (r : List RxItem × List Byte) : s.Acts (s.receive l r) := by
  have items : ∀ (is : List RxItem) (u : State), u.Acts (is.foldl (fun s i => s.takeItem l i) u) := by
    intro is
    induction is with
    | nil => intro u; exact .refl
    | cons i is ih =>
      intro u
      refine .trans ?_ (ih _)
      cases i with
      | lost => exact u.acts_lose l
      | frame f => exact u.acts_handOn l f
      | hold => exact .single (.cpOwn _ (.hold))
      | go => exact .single (.cpOwn _ (.go))
  exact .trans (.single (.rx _)) (items _ _)

theorem State.acts_candidate (s : State) (l : Link) (bs : List Byte) : s.Acts (s.candidate l bs) := by
  unfold State.candidate
  split
  · exact .trans (.single (.rx _)) (State.acts_handOn _ l bs)
  · exact .trans (s.acts_lose l) (State.acts_receive _ l _)

/-! ## Every command -/

/-- What a command other than RESET brings about in one step. -/
inductive State.Effect (c : Instr) (s t : State) : Prop
  | nothing (h : t = s)
  | request (h : s.Act none t)
  | taking (h : s.Act (some c) t)
  | links (h : s.LinkActs t)
  | frames (hc : handsOnFrames c = true) (h : s.Acts t)

theorem State.effect_takeLoadIf (c : Instr) (s : State) (kind : CalLoad → Bool) :
    State.Effect c s (s.onMc fun d => d.takeLoadIf kind) := by
  simp only [State.onMc, McDesk.takeLoadIf]
  split
  · next tag l rest h =>
    split
    · exact .taking (.mc _ (.load c tag l rest h))
    · exact .nothing rfl
  · exact .nothing rfl

/-- What the commands but RESET bring about. -/
theorem exec_next_effect {c : Instr} (hc : c ≠ .reset) (s : State) : ∃ t, exec c s = .next t ∧ State.Effect c s t := by
  cases c
  case reset => exact absurd rfl hc
  case autoloadHeaderRead bytes => exact ⟨_, rfl, .taking (.store _ (.header bytes))⟩
  case autoloadImageRead bytes => exact ⟨_, rfl, .taking (.store _ (.image bytes))⟩
  case autoloadReadError =>
    refine ⟨_, rfl, ?_⟩
    simp only [State.onStore]
    split
    · next h => exact .taking (.store _ (.autoloadFails _ .readError h))
    · exact .nothing rfl
  case autoloadSilent =>
    refine ⟨_, rfl, ?_⟩
    simp only [State.onStore]
    split
    · next h => exact .taking (.store _ (.autoloadFails _ .silent h.1))
    · exact .nothing rfl
  case sampleFrame bytes =>
    refine ⟨_, rfl, ?_⟩
    split
    · exact .links (.single (.rx _))
    · exact .links (s.linkActs_candidate (by decide) bytes)
  case inletSilent => exact ⟨_, rfl, .taking (.inlet _ (.silence _))⟩
  case inletStateTag =>
    refine ⟨_, rfl, ?_⟩
    simp only [State.onInlet]
    split
    · exact .nothing rfl
    · next t rest h => exact .taking (.inlet _ (.tag t rest h))
  case receptionTimerExpiry l =>
    refine ⟨_, rfl, ?_⟩
    split
    · exact .nothing rfl
    · by_cases hl : l = .console
      · subst hl; exact .frames rfl (.trans (s.acts_lose _) (State.acts_receive _ _ _))
      · exact .links (.trans (s.linkActs_lose hl) (State.linkActs_receive _ hl _ _))
  case conditionedSampleConversion =>
    refine ⟨_, rfl, ?_⟩
    simp only [State.onMc]
    split
    · exact .nothing rfl
    · next g rest h => exact .taking (.mc _ (.convert g rest h))
  case mcStateTag =>
    refine ⟨_, rfl, ?_⟩
    simp only [State.onMc]
    split
    · next t rest h => exact .taking (.mc _ (.tag t rest h))
    · exact .nothing rfl
  case dropArmRequest =>
    refine ⟨_, rfl, ?_⟩
    simp only [State.onMc]
    split
    · exact .nothing rfl
    · next x rest h => exact .taking (.mc _ (.dropArm x rest h))
  case programNoticeAtMc =>
    refine ⟨_, rfl, ?_⟩
    simp only [State.onMc]
    split
    · next g p rest h => exact .taking (.mc _ (.notice g p rest h))
    · exact .nothing rfl
  case tare tag => exact ⟨_, rfl, .request (s.act_reqTare tag)⟩
  case zeroExt tag => exact ⟨_, rfl, .request (s.act_reqZeroExt tag)⟩
  case zeroPosition tag => exact ⟨_, rfl, .request (s.act_reqZeroPosition tag)⟩
  case loadCalibration tag l => exact ⟨_, rfl, .request (s.act_reqLoadCalibration tag l)⟩
  case loadFrameTable => exact ⟨_, rfl, s.effect_takeLoadIf _ _⟩
  case loadCrossheadTable => exact ⟨_, rfl, s.effect_takeLoadIf _ _⟩
  case loadArmTable => exact ⟨_, rfl, s.effect_takeLoadIf _ _⟩
  case loadRangeTable => exact ⟨_, rfl, s.effect_takeLoadIf _ _⟩
  case removeCalibrationTable => exact ⟨_, rfl, s.effect_takeLoadIf _ _⟩
  case loadOutcome b => exact ⟨_, rfl, .taking (.ms _ (.outcome b) (s.takesAtMs_taking _ _))⟩
  case calibrationSummary => exact ⟨_, rfl, .taking (.ms _ (.summary) (s.takesAtMs_taking _ _))⟩
  case loadProgram tag l => exact ⟨_, rfl, .request (s.act_reqLoadProgram tag l)⟩
  case loadEvaluationParameters tag l => exact ⟨_, rfl, .request (s.act_reqLoadEvaluationParameters tag l)⟩
  case evaluationParametersAtTe =>
    refine ⟨_, rfl, ?_⟩
    simp only [State.onTe]
    split
    · next tag l rest h => exact .taking (.te _ (.params tag l rest h))
    · exact .nothing rfl
  case store tag => exact ⟨_, rfl, .request (s.act_reqStore tag)⟩
  case storeAtMc =>
    refine ⟨_, rfl, ?_⟩
    simp only [State.onStore]
    split
    · next tag rest h => exact .taking (.store _ (.store tag rest h))
    · exact .nothing rfl
  case writeComplete => exact ⟨_, rfl, .taking (.store _ (.written))⟩
  case readBackComplete bytes => exact ⟨_, rfl, .taking (.store _ (.readBack bytes))⟩
  case storeWriteError =>
    refine ⟨_, rfl, ?_⟩
    simp only [State.onStore]
    split
    · next h => exact .taking (.store _ (.storeFails _ _ _ h))
    · exact .nothing rfl
  case storeSilent =>
    refine ⟨_, rfl, ?_⟩
    simp only [State.onStore]
    split
    · next h => exact .taking (.store _ (.storeFails _ _ _ (Bool.and_eq_true_iff.1 h).1))
    · exact .nothing rfl
  case storeDoneNotice =>
    refine ⟨_, rfl, ?_⟩
    simp only [State.onMc]
    split
    · exact .nothing rfl
    · next h => exact .taking (.mc _ (.storeDone h))
  case readbackCalibration tag k i p n => exact ⟨_, rfl, .request (s.act_reqReadbackCalibration tag k i p n)⟩
  case readbackProgram tag p n => exact ⟨_, rfl, .request (s.act_reqReadbackProgram tag p n)⟩
  case readbackEvaluationParameters tag => exact ⟨_, rfl, .request (s.act_reqReadbackEvaluationParameters tag)⟩
  case inquire tag => exact ⟨_, rfl, .request (s.act_reqInquire tag)⟩
  case arm tag => exact ⟨_, rfl, .request (s.act_reqArm tag)⟩
  case armCopyAtTe =>
    refine ⟨_, rfl, ?_⟩
    simp only [State.onTe]
    split
    · next c rest h => exact .taking (.te _ (.armCopy c rest h))
    · exact .nothing rfl
  case armCopyAtEs =>
    refine ⟨_, rfl, ?_⟩
    simp only [State.onEs]
    split
    · next c rest h => exact .taking (.es _ (.armCopy c rest h))
    · exact .nothing (by simp [EsDesk.notice])
  case start tag => exact ⟨_, rfl, .request (s.act_reqStart tag)⟩
  case pause tag => exact ⟨_, rfl, .request (s.act_reqPause tag)⟩
  case resume tag => exact ⟨_, rfl, .request (s.act_reqResume tag)⟩
  case stop tag => exact ⟨_, rfl, .request (s.act_reqStop tag)⟩
  case abort tag => exact ⟨_, rfl, .request (s.act_reqAbort tag)⟩
  case resetTest tag => exact ⟨_, rfl, .request (s.act_reqResetTest tag)⟩
  case jog tag rate => exact ⟨_, rfl, .request (s.act_reqJog tag rate)⟩
  case jogStop tag => exact ⟨_, rfl, .request (s.act_reqJogStop tag)⟩
  case conditionedSampleAtMs =>
    simp only [exec, execConditionedSampleAtMs]
    split
    · exact ⟨_, rfl, .nothing rfl⟩
    · next x rest h => exact ⟨_, rfl, .taking (.msSample x rest h)⟩
  case faultEventAtMs b =>
    simp only [exec, execFaultEventAtMs]
    split
    · exact ⟨_, rfl, .nothing rfl⟩
    · next k rest h => exact ⟨_, rfl, .taking (.ms _ (.fault b k rest h) (s.takesAtMs_taking _ _))⟩
  case criterionEventAtMs =>
    simp only [exec, execCriterionEventAtMs]
    split
    · next h => exact ⟨_, rfl, .taking (.ms _ (.criterion .yieldDone _ _ h) (s.takesAtMs_taking _ _))⟩
    · next h => exact ⟨_, rfl, .taking (.ms _ (.criterion .proof _ _ h) (s.takesAtMs_taking _ _))⟩
    · exact ⟨_, rfl, .nothing rfl⟩
  case extRemovalHold =>
    refine ⟨_, rfl, ?_⟩
    split
    · exact .nothing rfl
    · next h => exact .taking (.ms _ (.hold h) (s.takesAtMs_taking _ _))
  case removalComplete =>
    simp only [exec, execRemovalComplete]
    split
    · next h => exact ⟨_, rfl, .taking (.ms _ (.removed _ h) (s.takesAtMs_taking _ _))⟩
    · exact ⟨_, rfl, .nothing rfl⟩
  case removalTimeout =>
    simp only [exec, execRemovalTimeout]
    split
    · next h => exact ⟨_, rfl, .taking (.ms _ (.timeout _ h) (s.takesAtMs_taking _ _))⟩
    · exact ⟨_, rfl, .nothing rfl⟩
  case breakAtMs =>
    simp only [exec, execBreakAtMs]
    split
    · next n rest h => exact ⟨_, rfl, .taking (.ms _ (.brk n rest h) (s.takesAtMs_taking _ _))⟩
    · exact ⟨_, rfl, .nothing rfl⟩
  case extensometerTag =>
    simp only [exec, execExtensometerTag]
    split
    · exact ⟨_, rfl, .nothing rfl⟩
    · next h => exact ⟨_, rfl, .taking (.ms _ (.extTag _ _ h) (s.takesAtMs_taking _ _))⟩
  case driveStatusFrame bytes => exact ⟨_, rfl, .links (s.linkActs_candidate (by decide) bytes)⟩
  case conditionedSampleAtEs =>
    refine ⟨_, rfl, ?_⟩
    simp only [State.onEs]
    split
    · exact .nothing (by simp [EsDesk.notice])
    · next x rest h => exact .taking (.es _ (.sample x rest h))
  case esStateTag =>
    refine ⟨_, rfl, ?_⟩
    simp only [State.onEs]
    split
    · next t rest h => exact .taking (.es _ (.tag t rest h))
    · exact .nothing (by simp [EsDesk.notice])
  case programNoticeAtEs =>
    refine ⟨_, rfl, ?_⟩
    simp only [State.onEs]
    split
    · next g f rest h => exact .taking (.es _ (.notice g f rest h))
    · exact .nothing (by simp [EsDesk.notice])
  case removalEventAtEs =>
    refine ⟨_, rfl, ?_⟩
    simp only [State.onEs]
    split
    · next n e rest h => exact .taking (.es _ (.criterion .afterYield n e _ rest h))
    · next n e rest h => exact .taking (.es _ (.criterion .afterProof n e _ rest h))
    · exact .nothing (by simp [EsDesk.notice])
  case extRemove tag => exact ⟨_, rfl, .request (s.act_reqExtRemove tag)⟩
  case extConfirm tag => exact ⟨_, rfl, .request (s.act_reqExtConfirm tag)⟩
  case removalTimerExpiry => exact ⟨_, rfl, .taking (.es _ (.expiry))⟩
  case breakAtEs =>
    refine ⟨_, rfl, ?_⟩
    simp only [State.onEs]
    split
    · next n rest h => exact .taking (.es _ (.brk n rest h))
    · exact .nothing (by simp [EsDesk.notice])
  case conditionedSampleAtTe =>
    refine ⟨_, rfl, ?_⟩
    simp only [State.onTe]
    split
    · exact .nothing rfl
    · next x rest h => exact .taking (.te _ (.sample x rest h))
  case teStateTag =>
    refine ⟨_, rfl, ?_⟩
    simp only [State.onTe]
    split
    · next t rest h => exact .taking (.te _ (.tag t rest h))
    · exact .nothing rfl
  case segmentLogEntry =>
    refine ⟨_, rfl, ?_⟩
    simp only [State.onTe]
    split
    · next e rest h => exact .taking (.te _ (.entry e rest h))
    · exact .nothing rfl
  case snapHold tag => exact ⟨_, rfl, .request (s.act_reqSnapHold tag)⟩
  case snapRelease tag => exact ⟨_, rfl, .request (s.act_reqSnapRelease tag)⟩
  case readResults tag part => exact ⟨_, rfl, .request (s.act_reqReadResults tag part)⟩
  case holdTimerExpiry => exact ⟨_, rfl, .taking (.te _ (.expiry))⟩
  case conditionedSampleAtCr =>
    refine ⟨_, rfl, ?_⟩
    simp only [State.onCr]
    split
    · exact .nothing (by simp [CrDesk.notice])
    · next x rest h => exact .taking (.cr _ (.sample x rest h))
  case triggerEventAtCr b =>
    refine ⟨_, rfl, ?_⟩
    simp only [State.onCr]
    split
    · exact .nothing (by simp [CrDesk.notice])
    · next t rest h => exact .taking (.cr _ (.trigger b t rest h))
  case captureSet tag e n m => exact ⟨_, rfl, .request (s.act_reqCaptureSet tag e n m)⟩
  case captureTrigger tag => exact ⟨_, rfl, .request (s.act_reqCaptureTrigger tag)⟩
  case captureDrain tag n => exact ⟨_, rfl, .request (s.act_reqCaptureDrain tag n)⟩
  case captureRearm tag => exact ⟨_, rfl, .request (s.act_reqCaptureRearm tag)⟩
  case consoleFrameError bytes => exact ⟨_, rfl, .frames rfl (s.acts_candidate _ bytes)⟩
  case unknownKind kind tag =>
    refine ⟨_, rfl, ?_⟩
    split
    · exact .nothing rfl
    · rcases s.act_takeRequest tag kind [] with h | h
      · exact .request h
      · exact .nothing h
  case linkError l =>
    refine ⟨_, rfl, ?_⟩
    cases l <;> simp only [State.onCp]
    · split
      · exact .nothing rfl
      · exact .taking (.cp _ (.frontError))
    · split
      · exact .nothing rfl
      · exact .taking (.cp _ (.driveError))
    · exact .request (.cpOwn _ (.linkError .console))
  case storeStateNotice =>
    refine ⟨_, rfl, ?_⟩
    simp only [State.onCp]
    split
    · exact .nothing rfl
    · next x rest h => exact .taking (.cp _ (.storeState x rest h))
  case statusNotice b =>
    refine ⟨_, rfl, ?_⟩
    cases b <;> simp only [State.onCp] <;> split
    · exact .nothing rfl
    · next n rest h => exact .taking (.cp _ (.motion n rest h))
    · exact .nothing rfl
    · next n rest h => exact .taking (.cp _ (.ext n rest h))
    · exact .nothing rfl
    · next n rest h => exact .taking (.cp _ (.capture n rest h))
  case conditionedSampleAtCp =>
    refine ⟨_, rfl, ?_⟩
    simp only [State.onCp]
    split
    · exact .nothing rfl
    · next x rest h => exact .taking (.cp _ (.sample x rest h))
  case eventAtCp b =>
    refine ⟨_, rfl, ?_⟩
    simp only [State.onCp]
    split
    · exact .nothing rfl
    · next e rest h => exact .taking (.cp _ (.event b e rest h))
  case replyReport b =>
    refine ⟨_, rfl, ?_⟩
    simp only [State.onCp]
    split
    · exact .nothing rfl
    · next r rest h => exact .taking (.cp _ (.reply b r rest h))
  case reportTransmitted => exact ⟨_, rfl, .taking (.cp _ (.transmitted))⟩
  case hold => exact ⟨_, rfl, .request (.cpOwn _ (.hold))⟩
  case go => exact ⟨_, rfl, .request (.cpOwn _ (.go))⟩
  case status tag => exact ⟨_, rfl, .request (s.act_reqStatus tag)⟩
  case clear tag f => exact ⟨_, rfl, .request (s.act_reqClear tag f)⟩
  case maskSet tag f => exact ⟨_, rfl, .request (s.act_reqMaskSet tag f)⟩
  case attnMode tag m => exact ⟨_, rfl, .request (s.act_reqAttnMode tag m)⟩
  case streamSet tag e n => exact ⟨_, rfl, .request (s.act_reqStreamSet tag e n)⟩
  case attnPulseExpiry => exact ⟨_, rfl, .request (.cpOwn _ (.endPulse))⟩
  case startDelimiter l c =>
    refine ⟨_, rfl, ?_⟩
    by_cases hl : l = .console
    · subst hl; exact .frames rfl (s.acts_receive _ _)
    · exact .links (s.linkActs_receive hl _ _)
  case unknownTable tag kind index =>
    refine ⟨_, rfl, ?_⟩
    split
    · exact .nothing rfl
    · exact .request (State.act_request _ _ fun _ => s.act_cpAnswer _)

theorem exec_effect {c : Instr} {s t : State} (hc : c ≠ .reset) (h : exec c s = .next t) : State.Effect c s t := by
  obtain ⟨u, hu, e⟩ := exec_next_effect hc s
  rw [hu] at h
  injection h with h
  exact h ▸ e

/-! ## Every step -/

/-- A property of two states that holds of every move, holds of what a command but RESET brings about. -/
theorem State.Effect.lift {P : State → State → Prop} (refl : ∀ s, P s s) (trans : ∀ s t u, P s t → P t u → P s u)
    (act : ∀ o s t, State.Act s o t → P s t) {c : Instr} {s t : State} (h : State.Effect c s t) : P s t := by
  have row {s t : State} (h : s.Acts t) : P s t := by
    induction h with
    | refl => exact refl _
    | tail _ last ih => exact trans _ _ _ ih (act _ _ _ last)
  cases h with
  | nothing h => exact h ▸ refl _
  | request h => exact act _ _ _ h
  | taking h => exact act _ _ _ h
  | links h => exact row h.acts
  | frames _ h => exact row h

/-- A step idles on an empty queue, resets the part, or runs another command on the queue's rest. -/
theorem step_inversion {s t : State} (h : step s = .next t) :
    (s.pending = [] ∧ t = s) ∨
      ∃ c rest, s.pending = c :: rest ∧
        ((c = .reset ∧ t = State.powerOn { s with pending := rest }) ∨
          (c ≠ .reset ∧ State.Effect c { s with pending := rest } t)) := by
  unfold step at h
  split at h
  · next empty =>
    injection h with h
    exact .inl ⟨empty, h.symm⟩
  · next c rest front =>
    refine .inr ⟨c, rest, front, ?_⟩
    by_cases hc : c = .reset
    · subst hc
      injection h with h
      exact .inl ⟨rfl, h.symm⟩
    · exact .inr ⟨hc, exec_effect hc h⟩

/-- An invariant of the part: it holds after RESET, and every move keeps it. -/
theorem step_keeps {P : State → Prop} (queue : ∀ s rest, P s → P { s with pending := rest }) (reset : ∀ s : State, P s.powerOn)
    (act : ∀ o s t, State.Act s o t → P s → P t) {s t : State} (hs : P s) (h : step s = .next t) : P t := by
  rcases step_inversion h with ⟨_, rfl⟩ | ⟨c, rest, _, ⟨_, rfl⟩ | ⟨_, e⟩⟩
  · exact hs
  · exact reset _
  · exact e.lift (P := fun s t => P s → P t) (fun _ h => h) (fun _ _ _ f g h => g (f h)) act (queue s rest hs)

/-- No move changes the queue of waiting commands. -/
theorem State.Act.pending_eq {o : Option Instr} {s t : State} (h : s.Act o t) : t.pending = s.pending := by
  cases h <;> rfl

theorem State.Effect.pending_eq {c : Instr} {s t : State} (h : State.Effect c s t) : t.pending = s.pending :=
  h.lift (P := fun s t => t.pending = s.pending) (fun _ => rfl) (fun _ _ _ f g => g.trans f) fun _ _ _ => Act.pending_eq

end Sys2Proof.Machine

open Sys2Proof Sys2Proof.Machine

/-- Settles O1: `step` runs `exec` on the queue's rest, which the record with the command in front gives back. -/
theorem stepRunsFrontCommand : Obligations.StepRunsFrontCommand := by
  refine ⟨fun _ _ => rfl, fun s empty => ?_⟩
  unfold step
  rw [empty]

/-- Settles O2: RESET answers the power-on state, every other command the state of its moves (`exec_next_effect`), none of
which touches the queue. -/
theorem everyCommandCompletesAndKeepsQueue : Obligations.EveryCommandCompletesAndKeepsQueue := by
  intro c s
  by_cases hc : c = .reset
  · subst hc
    exact ⟨s.powerOn, rfl, rfl⟩
  · obtain ⟨t, ht, e⟩ := exec_next_effect hc s
    exact ⟨t, ht, e.pending_eq⟩

/-- Settles O3: the registers of the reset tables are those of each block's reset state. -/
theorem resetRestoresPowerOnState : Obligations.ResetRestoresPowerOnState := fun _ => rfl
end

