-- ==== Sys2Proof/Proofs/RingAndQueueLaws.lean ====
section
/-! The law of the ring (R146) and the law of the queue (R162): what each operation of CR leaves of the ring, what each
operation of CP leaves of the queue, and that every move keeps both. -/

namespace Sys2Proof.Machine

/-! ## The ring -/

/-- A sample recorded: the ring stays within its records and its numbers rise, since only a number above the newest is
recorded. -/
theorem appendRecord_lawful {l : List CaptureRecord} (x : Sample) (hl : l.length ≤ 4096)
    (rising : l.Pairwise fun a b => a.number < b.number) :
    (appendRecord l x).length ≤ 4096 ∧ (appendRecord l x).Pairwise fun a b => a.number < b.number := by
  unfold appendRecord
  split
  · next above =>
    have below : ∀ a ∈ l, a.number < x.number := by
      intro a ha
      obtain ⟨l', last, rfl⟩ := List.eq_nil_or_concat l |>.resolve_left (List.ne_nil_of_mem ha)
      have newest : last.number < x.number := above _ (by simp [newestNumber])
      rw [List.concat_eq_append, List.pairwise_append] at rising
      rcases List.mem_append.1 (List.concat_eq_append ▸ ha) with h | h
      · exact (rising.2.2 a h last (by simp)).trans newest
      · rw [List.mem_singleton.1 h]; exact newest
    have kept : (if l.length < Config.ringRecords then l else l.drop 1).Sublist l := by
      split
      · exact .refl _
      · exact List.drop_sublist _ _
    refine ⟨?_, List.pairwise_append.2 ⟨rising.sublist kept, List.pairwise_singleton _ _, ?_⟩⟩
    · split <;> simp_all [Config.ringRecords] <;> omega
    · intro a ha b hb
      rw [List.mem_singleton.1 hb]
      exact below a (kept.subset ha)
  · exact ⟨hl, rising⟩

theorem CrDesk.hold_ring (d : CrDesk) : d.hold.cr.ring = d.cr.ring := rfl

theorem CrDesk.trigger_ring (d : CrDesk) (t : Trigger) : (d.trigger t).cr.ring = d.cr.ring := by
  unfold CrDesk.trigger
  simp only
  split <;> rfl

/-- What a move of CR leaves in the ring. -/
inductive RingChange (l : List CaptureRecord) : List CaptureRecord → Prop
  | same : RingChange l l
  | emptied : RingChange l []
  | recorded (x : Sample) : RingChange l (appendRecord l x)
  | drained (n : Nat) : RingChange l (l.drop n)

theorem CrMove.ringChange {o : Option Instr} {d e : CrDesk} (h : CrMove d o e) : RingChange d.cr.ring e.cr.ring := by
  cases h with
  | set tag enable post mask => exact .emptied
  | rearm tag => exact .emptied
  | consoleTrigger tag =>
    unfold CrDesk.takeConsoleTrigger
    split
    · split
      · simp only [CrDesk.reply, CrDesk.trigger_ring]; exact .same
      · exact .same
    · exact .same
  | drain tag count =>
    unfold CrDesk.takeDrain
    split
    · split
      · exact .same
      · exact .drained _
    · exact .same
  | sample x rest h =>
    unfold CrDesk.takeSample
    split
    · exact .same
    · exact .same
    · exact .recorded x
    · simp only
      split
      · exact .recorded x
      · exact .recorded x
  | trigger b t rest h =>
    unfold CrDesk.takeTrigger
    split
    · rw [CrDesk.trigger_ring]; exact .same
    · exact .same

theorem Cr.lawfulRing_of_change {c c' : Cr} (h : RingChange c.ring c'.ring) (hc : c.LawfulRing) : c'.LawfulRing := by
  obtain ⟨hl, rising⟩ := hc
  unfold Cr.LawfulRing
  generalize c'.ring = l' at h ⊢
  cases h with
  | same => exact ⟨hl, rising⟩
  | emptied => simp
  | recorded x => exact appendRecord_lawful x hl rising
  | drained n => exact ⟨(List.drop_sublist n _).length_le.trans hl, rising.sublist (List.drop_sublist ..)⟩

/-- Every move of another block leaves CR as it is. -/
theorem State.Act.cr_or {o : Option Instr} {s t : State} (h : s.Act o t) :
    t.cr = s.cr ∨ ∃ d, CrMove ⟨s.cr, s.paths⟩ o d ∧ t.cr = d.cr := by
  cases h with
  | cr d h => exact .inr ⟨d, h, by simp⟩
  | _ => exact .inl rfl

/-! ## The queue -/

/-- The items of CP that the law of the queue speaks of. -/
def Cp.queueItems (c : Cp) : List Report × Option Nat × Bool := (c.queue, c.lastStreamed, c.transmitting)

theorem Cp.lawfulQueue_congr {c c' : Cp} (h : c'.queueItems = c.queueItems) : c'.LawfulQueue ↔ c.LawfulQueue := by
  simp only [Cp.queueItems, Prod.mk.injEq] at h
  obtain ⟨queue, streamed, transmitting⟩ := h
  simp only [Cp.LawfulQueue, queue, streamed, transmitting]

theorem sampleNumbers_append (a b : List Report) : sampleNumbers (a ++ b) = sampleNumbers a ++ sampleNumbers b := by
  induction a with
  | nil => rfl
  | cons r rs ih => cases r <;> simp [sampleNumbers, ih]

theorem sampleNumbers_of_not_sample {r : Report} (h : r.isSample = false) : sampleNumbers [r] = [] := by
  cases r with
  | sample x => simp [Report.isSample] at h
  | _ => rfl

theorem sampleNumbers_sublist {a b : List Report} (h : a.Sublist b) : (sampleNumbers a).Sublist (sampleNumbers b) := by
  induction h with
  | slnil => exact .refl _
  | cons r _ ih => cases r <;> simp [sampleNumbers, ih]
  | cons_cons r _ ih => cases r <;> simp [sampleNumbers, ih]

/-- Reports may leave the queue, when none is then in transmission without a place. -/
theorem Cp.LawfulQueue.sublist {c c' : Cp} (h : c.LawfulQueue) (queue : c'.queue.Sublist c.queue)
    (streamed : c'.lastStreamed = c.lastStreamed) (transmitting : c'.transmitting = true → c'.queue ≠ []) : c'.LawfulQueue := by
  obtain ⟨room, rising, below, _⟩ := h
  have numbers := sampleNumbers_sublist queue
  exact ⟨queue.length_le.trans room, rising.sublist numbers,
    fun n hn => streamed ▸ below n (numbers.subset hn), transmitting⟩

/-- An Event or Reply Report is added behind what it leaves of the queue. -/
theorem Cp.LawfulQueue.added {c c' : Cp} {l : List Report} {r : Report} (h : c.LawfulQueue) (hl : l.Sublist c.queue)
    (room : l.length < 64) (hr : r.isSample = false) (queue : c'.queue = l ++ [r])
    (streamed : c'.lastStreamed = c.lastStreamed) : c'.LawfulQueue := by
  obtain ⟨_, rising, below, _⟩ := h
  have numbers : sampleNumbers c'.queue = sampleNumbers l := by
    rw [queue, sampleNumbers_append, sampleNumbers_of_not_sample hr, List.append_nil]
  have sub := sampleNumbers_sublist hl
  refine ⟨by rw [queue, List.length_append]; exact room, ?_, ?_, fun _ => by simp [queue]⟩
  · rw [numbers]; exact rising.sublist sub
  · rw [numbers, streamed]; exact fun n hn => below n (sub.subset hn)

/-- R162's table leaves a place for the report it accepts. -/
theorem Cp.queued_of_lawful {c : Cp} (h : c.LawfulQueue) {r : Report} {q : List Report} (hq : c.queued r = some q) :
    ∃ l, q = l ++ [r] ∧ l.Sublist c.queue ∧ l.length < 64 := by
  unfold Cp.queued at hq
  generalize (if c.transmitting = true then 1 else 0) = sent at hq
  simp only at hq
  split at hq
  · next room => exact ⟨c.queue, (Option.some.inj hq).symm, .refl _, room⟩
  split at hq
  · next some_sample =>
    refine ⟨_, (Option.some.inj hq).symm, ?_, ?_⟩
    · conv => rhs; rw [← List.take_append_drop sent c.queue]
      exact List.Sublist.append (.refl _) List.eraseP_sublist
    · have lengths := congrArg List.length (List.take_append_drop sent c.queue)
      have erased := List.length_eraseP (p := Report.isSample) (l := c.queue.drop sent)
      rw [if_pos some_sample] at erased
      have some_left : 0 < (c.queue.drop sent).length := by
        obtain ⟨r, hr, _⟩ := List.any_eq_true.1 some_sample
        exact List.length_pos_of_mem hr
      rw [List.length_append] at lengths ⊢
      have := h.1
      omega
  · cases hq

@[simp] theorem Cp.begun_queue (c : Cp) : c.begun.queue = c.queue := rfl
@[simp] theorem Cp.begun_lastStreamed (c : Cp) : c.begun.lastStreamed = c.lastStreamed := rfl

/-- A report is started only with one in the queue. -/
theorem Cp.LawfulQueue.begun {c : Cp} (h : c.LawfulQueue) : c.begun.LawfulQueue := by
  refine h.sublist (.refl _) rfl fun ht => ?_
  simp only [Cp.begun, Bool.or_eq_true, Bool.and_eq_true, decide_eq_true_eq] at ht
  rcases ht with ht | ht
  · exact h.2.2.2 ht
  · exact ht.2

@[simp] theorem Cp.raised_queueItems (c : Cp) (f : BitVec 11) : (c.raised f).queueItems = c.queueItems := by
  simp [Cp.queueItems]

@[simp] theorem Cp.settled_queueItems (c : Cp) : c.settled.queueItems = c.queueItems := rfl

theorem Cp.LawfulQueue.lost {c : Cp} (h : c.LawfulQueue) : c.lost.LawfulQueue :=
  (lawfulQueue_congr (Cp.raised_queueItems { c with lossMark := true } 512)).2 h

theorem Cp.LawfulQueue.replied {c : Cp} (h : c.LawfulQueue) (r : Reply) : (c.replied r).LawfulQueue := by
  unfold Cp.replied
  split
  · next q hq =>
    obtain ⟨l, rfl, hl, room⟩ := Cp.queued_of_lawful h hq
    exact (h.added (c' := { c with queue := l ++ [.reply r] }) hl room rfl rfl rfl).begun
  · exact h.lost

theorem Cp.LawfulQueue.told {c : Cp} (h : c.LawfulQueue) (e : Event) (f : BitVec 11) (n : Option Nat) :
    (c.told e f n).LawfulQueue := by
  have hf : (c.raised f).LawfulQueue := (lawfulQueue_congr (Cp.raised_queueItems ..)).2 h
  unfold Cp.told
  simp only
  split
  · next q hq =>
    obtain ⟨l, rfl, hl, room⟩ := Cp.queued_of_lawful hf hq
    exact (hf.added (c' := { c.raised f with queue := l ++ [.event e n c.lossMark], lossMark := false })
      hl room rfl rfl rfl).begun
  · exact hf.lost

@[simp] theorem Cp.counted_queueItems (c : Cp) (l : Link) : (c.counted l).queueItems = c.queueItems := by cases l <;> rfl

theorem Cp.LawfulQueue.linkErrorTaken {c : Cp} (h : c.LawfulQueue) (l : Link) : (c.linkErrorTaken l).LawfulQueue := by
  have hc : (c.counted l).LawfulQueue := (lawfulQueue_congr (Cp.counted_queueItems ..)).2 h
  unfold Cp.linkErrorTaken
  simp only
  split
  · exact hc
  · exact hc.told _ _ _

/-- A Sample Report goes behind those in the queue, all of numbers below its own. -/
theorem Cp.LawfulQueue.takeSample {c : Cp} (h : c.LawfulQueue) (x : Sample) : (c.takeSample x).LawfulQueue := by
  rw [Cp.takeSample_eq_ite]
  split
  · next streams =>
    obtain ⟨_, _, room, newest⟩ := streams
    obtain ⟨_, rising, below, _⟩ := h
    refine Cp.LawfulQueue.begun ⟨?_, ?_, ?_, fun _ => by simp⟩
    · simp only [List.length_append, List.length_singleton]; omega
    · rw [sampleNumbers_append, List.pairwise_append]
      refine ⟨rising, List.pairwise_singleton _ _, fun n hn k hk => ?_⟩
      obtain ⟨m, hm, le⟩ := below n hn
      rw [List.mem_singleton.1 hk]
      exact lt_of_le_of_lt le (newest m hm)
    · intro n hn
      refine ⟨_, rfl, ?_⟩
      rw [sampleNumbers_append] at hn
      rcases List.mem_append.1 hn with hn | hn
      · obtain ⟨m, hm, le⟩ := below n hn
        exact le.trans (newest m hm).le
      · exact (List.mem_singleton.1 hn).le
  · exact h

theorem CpChange.lawfulQueue {c c' : Cp} (m : CpChange c c') (h : c.LawfulQueue) : c'.LawfulQueue := by
  cases m with
  | answer r => rw [Cp.offerReply_eq_replied]; exact h.replied r
  | linkError l => rw [Cp.takeLinkError_eq]; exact h.linkErrorTaken l
  | hold => exact h
  | go =>
    rw [Cp.takeGo, Cp.startTransmission_eq_begun]
    exact Cp.LawfulQueue.begun (c := { c with hold := .go }) h
  | endPulse => unfold Cp.endPulse; split <;> exact h
  | stream tag enable n =>
    rw [Cp.takeStreamSet, Cp.offerReply_eq_replied]
    exact Cp.LawfulQueue.replied (c := { c with stream := enable, decimation := decimationOf n }) h _
  | clear tag flags =>
    unfold Cp.takeClear
    split
    · rw [Cp.offerReply_eq_replied]; exact h.replied _
    · next f _ =>
      rw [Cp.offerReply_eq_replied]
      exact Cp.LawfulQueue.replied (by rw [Cp.clearSet_eq]; exact h) _
  | mask tag flags =>
    unfold Cp.takeMaskSet
    split
    · rw [Cp.offerReply_eq_replied]; exact h.replied _
    · next m _ =>
      rw [Cp.offerReply_eq_replied]
      exact Cp.LawfulQueue.replied (by rw [Cp.setMask, Cp.settlePin_eq_settled]; exact h) _
  | mode tag mode =>
    unfold Cp.takeAttnMode
    split
    · rw [Cp.offerReply_eq_replied]; exact h.replied _
    · next m _ =>
      rw [Cp.offerReply_eq_replied]
      exact Cp.LawfulQueue.replied (by rw [Cp.setMode, Cp.settlePin_eq_settled]; exact h) _

theorem CpMove.lawfulQueue {o : Option Instr} {d e : CpDesk} (m : CpMove d o e) (h : d.cp.LawfulQueue) : e.cp.LawfulQueue := by
  cases m with
  | frontError => exact CpChange.lawfulQueue (.linkError _) h
  | driveError => exact CpChange.lawfulQueue (.linkError _) h
  | storeState x rest _ => exact h
  | motion n rest _ => exact h
  | ext n rest _ => exact h
  | capture n rest _ => exact h
  | event b e rest _ => simp only [Cp.takeEvent_eq_told]; exact h.told _ _ _
  | reply b r rest _ => exact CpChange.lawfulQueue (.answer r) h
  | transmitted =>
    unfold CpDesk.finishReport
    split
    · next r rest _ queue =>
      simp only [Cp.startTransmission_eq_begun]
      refine (h.sublist (c' := { d.cp with queue := rest, transmitting := false }) ?_ rfl (by simp)).begun
      rw [queue]
      exact List.sublist_cons_self r rest
    · exact h
  | sample x rest _ => exact h.takeSample x

/-- Every move of another block leaves CP as it is. -/
theorem State.Act.cp_or {o : Option Instr} {s t : State} (h : s.Act o t) :
    t.cp = s.cp ∨ CpChange s.cp t.cp ∨ ∃ d, CpMove ⟨s.cp, s.paths, s.consoleLine⟩ o d ∧ t.cp = d.cp := by
  cases h with
  | cp d h => exact .inr (.inr ⟨d, h, rfl⟩)
  | cpOwn c h => exact .inr (.inl h)
  | _ => exact .inl rfl

end Sys2Proof.Machine

open Sys2Proof.Machine

/-- Settles O5: the moves of CR keep the law of the ring (`CrMove.ringChange`), those of CP the law of the queue, and no other
block touches either. -/
theorem stepKeepsLawsOfRingAndQueue : Obligations.StepKeepsLawsOfRingAndQueue := by
  constructor
  · intro s t hs h
    refine step_keeps (P := fun s => s.cr.LawfulRing) (fun _ _ h => h) ?reset ?act hs h
    case reset => exact fun _ => ⟨Nat.zero_le _, .nil⟩
    case act =>
      intro o s t act hs
      rcases act.cr_or with same | ⟨d, move, hd⟩
      · rwa [same]
      · rw [hd]; exact Cr.lawfulRing_of_change move.ringChange hs
  · intro s t hs h
    refine step_keeps (P := fun s => s.cp.LawfulQueue) (fun _ _ h => h) ?reset ?act hs h
    case reset => exact fun _ => ⟨Nat.zero_le _, .nil, fun _ h => absurd h List.not_mem_nil, fun h => absurd h Bool.false_ne_true⟩
    case act =>
      intro o s t act hs
      rcases act.cp_or with same | change | ⟨d, move, hd⟩
      · rwa [same]
      · exact change.lawfulQueue hs
      · rw [hd]; exact move.lawfulQueue hs
end

