-- ==== Sys2Proof/Proofs/BlockPaths.lean ====
section
/-! The paths between blocks that the invariants across blocks speak of, and which of them a move of each block leaves: its own
events, replies, triggers and samples stand on other paths. -/

namespace Sys2Proof.Machine

/-- The messages of MS to MC, ES and TE, what MC and TE report to MS, and the notices for CP. -/
structure Trunk where
  toMc : List McMessage
  toEs : List EsMessage
  toTe : List TeMessage
  fromMc : List McToMs
  fromTe : List LoadOutcome
  storeStates : List StoreState
  msNotices : List MsNotice
  esNotices : List ExtState
  crNotices : List CrNotice

def Paths.trunk (p : Paths) : Trunk :=
  { toMc := p.msToMc, toEs := p.msToEs, toTe := p.msToTe, fromMc := p.mcToMs, fromTe := p.teOutcomes
    storeStates := p.storeStates, msNotices := p.msNotices, esNotices := p.esNotices, crNotices := p.crNotices }

theorem Paths.raiseFault_trunk (p : Paths) (b : FaultSource) (k : FaultKind) (e : Event) :
    (p.raiseFault b k e).trunk = p.trunk := by
  cases b <;> rfl

theorem Paths.sendMcReplies_trunk (p : Paths) (l : List Reply) : (p.sendMcReplies l).trunk = p.trunk := by
  unfold Paths.sendMcReplies
  induction l generalizing p with
  | nil => rfl
  | cons r l ih => exact (ih _).trans rfl

/-! ## The Inlet Port and CR -/

theorem InletMove.trunk {o : Option Instr} {d e : InletDesk} (h : InletMove d o e) : e.paths.trunk = d.paths.trunk := by
  cases h with
  | frame f =>
    have faults (p : Paths) (far : Bool) (advance : Nat) :
        (if far then p.raiseFault .inlet .inletGap (.inletGap f.seq advance) else p).trunk = p.trunk := by
      split
      · exact Paths.raiseFault_trunk _ _ _ _
      · rfl
    have sent (p : Paths) (g : GoodFrame) : Paths.trunk { p with inletToMc := p.inletToMc ++ [g] } = p.trunk := rfl
    unfold InletDesk.takeFrame
    split
    · rfl
    · simp only [sent]
      split
      · rw [Paths.raiseFault_trunk]; exact faults _ _ _
      · exact faults _ _ _
  | silence n =>
    unfold InletDesk.takeSilence
    split <;> rfl
  | tag t rest _ => rfl

theorem CrDesk.hold_trunk (d : CrDesk) : d.hold.paths.trunk = d.paths.trunk := rfl

theorem CrDesk.trigger_trunk (d : CrDesk) (t : Trigger) : (d.trigger t).paths.trunk = d.paths.trunk := by
  unfold CrDesk.trigger
  simp only
  split <;> rfl

theorem CrMove.trunk {o : Option Instr} {d e : CrDesk} (h : CrMove d o e) : e.paths.trunk = d.paths.trunk := by
  cases h with
  | set tag enable post mask => rfl
  | consoleTrigger tag =>
    unfold CrDesk.takeConsoleTrigger
    split
    · split
      · exact d.trigger_trunk .console
      · rfl
    · rfl
  | drain tag count =>
    unfold CrDesk.takeDrain
    split
    · split <;> rfl
    · rfl
  | rearm tag => rfl
  | sample x rest _ =>
    unfold CrDesk.takeSample
    split
    · rfl
    · rfl
    · rfl
    · simp only
      split <;> rfl
  | trigger b t rest _ =>
    unfold CrDesk.takeTrigger
    split
    · exact CrDesk.trigger_trunk _ t
    · rfl

/-! ## ES -/

section
variable (d : EsDesk)

@[simp] theorem EsDesk.event_trunk (e : Event) : (d.event e).paths.trunk = d.paths.trunk := rfl
@[simp] theorem EsDesk.reply_trunk (r : Reply) : (d.reply r).paths.trunk = d.paths.trunk := rfl
@[simp] theorem EsDesk.sendTag_trunk : d.sendTag.paths.trunk = d.paths.trunk := rfl

@[simp] theorem EsDesk.tagIfChanged_trunk (was : ExtName) : (d.tagIfChanged was).paths.trunk = d.paths.trunk := by
  unfold EsDesk.tagIfChanged
  split <;> rfl

@[simp] theorem EsDesk.startRemoval_trunk (c : Criterion) (n : Option Nat) (e : Int) :
    (d.startRemoval c n e).paths.trunk = d.paths.trunk := rfl

@[simp] theorem EsDesk.release_trunk (n : Option Nat) (src : Option Source) (inTime : Bool) :
    (d.release n src inTime).paths.trunk = d.paths.trunk := by
  cases inTime <;> rfl

theorem EsDesk.sendTrigger_trunk (b : Block) (t : Trigger) :
    (EsDesk.mk d.es (d.paths.sendTrigger b t)).paths.trunk = d.paths.trunk := rfl

@[simp] theorem EsDesk.demote_trunk (x : Sample) : (d.demote x).paths.trunk = d.paths.trunk := by
  unfold EsDesk.demote
  split
  · rfl
  · split
    · rfl
    · simp only
      split
      · rw [EsDesk.sendTag_trunk, EsDesk.sendTrigger_trunk, EsDesk.event_trunk]
      · split
        · rfl
        · rw [EsDesk.event_trunk]

@[simp] theorem EsDesk.slip_trunk (x : Sample) (i : ArmId) : (d.slip x i).paths.trunk = d.paths.trunk := by
  unfold EsDesk.slip
  split <;> rfl

@[simp] theorem EsDesk.judgeOpen_trunk (x : Sample) : (d.judgeOpen x).paths.trunk = d.paths.trunk := by
  unfold EsDesk.judgeOpen
  split
  · split
    · split
      · rfl
      · exact d.release_trunk _ _ _
      · exact d.release_trunk _ _ _
      · rfl
    · rfl
  · rfl

theorem EsDesk.whileActive_trunk (f : EsDesk → EsDesk) (h : ∀ d, (f d).paths.trunk = d.paths.trunk) :
    (d.whileActive f).paths.trunk = d.paths.trunk := by
  unfold EsDesk.whileActive
  split
  · exact h d
  · rfl

theorem EsDesk.testRemoval_trunk (x : Sample) : (d.testRemoval x).paths.trunk = d.paths.trunk := by
  unfold EsDesk.testRemoval
  split
  · exact d.startRemoval_trunk _ _ _
  · rfl

theorem EsDesk.actOn_trunk (x : Sample) : (d.actOn x).paths.trunk = d.paths.trunk := by
  unfold EsDesk.actOn
  split
  · simp only [judgeOpen_trunk]
    rw [EsDesk.whileActive_trunk _ _ fun d => d.testRemoval_trunk x,
      EsDesk.whileActive_trunk _ _ fun d => by simp only [judgeSlip, slip_trunk], demote_trunk]
  · exact EsDesk.judgeOpen_trunk _ x
  · rfl
  · rfl
  · rfl
  · rfl
  · rfl

theorem EsDesk.seat_trunk (x : Sample) : (d.seat x).paths.trunk = d.paths.trunk := by
  have judged : (if d.es.tag.state.judgesSeating then
      EsDesk.tagIfChanged { d with es := { d.es with state := seating d.es.fitted x.contactA x.contactB } } d.es.state.name
      else d).paths.trunk = d.paths.trunk := by
    split
    · exact EsDesk.tagIfChanged_trunk _ _
    · rfl
  unfold EsDesk.seat
  split
  · exact judged
  · exact judged
  · exact judged
  · rfl

theorem EsDesk.takeSample_trunk (x : Sample) : (d.takeSample x).paths.trunk = d.paths.trunk :=
  (EsDesk.seat_trunk _ x).trans (d.actOn_trunk x)

theorem EsDesk.takeRemove_trunk (tag : Tag) : (d.takeRemove tag).paths.trunk = d.paths.trunk := by
  unfold EsDesk.takeRemove
  simp only
  split
  · rfl
  · split <;> rfl

theorem EsDesk.takeConfirm_trunk (tag : Tag) : (d.takeConfirm tag).paths.trunk = d.paths.trunk := by
  unfold EsDesk.takeConfirm
  split
  · next sub _ =>
    split
    · rfl
    · cases sub with
      | awaitBoth => rfl
      | awaitConfirm =>
        exact (EsDesk.reply_trunk _ _).trans
          (d.release_trunk (d.es.last.map EsLast.number) (d.es.last.map EsLast.source) true)
      | awaitArms => rfl
  · rfl

theorem EsDesk.expireRemoval_trunk : d.expireRemoval.paths.trunk = d.paths.trunk := by
  unfold EsDesk.expireRemoval
  split
  · simp only
    split
    · exact EsDesk.release_trunk _ _ _ _
    · rfl
  · rfl

theorem EsDesk.failAtBreak_trunk (n : Nat) : (d.failAtBreak n).paths.trunk = d.paths.trunk := rfl

theorem EsDesk.takeBreak_trunk (n : Nat) : (d.takeBreak n).paths.trunk = d.paths.trunk := by
  unfold EsDesk.takeBreak
  split
  · exact d.failAtBreak_trunk n
  · split
    · rfl
    · split
      · rfl
      · exact d.failAtBreak_trunk n
  · rfl

theorem EsDesk.takeCriterion_trunk (c : Criterion) (n : Nat) (e : Int) : (d.takeCriterion c n e).paths.trunk = d.paths.trunk := by
  unfold EsDesk.takeCriterion
  split
  · split <;> rfl
  · rfl

end

/-- A move of ES takes at most the message at the head of MS's path. -/
theorem EsMove.trunk {o : Option Instr} {d e : EsDesk} (h : EsMove d o e) :
    e.paths.trunk = d.paths.trunk ∨
      ∃ m rest, d.paths.msToEs = m :: rest ∧ e.paths.trunk = { d.paths.trunk with toEs := rest } := by
  cases h with
  | remove tag => exact .inl (d.takeRemove_trunk tag)
  | confirm tag => exact .inl (d.takeConfirm_trunk tag)
  | sample x rest _ => exact .inl (EsDesk.takeSample_trunk _ x)
  | notice g f rest h => exact .inr ⟨_, rest, h, rfl⟩
  | armCopy c rest h => exact .inr ⟨_, rest, h, rfl⟩
  | tag t rest h => exact .inr ⟨_, rest, h, EsDesk.tagIfChanged_trunk _ _⟩
  | criterion c n e x rest _ => exact .inl (EsDesk.takeCriterion_trunk _ c n e)
  | expiry => exact .inl d.expireRemoval_trunk
  | brk n rest _ => exact .inl (EsDesk.takeBreak_trunk _ n)

/-! ## MC and SP -/

theorem McDesk.takeZero_trunk (d : McDesk) (k : RequestKind) (tag : Tag) (pend : Mc → Mc) :
    (d.takeZero k tag pend).paths.trunk = d.paths.trunk := by
  unfold McDesk.takeZero
  split <;> rfl

theorem McDesk.convert_trunk (d : McDesk) (g : GoodFrame) : (d.convert g).paths.trunk = d.paths.trunk := by
  have raised (p : Paths) (b : Bool) (k : FaultKind) (e : Event) :
      (if b then p.raiseFault .mc k e else p).trunk = p.trunk := by
    split
    · exact p.raiseFault_trunk _ _ _
    · rfl
  have delivered (p : Paths) (x : Sample) : (p.deliver x).trunk = p.trunk := rfl
  simp only [McDesk.convert, delivered, raised, Paths.sendMcReplies_trunk]

theorem McDesk.takeTag_trunk (d : McDesk) (t : MotionTag) : (d.takeTag t).paths.trunk = d.paths.trunk := by
  unfold McDesk.takeTag
  simp only
  split
  · rfl
  · exact Paths.sendMcReplies_trunk _ _

/-- What MC reports to MS after a load: with a DONE the new summary, then the outcome. -/
theorem McDesk.takeLoad_trunk (d : McDesk) (tag : Tag) (l : CalLoad) :
    ∃ sums o, (d.takeLoad tag l).paths.trunk = { d.paths.trunk with fromMc := d.paths.mcToMs ++ (sums ++ [.outcome o]) } ∧
      ((sums = [] ∧ (d.takeLoad tag l).mc.cal = d.mc.cal) ∨ sums = [McToMs.summary (d.takeLoad tag l).mc.cal.summary]) := by
  unfold McDesk.takeLoad
  split
  · exact ⟨[], _, rfl, .inl ⟨rfl, rfl⟩⟩
  · split
    · exact ⟨[], _, rfl, .inl ⟨rfl, rfl⟩⟩
    · next cal clamps _ =>
      exact ⟨[.summary cal.summary], .done, by
        simp only [Paths.trunk, Paths.sendMcOutcome, Paths.sendSummary, Paths.sendReply, List.append_assoc], .inr rfl⟩

/-- A move of MC that takes no load reports nothing to MS. -/
theorem McMove.trunk {o : Option Instr} {d e : McDesk} (h : McMove d o e) :
    (e.paths.trunk = d.paths.trunk ∧ e.mc.cal = d.mc.cal) ∨
    (∃ m rest, d.paths.msToMc = m :: rest ∧ (∀ tag l, m ≠ .load tag l) ∧
      e.paths.trunk = { d.paths.trunk with toMc := rest } ∧ e.mc.cal = d.mc.cal) ∨
    (∃ tag l rest, d.paths.msToMc = .load tag l :: rest ∧
      e = McDesk.takeLoad { d with paths := { d.paths with msToMc := rest } } tag l) := by
  have zeroCal (k : RequestKind) (tag : Tag) (pend : Mc → Mc) (hp : (pend d.mc).cal = d.mc.cal) :
      (d.takeZero k tag pend).mc.cal = d.mc.cal := by
    unfold McDesk.takeZero
    split
    · exact hp
    · rfl
  cases h with
  | reply r => exact .inl ⟨rfl, rfl⟩
  | tare tag => exact .inl ⟨d.takeZero_trunk _ _ _, zeroCal _ _ _ rfl⟩
  | zeroExt tag => exact .inl ⟨d.takeZero_trunk _ _ _, zeroCal _ _ _ rfl⟩
  | zeroPosition tag => exact .inl ⟨d.takeZero_trunk _ _ _, zeroCal _ _ _ rfl⟩
  | convert g rest _ => exact .inl ⟨McDesk.convert_trunk _ g, rfl⟩
  | tag t rest h =>
    refine .inr (.inl ⟨_, rest, h, by simp, McDesk.takeTag_trunk _ t, ?_⟩)
    unfold McDesk.takeTag
    simp only
    split <;> split <;> rfl
  | load c tag l rest h => exact .inr (.inr ⟨tag, l, rest, h, rfl⟩)
  | notice g p rest h => exact .inr (.inl ⟨_, rest, h, by simp, rfl, rfl⟩)
  | dropArm x rest _ => exact .inl ⟨rfl, rfl⟩
  | storeDone _ => exact .inl ⟨rfl, rfl⟩

/-- What a move of SP with MC's part in it reports: nothing, the end of autoload, or a change of the store state. -/
inductive StoreReport (d e : StoreDesk) : Prop
  | nothing (l : List McMessage) (loads : loadsToMc l = loadsToMc d.paths.msToMc)
      (trunk : e.paths.trunk = { d.paths.trunk with toMc := l }) (state : e.sp.state = d.sp.state) (cal : e.mc.cal = d.mc.cal)
  | loaded (was : d.sp.state = .loading)
      (trunk : e.paths.trunk = { d.paths.trunk with
        storeStates := d.paths.storeStates ++ [e.sp.state], fromMc := d.paths.mcToMs ++ [.summary e.mc.cal.summary] })
      (state : e.sp.state = .ready)
  | storing (l : List McMessage) (loads : loadsToMc l = loadsToMc d.paths.msToMc)
      (trunk : e.paths.trunk = { d.paths.trunk with toMc := l, storeStates := d.paths.storeStates ++ [e.sp.state] })
      (state : e.sp.state ≠ .loading) (cal : e.mc.cal = d.mc.cal)

theorem StoreDesk.finish_report (d : StoreDesk) (e : StoreDesk) (trunk : e.paths.trunk = d.paths.trunk)
    (cal : e.mc.cal = d.mc.cal) : StoreReport d e.finish := by
  simp only [Paths.trunk, Trunk.mk.injEq] at trunk
  obtain ⟨toMc, toEs, toTe, fromMc, fromTe, states, ms, es, cr⟩ := trunk
  exact .storing _ rfl
    (by simp only [StoreDesk.finish, Paths.sendStoreState, Paths.trunk, toMc, toEs, toTe, fromMc, fromTe, states, ms, es, cr])
    (by simp [StoreDesk.finish]) cal

theorem StoreDesk.answerStore_trunk (d : StoreDesk) (r : Tag → Reply) :
    (d.answerStore r).paths.trunk = d.paths.trunk ∧ (d.answerStore r).mc = d.mc := by
  unfold StoreDesk.answerStore
  split <;> exact ⟨rfl, rfl⟩

theorem StoreDesk.failStore_report (d : StoreDesk) (r : Reason) (e : StoreReason) : StoreReport d (d.failStore r e) := by
  obtain ⟨trunk, mc⟩ := d.answerStore_trunk fun tag => refuse .store tag .storeFailed r .none
  exact d.finish_report _ trunk (congrArg Mc.cal mc)

theorem StoreMove.report {o : Option Instr} {d e : StoreDesk} (h : StoreMove d o e) : StoreReport d e := by
  have ends (was : d.sp.state = .loading) (cal : CalSet) (i : Identity) (ev : Event) : StoreReport d (d.endAutoload cal i ev) :=
    .loaded was rfl rfl
  cases h with
  | header bytes =>
    unfold StoreDesk.takeHeader
    split
    · next h =>
      split
      · exact ends h.1 _ _ _
      · exact .nothing _ rfl rfl rfl rfl
    · exact .nothing _ rfl rfl rfl rfl
  | image bytes =>
    unfold StoreDesk.takeImage
    split
    · next h => split <;> exact ends h.1 _ _ _
    · exact .nothing _ rfl rfl rfl rfl
  | autoloadFails c r h => exact ends h _ _ _
  | store tag rest h =>
    have loads : loadsToMc rest = loadsToMc d.paths.msToMc := by rw [h]; rfl
    unfold StoreDesk.takeStore
    split
    · exact .nothing rest loads rfl rfl rfl
    · exact .storing rest loads rfl (by simp) rfl
  | written =>
    unfold StoreDesk.verify
    split
    · exact .storing _ rfl rfl (by simp) rfl
    · exact .nothing _ rfl rfl rfl rfl
  | readBack bytes =>
    unfold StoreDesk.takeReadBack
    split
    · split
      · obtain ⟨trunk, mc⟩ := d.answerStore_trunk fun tag => answer .store tag .done .none
        exact d.finish_report _ trunk (congrArg Mc.cal mc)
      · exact d.failStore_report _ _
    · exact .nothing _ rfl rfl rfl rfl
  | storeFails c r e _ => exact d.failStore_report r e

end Sys2Proof.Machine
end

