-- ==== Sys2Proof/Proofs/ResultOrderLaw.lean ====
section
/-! The law of result order (R129): every operation of TE leaves the forces of the results, of the peak and of the pre-break
candidate in order, because each is the force of a sample taken after Fm has followed it. -/

namespace Sys2Proof.Machine

/-! ## What the law speaks of -/

/-- The result points of a record. -/
def Results.points (r : Results) : Option SourcePoint × Option Point × Option Point × Option SourcePoint × Option BreakRecord :=
  (r.reH, r.reL, r.fm, r.rp, r.brk)

theorem Results.ordered_congr {r r' : Results} (h : r'.points = r.points) : r'.Ordered ↔ r.Ordered := by
  simp only [Results.points, Prod.mk.injEq] at h
  obtain ⟨reH, reL, fm, rp, brk⟩ := h
  simp only [Results.Ordered, reH, reL, fm, rp, brk]

theorem Results.cleared_ordered (label : Option (List Byte)) (s0 : Int) : (Results.cleared label s0).Ordered := by
  simp [Results.Ordered, Results.cleared]

/-- What the working record and the detectors have of the law. -/
structure Te.WorkingOrder (t : Te) : Prop where
  ordered : t.working.Ordered
  peak : ∀ p ∈ t.peak, ∃ m, t.working.fm = some m ∧ p.force ≤ m.force
  candidate : ∀ c ∈ t.candidate, ∃ m, t.working.fm = some m ∧ c.force ≤ m.force
  seeking : t.yieldState = .seeking → t.working.reH = none ∧ t.working.reL = none

theorem Te.lawfulOrder_iff (t : Te) : t.LawfulOrder ↔ t.WorkingOrder ∧ t.published.Ordered :=
  ⟨fun ⟨ordered, published, peak, candidate, seeking⟩ => ⟨⟨ordered, peak, candidate, seeking⟩, published⟩,
    fun ⟨⟨ordered, peak, candidate, seeking⟩, published⟩ => ⟨ordered, published, peak, candidate, seeking⟩⟩

/-- What `WorkingOrder` speaks of. -/
def Te.orderItems (t : Te) :
    (Option SourcePoint × Option Point × Option Point × Option SourcePoint × Option BreakRecord) × Option SourcePoint ×
      Option Point × YieldState :=
  (t.working.points, t.peak, t.candidate, t.yieldState)

theorem Te.WorkingOrder.congr {t t' : Te} (h : t.WorkingOrder) (items : t'.orderItems = t.orderItems) : t'.WorkingOrder := by
  simp only [Te.orderItems, Prod.mk.injEq] at items
  obtain ⟨points, peak, candidate, state⟩ := items
  have ordered := (Results.ordered_congr points).2 h.ordered
  simp only [Results.points, Prod.mk.injEq] at points
  obtain ⟨reH, reL, fm, -⟩ := points
  exact ⟨ordered, by simpa only [peak, fm] using h.peak, by simpa only [candidate, fm] using h.candidate,
    by simpa only [state, reH, reL] using h.seeking⟩

/-- A sample judged after stage 1: Fm has followed it. -/
structure Te.OrderOn (t : Te) (x : Sample) : Prop extends t.WorkingOrder where
  reached : ∃ m, t.working.fm = some m ∧ x.force ≤ m.force

theorem Te.OrderOn.congr {t t' : Te} {x : Sample} (h : t.OrderOn x) (items : t'.orderItems = t.orderItems) : t'.OrderOn x := by
  refine ⟨h.toWorkingOrder.congr items, ?_⟩
  simp only [Te.orderItems, Results.points, Prod.mk.injEq] at items
  obtain ⟨⟨-, -, fm, -⟩, -⟩ := items
  rw [fm]
  exact h.reached

/-! ## The stages of a sample -/

/-- Stage 1: a greater Fm keeps the order, and the sample lies at or below it. -/
theorem Te.WorkingOrder.trackMax {t : Te} (h : t.WorkingOrder) (x : Sample) : (t.trackMax x).OrderOn x := by
  unfold Te.trackMax
  split
  · next raised =>
    have above {f : Int} (hf : ∃ m, t.working.fm = some m ∧ f ≤ m.force) : f ≤ x.force := by
      obtain ⟨m, hm, le⟩ := hf
      simp only [Te.raisesMax, hm, decide_eq_true_eq] at raised
      omega
    obtain ⟨⟨lowUp, upper, needsUp, proof, brk⟩, peak, candidate, seeking⟩ := h
    exact ⟨⟨⟨lowUp, fun p hp => ⟨_, rfl, above (upper p hp)⟩, needsUp, fun p hp => ⟨_, rfl, above (proof p hp)⟩,
      fun b hb => ⟨_, rfl, above (brk b hb)⟩⟩, fun p hp => ⟨_, rfl, above (peak p hp)⟩,
      fun c hc => ⟨_, rfl, above (candidate c hc)⟩, seeking⟩, ⟨_, rfl, le_refl _⟩⟩
  · next kept =>
    refine ⟨h, ?_⟩
    unfold Te.raisesMax at kept
    split at kept
    · exact absurd rfl kept
    · next m hm => exact ⟨m, hm, by simpa using kept⟩

theorem Te.OrderOn.takePeak {t : Te} {x : Sample} (h : t.OrderOn x) : (t.takePeak x).OrderOn x := by
  have risen : Te.OrderOn { t with peak := some (sampleSourcePoint x) } x :=
    ⟨⟨h.ordered, fun p hp => by cases hp; exact h.reached, h.candidate, h.seeking⟩, h.reached⟩
  unfold Te.takePeak
  split
  · exact risen
  · split
    · exact risen
    · exact h

/-- A plateau that ends leaves the points as they are. -/
theorem Te.endPlateau_orderOn {t : Te} {x : Sample} (h : t.OrderOn x) : t.endPlateau.OrderOn x :=
  ⟨⟨(Results.ordered_congr rfl).1 h.ordered, h.peak, h.candidate, fun hs => YieldState.noConfusion hs⟩, h.reached⟩

theorem TeDesk.seekYield_orderOn {d : TeDesk} {x : Sample} (p : EvalParams) (seeking : d.te.yieldState = .seeking)
    (h : d.te.OrderOn x) : (d.seekYield p x).te.OrderOn x := by
  have ht := h.takePeak
  have hs : (d.te.takePeak x).yieldState = .seeking := by
    unfold Te.takePeak
    split
    · exact seeking
    · split <;> exact seeking
  unfold TeDesk.seekYield
  simp only
  split
  · exact ht
  · next peak hp =>
    split
    · obtain ⟨upNone, lowNone⟩ := ht.seeking hs
      refine ⟨⟨⟨?_, ?_, ?_, ht.ordered.2.2.2.1, ht.ordered.2.2.2.2⟩, ht.peak, ht.candidate, fun hs => YieldState.noConfusion hs⟩,
        ht.reached⟩
      · intro l hl; cases lowNone.symm.trans hl
      · intro q hq; cases hq; exact ht.peak peak hp
      · intro l hl; cases lowNone.symm.trans hl
    · split
      · exact ⟨⟨(Results.ordered_congr rfl).1 ht.ordered, ht.peak, ht.candidate, fun hs => YieldState.noConfusion hs⟩,
          ht.reached⟩
      · exact ht

/-- ReL is lowered to a sample that lies at or below ReH. -/
theorem Te.OrderOn.countLower {t : Te} {x : Sample} {reH : SourcePoint} (h : t.OrderOn x) (hp : t.yieldState = .plateau)
    (up : t.working.reH = some reH) (le : x.force ≤ reH.force) : (t.countLower x).OrderOn x := by
  have lowered : Te.OrderOn (t.onWorking fun r => { r with reL := some (samplePoint x) }) x := by
    refine ⟨⟨⟨?_, h.ordered.2.1, fun _ _ => ⟨reH, up⟩, h.ordered.2.2.2.1, h.ordered.2.2.2.2⟩, h.peak, h.candidate, ?_⟩,
      h.reached⟩
    · intro l hl q hq
      cases hl
      cases up.symm.trans hq
      exact le
    · intro hs
      exact YieldState.noConfusion (hp.symm.trans hs)
  unfold Te.countLower
  split
  · exact lowered
  · split
    · exact lowered
    · exact h

theorem TeDesk.judgeYield_orderOn {d : TeDesk} {x : Sample} (p : EvalParams) (h : d.te.OrderOn x) :
    (d.judgeYield p x).te.OrderOn x := by
  unfold TeDesk.judgeYield
  split
  · next seeking => exact d.seekYield_orderOn p seeking h
  · next plateau =>
    unfold TeDesk.followPlateau
    split
    · exact h
    · next reH up =>
      split
      · exact Te.endPlateau_orderOn h
      · next within =>
        split
        · exact h
        · exact h.countLower plateau up (by omega)
  · exact h
  · exact h

theorem TeDesk.failFit_orderItems (d : TeDesk) (r : FitReason) (n : Option Nat) :
    (d.failFit r n).te.orderItems = d.te.orderItems := rfl

theorem TeDesk.judgeFit_orderItems (d : TeDesk) (p : EvalParams) (x : Sample) :
    (d.judgeFit p x).te.orderItems = d.te.orderItems := by
  unfold TeDesk.judgeFit TeDesk.closeFit
  split
  · rfl
  split
  · rfl
  split
  · simp only
    split <;> rfl
  split <;> rfl

theorem TeDesk.judgeProof_orderOn {d : TeDesk} {x : Sample} (p : EvalParams) (h : d.te.OrderOn x) :
    (d.judgeProof p x).te.OrderOn x := by
  unfold TeDesk.judgeProof
  simp only
  split
  · refine ⟨⟨⟨h.ordered.1, h.ordered.2.1, h.ordered.2.2.1, ?_, h.ordered.2.2.2.2⟩, h.peak, h.candidate, h.seeking⟩, h.reached⟩
    intro q hq
    cases hq
    exact h.reached
  · exact h

theorem TeDesk.judgeRunning_orderOn {d : TeDesk} {x : Sample} (p : EvalParams) (h : d.te.OrderOn x) :
    (d.judgeRunning p x).te.OrderOn x := by
  have fitted : ((d.judgeYield p x).judgeFit p x).te.OrderOn x :=
    (d.judgeYield_orderOn p h).congr (TeDesk.judgeFit_orderItems _ p x)
  unfold TeDesk.judgeRunning
  simp only
  split
  · exact TeDesk.judgeProof_orderOn p fitted
  · exact fitted

theorem Te.closeProof_orderItems (t : Te) : t.closeProof.orderItems = t.orderItems := by
  unfold Te.closeProof
  split <;> rfl

theorem Te.WorkingOrder.closeYield {t : Te} (h : t.WorkingOrder) : t.closeYield.WorkingOrder := by
  unfold Te.closeYield
  split
  · exact ⟨(Results.ordered_congr rfl).1 h.ordered, h.peak, h.candidate, fun hs => YieldState.noConfusion hs⟩
  · exact h

theorem TeDesk.closeOpenFit_orderItems (d : TeDesk) (n : Option Nat) : (d.closeOpenFit n).te.orderItems = d.te.orderItems := by
  unfold TeDesk.closeOpenFit
  split <;> rfl

theorem TeDesk.confirmBreak_workingOrder {d : TeDesk} (x : Sample) (h : d.te.WorkingOrder) :
    (d.confirmBreak x).te.WorkingOrder := by
  have confirmed : Te.WorkingOrder { d.te with breakConfirmed := true, breakState := .confirmed } := h.congr rfl
  have ht := ((confirmed.congr (TeDesk.closeOpenFit_orderItems ⟨_, d.paths⟩ (some x.number))).congr
    (Te.closeProof_orderItems _)).closeYield
  unfold TeDesk.confirmBreak
  simp only
  split
  · exact ht
  · next pre hpre =>
    refine ⟨⟨ht.ordered.1, ht.ordered.2.1, ht.ordered.2.2.1, ht.ordered.2.2.2.1, ?_⟩, ht.peak, ht.candidate, ht.seeking⟩
    intro b hb
    cases hb
    exact ht.candidate pre hpre

theorem TeDesk.watchBreak_workingOrder {d : TeDesk} {x : Sample} (p : EvalParams) (raised : Bool) (h : d.te.OrderOn x) :
    (d.watchBreak p x raised).te.WorkingOrder := by
  unfold TeDesk.watchBreak
  split
  · simp only
    split
    · exact TeDesk.confirmBreak_workingOrder (d := ⟨_, d.paths⟩) x (h.toWorkingOrder.congr rfl)
    · exact h.toWorkingOrder.congr rfl
  · exact ⟨h.ordered, h.peak, fun c hc => by cases hc; exact h.reached, h.seeking⟩

theorem TeDesk.judge_workingOrder {d : TeDesk} (p : EvalParams) (x : Sample) (h : d.te.WorkingOrder) :
    (d.judge p x).te.WorkingOrder := by
  unfold TeDesk.judge
  extract_lets raised d1 d2
  have h2 : d2.te.OrderOn x := by
    have h1 : d1.te.OrderOn x := h.trackMax x
    unfold d2
    split
    · exact TeDesk.judgeRunning_orderOn p h1
    · exact h1
  unfold TeDesk.judgeBreak
  split
  · split
    · exact TeDesk.watchBreak_workingOrder (d := ⟨_, d2.paths⟩) p raised (h2.congr rfl)
    · exact h2.toWorkingOrder
  · exact TeDesk.watchBreak_workingOrder p raised h2
  · exact h2.toWorkingOrder

/-! ## Publication, tags -/

theorem Te.LawfulOrder.copyOut {t : Te} (h : t.WorkingOrder) : t.copyOut.LawfulOrder :=
  (Te.lawfulOrder_iff _).2 ⟨h.congr rfl, h.ordered⟩

theorem Te.LawfulOrder.publish {t : Te} (h : t.LawfulOrder) : t.publish.LawfulOrder := by
  unfold Te.publish
  split
  · exact .copyOut ((lawfulOrder_iff _).1 h).1
  · exact h

/-- An operation that leaves the points, the detectors' candidates and the published record keeps the law. -/
theorem Te.LawfulOrder.congr {t t' : Te} (h : t.LawfulOrder) (items : t'.orderItems = t.orderItems)
    (published : t'.published = t.published) : t'.LawfulOrder := by
  obtain ⟨working, kept⟩ := (lawfulOrder_iff t).1 h
  exact (lawfulOrder_iff t').2 ⟨working.congr items, published ▸ kept⟩

theorem Te.LawfulOrder.settle {t : Te} (was : Results) (h : t.LawfulOrder) : (t.settle was).LawfulOrder := by
  have stressed : Te.LawfulOrder (t.onWorking fun r => r.withStresses t.s0) := h.congr rfl rfl
  unfold Te.settle
  simp only
  split
  · exact stressed
  · exact stressed.publish

/-! ## What the detectors leave as it is -/

/-- What of TE no detector changes: parameters, tag, the open mark, the published record and the hold. -/
def Te.setting (t : Te) :
    (Option EvalParams × Option TeArmCopy × Option EvalParams × MotionTag × Bool) × Results × Nat × HoldState × Option Nat ×
      Option ExpiryCause :=
  ((t.loaded, t.copy, t.params, t.tag, t.testOpen), t.published, t.count, t.hold, t.holdTimer, t.expired)

theorem Te.trackMax_setting (t : Te) (x : Sample) : (t.trackMax x).setting = t.setting := by
  unfold Te.trackMax
  split <;> rfl

theorem Te.takePeak_setting (t : Te) (x : Sample) : (t.takePeak x).setting = t.setting := by
  unfold Te.takePeak
  split
  · rfl
  · split <;> rfl

theorem Te.countLower_setting (t : Te) (x : Sample) : (t.countLower x).setting = t.setting := by
  unfold Te.countLower
  split
  · rfl
  · split <;> rfl

theorem Te.closeProof_setting (t : Te) : t.closeProof.setting = t.setting := by
  unfold Te.closeProof
  split <;> rfl

theorem Te.closeYield_setting (t : Te) : t.closeYield.setting = t.setting := by
  unfold Te.closeYield
  split <;> rfl

/-- What of TE's desk no detector changes. -/
def TeDesk.left (d : TeDesk) :
    ((Option EvalParams × Option TeArmCopy × Option EvalParams × MotionTag × Bool) × Results × Nat × HoldState × Option Nat ×
      Option ExpiryCause) × Trunk :=
  (d.te.setting, d.paths.trunk)

theorem TeDesk.left_congr {t t' : Te} (p : Paths) (h : t'.setting = t.setting) : TeDesk.left ⟨t', p⟩ = TeDesk.left ⟨t, p⟩ :=
  congrArg (·, p.trunk) h

theorem TeDesk.judgeYield_left (d : TeDesk) (p : EvalParams) (x : Sample) : (d.judgeYield p x).left = d.left := by
  have peak : TeDesk.left { d with te := d.te.takePeak x } = d.left := left_congr d.paths (d.te.takePeak_setting x)
  unfold TeDesk.judgeYield TeDesk.seekYield TeDesk.followPlateau
  split
  · simp only
    split
    · exact peak
    · split
      · exact peak
      · split <;> exact peak
  · split
    · rfl
    · split
      · rfl
      · split
        · rfl
        · exact left_congr d.paths (d.te.countLower_setting x)
  · rfl
  · rfl

theorem TeDesk.judgeFit_left (d : TeDesk) (p : EvalParams) (x : Sample) : (d.judgeFit p x).left = d.left := by
  unfold TeDesk.judgeFit TeDesk.closeFit
  split
  · rfl
  split
  · rfl
  split
  · simp only
    split <;> rfl
  split <;> rfl

theorem TeDesk.judgeProof_left (d : TeDesk) (p : EvalParams) (x : Sample) : (d.judgeProof p x).left = d.left := by
  unfold TeDesk.judgeProof
  simp only
  split <;> rfl

theorem TeDesk.judgeRunning_left (d : TeDesk) (p : EvalParams) (x : Sample) : (d.judgeRunning p x).left = d.left := by
  unfold TeDesk.judgeRunning
  simp only
  split
  · rw [judgeProof_left, judgeFit_left, judgeYield_left]
  · rw [judgeFit_left, judgeYield_left]

theorem TeDesk.closeOpenFit_left (d : TeDesk) (n : Option Nat) : (d.closeOpenFit n).left = d.left := by
  unfold TeDesk.closeOpenFit
  split <;> rfl

/-- What closes with a confirmed break and at the end of a test. -/
theorem TeDesk.close_left (d : TeDesk) (n : Option Nat) :
    TeDesk.left { d.closeOpenFit n with te := (d.closeOpenFit n).te.closeProof.closeYield } = d.left := by
  have closed (e : TeDesk) : TeDesk.left { e with te := e.te.closeProof.closeYield } = e.left :=
    left_congr e.paths ((Te.closeYield_setting _).trans (Te.closeProof_setting _))
  exact (closed _).trans (d.closeOpenFit_left n)

theorem TeDesk.event_left (d : TeDesk) (e : Event) : (d.event e).left = d.left := rfl

theorem TeDesk.tell_left (d : TeDesk) (e : TeEvent) : (d.tell e).left = d.left := rfl

theorem TeDesk.sendTrigger_left (d : TeDesk) (b : Block) (t : Trigger) :
    TeDesk.left { d with paths := d.paths.sendTrigger b t } = d.left := rfl

theorem TeDesk.confirmBreak_left (d : TeDesk) (x : Sample) : (d.confirmBreak x).left = d.left := by
  have closed := TeDesk.close_left { d with te := { d.te with breakConfirmed := true, breakState := .confirmed } } (some x.number)
  unfold TeDesk.confirmBreak
  generalize TeDesk.closeOpenFit _ _ = e at closed ⊢
  simp only at closed ⊢
  generalize e.te.closeProof.closeYield = t at closed ⊢
  split
  · exact closed
  · rw [TeDesk.sendTrigger_left, TeDesk.tell_left, TeDesk.event_left]
    exact closed

theorem TeDesk.watchBreak_left (d : TeDesk) (p : EvalParams) (x : Sample) (raised : Bool) :
    (d.watchBreak p x raised).left = d.left := by
  unfold TeDesk.watchBreak
  split
  · simp only
    split
    · exact confirmBreak_left _ x
    · rfl
  · rfl

theorem TeDesk.judgeBreak_left (d : TeDesk) (p : EvalParams) (x : Sample) (raised : Bool) :
    (d.judgeBreak p x raised).left = d.left := by
  unfold TeDesk.judgeBreak
  split
  · split
    · exact watchBreak_left _ p x raised
    · rfl
  · exact watchBreak_left d p x raised
  · rfl

theorem TeDesk.judge_left (d : TeDesk) (p : EvalParams) (x : Sample) : (d.judge p x).left = d.left := by
  have max : TeDesk.left { d with te := d.te.trackMax x } = d.left := left_congr d.paths (d.te.trackMax_setting x)
  unfold TeDesk.judge
  simp only
  rw [judgeBreak_left]
  split
  · exact (judgeRunning_left _ p x).trans max
  · exact max

theorem TeDesk.judge_setting (d : TeDesk) (p : EvalParams) (x : Sample) : (d.judge p x).te.setting = d.te.setting :=
  congrArg Prod.fst (d.judge_left p x)

/-- No stage of a sample but the last publishes. -/
theorem TeDesk.judge_published (d : TeDesk) (p : EvalParams) (x : Sample) : (d.judge p x).te.published = d.te.published :=
  (Prod.mk.inj (Prod.mk.inj (d.judge_setting p x)).2).1

theorem TeDesk.takeSample_lawfulOrder {d : TeDesk} (x : Sample) (h : d.te.LawfulOrder) : (d.takeSample x).te.LawfulOrder := by
  obtain ⟨working, published⟩ := (Te.lawfulOrder_iff _).1 h
  unfold TeDesk.takeSample
  split
  · exact h
  · next p _ =>
    split
    · refine Te.LawfulOrder.settle _ ((Te.lawfulOrder_iff _).2 ⟨d.judge_workingOrder p x working, ?_⟩)
      rw [d.judge_published p x]
      exact published
    · exact h

theorem TeDesk.endTest_lawfulOrder {d : TeDesk} (c : Cause) (h : d.te.LawfulOrder) : (d.endTest c).te.LawfulOrder := by
  have h1 : Te.LawfulOrder (d.te.onWorking fun r => { r with endCause := c }) := h.congr rfl rfl
  unfold TeDesk.endTest
  split
  · simp only
    split
    · exact Te.LawfulOrder.publish (h1.congr rfl rfl)
    · obtain ⟨working, published⟩ := (Te.lawfulOrder_iff _).1 h1
      have closed := working.congr ((Te.closeProof_orderItems _).trans
        (TeDesk.closeOpenFit_orderItems ⟨d.te.onWorking fun r => { r with endCause := c }, d.paths⟩ none))
      refine Te.LawfulOrder.publish ((Te.lawfulOrder_iff _).2 ⟨closed.closeYield.congr rfl, ?_⟩)
      simp only [Te.closeYield, Te.closeProof, TeDesk.closeOpenFit]
      split <;> split <;> split <;> exact published
  · exact h

theorem TeDesk.holdExpired_lawfulOrder {d : TeDesk} (c : ExpiryCause) (h : d.te.LawfulOrder) : (d.holdExpired c).te.LawfulOrder :=
  (Te.LawfulOrder.copyOut (t := { d.te with hold := .free, holdTimer := none })
    (((Te.lawfulOrder_iff _).1 h).1.congr rfl)).congr rfl rfl

theorem TeDesk.onArmed_lawfulOrder {d : TeDesk} (h : d.te.LawfulOrder) : d.onArmed.te.LawfulOrder := by
  have cleared : d.te.clear.LawfulOrder := by
    refine (Te.lawfulOrder_iff _).2 ⟨⟨Results.cleared_ordered _ _, ?_, ?_, fun _ => ⟨rfl, rfl⟩⟩, ((Te.lawfulOrder_iff _).1 h).2⟩
    · intro p hp; cases hp
    · intro c hc; cases hc
  unfold TeDesk.onArmed
  simp only
  split
  · exact cleared.publish
  · exact TeDesk.holdExpired_lawfulOrder (d := ⟨d.te.clear, d.paths⟩) .armed cleared

theorem TeDesk.takeTag_lawfulOrder {d : TeDesk} (m : MotionTag) (h : d.te.LawfulOrder) : (d.takeTag m).te.LawfulOrder := by
  have tagged : Te.LawfulOrder { d.te with tag := m } := h.congr rfl rfl
  unfold TeDesk.takeTag
  simp only
  split
  · exact TeDesk.onArmed_lawfulOrder (d := ⟨_, d.paths⟩) tagged
  · split
    · exact tagged.congr rfl rfl
    · exact tagged
  · exact TeDesk.endTest_lawfulOrder (d := ⟨_, d.paths⟩) _ tagged
  · exact TeDesk.endTest_lawfulOrder (d := ⟨_, d.paths⟩) _ tagged
  · exact tagged.congr rfl rfl
  · exact tagged
  · exact tagged
  · exact tagged

theorem TeMove.lawfulOrder {o : Option Instr} {d e : TeDesk} (m : TeMove d o e) (h : d.te.LawfulOrder) : e.te.LawfulOrder := by
  cases m with
  | reply r => exact h
  | hold tag => exact h.congr rfl rfl
  | release tag =>
    show d.te.release.LawfulOrder
    unfold Te.release
    split
    · exact .copyOut (((Te.lawfulOrder_iff _).1 h).1.congr rfl)
    · exact h.congr rfl rfl
  | sample x rest _ => exact TeDesk.takeSample_lawfulOrder x h
  | params tag l rest _ =>
    unfold TeDesk.takeEvalLoad
    split
    · exact h.congr rfl rfl
    · split
      · exact h
      · exact h.congr rfl rfl
  | armCopy c rest _ => exact h.congr rfl rfl
  | tag t rest _ => exact TeDesk.takeTag_lawfulOrder t h
  | entry e rest _ => exact Te.LawfulOrder.publish (h.congr rfl rfl)
  | expiry =>
    unfold TeDesk.expireHold
    split
    · exact TeDesk.holdExpired_lawfulOrder _ h
    · exact h

/-- Every move of another block leaves TE as it is. -/
theorem State.Act.te_or {o : Option Instr} {s t : State} (h : s.Act o t) :
    t.te = s.te ∨ ∃ d, TeMove ⟨s.te, s.paths⟩ o d ∧ t.te = d.te := by
  cases h with
  | te d h => exact .inr ⟨d, h, rfl⟩
  | _ => exact .inl rfl

/-! ## What TE takes and reports -/

theorem TeDesk.endTest_left (d : TeDesk) (c : Cause) :
    (d.endTest c).te.loaded = d.te.loaded ∧ (d.endTest c).paths.trunk = d.paths.trunk := by
  have published (t : Te) : t.publish.loaded = t.loaded := by
    unfold Te.publish
    split <;> rfl
  have closed := TeDesk.close_left ⟨d.te.onWorking fun r => { r with endCause := c }, d.paths⟩ none
  simp only [TeDesk.left, Prod.mk.injEq] at closed
  obtain ⟨setting, trunk⟩ := closed
  unfold TeDesk.endTest
  split
  · simp only [published]
    split
    · exact ⟨rfl, rfl⟩
    · exact ⟨congrArg (fun t => t.1.1) setting, trunk⟩
  · exact ⟨rfl, rfl⟩

theorem TeDesk.takeTag_left (d : TeDesk) (t : MotionTag) :
    (d.takeTag t).te.loaded = d.te.loaded ∧ (d.takeTag t).paths.trunk = d.paths.trunk := by
  cases t with
  | armed =>
    simp only [takeTag, onArmed]
    split
    · refine ⟨?_, rfl⟩
      unfold Te.publish
      split <;> rfl
    · exact ⟨rfl, rfl⟩
  | running =>
    simp only [takeTag]
    split <;> exact ⟨rfl, rfl⟩
  | stopped c => exact TeDesk.endTest_left ⟨_, d.paths⟩ c
  | faulted c => exact TeDesk.endTest_left ⟨_, d.paths⟩ c
  | idle _ => exact ⟨rfl, rfl⟩
  | paused => exact ⟨rfl, rfl⟩
  | jogging => exact ⟨rfl, rfl⟩
  | arming _ => exact ⟨rfl, rfl⟩

/-- A move of TE takes at most the message at the head of MS's path, and only a load is reported to MS. -/
inductive TeReport (d e : TeDesk) : Prop
  | nothing (trunk : e.paths.trunk = d.paths.trunk) (loaded : e.te.loaded = d.te.loaded)
  | taken (m : TeMessage) (rest : List TeMessage) (head : d.paths.msToTe = m :: rest) (noLoad : ∀ tag l, m ≠ .params tag l)
      (trunk : e.paths.trunk = { d.paths.trunk with toTe := rest }) (loaded : e.te.loaded = d.te.loaded)
  | load (tag : Tag) (l : EvalLoad) (rest : List TeMessage) (o : LoadOutcome) (head : d.paths.msToTe = .params tag l :: rest)
      (trunk : e.paths.trunk = { d.paths.trunk with toTe := rest, fromTe := d.paths.teOutcomes ++ [o] })

theorem TeMove.report {o : Option Instr} {d e : TeDesk} (h : TeMove d o e) : TeReport d e := by
  cases h with
  | reply r => exact .nothing rfl rfl
  | hold tag => exact .nothing rfl rfl
  | release tag =>
    refine .nothing rfl ?_
    show d.te.release.loaded = d.te.loaded
    unfold Te.release
    split <;> rfl
  | sample x rest _ =>
    unfold TeDesk.takeSample
    split
    · exact .nothing rfl rfl
    · next p _ =>
      split
      · have judged := TeDesk.judge_left { d with paths := { d.paths with samplesTe := rest } } p x
        simp only [TeDesk.left, Prod.mk.injEq] at judged
        obtain ⟨setting, trunk⟩ := judged
        refine .nothing trunk (Eq.trans ?_ (congrArg (fun t => t.1.1) setting))
        simp only [Te.settle, Te.publish]
        split
        · rfl
        · split <;> rfl
      · exact .nothing rfl rfl
  | params tag l rest h =>
    unfold TeDesk.takeEvalLoad
    split
    · exact .load tag _ rest _ h rfl
    · split <;> exact .load tag _ rest _ h rfl
  | armCopy c rest h => exact .taken _ rest h (by simp) rfl rfl
  | tag t rest h =>
    obtain ⟨loaded, trunk⟩ := TeDesk.takeTag_left { d with paths := { d.paths with msToTe := rest } } t
    exact .taken _ rest h (by simp) trunk loaded
  | entry e rest h =>
    refine .taken _ rest h (by simp) rfl ?_
    simp only [Te.publish]
    split <;> rfl
  | expiry =>
    unfold TeDesk.expireHold
    split <;> exact .nothing rfl rfl

end Sys2Proof.Machine

open Sys2Proof.Machine

/-- Settles O6: every move of TE keeps the law (`TeMove.lawfulOrder`); a sample's results lie at or below Fm because stage 1
precedes the detectors (`Te.WorkingOrder.trackMax`). -/
theorem stepKeepsLawOfResultOrder : Obligations.StepKeepsLawOfResultOrder := by
  intro s t hs h
  refine step_keeps (P := fun s => s.te.LawfulOrder) (fun _ _ h => h) ?reset ?act hs h
  case reset =>
    exact fun _ => (Te.lawfulOrder_iff _).2 ⟨⟨Results.cleared_ordered _ _, by rintro p ⟨⟩, by rintro c ⟨⟩,
      fun _ => ⟨rfl, rfl⟩⟩, Results.cleared_ordered _ _⟩
  case act =>
    intro o s t act hs
    rcases act.te_or with same | ⟨d, move, hd⟩
    · rwa [same]
    · rw [hd]; exact move.lawfulOrder hs
end

