-- ==== Sys2Proof/Proofs/PermittedSetLaw.lean ====
section
/-! The law of the permitted set (R18): what MC's moves leave of it. Only the restorations of R18 add a member, and outside the
IDLE and ARMING tags none of them acts but that of RESET_TEST's tag. -/

namespace Sys2Proof.Machine

/-- A row of moves that links and requests bring about, or the taking of the command itself. -/
theorem State.Effect.acts_or_taking {c : Instr} {s t : State} (h : State.Effect c s t) : s.Acts t ∨ s.Act (some c) t := by
  cases h with
  | nothing h => exact .inl (h ▸ .refl)
  | request h => exact .inl (.single h)
  | taking h => exact .inr h
  | links h => exact .inl h.acts
  | frames _ h => exact .inl h

/-- Every move of a block other than MC and SP leaves MC as it is. -/
theorem State.Act.mc_or {o : Option Instr} {s t : State} (h : s.Act o t) :
    t.mc = s.mc ∨ (∃ d, McMove ⟨s.mc, s.paths⟩ o d ∧ t.mc = d.mc) ∨
      ∃ d, StoreMove ⟨s.mc, s.sp, s.paths⟩ o d ∧ t.mc = d.mc := by
  cases h with
  | mc d h => exact .inr (.inl ⟨d, h, rfl⟩)
  | store d h => exact .inr (.inr ⟨d, h, rfl⟩)
  | _ => exact .inl rfl

/-! ## Fewer members -/

/-- No member in the first that is not in the second. -/
def Permitted.within (p q : Permitted) : Prop := ∀ x, p.has x = true → q.has x = true

theorem Permitted.within_refl (p : Permitted) : p.within p := fun _ h => h

theorem Permitted.within_trans {p q r : Permitted} (h : p.within q) (h' : q.within r) : p.within r := fun x hx => h' x (h x hx)

theorem Permitted.drop_within (p : Permitted) (i : ArmId) : (p.drop i).within p := by
  intro x
  cases i <;> cases x <;> simp [Permitted.drop, Permitted.has]

theorem Permitted.foldl_drop_within (l : List ArmId) (p : Permitted) : (l.foldl Permitted.drop p).within p := by
  induction l generalizing p with
  | nil => exact p.within_refl
  | cons i l ih => exact Permitted.within_trans (ih (p.drop i)) (p.drop_within i)

theorem Permitted.prune_within (p : Permitted) (a b : Bool) : (p.prune a b).within p := by
  intro x
  cases x <;> simp +contextual [Permitted.prune, Permitted.has, usable]

/-! ## The moves of MC -/

/-- The set a conversion selects from is the one held less the arms dropped, when no restoration acts. -/
theorem Mc.permittedNow_within {m : Mc} (arming : m.armingZeros = none) (tag : m.tag.state ≠ .idle) :
    m.permittedNow.within m.permitted := by
  simp only [Mc.permittedNow, arming, tag, Option.isSome_none, decide_false, Bool.and_false, Bool.or_false, Bool.false_eq_true,
    if_false]
  exact Permitted.foldl_drop_within _ _

theorem Mc.choose_permitted_within (m : Mc) (f : SampleFrame) (raw : RawStrains) :
    (m.choose f raw).permitted.within m.permittedNow := by
  unfold Mc.choose
  simp only
  split
  · split
    · exact Permitted.within_refl _
    · simp only
      split
      · exact Permitted.prune_within _ _ _
      · exact Permitted.within_refl _
  · exact Permitted.within_refl _

/-- What SP with MC's part in it changes of MC: the Calibration Set, the identity and the store-in-flight mark. -/
def Mc.stored (m : Mc) (cal : CalSet) (i : Identity) (inFlight : Bool) : Mc :=
  { m with cal := cal, identity := i, storeInFlight := inFlight }

theorem StoreMove.mc_eq {o : Option Instr} {d e : StoreDesk} (h : StoreMove d o e) :
    ∃ cal i inFlight, e.mc = d.mc.stored cal i inFlight := by
  have same (m : Mc) : ∃ cal i inFlight, m = m.stored cal i inFlight := ⟨m.cal, m.identity, m.storeInFlight, rfl⟩
  have fails (d : StoreDesk) (r : Reason) (e : StoreReason) : (d.failStore r e).mc = d.mc := by
    unfold StoreDesk.failStore StoreDesk.answerStore
    split <;> rfl
  cases h with
  | header bytes =>
    unfold StoreDesk.takeHeader
    split
    · split
      · exact ⟨_, _, _, rfl⟩
      · exact same _
    · exact same _
  | image bytes =>
    unfold StoreDesk.takeImage
    split
    · split <;> exact ⟨_, _, _, rfl⟩
    · exact same _
  | autoloadFails c r h => exact ⟨_, _, _, rfl⟩
  | store tag rest h =>
    unfold StoreDesk.takeStore
    split
    · exact same _
    · exact ⟨_, _, _, rfl⟩
  | written => unfold StoreDesk.verify; split <;> exact same _
  | readBack bytes =>
    unfold StoreDesk.takeReadBack
    split
    · split
      · unfold StoreDesk.answerStore; split <;> exact same _
      · rw [fails]; exact same _
    · exact same _
  | storeFails c r e h => rw [fails]; exact same _

theorem StoreMove.permitted_eq {o : Option Instr} {d e : StoreDesk} (h : StoreMove d o e) : e.mc.permitted = d.mc.permitted := by
  obtain ⟨cal, i, inFlight, mc⟩ := h.mc_eq
  rw [mc]
  rfl

/-- A request leaves the permitted set. -/
theorem McMove.permitted_eq_of_request {d e : McDesk} (h : McMove d none e) : e.mc.permitted = d.mc.permitted := by
  cases h with
  | reply r => rfl
  | tare tag => unfold McDesk.takeZero; split <;> rfl
  | zeroExt tag => unfold McDesk.takeZero; split <;> rfl
  | zeroPosition tag => unfold McDesk.takeZero; split <;> rfl

theorem McMove.permitted_within {c : Instr} {d e : McDesk} (h : McMove d (some c) e) (lawful : d.mc.LawfulZeros)
    (idle : d.mc.tag.state ≠ .idle) (arming : ∀ n, d.mc.tag ≠ .arming n)
    (resetTest : c = .mcStateTag → d.paths.msToMc.head? ≠ some (.tag (.idle true))) :
    e.mc.permitted.within d.mc.permitted := by
  have noZeros : d.mc.armingZeros = none := by
    rw [Option.eq_none_iff_forall_not_mem]
    exact fun n hn => arming n (lawful.2.1 n hn)
  cases h with
  | convert g rest h =>
    exact Permitted.within_trans (Mc.choose_permitted_within d.mc g.frame _) (Mc.permittedNow_within noZeros idle)
  | tag t rest h =>
    have notReset : t ≠ .idle true := fun ht => resetTest rfl (by rw [h, ht]; rfl)
    unfold McDesk.takeTag
    simp only [if_neg notReset]
    split <;> exact Permitted.within_refl _
  | load _ tag l rest h =>
    rw [McDesk.takeLoad_eq]
    simp only
    split
    · exact Permitted.within_refl _
    · split <;> exact Permitted.within_refl _
  | notice g p rest h => exact Permitted.within_refl _
  | dropArm x rest h => exact Permitted.within_refl _
  | storeDone h => exact Permitted.within_refl _

theorem State.Acts.permitted_eq {s t : State} (h : s.Acts t) : t.mc.permitted = s.mc.permitted := by
  induction h with
  | refl => rfl
  | tail _ last ih =>
    rcases last.mc_or with h | ⟨d, move, h⟩ | ⟨d, move, h⟩
    · rw [h, ih]
    · rw [h, move.permitted_eq_of_request, ih]
    · rw [h, move.permitted_eq, ih]

end Sys2Proof.Machine

open Sys2Proof Sys2Proof.Machine

/-- Settles O8: links and requests leave the permitted set, and a taking by MC adds a member only by a restoration
(`McMove.permitted_within`). -/
theorem permittedSetGainsNoMemberInTest : Obligations.PermittedSetGainsNoMemberInTest := by
  intro s t lawful h idle arming notReset notResetTest
  rcases step_inversion h with ⟨_, rfl⟩ | ⟨c, rest, front, ⟨rfl, _⟩ | ⟨_, effect⟩⟩
  · exact fun _ h => h
  · exact absurd (by rw [front]; rfl) notReset
  · rcases effect.acts_or_taking with acts | taking
    · intro x hx
      rwa [acts.permitted_eq] at hx
    · rcases taking.mc_or with h | ⟨d, move, h⟩ | ⟨d, move, h⟩
      · intro x hx
        rwa [h] at hx
      · rw [h]
        refine move.permitted_within lawful idle arming fun hc => notResetTest ?_
        rw [front, hc]
        rfl
      · intro x hx
        rwa [h, move.permitted_eq] at hx
end

