-- ==== Sys2Proof/Proofs/PublicationUnderHold.lean ====
section
/-! Publication under a snapshot hold (R139): each operation of TE either goes on under the hold and leaves the published
record, or ends the hold with a copy of the working record. -/

namespace Sys2Proof.Machine

/-! ## Single steps -/

/-- A step that neither resets the part nor hands on several frames is one move, or what a link brings about. -/
theorem step_single {s t : State} (h : step s = .next t) (single : s.singleStep) :
    ∃ rest, t = { s with pending := rest } ∨ (∃ o, State.Act { s with pending := rest } o t) ∨
      State.LinkActs { s with pending := rest } t := by
  rcases step_inversion h with ⟨empty, rfl⟩ | ⟨c, rest, front, ⟨isReset, -⟩ | ⟨-, e⟩⟩
  · exact ⟨t.pending, .inl rfl⟩
  · exact absurd isReset (single c (by rw [front]; rfl)).1
  · refine ⟨rest, ?_⟩
    cases e with
    | nothing h => exact .inl h
    | request h => exact .inr (.inl ⟨_, h⟩)
    | taking h => exact .inr (.inl ⟨_, h⟩)
    | links h => exact .inr (.inr h)
    | frames hc _ => rw [(single c (by rw [front]; rfl)).2] at hc; exact Bool.noConfusion hc

/-- Frames on FRONT and DRIVE reach the Inlet Port and MS with the Drive Port alone. -/
theorem State.LinkActs.others_eq {s t : State} (h : s.LinkActs t) :
    (t.mc, t.es, t.te, t.cr, t.cp, t.sp) = (s.mc, s.es, s.te, s.cr, s.cp, s.sp) := by
  induction h with
  | refl => rfl
  | tail _ last ih => cases last <;> exact ih

/-! ## Operations under a hold -/

theorem Te.publish_of_held {t : Te} (h : t.hold = .held) : t.publish = t := by simp only [publish, h]

theorem Te.publish_of_free {t : Te} (h : t.hold = .free) : t.publish = t.copyOut := by simp only [publish, h]

/-- The hold goes on, the published record and its count as they were. -/
def Te.HoldGoesOn (t t' : Te) : Prop := t'.hold = .held ∧ t'.published = t.published ∧ t'.count = t.count

/-- The hold has ended with a copy of the working record. -/
def Te.HoldEnded (t t' : Te) : Prop := t'.hold = .free ∧ t'.published = t'.working ∧ t'.count = countUp t.count

theorem Te.HoldGoesOn.refl {t : Te} (h : t.hold = .held) : t.HoldGoesOn t := ⟨h, rfl, rfl⟩

/-- What the detectors leave of TE, the hold goes on. -/
theorem Te.HoldGoesOn.of_setting {t t' : Te} (h : t.hold = .held) (kept : t'.setting = t.setting) : t.HoldGoesOn t' := by
  simp only [Te.setting, Prod.mk.injEq] at kept
  obtain ⟨-, published, count, hold, -⟩ := kept
  exact ⟨hold.trans h, published, count⟩

theorem Te.HoldGoesOn.publish {t t' : Te} (h : t.HoldGoesOn t') : t.HoldGoesOn t'.publish := by
  rwa [Te.publish_of_held h.1]

theorem TeDesk.takeSample_holdGoesOn {d : TeDesk} (x : Sample) (h : d.te.hold = .held) :
    d.te.HoldGoesOn (d.takeSample x).te := by
  unfold TeDesk.takeSample
  split
  · exact .refl h
  · next p _ =>
    split
    · have judged : d.te.HoldGoesOn (d.judge p x).te := .of_setting h (d.judge_setting p x)
      simp only [Te.settle]
      split
      · exact judged
      · exact Te.HoldGoesOn.publish (t' := (d.judge p x).te.onWorking fun r => r.withStresses (d.judge p x).te.s0) judged
    · exact .refl h

theorem TeDesk.endTest_holdGoesOn {d : TeDesk} (c : Cause) (h : d.te.hold = .held) : d.te.HoldGoesOn (d.endTest c).te := by
  unfold TeDesk.endTest
  split
  · simp only
    split
    · exact Te.HoldGoesOn.publish ⟨h, rfl, rfl⟩
    · refine Te.HoldGoesOn.publish ?_
      have closed := congrArg Prod.fst
        (TeDesk.close_left ⟨d.te.onWorking fun r => { r with endCause := c }, d.paths⟩ none)
      obtain ⟨hold, published, count⟩ := Te.HoldGoesOn.of_setting (t := d.te) h closed
      exact ⟨hold, published, count⟩
  · exact .refl h

theorem TeDesk.holdExpired_holdEnded (d : TeDesk) (c : ExpiryCause) : d.te.HoldEnded (d.holdExpired c).te := ⟨rfl, rfl, rfl⟩

theorem TeDesk.takeTag_underHold {d : TeDesk} (m : MotionTag) (h : d.te.hold = .held) :
    d.te.HoldGoesOn (d.takeTag m).te ∨ d.te.HoldEnded (d.takeTag m).te := by
  cases m with
  | armed =>
    right
    have held : ({ d.te with tag := MotionTag.armed } : Te).clear.hold = .held := h
    simp only [takeTag, onArmed, held]
    exact TeDesk.holdExpired_holdEnded _ _
  | running =>
    left
    simp only [takeTag]
    split <;> exact ⟨h, rfl, rfl⟩
  | stopped c => exact .inl (TeDesk.endTest_holdGoesOn (d := ⟨_, d.paths⟩) c h)
  | faulted c => exact .inl (TeDesk.endTest_holdGoesOn (d := ⟨_, d.paths⟩) c h)
  | idle _ => exact .inl ⟨h, rfl, rfl⟩
  | paused => exact .inl ⟨h, rfl, rfl⟩
  | jogging => exact .inl ⟨h, rfl, rfl⟩
  | arming _ => exact .inl ⟨h, rfl, rfl⟩

theorem TeMove.underHold {o : Option Instr} {d e : TeDesk} (m : TeMove d o e) (h : d.te.hold = .held) :
    d.te.HoldGoesOn e.te ∨ d.te.HoldEnded e.te := by
  cases m with
  | reply r => exact .inl (.refl h)
  | hold tag => exact .inl ⟨rfl, rfl, rfl⟩
  | release tag =>
    right
    have ended : d.te.release = Te.copyOut { d.te with hold := .free, holdTimer := none, expired := none } := by
      simp only [Te.release, h]
    exact show d.te.HoldEnded d.te.release from ended ▸ ⟨rfl, rfl, rfl⟩
  | sample x rest _ =>
    exact .inl (TeDesk.takeSample_holdGoesOn (d := ⟨d.te, { d.paths with samplesTe := rest }⟩) x h)
  | params tag l rest _ =>
    left
    simp only [TeDesk.takeEvalLoad]
    split
    · exact ⟨h, rfl, rfl⟩
    · split <;> exact ⟨h, rfl, rfl⟩
  | armCopy c rest _ => exact .inl ⟨h, rfl, rfl⟩
  | tag t rest _ => exact TeDesk.takeTag_underHold (d := ⟨d.te, { d.paths with msToTe := rest }⟩) t h
  | entry e rest _ => exact .inl (Te.HoldGoesOn.publish ⟨h, rfl, rfl⟩)
  | expiry =>
    unfold TeDesk.expireHold
    split
    · exact .inr (d.holdExpired_holdEnded _)
    · exact .inl (.refl h)

end Sys2Proof.Machine

open Sys2Proof.Machine

/-- Settles O9: a single step is at most one move of TE, which goes on under the hold or ends it (`TeMove.underHold`). -/
theorem publishedRecordChangesOnlyOutsideHold : Obligations.PublishedRecordChangesOnlyOutsideHold := by
  intro s t h single held
  have outcome : s.te.HoldGoesOn t.te ∨ s.te.HoldEnded t.te := by
    obtain ⟨rest, rfl | ⟨o, act⟩ | links⟩ := step_single h single
    · exact .inl (.refl held)
    · rcases act.te_or with same | ⟨d, move, hd⟩
      · exact .inl (by rw [same]; exact .refl held)
      · exact hd ▸ move.underHold held
    · have same := links.others_eq
      simp only [Prod.mk.injEq] at same
      obtain ⟨-, -, same, -⟩ := same
      exact .inl (by rw [same]; exact .refl held)
  rcases outcome with ⟨hold, kept⟩ | ⟨hold, copied⟩
  · exact ⟨fun _ => kept, fun free => absurd (free.symm.trans hold) (by decide)⟩
  · exact ⟨fun goesOn => absurd (goesOn.symm.trans hold) (by decide), fun _ => copied⟩
end

