-- ==== Sys2Proof/Proofs/SequencerOutline.lean ====
section
/-! What no motion operation of MS changes: the Drive Frames sent, the program, the calibration summary, the load count, the
notices of all blocks, and the loads and outcomes under way. -/

namespace Sys2Proof.Machine

/-! ## Loads among the messages of MS -/

@[simp] theorem loadsToMc_append (l r : List McMessage) : loadsToMc (l ++ r) = loadsToMc l + loadsToMc r := by
  induction l with
  | nil => simp [loadsToMc]
  | cons a l ih => cases a <;> simp [loadsToMc, ih]; omega

@[simp] theorem loadsToTe_append (l r : List TeMessage) : loadsToTe (l ++ r) = loadsToTe l + loadsToTe r := by
  induction l with
  | nil => simp [loadsToTe]
  | cons a l ih => cases a <;> simp [loadsToTe, ih]; omega

/-! ## The outline of MS's desk -/

structure MsOutline where
  line : List (List Byte)
  program : Option Program
  summary : CalSummary
  loadCount : Nat
  notices : List MsNotice × List ExtState × List CrNotice × List StoreState
  fromMc : List McToMs
  fromTe : List LoadOutcome
  loadsForMc : Nat
  loadsForTe : Nat

def MsDesk.outline (d : MsDesk) : MsOutline :=
  { line := d.line, program := d.ms.program, summary := d.ms.summary, loadCount := d.ms.loadCount
    notices := (d.paths.msNotices, d.paths.esNotices, d.paths.crNotices, d.paths.storeStates)
    fromMc := d.paths.mcToMs, fromTe := d.paths.teOutcomes
    loadsForMc := loadsToMc d.paths.msToMc, loadsForTe := loadsToTe d.paths.msToTe }

section
variable (d : MsDesk)

@[simp] theorem MsDesk.outline_event (e : Event) : (d.event e).outline = d.outline := rfl

@[simp] theorem MsDesk.outline_reply (r : Reply) : (d.reply r).outline = d.outline := rfl

theorem MsDesk.outline_raiseIf (m : Ms) (drive : DrivePort) (p : Paths) (line : List (List Byte)) (b : Bool) (k : FaultKind)
    (e : Event) : MsDesk.outline ⟨m, drive, p.raiseIf b k e, line⟩ = MsDesk.outline ⟨m, drive, p, line⟩ := by
  cases b <;> rfl

@[simp] theorem MsDesk.outline_enter (t : MotionTag) (c : Cause) : (d.enter t c).outline = d.outline := by
  have own : (d.ms.enter t c).program = d.ms.program ∧ (d.ms.enter t c).summary = d.ms.summary ∧
      (d.ms.enter t c).loadCount = d.ms.loadCount := by
    cases t with
    | idle byResetTest => cases byResetTest <;> exact ⟨rfl, rfl, rfl⟩
    | _ => exact ⟨rfl, rfl, rfl⟩
  obtain ⟨program, summary, loadCount⟩ := own
  unfold MsDesk.enter
  simp only
  split <;>
    simp only [MsDesk.outline, MsDesk.event, Paths.sendEvent, Paths.sendTag, program, summary, loadCount, loadsToMc_append,
      loadsToTe_append, loadsToMc, loadsToTe, Nat.add_zero]

@[simp] theorem MsDesk.outline_enterStopped (c : Cause) : (d.enterStopped c).outline = d.outline := d.outline_enter _ c

@[simp] theorem MsDesk.outline_enterFaulted (c : Cause) : (d.enterFaulted c).outline = d.outline := d.outline_enter _ c

@[simp] theorem MsDesk.outline_endSegment (c : EndCause) : (d.endSegment c).outline = d.outline := by
  unfold MsDesk.endSegment
  split
  · split
    · simp only [MsDesk.outline, Paths.sendEvent, loadsToTe_append, loadsToTe, Nat.add_zero]
    · rfl
  · rfl

@[simp] theorem MsDesk.outline_startSegment (i : Nat) : (d.startSegment i).outline = d.outline := by
  unfold MsDesk.startSegment
  split
  · next g x _ _ =>
    simp only [Ms.startRates_eq_started]
    split <;> rfl
  · rfl

@[simp] theorem MsDesk.outline_criterionMet : d.criterionMet.outline = d.outline := by
  unfold MsDesk.criterionMet
  split
  · rfl
  · simp only
    split
    · exact (MsDesk.outline_startSegment _ _).trans (d.outline_endSegment _)
    · exact (MsDesk.outline_enterStopped _ _).trans (d.outline_endSegment _)

@[simp] theorem MsDesk.outline_criterionEvent (e : CriterionEvent) : (d.criterionEvent e).outline = d.outline := by
  have marked : MsDesk.outline { d with ms := d.ms.mark e } = d.outline := by cases e <;> rfl
  unfold MsDesk.criterionEvent
  split
  · simp only
    split
    · split
      · split
        · exact (MsDesk.outline_criterionMet _).trans marked
        · split <;> exact marked
      · exact marked
    · exact marked
  · rfl

@[simp] theorem MsDesk.outline_applyPending : d.applyPending.outline = d.outline := by
  unfold MsDesk.applyPending
  split
  · rfl
  · exact MsDesk.outline_criterionMet _

@[simp] theorem MsDesk.outline_resumeIfFree : d.resumeIfFree.outline = d.outline := by
  unfold MsDesk.resumeIfFree
  split
  · simp only [outline_applyPending, outline_enter]
  · rfl

@[simp] theorem MsDesk.outline_pauseIfRunning : d.pauseIfRunning.outline = d.outline := by
  unfold MsDesk.pauseIfRunning
  split
  · exact d.outline_enter _ _
  · rfl

@[simp] theorem MsDesk.outline_crossheadSample (i : Nat) (g : Segment) (x : Sample) :
    (d.crossheadSample i g x).outline = d.outline := by
  unfold MsDesk.crossheadSample
  split
  · simp only
    split <;> rfl
  · simp only [outline_event, outline_pauseIfRunning]
    rfl

@[simp] theorem MsDesk.outline_reportTravel (b : Int) (x : Sample) (st : MotionState) :
    (d.reportTravel b x st).outline = d.outline := rfl

@[simp] theorem MsDesk.outline_setDemand (x : Sample) (r : Int × Option Int) : (d.setDemand x r).outline = d.outline := by
  unfold MsDesk.setDemand
  simp only
  split
  · rfl
  · split
    · simp only [outline_enterStopped, outline_endSegment, outline_reportTravel]
      rfl
    · simp only [outline_enter, outline_reportTravel]
      rfl

@[simp] theorem MsDesk.outline_formDemand (g : Segment) (x : Sample) : (d.formDemand g x).outline = d.outline :=
  MsDesk.outline_setDemand _ x _

@[simp] theorem MsDesk.outline_runSample (x : Sample) : (d.runSample x).outline = d.outline := by
  have criterion (d : MsDesk) : (d.testCriterion x).outline = d.outline := by
    unfold MsDesk.testCriterion
    split
    · split
      · exact d.outline_criterionMet
      · rfl
    · rfl
  have source (d : MsDesk) : (d.checkSource x).outline = d.outline := by
    unfold MsDesk.checkSource
    split
    · split
      · exact d.outline_crossheadSample _ _ x
      · rfl
    · rfl
  have move (d : MsDesk) : (d.moveDemand x).outline = d.outline := by
    unfold MsDesk.moveDemand
    split
    · split
      · exact d.outline_formDemand _ x
      · rfl
    · rfl
  simp only [MsDesk.runSample, move, source, criterion]
  rfl

@[simp] theorem MsDesk.outline_jogSample (x : Sample) : (d.jogSample x).outline = d.outline := by
  unfold MsDesk.jogSample
  split
  · simp only [outline_event, outline_enter]
  · split
    · simp only
      split
      · rfl
      · simp only [outline_reportTravel, outline_enter]
        rfl
    · exact d.outline_setDemand x _

@[simp] theorem MsDesk.outline_answerArm (st : Status) (p : Payload) : (d.answerArm st p).outline = d.outline := by
  unfold MsDesk.answerArm
  split <;> rfl

@[simp] theorem MsDesk.outline_armingSample (x : Sample) : (d.armingSample x).outline = d.outline := by
  have entered : (MsDesk.enter { d with ms := { d.ms with demand := x.position * q32 } } .armed .none).outline = d.outline :=
    MsDesk.outline_enter _ _ _
  unfold MsDesk.armingSample MsDesk.completeArming
  split
  · simp only
    split
    · rw [outline_answerArm, entered]
    · rw [outline_reportTravel, outline_enterFaulted, outline_answerArm, entered]
  · rfl

@[simp] theorem MsDesk.outline_acceptArm (tag : Tag) (p : Program) : (d.acceptArm tag p).outline = d.outline := by
  simp only [MsDesk.acceptArm, MsDesk.outline, MsDesk.enter, Ms.enter, MotionTag.endsTest, Bool.false_eq_true, if_false, Paths.sendTag,
    loadsToMc_append, loadsToTe_append, loadsToMc, loadsToTe, Nat.add_zero]

@[simp] theorem MsDesk.outline_fault (c : Cause) : (d.fault c).outline = d.outline := by
  unfold MsDesk.fault
  simp only [outline_answerArm, outline_enterFaulted]
  split
  · exact d.outline_endSegment _
  · rfl

/-- What MS does on a sample before the Drive Frame. -/
def MsDesk.actsOnSample (d : MsDesk) (x : Sample) : MsDesk :=
  match d.ms.state with
  | .running => d.runSample x
  | .jogging => d.jogSample x
  | .arming => d.armingSample x
  | .idle => d
  | .armed => d
  | .paused => d
  | .stopped => d
  | .faulted => d

theorem MsDesk.takeSample_eq (x : Sample) :
    d.takeSample x = (MsDesk.actsOnSample { d with ms := { d.ms with last := some x } } x).sendFrame x := rfl

@[simp] theorem MsDesk.outline_actsOnSample (x : Sample) : (d.actsOnSample x).outline = d.outline := by
  unfold MsDesk.actsOnSample
  split
  · exact d.outline_runSample x
  · exact d.outline_jogSample x
  · exact d.outline_armingSample x
  · rfl
  · rfl
  · rfl
  · rfl
  · rfl

end

/-! ## The requests and messages that leave the outline -/

theorem MsDesk.outline_takeArm (d : MsDesk) (tag : Tag) : (d.takeArm tag).outline = d.outline := by
  unfold MsDesk.takeArm
  split <;> simp

theorem MsDesk.outline_takeStart (d : MsDesk) (tag : Tag) : (d.takeStart tag).outline = d.outline := by
  unfold MsDesk.takeStart
  split
  · simp only [outline_reply, outline_startSegment, outline_enter]
    rfl
  · rfl
  · rfl

theorem MsDesk.outline_takeResume (d : MsDesk) (tag : Tag) : (d.takeResume tag).outline = d.outline := by
  unfold MsDesk.takeResume
  split
  · simp only [outline_reply, outline_resumeIfFree]
    rfl
  · rfl

theorem MsDesk.outline_takeJog (d : MsDesk) (tag : Tag) (rate : Int) : (d.takeJog tag rate).outline = d.outline := by
  unfold MsDesk.takeJog
  simp only
  split
  · split
    · rfl
    · simp only [outline_reply, outline_enter]
      rfl
  · rfl
  · rfl

theorem MsDesk.outline_takeStatus (d : MsDesk) (st : DriveStatus) : (d.takeStatus st).outline = d.outline := by
  simp only [MsDesk.takeStatus, MsDesk.outline_raiseIf]
  rfl

/-- The moves of MS that bring a program, a load, an outcome or a summary. -/
inductive MsLoading (d : MsDesk) : Option Instr → MsDesk → Prop
  | program (tag : Tag) (l : ProgramLoad) : MsLoading d none (d.takeProgram tag l)
  | calLoad (tag : Tag) (l : CalLoad) : MsLoading d none (d.takeCalLoad tag l)
  | evalLoad (tag : Tag) (l : EvalLoad) : MsLoading d none (d.takeEvalLoad tag l)
  | outcome (b : OutcomeSource) : MsLoading d (some (.loadOutcome b)) (d.takeOutcome b)
  | summary : MsLoading d (some .calibrationSummary) d.takeSummary

/-- Every other move of MS leaves the outline. -/
theorem MsMove.loading_or_outline {o : Option Instr} {d e : MsDesk} (h : MsMove d o e) :
    MsLoading d o e ∨ e.outline = d.outline := by
  cases h with
  | program tag l => exact .inl (.program tag l)
  | calLoad tag l => exact .inl (.calLoad tag l)
  | evalLoad tag l => exact .inl (.evalLoad tag l)
  | outcome b => exact .inl (.outcome b)
  | summary => exact .inl .summary
  | readback tag pointer count => exact .inr rfl
  | store tag =>
    right
    unfold MsDesk.takeStore
    split
    · rfl
    · simp only [MsDesk.outline, loadsToMc_append, loadsToMc, Nat.add_zero]
  | arm tag => exact .inr (d.outline_takeArm tag)
  | start tag => exact .inr (d.outline_takeStart tag)
  | stop tag =>
    right
    unfold MsDesk.takeStop
    split
    · simp
    · rfl
  | abort tag =>
    right
    unfold MsDesk.takeAbort
    rw [MsDesk.outline_reply]
    split
    · rfl
    · simp
  | resetTest tag =>
    right
    unfold MsDesk.takeResetTest
    split
    · simp
    · rfl
  | pause tag =>
    right
    unfold MsDesk.takePause
    split
    · simp only [MsDesk.outline_reply, MsDesk.outline_pauseIfRunning]
      rfl
    · rfl
  | resume tag => exact .inr (d.outline_takeResume tag)
  | jog tag rate => exact .inr (d.outline_takeJog tag rate)
  | jogStop tag =>
    right
    unfold MsDesk.takeJogStop
    split
    · simp only [MsDesk.outline_reply, MsDesk.outline_enter]
      rfl
    · rfl
  | status st => exact .inr (d.outline_takeStatus st)
  | fault b k rest _ =>
    right
    have taken : MsDesk.outline { d with paths := d.paths.setFaults b rest } = d.outline := by cases b <;> rfl
    unfold MsDesk.takeFault
    split
    · exact (MsDesk.outline_fault _ _).trans taken
    · exact taken
  | criterion e x rest _ => exact .inr (MsDesk.outline_criterionEvent _ e)
  | hold _ =>
    right
    unfold MsDesk.takeHold
    split
    · simp only [MsDesk.outline_pauseIfRunning]
      rfl
    · rfl
  | removed rest _ =>
    right
    unfold MsDesk.takeRemovalComplete
    split
    · rw [MsDesk.outline_resumeIfFree]
      exact MsDesk.outline_criterionEvent _ _
    · rfl
  | timeout rest _ =>
    right
    unfold MsDesk.takeRemovalTimeout
    split
    · simp only [MsDesk.outline_enterStopped, MsDesk.outline_endSegment]
      rfl
    · rfl
  | brk n rest _ =>
    right
    unfold MsDesk.takeBreak
    split
    · simp only [MsDesk.outline_enterStopped, MsDesk.outline_endSegment]
      rfl
    · rfl
  | extTag t rest _ => exact .inr rfl

end Sys2Proof.Machine
end

