-- ==== Sys2Proof/Proofs/DriveFrameLaw.lean ====
section
/-! The law of enable (R90): a Drive Frame goes out with each sample that MS takes, and with nothing else. -/

namespace Sys2Proof.Machine

theorem MsLoading.line_eq {o : Option Instr} {d e : MsDesk} (h : MsLoading d o e) : e.line = d.line := by
  cases h with
  | program tag l =>
    unfold MsDesk.takeProgram
    split
    · rfl
    · split
      · rfl
      · split <;> rfl
  | calLoad tag l => unfold MsDesk.takeCalLoad; split <;> rfl
  | evalLoad tag l => unfold MsDesk.takeEvalLoad; split <;> rfl
  | outcome b => cases b <;> simp only [MsDesk.takeOutcome] <;> split <;> rfl
  | summary => unfold MsDesk.takeSummary; split <;> rfl

theorem MsMove.line_eq {o : Option Instr} {d e : MsDesk} (h : MsMove d o e) : e.line = d.line := by
  rcases h.loading_or_outline with loading | kept
  · exact loading.line_eq
  · exact congrArg MsOutline.line kept

/-- No move but the taking of a sample by MS sends a Drive Frame. -/
theorem State.Act.driveLine_eq {o : Option Instr} {s t : State} (h : s.Act o t) (ho : o ≠ some .conditionedSampleAtMs) :
    t.driveLine = s.driveLine := by
  cases h with
  | ms d h => exact (State.onMs_driveLine s fun _ => d).trans h.line_eq
  | msSample x rest _ => exact absurd rfl ho
  | _ => rfl

theorem State.Effect.driveLine_eq {c : Instr} {s t : State} (h : State.Effect c s t) (hc : c ≠ .conditionedSampleAtMs) :
    t.driveLine = s.driveLine := by
  rcases h.acts_or_taking with row | taking
  · clear h
    induction row with
    | refl => rfl
    | tail _ last ih => exact (last.driveLine_eq (by simp)).trans ih
  · exact taking.driveLine_eq (by simpa using hc)

theorem MotionState.enables_eq (m : MotionState) :
    m.enables = decide (m = .jogging ∨ m = .armed ∨ m = .running ∨ m = .paused ∨ m = .stopped) := by
  cases m <;> rfl

/-- The Drive Frame of a sample: its sequence, round(D) saturated, and the enable by the state MS then stands in. -/
theorem MsDesk.sendFrame_line (d : MsDesk) (x : Sample) :
    (d.sendFrame x).line = d.line ++
      [driveFrame x.seq (max (-2147483648) (min 2147483647 (roundDiv (d.sendFrame x).ms.demand 4294967296)))
        (decide ((d.sendFrame x).ms.state = .jogging ∨ (d.sendFrame x).ms.state = .armed ∨ (d.sendFrame x).ms.state = .running ∨
          (d.sendFrame x).ms.state = .paused ∨ (d.sendFrame x).ms.state = .stopped))] := by
  rw [← MotionState.enables_eq]
  rfl

theorem MsDesk.takeSample_line (d : MsDesk) (x : Sample) :
    (d.takeSample x).line = d.line ++
      [driveFrame x.seq (max (-2147483648) (min 2147483647 (roundDiv (d.takeSample x).ms.demand 4294967296)))
        (decide ((d.takeSample x).ms.state = .jogging ∨ (d.takeSample x).ms.state = .armed ∨
          (d.takeSample x).ms.state = .running ∨ (d.takeSample x).ms.state = .paused ∨ (d.takeSample x).ms.state = .stopped))] := by
  rw [d.takeSample_eq x, MsDesk.sendFrame_line]
  congr 1
  exact congrArg MsOutline.line (MsDesk.outline_actsOnSample _ x)

end Sys2Proof.Machine

open Sys2Proof.Machine

/-- Settles O10: no other move changes the Drive Frames sent (`State.Act.driveLine_eq`), and a sample's frame goes out last
(`MsDesk.takeSample_line`). -/
theorem driveFramesOnlyOnSamplesWithLawfulEnable : Obligations.DriveFramesOnlyOnSamplesWithLawfulEnable := by
  intro s t h
  refine ⟨fun front => ?_, fun front none => ?_, fun x rest front sample => ?_⟩
  · rcases step_inversion h with ⟨_, rfl⟩ | ⟨c, rest, pending, ⟨_, rfl⟩ | ⟨_, e⟩⟩
    · rfl
    · rfl
    · exact e.driveLine_eq fun hc => front (by rw [pending, hc]; rfl)
  · obtain ⟨queue, pending⟩ := List.head?_eq_some_iff.1 front
    simp only [step, pending, exec, execConditionedSampleAtMs, none] at h
    cases h
    rfl
  · obtain ⟨queue, pending⟩ := List.head?_eq_some_iff.1 front
    simp only [step, pending, exec, execConditionedSampleAtMs, sample] at h
    cases h
    exact MsDesk.takeSample_line _ x
end

