-- ==== Sys2Proof/Proofs/NoticesLaw.lean ====
section
/-! The law of the status notices (R169): a block sends a notice whenever an item of it has changed, and CP takes them in the
order in which they were sent. -/

namespace Sys2Proof.Machine

/-! ## The latest of a path -/

@[simp] theorem latest_append_one {α : Type} (a : α) (l : List α) (x : α) : latest a (l ++ [x]) = x := by
  simp [latest]

theorem latest_cons {α : Type} (a x : α) (l : List α) : latest a (x :: l) = latest x l := by
  cases l with
  | nil => rfl
  | cons y l => simp only [latest, List.getLastD_cons]

/-! ## What CP holds of the blocks -/

def Cp.known (c : Cp) : MsNotice × ExtState × CrNotice × StoreState := (c.motion, c.ext, c.capture, c.store)

@[simp] theorem Cp.raised_known (c : Cp) (f : BitVec 11) : (c.raised f).known = c.known := by
  unfold Cp.raised
  simp only
  split
  · rfl
  · split <;> rfl

@[simp] theorem Cp.replied_known (c : Cp) (r : Reply) : (c.replied r).known = c.known := by
  unfold Cp.replied
  split
  · rfl
  · exact Cp.raised_known _ _

@[simp] theorem Cp.told_known (c : Cp) (e : Event) (f : BitVec 11) (n : Option Nat) : (c.told e f n).known = c.known := by
  unfold Cp.told
  simp only
  split
  · exact c.raised_known f
  · exact (Cp.raised_known _ _).trans (c.raised_known f)

theorem Cp.linkErrorTaken_known (c : Cp) (l : Link) : (c.linkErrorTaken l).known = c.known := by
  have counted : (c.counted l).known = c.known := by cases l <;> rfl
  unfold Cp.linkErrorTaken
  simp only
  split
  · exact counted
  · exact (Cp.told_known _ _ _ _).trans counted

theorem CpChange.known_eq {c c' : Cp} (h : CpChange c c') : c'.known = c.known := by
  cases h with
  | answer r => rw [Cp.offerReply_eq_replied, Cp.replied_known]
  | linkError l => rw [Cp.takeLinkError_eq]; exact c.linkErrorTaken_known l
  | hold => rfl
  | go => rw [Cp.takeGo, Cp.startTransmission_eq_begun]; rfl
  | endPulse => unfold Cp.endPulse; split <;> rfl
  | stream tag enable n => rw [Cp.takeStreamSet, Cp.offerReply_eq_replied, Cp.replied_known]; rfl
  | clear tag flags =>
    unfold Cp.takeClear
    split
    · rw [Cp.offerReply_eq_replied, Cp.replied_known]
    · rw [Cp.offerReply_eq_replied, Cp.replied_known, Cp.clearSet_eq]; rfl
  | mask tag flags =>
    unfold Cp.takeMaskSet
    split
    · rw [Cp.offerReply_eq_replied, Cp.replied_known]
    · rw [Cp.offerReply_eq_replied, Cp.replied_known, Cp.setMask, Cp.settlePin_eq_settled]; rfl
  | mode tag mode =>
    unfold Cp.takeAttnMode
    split
    · rw [Cp.offerReply_eq_replied, Cp.replied_known]
    · rw [Cp.offerReply_eq_replied, Cp.replied_known, Cp.setMode, Cp.settlePin_eq_settled]; rfl

theorem Cp.takeSample_known (c : Cp) (x : Sample) : (c.takeSample x).known = c.known := by
  rw [Cp.takeSample_eq_ite]
  split <;> rfl

theorem CpDesk.finishReport_known (d : CpDesk) :
    d.finishReport.cp.known = d.cp.known ∧ d.finishReport.paths = d.paths := by
  unfold CpDesk.finishReport
  split
  · simp only [Cp.startTransmission_eq_begun]; exact ⟨rfl, trivial⟩
  · exact ⟨rfl, rfl⟩

/-- The notices on the paths for CP. -/
def Trunk.notices (t : Trunk) : List MsNotice × List ExtState × List CrNotice × List StoreState :=
  (t.msNotices, t.esNotices, t.crNotices, t.storeStates)

/-- What CP holds with what is under way, for each of the four notices. -/
def Paths.latestNotices (p : Paths) (c : Cp) : MsNotice × ExtState × CrNotice × StoreState :=
  (latest c.motion p.msNotices, latest c.ext p.esNotices, latest c.capture p.crNotices, latest c.store p.storeStates)

theorem State.noticesCurrent_iff (s : State) :
    s.NoticesCurrent ↔ s.paths.latestNotices s.cp = (.of s.ms s.drive, s.es.state, .of s.cr, s.sp.state) := by
  simp only [State.NoticesCurrent, Paths.latestNotices, Prod.mk.injEq]

theorem Paths.latestNotices_congr {p q : Paths} {c d : Cp} (notices : q.trunk.notices = p.trunk.notices)
    (known : d.known = c.known) : q.latestNotices d = p.latestNotices c := by
  simp only [Trunk.notices, Paths.trunk, Cp.known, Prod.mk.injEq] at notices known
  obtain ⟨ms, es, cr, states⟩ := notices
  obtain ⟨motion, ext, capture, store⟩ := known
  simp only [latestNotices, states, ms, es, cr, motion, ext, capture, store]

/-- Taking a notice leaves the latest one as it was. -/
theorem CpMove.latestNotices {o : Option Instr} {d e : CpDesk} (h : CpMove d o e) :
    e.paths.latestNotices e.cp = d.paths.latestNotices d.cp := by
  cases h with
  | frontError => exact Paths.latestNotices_congr rfl (CpChange.known_eq (.linkError _))
  | driveError => exact Paths.latestNotices_congr rfl (CpChange.known_eq (.linkError _))
  | storeState x rest h => simp only [Paths.latestNotices, h, latest_cons]
  | motion n rest h => simp only [Paths.latestNotices, h, latest_cons]
  | ext n rest h => simp only [Paths.latestNotices, h, latest_cons]
  | capture n rest h => simp only [Paths.latestNotices, h, latest_cons]
  | event b e rest _ => exact Paths.latestNotices_congr rfl (by rw [Cp.takeEvent_eq_told, Cp.told_known])
  | reply b r rest _ => exact Paths.latestNotices_congr rfl (CpChange.known_eq (.answer r))
  | transmitted =>
    obtain ⟨known, paths⟩ := d.finishReport_known
    exact Paths.latestNotices_congr (by rw [paths]) known
  | sample x rest _ => exact Paths.latestNotices_congr rfl (d.cp.takeSample_known x)

/-! ## The notices of MS, ES and CR -/

theorem MsLoading.notices_eq {o : Option Instr} {d e : MsDesk} (h : MsLoading d o e) : e.outline.notices = d.outline.notices := by
  cases h with
  | program tag l =>
    unfold MsDesk.takeProgram
    split
    · rfl
    · split
      · rfl
      · split <;> rfl
  | calLoad tag l => unfold MsDesk.takeCalLoad; split <;> rfl
  | evalLoad tag l => unfold MsDesk.takeEvalLoad; split <;> rfl
  | outcome b => cases b <;> simp only [MsDesk.takeOutcome] <;> split <;> rfl
  | summary => unfold MsDesk.takeSummary; split <;> rfl

theorem MsMove.notices_eq {o : Option Instr} {d e : MsDesk} (h : MsMove d o e) : e.paths.trunk.notices = d.paths.trunk.notices := by
  rcases h.loading_or_outline with loading | kept
  · exact loading.notices_eq
  · exact congrArg MsOutline.notices kept

/-- The notices when MS sends one more. -/
theorem MsDesk.sent_latestNotices (d : MsDesk) (c : Cp) :
    Paths.latestNotices { d.paths with msNotices := d.paths.msNotices ++ [.of d.ms d.drive] } c =
      (.of d.ms d.drive, (d.paths.latestNotices c).2) := by
  simp only [Paths.latestNotices, latest_append_one]

theorem MsDesk.notice_latestNotices (d : MsDesk) (c : Cp) {was : MsNotice} (h : (d.paths.latestNotices c).1 = was) :
    (d.notice was).paths.latestNotices c = (.of d.ms d.drive, (d.paths.latestNotices c).2) := by
  unfold MsDesk.notice
  split
  · next same => rw [same, ← h]
  · exact d.sent_latestNotices c

theorem EsDesk.notice_latestNotices (d : EsDesk) (c : Cp) {was : ExtState} (h : (d.paths.latestNotices c).2.1 = was) :
    (d.notice was).paths.latestNotices c = ((d.paths.latestNotices c).1, d.es.state, (d.paths.latestNotices c).2.2) := by
  unfold EsDesk.notice
  split
  · next same => rw [same, ← h]
  · simp only [Paths.latestNotices, latest_append_one]

theorem CrDesk.notice_latestNotices (d : CrDesk) (c : Cp) {was : CrNotice} (h : (d.paths.latestNotices c).2.2.1 = was) :
    (d.notice was).paths.latestNotices c =
      ((d.paths.latestNotices c).1, (d.paths.latestNotices c).2.1, .of d.cr, (d.paths.latestNotices c).2.2.2) := by
  unfold CrDesk.notice
  split
  · next same => rw [same, ← h]
  · simp only [Paths.latestNotices, latest_append_one]

theorem MsDesk.sendFrame_latestNotices (d : MsDesk) (x : Sample) (c : Cp) :
    (d.sendFrame x).paths.latestNotices c =
      (.of (d.sendFrame x).ms (d.sendFrame x).drive, (d.paths.latestNotices c).2) := by
  refine (MsDesk.sent_latestNotices _ c).trans (congrArg _ (congrArg Prod.snd ?_))
  refine Paths.latestNotices_congr ?_ rfl
  simp only
  split
  · rw [Paths.raiseFault_trunk]
  · rfl

theorem MsDesk.notice_own (d : MsDesk) (was : MsNotice) : (d.notice was).ms = d.ms ∧ (d.notice was).drive = d.drive := by
  unfold MsDesk.notice
  split <;> exact ⟨rfl, rfl⟩

/-! ## Every move -/

theorem State.Act.noticesCurrent {o : Option Instr} {s t : State} (h : s.Act o t) (hs : s.NoticesCurrent) : t.NoticesCurrent := by
  rw [State.noticesCurrent_iff] at hs ⊢
  have left {p : Paths} {k : Trunk} (trunk : p.trunk = k) (notices : k.notices = s.paths.trunk.notices) :
      p.latestNotices s.cp = (.of s.ms s.drive, s.es.state, .of s.cr, s.sp.state) :=
    (Paths.latestNotices_congr (trunk ▸ notices) rfl).trans hs
  cases h with
  | rx r => exact hs
  | frontError => exact hs
  | driveError => exact hs
  | inlet d h => exact left h.trunk rfl
  | mc d h =>
    rcases h.trunk with ⟨trunk, -⟩ | ⟨m, rest, -, -, trunk, -⟩ | ⟨tag, l, rest, -, rfl⟩
    · exact left trunk rfl
    · exact left trunk rfl
    · obtain ⟨sums, o, trunk, -⟩ := McDesk.takeLoad_trunk ⟨s.mc, { s.paths with msToMc := rest }⟩ tag l
      exact left trunk rfl
  | store d h =>
    have changed {p : Paths} {k : Trunk} (trunk : p.trunk = k)
        (notices : k.notices = (s.paths.msNotices, s.paths.esNotices, s.paths.crNotices, s.paths.storeStates ++ [d.sp.state])) :
        p.latestNotices s.cp = (.of s.ms s.drive, s.es.state, .of s.cr, d.sp.state) := by
      refine (Paths.latestNotices_congr (p := { s.paths with storeStates := s.paths.storeStates ++ [d.sp.state] })
        (trunk ▸ notices) rfl).trans ?_
      simp only [Paths.latestNotices, Prod.mk.injEq] at hs
      obtain ⟨ms, es, cr, -⟩ := hs
      simp only [Paths.latestNotices, latest_append_one, ms, es, cr]
    cases h.report with
    | nothing l _ trunk state _ => exact (left trunk rfl).trans (by simp only [State.onStore, state])
    | loaded _ trunk _ => exact changed trunk rfl
    | storing l _ trunk _ _ => exact changed trunk rfl
  | ms d h =>
    have before := left (p := d.paths) rfl h.notices_eq
    obtain ⟨ms, drive⟩ := d.notice_own (.of s.ms s.drive)
    simp only [State.onMs, State.putMs, ms, drive]
    rw [d.notice_latestNotices s.cp (congrArg Prod.fst before), before]
  | msSample x rest _ =>
    have before : (MsDesk.actsOnSample { s.msDesk with
        ms := { s.ms with last := some x }, paths := { s.paths with samplesMs := rest } } x).paths.latestNotices s.cp = _ :=
      left rfl (congrArg MsOutline.notices (MsDesk.outline_actsOnSample _ x))
    have sent := (MsDesk.actsOnSample { s.msDesk with
      ms := { s.ms with last := some x }, paths := { s.paths with samplesMs := rest } } x).sendFrame_latestNotices x s.cp
    rw [before] at sent
    exact sent
  | es d h =>
    have before := left (p := d.paths) rfl (by
      rcases h.trunk with trunk | ⟨m, rest, -, trunk⟩ <;> rw [trunk] <;> rfl)
    have own : (d.notice s.es.state).es = d.es := by unfold EsDesk.notice; split <;> rfl
    simp only [State.onEs, own]
    rw [d.notice_latestNotices s.cp (congrArg (fun n => n.2.1) before), before]
  | te d h =>
    cases h.report with
    | nothing trunk _ => exact left trunk rfl
    | taken m rest _ _ trunk _ => exact left trunk rfl
    | load tag l rest o _ trunk => exact left trunk rfl
  | cr d h =>
    have before := left (p := d.paths) h.trunk rfl
    have own : (d.notice (.of s.cr)).cr = d.cr := by unfold CrDesk.notice; split <;> rfl
    simp only [State.onCr, own]
    rw [d.notice_latestNotices s.cp (congrArg (fun n => n.2.2.1) before), before]
  | cp d h => exact h.latestNotices.trans hs
  | cpOwn c h => exact (Paths.latestNotices_congr rfl h.known_eq).trans hs

end Sys2Proof.Machine

open Sys2Proof.Machine

/-- Settles O12: every move keeps the notices current (`State.Act.noticesCurrent`): MS, ES and CR send one when an item has changed
(`MsDesk.notice_latestNotices`), SP one with every store state, and CP takes the oldest (`CpMove.latestNotices`). -/
theorem stepKeepsStatusNoticesCurrent : Obligations.StepKeepsStatusNoticesCurrent := by
  intro s t hs h
  exact step_keeps (P := State.NoticesCurrent) (fun _ _ h => h) (fun _ => ⟨rfl, rfl, rfl, rfl⟩)
    (fun _ _ _ act => act.noticesCurrent) hs h
end

