-- ==== Sys2Proof/Proofs/TableLockLaw.lean ====
section
/-! The table lock (R28, R30, R47, R49): the view of the part that the lock speaks of, the few changes that a move makes to it,
and that each of them keeps the lock. -/

namespace Sys2Proof.Machine

/-! ## The view of the lock -/

structure LockView where
  state : MotionState
  loadCount : Nat
  summary : CalSummary
  toMc : Nat
  fromMc : List McToMs
  toTe : Nat
  fromTe : Nat
  cal : CalSummary
  store : StoreState
  held : StoreState
  storeStates : List StoreState

def State.lockView (s : State) : LockView :=
  { state := s.ms.state, loadCount := s.ms.loadCount, summary := s.ms.summary, toMc := loadsToMc s.paths.msToMc
    fromMc := s.paths.mcToMs, toTe := loadsToTe s.paths.msToTe, fromTe := s.paths.teOutcomes.length
    cal := s.mc.cal.summary, store := s.sp.state, held := s.cp.store, storeStates := s.paths.storeStates }

/-- IDLE and FAULTED, where tables may be loaded. -/
def MotionState.loads (m : MotionState) : Prop := m = .idle ∨ m = .faulted

/-- The summary stands ahead of the outcome of its load. -/
def LockView.Ahead (v : LockView) : Prop :=
  latest v.summary (summariesToMs v.fromMc) = v.cal ∧
    (v.fromMc = [] ∨ endsInOutcome v.fromMc = true ∨ (v.summary = .empty ∧ v.fromMc.length = 1))

structure LockView.Locked (v : LockView) : Prop where
  count : v.loadCount = v.toMc + outcomesToMs v.fromMc + v.toTe + v.fromTe
  ahead : v.Ahead
  closed : ¬ v.state.loads → v.loadCount = 0 ∧ v.fromMc = [] ∧ v.summary = v.cal
  loading : v.store = .loading →
    v.held = .loading ∧ v.storeStates = [] ∧ v.state.loads ∧ v.loadCount = 0 ∧ v.fromMc = [] ∧ v.summary = .empty

theorem State.tablesLocked_iff (s : State) : s.TablesLocked ↔ s.lockView.Locked := by
  constructor
  · rintro ⟨count, ahead, closed, loading⟩
    exact ⟨count, ahead, fun h => closed (fun i => h (.inl i)) fun f => h (.inr f), loading⟩
  · rintro ⟨count, ahead, closed, loading⟩
    exact ⟨count, ahead, fun i f => closed fun h => h.elim i f, loading⟩

/-! ## The changes of the view -/

inductive LockChange (v : LockView) : LockView → Prop
  | same : LockChange v v
  | state (m : MotionState) (h : v.state.loads → m.loads ∨ (v.loadCount = 0 ∧ v.summary.frame.isSome = true)) :
    LockChange v { v with state := m }
  | calLoad (loads : v.state.loads) (ready : v.held ≠ .loading) :
    LockChange v { v with loadCount := v.loadCount + 1, toMc := v.toMc + 1 }
  | evalLoad (loads : v.state.loads) (ready : v.held ≠ .loading) :
    LockChange v { v with loadCount := v.loadCount + 1, toTe := v.toTe + 1 }
  | mcOutcome (o : LoadOutcome) (rest : List McToMs) (h : v.fromMc = .outcome o :: rest) :
    LockChange v { v with loadCount := v.loadCount - 1, fromMc := rest }
  | teOutcome (h : 0 < v.fromTe) : LockChange v { v with loadCount := v.loadCount - 1, fromTe := v.fromTe - 1 }
  | summary (c : CalSummary) (rest : List McToMs) (h : v.fromMc = .summary c :: rest) :
    LockChange v { v with summary := c, fromMc := rest }
  | mcLoad (h : 0 < v.toMc) (sums : List McToMs) (o : LoadOutcome) (cal : CalSummary)
      (sent : (sums = [] ∧ cal = v.cal) ∨ sums = [.summary cal]) :
    LockChange v { v with toMc := v.toMc - 1, fromMc := v.fromMc ++ (sums ++ [.outcome o]), cal := cal }
  | loaded (cal : CalSummary) (h : v.store = .loading) :
    LockChange v { v with
      store := .ready, storeStates := v.storeStates ++ [.ready], fromMc := v.fromMc ++ [.summary cal], cal := cal }
  | storing (x : StoreState) (h : x ≠ .loading) : LockChange v { v with store := x, storeStates := v.storeStates ++ [x] }
  | teLoad (h : 0 < v.toTe) : LockChange v { v with toTe := v.toTe - 1, fromTe := v.fromTe + 1 }
  | noticed (x : StoreState) (rest : List StoreState) (h : v.storeStates = x :: rest) :
    LockChange v { v with held := x, storeStates := rest }

@[simp] theorem endsInOutcome_cons_cons (a b : McToMs) (l : List McToMs) :
    endsInOutcome (a :: b :: l) = endsInOutcome (b :: l) := by
  cases a <;> rfl

/-- With nothing counted no load stands behind a summary: what is under way is at most the summary of autoload. -/
theorem LockView.Locked.fromMc_of_count_zero {v : LockView} (h : v.Locked) (zero : v.loadCount = 0) :
    v.fromMc = [] ∨ (v.summary = .empty ∧ v.fromMc.length = 1) := by
  have count := h.count
  rcases h.ahead.2 with none | ends | first
  · exact .inl none
  · have := outcomesToMs_pos_of_endsInOutcome _ ends
    omega
  · exact .inr first

/-- Taking the oldest message of MC leaves what stands behind it in order. -/
theorem LockView.Ahead.tail {v : LockView} {m : McToMs} {rest : List McToMs} {c : CalSummary} (h : v.Ahead)
    (head : v.fromMc = m :: rest) (held : latest c (summariesToMs rest) = latest v.summary (summariesToMs (m :: rest))) :
    LockView.Ahead { v with summary := c, fromMc := rest } := by
  obtain ⟨newest, order⟩ := h
  rw [head] at newest order
  refine ⟨held.trans newest, ?_⟩
  cases rest with
  | nil => exact .inl rfl
  | cons b l => exact .inr (.inl (by simpa using order))

theorem LockView.Locked.taken {v : LockView} {m : McToMs} {rest : List McToMs} (h : v.Locked) (head : v.fromMc = m :: rest) :
    v.state.loads ∧ v.store ≠ .loading := by
  have some_under_way : v.fromMc ≠ [] := by simp [head]
  exact ⟨Classical.by_contradiction fun closed => some_under_way (h.closed closed).2.1,
    fun loading => some_under_way (h.loading loading).2.2.2.2.1⟩

theorem LockView.Locked.counted {v : LockView} (h : v.Locked) (some_load : 0 < v.loadCount) :
    v.state.loads ∧ v.store ≠ .loading :=
  ⟨Classical.by_contradiction fun closed => some_load.ne' (h.closed closed).1,
    fun loading => some_load.ne' (h.loading loading).2.2.2.1⟩

theorem LockChange.locked {v w : LockView} (c : LockChange v w) (h : v.Locked) : w.Locked := by
  have count := h.count
  cases c with
  | same => exact h
  | state m enters =>
    refine ⟨count, h.ahead, fun closed => ?_, fun loading => ?_⟩
    · by_cases was : v.state.loads
      · obtain ⟨zero, frame⟩ := (enters was).resolve_left closed
        have none : v.fromMc = [] := by
          rcases h.fromMc_of_count_zero zero with none | ⟨empty, -⟩
          · exact none
          · rw [empty] at frame; exact absurd frame (by decide)
        refine ⟨zero, none, ?_⟩
        have newest := h.ahead.1
        rwa [none] at newest
      · exact h.closed was
    · obtain ⟨held, states, loads, zero, none, empty⟩ := h.loading loading
      refine ⟨held, states, (enters loads).resolve_right ?_, zero, none, empty⟩
      rintro ⟨-, frame⟩
      rw [empty] at frame
      exact absurd frame (by decide)
  | calLoad loads ready =>
    exact ⟨by simp only [count]; omega, h.ahead, fun closed => absurd loads closed,
      fun loading => absurd (h.loading loading).1 ready⟩
  | evalLoad loads ready =>
    exact ⟨by simp only [count]; omega, h.ahead, fun closed => absurd loads closed,
      fun loading => absurd (h.loading loading).1 ready⟩
  | mcOutcome o rest head =>
    obtain ⟨loads, settled⟩ := h.taken head
    rw [head] at count
    refine ⟨?_, h.ahead.tail head rfl, fun closed => absurd loads closed, fun loading => absurd loading settled⟩
    simp only [count, outcomesToMs]
    omega
  | teOutcome some_outcome =>
    obtain ⟨loads, settled⟩ := h.counted (by omega)
    exact ⟨by simp only [count]; omega, h.ahead, fun closed => absurd loads closed, fun loading => absurd loading settled⟩
  | summary c rest head =>
    obtain ⟨loads, settled⟩ := h.taken head
    rw [head] at count
    exact ⟨by simp only [count, outcomesToMs], h.ahead.tail head (by simp only [summariesToMs, latest_cons]),
      fun closed => absurd loads closed, fun loading => absurd loading settled⟩
  | mcLoad some_load sums o cal sent =>
    obtain ⟨loads, settled⟩ := h.counted (by omega)
    refine ⟨?_, ⟨?_, .inr (.inl ?_)⟩, fun closed => absurd loads closed, fun loading => absurd loading settled⟩
    · rcases sent with ⟨rfl, -⟩ | rfl <;> simp only [count, outcomesToMs_append, outcomesToMs] <;> omega
    · rcases sent with ⟨rfl, rfl⟩ | rfl
      · simpa [summariesToMs] using h.ahead.1
      · simp [summariesToMs]
    · rw [← List.append_assoc]; exact endsInOutcome_append_outcome _ o
  | loaded cal was =>
    obtain ⟨held, states, loads, zero, none, empty⟩ := h.loading was
    refine ⟨by simp [count, outcomesToMs], ⟨by simp [summariesToMs], .inr (.inr ⟨empty, by simp [none]⟩)⟩,
      fun closed => absurd loads closed, fun loading => StoreState.noConfusion loading⟩
  | storing x settled => exact ⟨count, h.ahead, h.closed, fun loading => absurd loading settled⟩
  | teLoad some_load =>
    obtain ⟨loads, settled⟩ := h.counted (by omega)
    exact ⟨by simp only [count]; omega, h.ahead, fun closed => absurd loads closed, fun loading => absurd loading settled⟩
  | noticed x rest head =>
    refine ⟨count, h.ahead, h.closed, fun loading => ?_⟩
    have none := (h.loading loading).2.1
    rw [head] at none
    cases none

/-! ## What a move of MS does to the view -/

/-- A JOG or an ARM is refused with a load under way or without a Frame Table (R51, R77). -/
theorem MsDesk.jogRefusal_none {d : MsDesk} (h : d.jogRefusal = none) : d.ms.loadCount = 0 ∧ d.ms.summary.frame.isSome = true := by
  unfold MsDesk.jogRefusal at h
  split at h
  · cases h
  next noLoad =>
  split at h
  · cases h
  next complete =>
  simp only [not_or, Option.isNone_iff_eq_none] at complete
  exact ⟨by omega, Option.isSome_iff_ne_none.2 complete.1⟩

theorem MsDesk.armRefusal_none {d : MsDesk} (h : d.armRefusal = none) : d.ms.loadCount = 0 ∧ d.ms.summary.frame.isSome = true := by
  unfold MsDesk.armRefusal at h
  simp only at h
  split at h
  · cases h
  split at h
  · cases h
  split at h
  · cases h
  next noLoad =>
  split at h
  · cases h
  split at h
  · cases h
  next complete =>
  simp only [not_or, Option.isNone_iff_eq_none] at complete
  exact ⟨by omega, Option.isSome_iff_ne_none.2 complete.1⟩

theorem MsDesk.answerArm_state (d : MsDesk) (st : Status) (p : Payload) : (d.answerArm st p).ms.state = d.ms.state := by
  unfold MsDesk.answerArm
  split <;> rfl

theorem MotionState.loads.not_testing {d : MsDesk} (h : d.ms.state.loads) : d.ms.testing = false := by
  rcases h with h | h <;> simp [Ms.testing, h]

/-- From IDLE and FAULTED only JOG and ARM lead to another state than these two, and neither with a load under way. -/
theorem MsMove.loads {o : Option Instr} {d e : MsDesk} (h : MsMove d o e) (open_ : d.ms.state.loads) :
    e.ms.state.loads ∨ (d.ms.loadCount = 0 ∧ d.ms.summary.frame.isSome = true) := by
  have testing := open_.not_testing
  have states : d.ms.state ≠ .armed ∧ d.ms.state ≠ .arming ∧ d.ms.state ≠ .paused ∧ d.ms.state ≠ .running ∧
      d.ms.state ≠ .jogging := by rcases open_ with h | h <;> simp [h]
  obtain ⟨armed, arming, paused, running, jogging⟩ := states
  cases h with
  | readback => exact .inl open_
  | program tag l =>
    left
    unfold MsDesk.takeProgram
    split
    · exact open_
    · split
      · exact open_
      · split <;> exact open_
  | calLoad tag l => left; unfold MsDesk.takeCalLoad; split <;> exact open_
  | evalLoad tag l => left; unfold MsDesk.takeEvalLoad; split <;> exact open_
  | store tag => left; unfold MsDesk.takeStore; split <;> exact open_
  | arm tag =>
    unfold MsDesk.takeArm
    split
    · exact .inl open_
    · next h _ => exact .inr (MsDesk.armRefusal_none h)
    · exact .inl open_
  | start tag =>
    left
    unfold MsDesk.takeStart
    split
    · contradiction
    · contradiction
    · exact open_
  | stop tag => left; simp only [MsDesk.takeStop, testing]; exact open_
  | abort tag =>
    left
    unfold MsDesk.takeAbort
    split
    · exact open_
    · exact .inr (MsDesk.answerArm_state _ _ _)
  | resetTest tag =>
    left
    unfold MsDesk.takeResetTest
    split
    · exact .inl (MsDesk.answerArm_state _ _ _)
    · exact open_
  | pause tag => left; simp only [MsDesk.takePause, testing]; exact open_
  | resume tag => left; simp only [MsDesk.takeResume, paused]; exact open_
  | jog tag rate =>
    unfold MsDesk.takeJog
    simp only
    split
    · split
      · exact .inl open_
      · next h => exact .inr (MsDesk.jogRefusal_none h)
    · contradiction
    · exact .inl open_
  | jogStop tag => left; simp only [MsDesk.takeJogStop, jogging]; exact open_
  | status st => exact .inl open_
  | outcome b => left; cases b <;> simp only [MsDesk.takeOutcome] <;> split <;> exact open_
  | summary => left; unfold MsDesk.takeSummary; split <;> exact open_
  | fault b k rest _ =>
    left
    have inactive : d.ms.state.active = false := by rcases open_ with h | h <;> rw [h] <;> rfl
    simp only [MsDesk.takeFault, inactive]
    exact open_
  | criterion e x rest _ => left; simp only [MsDesk.criterionEvent, running, paused]; exact open_
  | hold _ =>
    left
    have testing : (MsDesk.ms { d with paths := { d.paths with holds := d.paths.holds - 1 } }).testing = false := testing
    simp only [MsDesk.takeHold, testing]
    exact open_
  | removed rest _ =>
    left
    have testing : (MsDesk.ms { d with paths := { d.paths with removals := rest } }).testing = false := testing
    simp only [MsDesk.takeRemovalComplete, testing]
    exact open_
  | timeout rest _ =>
    left
    have testing : (MsDesk.ms { d with paths := { d.paths with removals := rest } }).testing = false := testing
    simp only [MsDesk.takeRemovalTimeout, testing]
    exact open_
  | brk n rest _ =>
    left
    have testing : (MsDesk.ms { d with paths := { d.paths with teToMs := rest } }).testing = false := testing
    simp only [MsDesk.takeBreak, testing]
    exact open_
  | extTag t rest _ => exact .inl open_

/-- What the view takes from MS's desk. -/
structure MsLock where
  state : MotionState
  loadCount : Nat
  summary : CalSummary
  toMc : Nat
  fromMc : List McToMs
  toTe : Nat
  fromTe : Nat
  storeStates : List StoreState

def MsLock.of (m : Ms) (k : Trunk) : MsLock :=
  { state := m.state, loadCount := m.loadCount, summary := m.summary, toMc := loadsToMc k.toMc, fromMc := k.fromMc
    toTe := loadsToTe k.toTe, fromTe := k.fromTe.length, storeStates := k.storeStates }

def MsDesk.lock (d : MsDesk) : MsLock := .of d.ms d.paths.trunk

theorem MsDesk.lock_of_outline {d e : MsDesk} (h : e.outline = d.outline) : e.lock = { d.lock with state := e.ms.state } := by
  simp only [MsDesk.outline, MsOutline.mk.injEq, Prod.mk.injEq] at h
  obtain ⟨-, -, summary, count, ⟨-, -, -, states⟩, fromMc, fromTe, toMc, toTe⟩ := h
  simp only [MsDesk.lock, MsLock.of, Paths.trunk, summary, count, states, fromMc, fromTe, toMc, toTe]

/-- The view with what MS has changed of it. -/
def LockView.withMs (v : LockView) (m : MsLock) : LockView :=
  { v with
    state := m.state, loadCount := m.loadCount, summary := m.summary, toMc := m.toMc, fromMc := m.fromMc, toTe := m.toTe
    fromTe := m.fromTe, storeStates := m.storeStates }

theorem State.lockView_onMs (s : State) (d : MsDesk) : (s.onMs fun _ => d).lockView = s.lockView.withMs d.lock := by
  obtain ⟨own, -⟩ := d.notice_own (.of s.ms s.drive)
  have left : (d.notice (.of s.ms s.drive)).paths.storeStates = d.paths.storeStates ∧
      (d.notice (.of s.ms s.drive)).paths.mcToMs = d.paths.mcToMs ∧
      (d.notice (.of s.ms s.drive)).paths.teOutcomes = d.paths.teOutcomes ∧
      (d.notice (.of s.ms s.drive)).paths.msToMc = d.paths.msToMc ∧
      (d.notice (.of s.ms s.drive)).paths.msToTe = d.paths.msToTe := by
    unfold MsDesk.notice
    split <;> exact ⟨rfl, rfl, rfl, rfl, rfl⟩
  obtain ⟨states, fromMc, fromTe, toMc, toTe⟩ := left
  simp only [State.onMs, State.putMs, State.lockView, LockView.withMs, MsDesk.lock, MsLock.of, Paths.trunk, own, states, fromMc, fromTe, toMc, toTe]

theorem Ms.unlocked_iff (m : Ms) : m.unlocked = true ↔ m.state.loads := by simp [Ms.unlocked, MotionState.loads]

theorem MsLoading.lockChange {o : Option Instr} {s : State} {d : MsDesk} (h : MsLoading s.msDesk o d) (taken : s.takesAtMs o d) :
    LockChange s.lockView (s.lockView.withMs d.lock) := by
  have ready (request : o = none) (raised : d.ms.loadCount = s.ms.loadCount + 1) : s.lockView.held ≠ .loading := by
    intro loading
    rcases taken loading with message | ⟨st, rfl⟩
    · exact message request
    · exact absurd raised (show s.ms.loadCount ≠ s.ms.loadCount + 1 by omega)
  cases h with
  | program tag l =>
    have kept : (MsDesk.takeProgram s.msDesk tag l).lock = s.msDesk.lock := by
      have installed (p : Option Program) : (s.msDesk.install p).lock = s.msDesk.lock := by
        simp only [MsDesk.install, MsDesk.lock, MsLock.of, Paths.trunk, loadsToMc_append, loadsToMc, Nat.add_zero]
      unfold MsDesk.takeProgram
      split
      · rfl
      · split
        · exact installed none
        · split
          · rfl
          · exact installed _
    rw [kept]
    exact .same
  | calLoad tag l =>
    unfold MsDesk.takeCalLoad at ready ⊢
    by_cases open_ : s.msDesk.ms.unlocked = false
    · rw [if_pos open_]
      exact .same
    · rw [if_neg open_] at ready ⊢
      have counted := LockChange.calLoad (v := s.lockView) ((Ms.unlocked_iff s.ms).1 (eq_true_of_ne_false open_)) (ready rfl rfl)
      simp only [LockView.withMs, MsDesk.lock, MsLock.of, Paths.trunk, loadsToMc_append, loadsToMc, Nat.zero_add]
      exact counted
  | evalLoad tag l =>
    unfold MsDesk.takeEvalLoad at ready ⊢
    by_cases open_ : s.msDesk.ms.unlocked = false
    · rw [if_pos open_]
      exact .same
    · rw [if_neg open_] at ready ⊢
      have counted := LockChange.evalLoad (v := s.lockView) ((Ms.unlocked_iff s.ms).1 (eq_true_of_ne_false open_)) (ready rfl rfl)
      simp only [LockView.withMs, MsDesk.lock, MsLock.of, Paths.trunk, loadsToTe_append, loadsToTe, Nat.zero_add]
      exact counted
  | outcome b =>
    cases b with
    | mc =>
      simp only [MsDesk.takeOutcome]
      split
      · next o rest h => exact .mcOutcome (v := s.lockView) o rest h
      · exact .same
    | te =>
      simp only [MsDesk.takeOutcome]
      split
      · next o rest h =>
        have h : s.paths.teOutcomes = o :: rest := h
        have counted := LockChange.teOutcome (v := s.lockView) (by simp [State.lockView, h])
        simp only [State.lockView, h, List.length_cons, Nat.add_sub_cancel] at counted
        simp only [State.lockView, LockView.withMs, MsDesk.lock, MsLock.of, Paths.trunk, h, List.length_cons]
        exact counted
      · exact .same
  | summary =>
    unfold MsDesk.takeSummary
    split
    · next c rest h => exact .summary (v := s.lockView) c rest h
    · exact .same

/-- In IDLE and FAULTED a sample changes nothing of MS but its last sample. -/
theorem MsDesk.actsOnSample_loads (d : MsDesk) (x : Sample) (h : d.ms.state.loads) : (d.actsOnSample x).ms.state.loads := by
  rcases h with h | h <;> simp only [MsDesk.actsOnSample, h] <;> simp [MotionState.loads, h]

theorem MsDesk.sendFrame_lock (d : MsDesk) (x : Sample) : (d.sendFrame x).lock = d.lock := by
  have raised (c : Bool) (e : Event) :
      (if c then d.paths.raiseFault .drive .driveSilent e else d.paths).trunk = d.paths.trunk := by
    split
    · exact Paths.raiseFault_trunk _ _ _ _
    · rfl
  have lock := congrArg (MsLock.of d.ms) (raised (fallsSilent d.drive.unanswered d.ms.state.enables)
    (.driveSilent (countAfter d.drive.unanswered d.ms.state.enables) x.seq))
  exact lock

theorem MsDesk.takeSample_lock (d : MsDesk) (x : Sample) :
    (d.takeSample x).lock = { d.lock with state := (d.takeSample x).ms.state } ∧
      (d.ms.state.loads → (d.takeSample x).ms.state.loads) := by
  rw [MsDesk.takeSample_eq]
  exact ⟨(MsDesk.sendFrame_lock _ x).trans (MsDesk.lock_of_outline (MsDesk.outline_actsOnSample _ x)),
    fun open_ => MsDesk.actsOnSample_loads _ x open_⟩

theorem State.lockView_putMs (s : State) (d : MsDesk) : (s.putMs d).lockView = s.lockView.withMs d.lock := rfl

/-! ## Every move -/

theorem CpMove.lock {o : Option Instr} {d e : CpDesk} (h : CpMove d o e) :
    (e.cp.store = d.cp.store ∧ e.paths.trunk = { d.paths.trunk with
        msNotices := e.paths.msNotices, esNotices := e.paths.esNotices, crNotices := e.paths.crNotices }) ∨
      ∃ x rest, d.paths.storeStates = x :: rest ∧ e.cp.store = x ∧
        e.paths.trunk = { d.paths.trunk with storeStates := rest } := by
  have store {c c' : Cp} (h : c'.known = c.known) : c'.store = c.store := congrArg (fun k => k.2.2.2) h
  cases h with
  | frontError => exact .inl ⟨store (CpChange.known_eq (.linkError _)), rfl⟩
  | driveError => exact .inl ⟨store (CpChange.known_eq (.linkError _)), rfl⟩
  | storeState x rest h => exact .inr ⟨x, rest, h, rfl, rfl⟩
  | motion n rest _ => exact .inl ⟨rfl, rfl⟩
  | ext n rest _ => exact .inl ⟨rfl, rfl⟩
  | capture n rest _ => exact .inl ⟨rfl, rfl⟩
  | event b e rest _ => exact .inl ⟨store (by rw [Cp.takeEvent_eq_told, Cp.told_known]), rfl⟩
  | reply b r rest _ => exact .inl ⟨store (CpChange.known_eq (.answer r)), rfl⟩
  | transmitted =>
    obtain ⟨known, paths⟩ := d.finishReport_known
    exact .inl ⟨store known, by rw [paths]; rfl⟩
  | sample x rest _ => exact .inl ⟨store (d.cp.takeSample_known x), rfl⟩

/-- What the view takes from the paths. -/
def Trunk.lock (k : Trunk) : Nat × List McToMs × Nat × Nat × List StoreState :=
  (loadsToMc k.toMc, k.fromMc, loadsToTe k.toTe, k.fromTe.length, k.storeStates)

/-- The view with other paths. -/
def LockView.withTrunk (v : LockView) (k : Trunk) : LockView :=
  { v with
    toMc := loadsToMc k.toMc, fromMc := k.fromMc, toTe := loadsToTe k.toTe, fromTe := k.fromTe.length
    storeStates := k.storeStates }

theorem State.Act.lockChange {o : Option Instr} {s t : State} (h : s.Act o t) : LockChange s.lockView t.lockView := by
  cases h with
  | rx r => exact .same
  | frontError => exact .same
  | driveError => exact .same
  | inlet d h =>
    show LockChange s.lockView (s.lockView.withTrunk d.paths.trunk)
    rw [h.trunk]
    exact .same
  | mc d h =>
    show LockChange s.lockView (LockView.withTrunk { s.lockView with cal := d.mc.cal.summary } d.paths.trunk)
    rcases h.trunk with ⟨trunk, cal⟩ | ⟨m, rest, head, noLoad, trunk, cal⟩ | ⟨tag, l, rest, head, rfl⟩
    · rw [trunk, cal]
      exact .same
    · have loads : loadsToMc rest = loadsToMc s.paths.msToMc := by
        have head : s.paths.msToMc = m :: rest := head
        rw [head]
        cases m with
        | load tag l => exact absurd rfl (noLoad tag l)
        | _ => rfl
      rw [trunk, cal]
      simp only [LockView.withTrunk, loads]
      exact .same
    · have head : s.paths.msToMc = .load tag l :: rest := head
      obtain ⟨sums, o, trunk, sent⟩ := McDesk.takeLoad_trunk ⟨s.mc, { s.paths with msToMc := rest }⟩ tag l
      have taken := LockChange.mcLoad (v := s.lockView) (by simp [State.lockView, head, loadsToMc]) sums o
        (McDesk.takeLoad ⟨s.mc, { s.paths with msToMc := rest }⟩ tag l).mc.cal.summary
        (sent.imp (fun ⟨empty, same⟩ => ⟨empty, by rw [same]; rfl⟩) id)
      rw [trunk]
      simpa [State.lockView, LockView.withTrunk, Paths.trunk, head, loadsToMc] using taken
  | store d h =>
    show LockChange s.lockView
      (LockView.withTrunk { s.lockView with cal := d.mc.cal.summary, store := d.sp.state } d.paths.trunk)
    cases h.report with
    | nothing l loads trunk state cal =>
      rw [trunk, cal, state]
      simp only [LockView.withTrunk, loads]
      exact .same
    | loaded was trunk state =>
      rw [trunk, state]
      exact .loaded (v := s.lockView) _ was
    | storing l loads trunk state cal =>
      rw [trunk, cal]
      simp only [LockView.withTrunk, loads]
      exact .storing (v := s.lockView) _ state
  | ms d h taken =>
    rw [State.lockView_onMs]
    rcases h.loading_or_outline with loading | kept
    · exact loading.lockChange taken
    · rw [MsDesk.lock_of_outline kept]
      exact .state (v := s.lockView) _ h.loads
  | msSample x rest _ =>
    obtain ⟨lock, loads⟩ := MsDesk.takeSample_lock { s.msDesk with paths := { s.paths with samplesMs := rest } } x
    rw [State.lockView_putMs, lock]
    exact .state (v := s.lockView) _ fun open_ => .inl (loads open_)
  | es d h =>
    have own : (d.notice s.es.state).paths.trunk = { d.paths.trunk with esNotices := (d.notice s.es.state).paths.esNotices } := by
      unfold EsDesk.notice
      split <;> rfl
    show LockChange s.lockView (s.lockView.withTrunk (d.notice s.es.state).paths.trunk)
    rw [own]
    rcases h.trunk with trunk | ⟨m, rest, -, trunk⟩ <;> rw [trunk] <;> exact .same
  | te d h =>
    show LockChange s.lockView (s.lockView.withTrunk d.paths.trunk)
    cases h.report with
    | nothing trunk _ =>
      rw [trunk]
      exact .same
    | taken m rest head noLoad trunk _ =>
      have loads : loadsToTe rest = loadsToTe s.paths.msToTe := by
        have head : s.paths.msToTe = m :: rest := head
        rw [head]
        cases m with
        | params tag l => exact absurd rfl (noLoad tag l)
        | _ => rfl
      rw [trunk]
      simp only [LockView.withTrunk, loads]
      exact .same
    | load tag l rest o head trunk =>
      have head : s.paths.msToTe = .params tag l :: rest := head
      have taken := LockChange.teLoad (v := s.lockView) (by simp [State.lockView, head, loadsToTe])
      rw [trunk]
      simpa [State.lockView, LockView.withTrunk, Paths.trunk, head, loadsToTe] using taken
  | cr d h =>
    have own : (d.notice (.of s.cr)).paths.trunk = { d.paths.trunk with crNotices := (d.notice (.of s.cr)).paths.crNotices } := by
      unfold CrDesk.notice
      split <;> rfl
    show LockChange s.lockView (s.lockView.withTrunk (d.notice (.of s.cr)).paths.trunk)
    rw [own, h.trunk]
    exact .same
  | cp d h =>
    show LockChange s.lockView (LockView.withTrunk { s.lockView with held := d.cp.store } d.paths.trunk)
    rcases h.lock with ⟨store, trunk⟩ | ⟨x, rest, head, store, trunk⟩
    · rw [store, trunk]
      exact .same
    · rw [store, trunk]
      exact .noticed (v := s.lockView) x rest head
  | cpOwn c h =>
    show LockChange s.lockView { s.lockView with held := c.store }
    rw [show c.store = s.cp.store from congrArg (fun k => k.2.2.2) h.known_eq]
    exact .same

theorem State.Act.tablesLocked {o : Option Instr} {s t : State} (h : s.Act o t) (hs : s.TablesLocked) : t.TablesLocked := by
  rw [State.tablesLocked_iff] at hs ⊢
  exact h.lockChange.locked hs

/-! ## The tables under the lock -/

/-- Where the lock is closed no load is under way, and SP is not in LOADING. -/
theorem State.TablesLocked.none_under_way {s : State} (h : s.TablesLocked) (closed : ¬ s.ms.state.loads) :
    loadsToMc s.paths.msToMc = 0 ∧ loadsToTe s.paths.msToTe = 0 ∧ s.sp.state ≠ .loading := by
  have locked := s.tablesLocked_iff.1 h
  have count := locked.count
  have zero := (locked.closed closed).1
  simp only [State.lockView] at count zero
  exact ⟨by omega, by omega, fun loading => closed (locked.loading loading).2.2.1⟩

/-- The Calibration Set, the Test Program and the Evaluation Parameters of the part. -/
def State.tables (s : State) : CalSet × Option Program × Option EvalParams := (s.mc.cal, s.ms.program, s.te.loaded)

/-- Where the lock is closed no move changes a table, the program or the parameters. -/
theorem State.Act.tables_eq {o : Option Instr} {s t : State} (h : s.Act o t) (hs : s.TablesLocked) (closed : ¬ s.ms.state.loads) :
    t.tables = s.tables := by
  obtain ⟨noMcLoad, noTeLoad, settled⟩ := hs.none_under_way closed
  cases h with
  | mc d h =>
    rcases h.trunk with ⟨-, cal⟩ | ⟨m, rest, -, -, -, cal⟩ | ⟨tag, l, rest, head, -⟩
    · exact congrArg (·, s.ms.program, s.te.loaded) cal
    · exact congrArg (·, s.ms.program, s.te.loaded) cal
    · have head : s.paths.msToMc = .load tag l :: rest := head
      simp [head, loadsToMc] at noMcLoad
  | store d h =>
    cases h.report with
    | nothing l _ _ _ cal => exact congrArg (·, s.ms.program, s.te.loaded) cal
    | loaded was _ _ => exact absurd was settled
    | storing l _ _ _ cal => exact congrArg (·, s.ms.program, s.te.loaded) cal
  | ms d h taken =>
    have program : d.ms.program = s.ms.program := by
      rcases h.loading_or_outline with loading | kept
      · cases loading with
        | program tag l =>
          have locked : s.msDesk.ms.unlocked = false :=
            eq_false_of_ne_true fun open_ => closed ((Ms.unlocked_iff s.ms).1 open_)
          unfold MsDesk.takeProgram
          rw [if_pos locked]
          rfl
        | calLoad tag l => unfold MsDesk.takeCalLoad; split <;> rfl
        | evalLoad tag l => unfold MsDesk.takeEvalLoad; split <;> rfl
        | outcome b => cases b <;> simp only [MsDesk.takeOutcome] <;> split <;> rfl
        | summary => unfold MsDesk.takeSummary; split <;> rfl
      · exact congrArg MsOutline.program kept
    have own := (d.notice_own (.of s.ms s.drive)).1
    simp only [State.tables, State.onMs, State.putMs, own, program]
  | msSample x rest _ =>
    exact congrArg (fun p => (s.mc.cal, p, s.te.loaded)) (congrArg MsOutline.program (MsDesk.outline_actsOnSample _ x))
  | te d h =>
    cases h.report with
    | nothing _ loaded => exact congrArg (s.mc.cal, s.ms.program, ·) loaded
    | taken m rest _ _ _ loaded => exact congrArg (s.mc.cal, s.ms.program, ·) loaded
    | load tag l rest o head _ =>
      have head : s.paths.msToTe = .params tag l :: rest := head
      simp [head, loadsToTe] at noTeLoad
  | _ => rfl

/-- Links bring MS a Drive Status alone, which leaves the tables and the motion state. -/
theorem State.LinkActs.tables_eq {s t : State} (h : s.LinkActs t) : t.tables = s.tables := by
  induction h with
  | refl => rfl
  | tail _ last ih =>
    cases last with
    | status st =>
      refine Eq.trans ?_ ih
      simp only [State.tables, takeDriveStatus, State.onMs, State.putMs, MsDesk.notice_own]
      rfl
    | _ => exact ih

end Sys2Proof.Machine

open Sys2Proof.Machine

/-- Settles O7: each move changes the view of the lock in one of few ways (`State.Act.lockChange`), and each of these keeps it
(`LockChange.locked`); where it is closed, nothing under way can change a table (`State.Act.tables_eq`). -/
theorem stepKeepsTablesLocked : Obligations.StepKeepsTablesLocked := by
  intro s t hs h
  refine ⟨?_, fun idle faulted single => ?_⟩
  · refine step_keeps (P := State.TablesLocked) (fun _ _ h => h) (fun s => ?_) (fun _ _ _ act => act.tablesLocked) hs h
    exact ⟨rfl, ⟨rfl, .inl rfl⟩, fun idle => absurd rfl idle, fun _ => ⟨rfl, rfl, .inl rfl, rfl, rfl, rfl⟩⟩
  · have closed : ¬ s.ms.state.loads := fun loads => loads.elim idle faulted
    have same : t.tables = s.tables := by
      obtain ⟨rest, rfl | ⟨o, act⟩ | links⟩ := step_single h single
      · rfl
      · exact act.tables_eq hs closed
      · exact links.tables_eq
    simpa only [State.tables, Prod.mk.injEq] using same
end

