-- ==== Sys2Proof/Proofs/HoldFitAndPinLaws.lean ====
section
/-! The invariants of TE and CP by themselves: the hold timer under a hold (R140 to R143), the proof detector waiting for the fit
(R126, R128), and the ATTN pin (R167, R168). -/

namespace Sys2Proof.Machine

/-! ## The hold -/

/-- What the invariant of the hold speaks of. -/
def Te.holdItems (t : Te) : HoldState × Option Nat × Option ExpiryCause := (t.hold, t.holdTimer, t.expired)

theorem Te.LawfulHold.congr {t t' : Te} (h : t.LawfulHold) (items : t'.holdItems = t.holdItems) : t'.LawfulHold := by
  simp only [Te.holdItems, Prod.mk.injEq] at items
  obtain ⟨hold, timer, expired⟩ := items
  simpa only [Te.LawfulHold, hold, timer, expired] using h

theorem Te.holdItems_of_setting {t t' : Te} (h : t'.setting = t.setting) : t'.holdItems = t.holdItems := by
  simp only [Te.setting, Prod.mk.injEq] at h
  obtain ⟨-, -, -, hold, timer, expired⟩ := h
  simp only [Te.holdItems, hold, timer, expired]

@[simp] theorem Te.publish_holdItems (t : Te) : t.publish.holdItems = t.holdItems := by
  unfold Te.publish
  split <;> rfl

theorem Te.settle_holdItems (t : Te) (was : Results) : (t.settle was).holdItems = t.holdItems := by
  unfold Te.settle
  simp only
  split
  · rfl
  · exact Te.publish_holdItems _

/-- A hold that has ended, by its timer or by ARMED. -/
theorem TeDesk.holdExpired_lawfulHold (d : TeDesk) (c : ExpiryCause) : (d.holdExpired c).te.LawfulHold := by
  simp [TeDesk.holdExpired, TeDesk.event, Te.copyOut, Te.LawfulHold]

theorem TeDesk.endTest_holdItems (d : TeDesk) (c : Cause) : (d.endTest c).te.holdItems = d.te.holdItems := by
  unfold TeDesk.endTest
  split
  · simp only [Te.publish_holdItems]
    split
    · rfl
    · have closed := Te.holdItems_of_setting (congrArg Prod.fst
        (TeDesk.close_left ⟨d.te.onWorking fun r => { r with endCause := c }, d.paths⟩ none))
      exact closed
  · rfl

theorem TeDesk.takeTag_lawfulHold {d : TeDesk} (m : MotionTag) (h : d.te.LawfulHold) : (d.takeTag m).te.LawfulHold := by
  cases m with
  | armed =>
    simp only [takeTag, onArmed]
    split
    · exact h.congr (Te.publish_holdItems _)
    · exact TeDesk.holdExpired_lawfulHold _ _
  | running =>
    simp only [takeTag]
    split <;> exact h.congr rfl
  | stopped c => exact h.congr (TeDesk.endTest_holdItems ⟨_, d.paths⟩ c)
  | faulted c => exact h.congr (TeDesk.endTest_holdItems ⟨_, d.paths⟩ c)
  | idle _ => exact h.congr rfl
  | paused => exact h.congr rfl
  | jogging => exact h.congr rfl
  | arming _ => exact h.congr rfl

theorem TeMove.lawfulHold {o : Option Instr} {d e : TeDesk} (m : TeMove d o e) (h : d.te.LawfulHold) : e.te.LawfulHold := by
  cases m with
  | reply r => exact h
  | hold tag => simp [TeDesk.takeHold, TeDesk.reply, Te.LawfulHold]
  | release tag =>
    show d.te.release.LawfulHold
    unfold Te.release
    split
    · simp [Te.copyOut, Te.LawfulHold]
    · next free => exact ⟨h.1, fun held => absurd (free.symm.trans held) (by decide)⟩
  | sample x rest _ =>
    unfold TeDesk.takeSample
    split
    · exact h
    · next p _ =>
      split
      · exact h.congr ((Te.settle_holdItems _ _).trans (Te.holdItems_of_setting (TeDesk.judge_setting _ p x)))
      · exact h
  | params tag l rest _ =>
    unfold TeDesk.takeEvalLoad
    split
    · exact h.congr rfl
    · split <;> exact h.congr rfl
  | armCopy c rest _ => exact h.congr rfl
  | tag t rest _ => exact TeDesk.takeTag_lawfulHold t h
  | entry e rest _ => exact h.congr (Te.publish_holdItems _)
  | expiry =>
    unfold TeDesk.expireHold
    split
    · exact TeDesk.holdExpired_lawfulHold _ _
    · exact h

/-! ## The fit and the proof detector -/

/-- What the invariant of the fit speaks of. -/
def Te.fitItems (t : Te) : FitStatus × ProofState × MotionTag := (t.working.fitStatus, t.proofState, t.tag)

theorem Te.LawfulFit.congr {t t' : Te} (h : t.LawfulFit) (items : t'.fitItems = t.fitItems) : t'.LawfulFit := by
  simp only [Te.fitItems, Prod.mk.injEq] at items
  obtain ⟨status, proof, tag⟩ := items
  simpa only [Te.LawfulFit, status, proof, tag] using h

/-- With a fit that has ended and a proof detector that has ended, under a tag other than ARMED. -/
theorem Te.LawfulFit.of_ended {t : Te} (status : t.working.fitStatus ≠ .collecting) (proof : t.proofState ≠ .seeking)
    (tag : t.tag ≠ .armed) : t.LawfulFit :=
  ⟨fun h => absurd h status, fun h => absurd h proof, fun h => absurd h tag⟩

theorem Te.trackMax_fitItems (t : Te) (x : Sample) : (t.trackMax x).fitItems = t.fitItems := by
  unfold Te.trackMax
  split <;> rfl

theorem Te.takePeak_fitItems (t : Te) (x : Sample) : (t.takePeak x).fitItems = t.fitItems := by
  unfold Te.takePeak
  split
  · rfl
  · split <;> rfl

theorem TeDesk.judgeYield_fitItems (d : TeDesk) (p : EvalParams) (x : Sample) :
    (d.judgeYield p x).te.fitItems = d.te.fitItems := by
  have peak := d.te.takePeak_fitItems x
  unfold TeDesk.judgeYield
  split
  · unfold TeDesk.seekYield
    simp only
    split
    · exact peak
    · split
      · exact peak
      · split <;> exact peak
  · unfold TeDesk.followPlateau
    split
    · rfl
    · split
      · rfl
      · split
        · rfl
        · unfold Te.countLower
          split
          · rfl
          · split <;> rfl
  · rfl
  · rfl

theorem TeDesk.tag_ne_of_left {d d' : TeDesk} (h : d'.left = d.left) (tag : d.te.tag ≠ .armed) : d'.te.tag ≠ .armed := by
  have same : d'.te.tag = d.te.tag := congrArg (fun l => l.1.1.2.2.2.1) h
  rwa [same]

theorem TeDesk.judgeFit_lawfulFit {d : TeDesk} (p : EvalParams) (x : Sample) (tag : d.te.tag ≠ .armed) (h : d.te.LawfulFit) :
    (d.judgeFit p x).te.LawfulFit := by
  unfold TeDesk.judgeFit
  split
  · exact h
  split
  · exact .of_ended (by simp [TeDesk.failFit, TeDesk.event, Te.failFit]) (by simp [TeDesk.failFit, TeDesk.event, Te.failFit]) tag
  split
  · unfold TeDesk.closeFit
    simp only
    split
    · exact .of_ended (by simp [TeDesk.failFit, TeDesk.event, Te.failFit])
        (by simp [TeDesk.failFit, TeDesk.event, Te.failFit]) tag
    · exact ⟨fun collecting => FitStatus.noConfusion collecting, fun _ => rfl, fun armed => absurd armed tag⟩
  split
  · exact h.congr rfl
  · exact h

theorem TeDesk.judgeProof_lawfulFit {d : TeDesk} (p : EvalParams) (x : Sample) (tag : d.te.tag ≠ .armed) (h : d.te.LawfulFit) :
    (d.judgeProof p x).te.LawfulFit := by
  unfold TeDesk.judgeProof
  simp only
  split
  · next seeking =>
    have done := h.2.1 seeking.1
    exact .of_ended (fun collecting => absurd (done.symm.trans collecting) (by decide)) (fun h => ProofState.noConfusion h) tag
  · exact h

theorem TeDesk.judgeRunning_lawfulFit {d : TeDesk} (p : EvalParams) (x : Sample) (tag : d.te.tag ≠ .armed)
    (h : d.te.LawfulFit) : (d.judgeRunning p x).te.LawfulFit := by
  have yielded : (d.judgeYield p x).te.LawfulFit := h.congr (d.judgeYield_fitItems p x)
  have tag1 : (d.judgeYield p x).te.tag ≠ .armed := tag_ne_of_left (d.judgeYield_left p x) tag
  have fitted := TeDesk.judgeFit_lawfulFit p x tag1 yielded
  unfold TeDesk.judgeRunning
  simp only
  split
  · exact TeDesk.judgeProof_lawfulFit p x (tag_ne_of_left (TeDesk.judgeFit_left _ p x) tag1) fitted
  · exact fitted

/-- A confirmed break and the end of a test leave neither a fit that collects nor a proof detector that seeks. -/
theorem TeDesk.close_lawfulFit (d : TeDesk) (n : Option Nat) (tag : d.te.tag ≠ .armed) :
    (d.closeOpenFit n).te.closeProof.closeYield.LawfulFit := by
  have yield (t : Te) : t.closeYield.fitItems = t.fitItems := by
    unfold Te.closeYield
    split <;> rfl
  have status : (d.closeOpenFit n).te.working.fitStatus ≠ .collecting := by
    unfold TeDesk.closeOpenFit
    split
    · exact fun h => FitStatus.noConfusion h
    · next h => exact h
  have kept : (d.closeOpenFit n).te.tag = d.te.tag := congrArg (fun l => l.1.1.2.2.2.1) (d.closeOpenFit_left n)
  refine Te.LawfulFit.congr (.of_ended ?_ ?_ ?_) (yield _)
  · unfold Te.closeProof
    split <;> exact status
  · unfold Te.closeProof
    split
    · exact fun h => ProofState.noConfusion h
    · exact fun h => ProofState.noConfusion h
    · next found => rw [found]; decide
    · next notFound => rw [notFound]; decide
  · have : (d.closeOpenFit n).te.closeProof.tag = d.te.tag := by
      unfold Te.closeProof
      split <;> exact kept
    rw [this]
    exact tag

theorem TeDesk.confirmBreak_lawfulFit {d : TeDesk} (x : Sample) (tag : d.te.tag ≠ .armed) : (d.confirmBreak x).te.LawfulFit := by
  have closed := TeDesk.close_lawfulFit
    { d with te := { d.te with breakConfirmed := true, breakState := .confirmed } } (some x.number) tag
  unfold TeDesk.confirmBreak
  simp only
  split
  · exact closed
  · exact closed.congr rfl

theorem TeDesk.judgeBreak_lawfulFit {d : TeDesk} (p : EvalParams) (x : Sample) (raised : Bool) (tag : d.te.tag ≠ .armed)
    (h : d.te.LawfulFit) : (d.judgeBreak p x raised).te.LawfulFit := by
  have watch {d : TeDesk} (tag : d.te.tag ≠ .armed) (h : d.te.LawfulFit) : (d.watchBreak p x raised).te.LawfulFit := by
    unfold TeDesk.watchBreak
    split
    · simp only
      split
      · exact TeDesk.confirmBreak_lawfulFit (d := ⟨_, d.paths⟩) x tag
      · exact h.congr rfl
    · exact h.congr rfl
  unfold TeDesk.judgeBreak
  split
  · split
    · exact watch (d := ⟨_, d.paths⟩) tag (h.congr rfl)
    · exact h
  · exact watch tag h
  · exact h

theorem TeDesk.judge_lawfulFit {d : TeDesk} (p : EvalParams) (x : Sample) (tag : d.te.tag ≠ .armed) (h : d.te.LawfulFit) :
    (d.judge p x).te.LawfulFit := by
  have tag1 : (d.te.trackMax x).tag ≠ .armed := by
    unfold Te.trackMax
    split <;> exact tag
  have h1 : (d.te.trackMax x).LawfulFit := h.congr (d.te.trackMax_fitItems x)
  unfold TeDesk.judge
  simp only
  split
  · exact TeDesk.judgeBreak_lawfulFit p x _ (tag_ne_of_left (TeDesk.judgeRunning_left ⟨_, d.paths⟩ p x) tag1)
      (TeDesk.judgeRunning_lawfulFit (d := ⟨_, d.paths⟩) p x tag1 h1)
  · exact TeDesk.judgeBreak_lawfulFit (d := ⟨_, d.paths⟩) p x _ tag1 h1

theorem Te.publish_fitItems (t : Te) : t.publish.fitItems = t.fitItems := by
  unfold Te.publish
  split <;> rfl

theorem TeDesk.takeSample_lawfulFit {d : TeDesk} (x : Sample) (h : d.te.LawfulFit) : (d.takeSample x).te.LawfulFit := by
  unfold TeDesk.takeSample
  split
  · exact h
  · next p _ =>
    split
    · next works =>
      have tag : d.te.tag ≠ .armed := by
        intro armed
        simp [Te.works, armed] at works
      refine (TeDesk.judge_lawfulFit p x tag h).congr ?_
      simp only [Te.settle]
      split
      · rfl
      · exact Te.publish_fitItems _
    · exact h

theorem TeDesk.endTest_lawfulFit {d : TeDesk} (c : Cause) (tag : d.te.tag ≠ .armed) (h : d.te.LawfulFit) :
    (d.endTest c).te.LawfulFit := by
  unfold TeDesk.endTest
  split
  · refine Te.LawfulFit.congr ?_ (Te.publish_fitItems _)
    simp only
    split
    · exact h.congr rfl
    · exact (TeDesk.close_lawfulFit ⟨d.te.onWorking fun r => { r with endCause := c }, d.paths⟩ none tag).congr rfl
  · exact h

theorem TeDesk.takeTag_lawfulFit {d : TeDesk} (m : MotionTag) (h : d.te.LawfulFit) : (d.takeTag m).te.LawfulFit := by
  have tagged (hm : m ≠ .armed) : Te.LawfulFit { d.te with tag := m } := ⟨h.1, h.2.1, fun armed => absurd armed hm⟩
  cases m with
  | armed =>
    have cleared : Te.LawfulFit ({ d.te with tag := MotionTag.armed } : Te).clear := by
      simp [Te.LawfulFit, Te.clear, Results.cleared]
    simp only [takeTag, onArmed]
    split
    · exact cleared.congr (Te.publish_fitItems _)
    · exact cleared.congr rfl
  | running =>
    simp only [takeTag]
    split
    · next was =>
      exact ⟨fun _ => h.2.2 was.1, fun seeking => absurd ((h.2.2 was.1).symm.trans seeking) (by decide), by simp [Te.onWorking]⟩
    · exact tagged (by simp)
  | stopped c => exact TeDesk.endTest_lawfulFit (d := ⟨_, d.paths⟩) c (by simp) (tagged (by simp))
  | faulted c => exact TeDesk.endTest_lawfulFit (d := ⟨_, d.paths⟩) c (by simp) (tagged (by simp))
  | idle b => exact (tagged (by simp)).congr rfl
  | paused => exact tagged (by simp)
  | jogging => exact tagged (by simp)
  | arming n => exact tagged (by simp)

theorem TeMove.lawfulFit {o : Option Instr} {d e : TeDesk} (m : TeMove d o e) (h : d.te.LawfulFit) : e.te.LawfulFit := by
  cases m with
  | reply r => exact h
  | hold tag => exact h.congr rfl
  | release tag =>
    refine h.congr ?_
    show d.te.release.fitItems = d.te.fitItems
    unfold Te.release
    split <;> rfl
  | sample x rest _ => exact TeDesk.takeSample_lawfulFit x h
  | params tag l rest _ =>
    unfold TeDesk.takeEvalLoad
    split
    · exact h.congr rfl
    · split <;> exact h.congr rfl
  | armCopy c rest _ => exact h.congr rfl
  | tag t rest _ => exact TeDesk.takeTag_lawfulFit t h
  | entry e rest _ => exact h.congr (Te.publish_fitItems _)
  | expiry =>
    unfold TeDesk.expireHold
    split <;> exact h.congr rfl

/-! ## The ATTN pin -/

/-- What the invariant of the pin speaks of. -/
def Cp.pinItems (c : Cp) : AttnMode × Bool × BitVec 11 × BitVec 11 × Option Nat := (c.mode, c.attnLow, c.flags, c.mask, c.pulse)

theorem Cp.LawfulPin.congr {c c' : Cp} (h : c.LawfulPin) (items : c'.pinItems = c.pinItems) : c'.LawfulPin := by
  simp only [Cp.pinItems, Prod.mk.injEq] at items
  obtain ⟨mode, low, flags, mask, pulse⟩ := items
  simpa only [Cp.LawfulPin, Cp.attention, mode, low, flags, mask, pulse] using h

/-- In LATCHED mode the pin is set by the attention set, in PULSE mode a raised flag starts a pulse with it. -/
theorem Cp.LawfulPin.raised {c : Cp} (h : c.LawfulPin) (f : BitVec 11) : (c.raised f).LawfulPin := by
  obtain ⟨latched, pulse⟩ := h
  unfold Cp.raised
  simp only
  split
  · next mode => simp [Cp.LawfulPin, Cp.attention, mode, (latched mode).2]
  · next mode =>
    split
    · simp [Cp.LawfulPin, mode]
    · simpa [Cp.LawfulPin, mode] using pulse mode

/-- A change of the flags or of the mask, with the pin settled. -/
theorem Cp.settled_lawfulPin {c : Cp} (latched : c.mode = .latched → c.pulse = none)
    (pulse : c.mode = .pulse → (c.attnLow = true ↔ c.pulse.isSome = true)) : c.settled.LawfulPin := by
  constructor
  · intro mode
    have mode : c.mode = .latched := mode
    simp [Cp.settled, Cp.attention, mode, latched mode]
  · intro mode
    have mode : c.mode = .pulse := mode
    simpa [Cp.settled, mode] using pulse mode

theorem Cp.LawfulPin.replied {c : Cp} (h : c.LawfulPin) (r : Reply) : (c.replied r).LawfulPin := by
  unfold Cp.replied
  split
  · exact h.congr rfl
  · exact Cp.LawfulPin.raised (c := { c with lossMark := true }) (h.congr rfl) 512

theorem Cp.LawfulPin.told {c : Cp} (h : c.LawfulPin) (e : Event) (f : BitVec 11) (n : Option Nat) : (c.told e f n).LawfulPin := by
  have flagged := h.raised f
  unfold Cp.told
  simp only
  split
  · exact flagged.congr rfl
  · exact Cp.LawfulPin.raised (c := { c.raised f with lossMark := true }) (flagged.congr rfl) 512

theorem Cp.LawfulPin.linkErrorTaken {c : Cp} (h : c.LawfulPin) (l : Link) : (c.linkErrorTaken l).LawfulPin := by
  have counted : (c.counted l).LawfulPin := h.congr (by cases l <;> rfl)
  unfold Cp.linkErrorTaken
  simp only
  split
  · exact counted
  · exact counted.told _ _ _

theorem CpChange.lawfulPin {c c' : Cp} (m : CpChange c c') (h : c.LawfulPin) : c'.LawfulPin := by
  cases m with
  | answer r => rw [Cp.offerReply_eq_replied]; exact h.replied r
  | linkError l => rw [Cp.takeLinkError_eq]; exact h.linkErrorTaken l
  | hold => exact h.congr rfl
  | go => rw [Cp.takeGo, Cp.startTransmission_eq_begun]; exact h.congr rfl
  | endPulse =>
    unfold Cp.endPulse
    split
    · next mode _ => simp [Cp.LawfulPin, mode]
    · exact h
  | stream tag enable n =>
    rw [Cp.takeStreamSet, Cp.offerReply_eq_replied]
    exact Cp.LawfulPin.replied (c := { c with stream := enable, decimation := decimationOf n }) (h.congr rfl) _
  | clear tag flags =>
    unfold Cp.takeClear
    split
    · rw [Cp.offerReply_eq_replied]; exact h.replied _
    · next f _ =>
      have cleared : (c.clearSet f).LawfulPin := by
        have settled : (Cp.settled { c with flags := c.flags &&& ~~~f }).LawfulPin :=
          Cp.settled_lawfulPin (fun mode => (h.1 mode).2) h.2
        rw [← Cp.settlePin_eq_settled] at settled
        unfold Cp.clearSet Cp.clearFlags
        simp only
        split
        · exact settled
        · exact settled.congr rfl
      rw [Cp.offerReply_eq_replied]
      exact cleared.replied _
  | mask tag flags =>
    unfold Cp.takeMaskSet
    split
    · rw [Cp.offerReply_eq_replied]; exact h.replied _
    · next m _ =>
      rw [Cp.offerReply_eq_replied, Cp.setMask, Cp.settlePin_eq_settled]
      exact Cp.LawfulPin.replied (Cp.settled_lawfulPin (c := { c with mask := m }) (fun mode => (h.1 mode).2) h.2) _
  | mode tag mode =>
    unfold Cp.takeAttnMode
    split
    · rw [Cp.offerReply_eq_replied]; exact h.replied _
    · rw [Cp.offerReply_eq_replied, Cp.setMode, Cp.settlePin_eq_settled]
      exact Cp.LawfulPin.replied (Cp.settled_lawfulPin (fun _ => rfl) (fun _ => by simp)) _

theorem CpMove.lawfulPin {o : Option Instr} {d e : CpDesk} (m : CpMove d o e) (h : d.cp.LawfulPin) : e.cp.LawfulPin := by
  cases m with
  | frontError => exact CpChange.lawfulPin (.linkError _) h
  | driveError => exact CpChange.lawfulPin (.linkError _) h
  | storeState x rest _ => exact h.congr rfl
  | motion n rest _ => exact h.congr rfl
  | ext n rest _ => exact h.congr rfl
  | capture n rest _ => exact h.congr rfl
  | event b e rest _ => simp only [Cp.takeEvent_eq_told]; exact h.told _ _ _
  | reply b r rest _ => exact CpChange.lawfulPin (.answer r) h
  | transmitted =>
    unfold CpDesk.finishReport
    split
    · simp only [Cp.startTransmission_eq_begun]; exact h.congr rfl
    · exact h
  | sample x rest _ =>
    simp only [Cp.takeSample_eq_ite]
    split <;> exact h.congr rfl

end Sys2Proof.Machine
end

