-- ==== Sys2Proof/Proofs/PauseAndDriveLaws.lean ====
section
/-! MS is PAUSED exactly while a pause cause is left (section 4.4), and the Drive Port keeps its bounds (R92): each operation of MS
that enters a state enters it with the pause causes that fit it. -/

namespace Sys2Proof.Machine

/-- MS with the Drive Port: the pause causes fit the state, and the Drive Port is within its bounds. -/
structure MsDesk.Sound (d : MsDesk) : Prop where
  pause : d.ms.LawfulPause
  drive : d.drive.Lawful

/-- What it speaks of. -/
def MsDesk.soundItems (d : MsDesk) : MotionState × PauseCauses × DrivePort := (d.ms.state, d.ms.pauses, d.drive)

theorem MsDesk.Sound.congr {d e : MsDesk} (h : d.Sound) (items : e.soundItems = d.soundItems) : e.Sound := by
  simp only [MsDesk.soundItems, Prod.mk.injEq] at items
  obtain ⟨state, pauses, drive⟩ := items
  exact ⟨by simpa only [Ms.LawfulPause, state, pauses] using h.pause, drive ▸ h.drive⟩

theorem MsDesk.Sound.no_pauses {d : MsDesk} (h : d.Sound) (state : d.ms.state ≠ .paused) : d.ms.pauses = .empty :=
  Classical.by_contradiction fun pauses => state (h.pause.2 pauses)

/-! ## What leaves state, causes and Drive Port -/

section
variable (d : MsDesk)

@[simp] theorem MsDesk.endSegment_soundItems (c : EndCause) : (d.endSegment c).soundItems = d.soundItems := by
  unfold MsDesk.endSegment
  split
  · split <;> rfl
  · rfl

@[simp] theorem MsDesk.startSegment_soundItems (i : Nat) : (d.startSegment i).soundItems = d.soundItems := by
  unfold MsDesk.startSegment
  split
  · simp only [Ms.startRates_eq_started]
    split <;> rfl
  · rfl

@[simp] theorem MsDesk.answerArm_soundItems (st : Status) (p : Payload) : (d.answerArm st p).soundItems = d.soundItems := by
  unfold MsDesk.answerArm
  split <;> rfl

end

/-! ## Entering a state -/

theorem MsDesk.enter_soundItems (d : MsDesk) (t : MotionTag) (c : Cause) :
    (d.enter t c).soundItems = ((d.ms.enter t c).state, (d.ms.enter t c).pauses, d.drive.enter t) := by
  unfold MsDesk.enter
  simp only
  split <;> rfl

theorem Ms.enter_state (m : Ms) (t : MotionTag) (c : Cause) : (m.enter t c).state = t.state := by
  cases t with
  | idle byResetTest => cases byResetTest <;> rfl
  | _ => rfl

theorem DrivePort.Lawful.enter {p : DrivePort} (h : p.Lawful) (t : MotionTag) : (p.enter t).Lawful := by
  cases t with
  | idle _ => exact ⟨h.1, Nat.zero_le _⟩
  | _ => exact h

/-- IDLE, STOPPED and FAULTED clear the pause causes. -/
def MotionTag.clearsPauses : MotionTag → Bool
  | .idle _ => true
  | .stopped _ => true
  | .faulted _ => true
  | _ => false

theorem Ms.enter_pauses (m : Ms) (t : MotionTag) (c : Cause) :
    (m.enter t c).pauses = if t.clearsPauses then .empty else m.pauses := by
  cases t with
  | idle byResetTest => cases byResetTest <;> rfl
  | _ => rfl

/-- MS enters a state with causes that fit it. -/
theorem MsDesk.enter_sound {d : MsDesk} (t : MotionTag) (c : Cause) (drive : d.drive.Lawful)
    (fit : t.clearsPauses = true ∨ (t.state = .paused ↔ d.ms.pauses ≠ .empty)) : (d.enter t c).Sound := by
  have items := d.enter_soundItems t c
  simp only [MsDesk.soundItems, Prod.mk.injEq, Ms.enter_state, Ms.enter_pauses] at items
  obtain ⟨state, pauses, port⟩ := items
  refine ⟨?_, port ▸ drive.enter t⟩
  rw [Ms.LawfulPause, state, pauses]
  rcases fit with clears | fit
  · rw [if_pos clears]
    cases t <;> simp_all [MotionTag.clearsPauses, MotionTag.state]
  · split
    · next clears => cases t <;> simp_all [MotionTag.clearsPauses, MotionTag.state]
    · exact fit

theorem MsDesk.enter_sound_of_clears {d : MsDesk} {t : MotionTag} (c : Cause) (drive : d.drive.Lawful)
    (clears : t.clearsPauses = true) : (d.enter t c).Sound := MsDesk.enter_sound t c drive (.inl clears)

/-- A state other than PAUSED is entered with no cause left. -/
theorem MsDesk.enter_sound_of_empty {d : MsDesk} {t : MotionTag} (c : Cause) (drive : d.drive.Lawful)
    (state : t.state ≠ .paused) (pauses : d.ms.pauses = .empty) : (d.enter t c).Sound :=
  MsDesk.enter_sound t c drive (.inr ⟨fun h => absurd h state, fun h => absurd pauses h⟩)

theorem MsDesk.enterStopped_sound {d : MsDesk} (c : Cause) (drive : d.drive.Lawful) : (d.enterStopped c).Sound :=
  MsDesk.enter_sound_of_clears c drive rfl

theorem MsDesk.enterFaulted_sound {d : MsDesk} (c : Cause) (drive : d.drive.Lawful) : (d.enterFaulted c).Sound :=
  MsDesk.enter_sound_of_clears c drive rfl

theorem MsDesk.drive_of_items {d e : MsDesk} (h : d.drive.Lawful) (items : e.soundItems = d.soundItems) : e.drive.Lawful := by
  have same : e.drive = d.drive := congrArg (fun i => i.2.2) items
  rwa [same]

/-! ## Criteria, pauses and returns -/

theorem MsDesk.Sound.criterionMet {d : MsDesk} (h : d.Sound) : d.criterionMet.Sound := by
  unfold MsDesk.criterionMet
  split
  · exact h
  · simp only
    split
    · exact h.congr ((MsDesk.startSegment_soundItems _ _).trans (MsDesk.endSegment_soundItems _ _))
    · exact MsDesk.enterStopped_sound _ (MsDesk.drive_of_items h.drive (MsDesk.endSegment_soundItems _ _))

theorem MsDesk.Sound.criterionEvent {d : MsDesk} (h : d.Sound) (e : CriterionEvent) : (d.criterionEvent e).Sound := by
  have marked : MsDesk.Sound { d with ms := d.ms.mark e } := h.congr (by cases e <;> rfl)
  unfold MsDesk.criterionEvent
  split
  · simp only
    split
    · split
      · split
        · exact marked.criterionMet
        · split
          · exact marked.congr rfl
          · exact marked
      · exact marked
    · exact marked
  · exact h

theorem MsDesk.Sound.applyPending {d : MsDesk} (h : d.Sound) : d.applyPending.Sound := by
  unfold MsDesk.applyPending
  split
  · exact h
  · exact MsDesk.Sound.criterionMet (h.congr rfl)

/-- From PAUSED with causes removed, MS stays PAUSED or returns to RUNNING with none left. -/
theorem MsDesk.resumeIfFree_sound {d : MsDesk} (drive : d.drive.Lawful) (h : d.ms.state = .paused ∨ d.Sound) :
    d.resumeIfFree.Sound := by
  unfold MsDesk.resumeIfFree
  split
  · next free => exact (MsDesk.enter_sound_of_empty _ drive (by decide) free.2).applyPending
  · next left =>
    rcases h with paused | sound
    · exact ⟨⟨fun _ empty => left ⟨paused, empty⟩, fun _ => paused⟩, drive⟩
    · exact sound

/-- With a cause added in RUNNING or PAUSED, MS is PAUSED. -/
theorem MsDesk.pauseIfRunning_sound {d : MsDesk} (drive : d.drive.Lawful) (state : d.ms.state = .running ∨ d.ms.state = .paused)
    (pauses : d.ms.pauses ≠ .empty) : d.pauseIfRunning.Sound := by
  unfold MsDesk.pauseIfRunning
  split
  · exact MsDesk.enter_sound .paused _ drive (.inr ⟨fun _ => pauses, fun _ => rfl⟩)
  · next notRunning => exact ⟨⟨fun _ => pauses, fun _ => state.resolve_left notRunning⟩, drive⟩

theorem MsDesk.Sound.crossheadSample {d : MsDesk} (h : d.Sound) (i : Nat) (g : Segment) (x : Sample)
    (running : d.ms.state = .running) : (d.crossheadSample i g x).Sound := by
  unfold MsDesk.crossheadSample
  split
  · simp only
    split <;> exact h.congr rfl
  · exact (MsDesk.pauseIfRunning_sound (d := { d with ms := { d.ms with
      continuation := some .equivalent, continuationRate := some (equivalentRate d.ms.rateInUse d.ms.lp),
      pauses := { d.ms.pauses with extFailed := true } } }) h.drive (.inl running)
      (by simp [PauseCauses.empty])).congr rfl

/-! ## Samples -/

theorem MsDesk.Sound.setDemand {d : MsDesk} (h : d.Sound) (x : Sample) (r : Int × Option Int) : (d.setDemand x r).Sound := by
  unfold MsDesk.setDemand
  simp only
  split
  · exact h.congr rfl
  · split
    · exact MsDesk.enterStopped_sound _ (MsDesk.drive_of_items h.drive (MsDesk.endSegment_soundItems _ _))
    · exact MsDesk.enter_sound_of_clears _ h.drive rfl

theorem MsDesk.Sound.runSample {d : MsDesk} (h : d.Sound) (x : Sample) : (d.runSample x).Sound := by
  have criterion {d : MsDesk} (h : d.Sound) : (d.testCriterion x).Sound := by
    unfold MsDesk.testCriterion
    split
    · split
      · exact h.criterionMet
      · exact h
    · exact h
  have source {d : MsDesk} (h : d.Sound) : (d.checkSource x).Sound := by
    unfold MsDesk.checkSource
    split
    · split
      · next cross => exact h.crossheadSample _ _ x cross.1
      · exact h
    · exact h
  have move {d : MsDesk} (h : d.Sound) : (d.moveDemand x).Sound := by
    unfold MsDesk.moveDemand
    split
    · split
      · refine MsDesk.Sound.setDemand ?_ x _
        exact h.congr rfl
      · exact h
    · exact h
  refine move (source (criterion ?_))
  exact h.congr rfl

theorem MsDesk.Sound.jogSample {d : MsDesk} (h : d.Sound) (x : Sample) : (d.jogSample x).Sound := by
  unfold MsDesk.jogSample
  split
  · exact (MsDesk.enter_sound_of_clears _ h.drive rfl).congr rfl
  · split
    · simp only
      split
      · exact h.congr rfl
      · have entered : (MsDesk.enter { d with ms := { d.ms with demand := x.position * q32, jogEnabling := false } }
            (.idle false) .travelLimit).Sound := MsDesk.enter_sound_of_clears _ h.drive rfl
        exact entered.congr rfl
    · exact h.setDemand x _

theorem MsDesk.Sound.armingSample {d : MsDesk} (h : d.Sound) (x : Sample) (arming : d.ms.state = .arming) :
    (d.armingSample x).Sound := by
  have entered : (MsDesk.enter { d with ms := { d.ms with demand := x.position * q32 } } .armed .none).Sound :=
    MsDesk.enter_sound_of_empty _ h.drive (by decide) (h.no_pauses (by simp [arming]))
  unfold MsDesk.armingSample MsDesk.completeArming
  split
  · simp only
    split
    · exact entered.congr (MsDesk.answerArm_soundItems _ _ _)
    · exact MsDesk.Sound.congr (d := MsDesk.enterFaulted _ _)
        (MsDesk.enterFaulted_sound _ (MsDesk.drive_of_items entered.drive (MsDesk.answerArm_soundItems _ _ _))) rfl
  · exact h

theorem MsDesk.Sound.actsOnSample {d : MsDesk} (h : d.Sound) (x : Sample) : (d.actsOnSample x).Sound := by
  unfold MsDesk.actsOnSample
  split
  · exact h.runSample x
  · exact h.jogSample x
  · next arming => exact h.armingSample x arming
  · exact h
  · exact h
  · exact h
  · exact h
  · exact h

/-- The Drive Frame of a sample keeps the history at eight frames, and the count at eight. -/
theorem MsDesk.Sound.sendFrame {d : MsDesk} (h : d.Sound) (x : Sample) : (d.sendFrame x).Sound := by
  refine ⟨h.pause, ?_, ?_⟩
  · have history := h.drive.1
    simp only [MsDesk.sendFrame, MsDesk.noticeAlways, pushHistory, Config.unansweredLimit]
    by_cases room : d.drive.history.length < 8 <;> simp [room] <;> omega
  · have count := h.drive.2
    simp only [MsDesk.sendFrame, MsDesk.noticeAlways, countAfter, Config.unansweredLimit]
    split <;> omega

theorem MsDesk.Sound.takeSample {d : MsDesk} (h : d.Sound) (x : Sample) : (d.takeSample x).Sound := by
  rw [MsDesk.takeSample_eq]
  refine MsDesk.Sound.sendFrame (MsDesk.Sound.actsOnSample ?_ x) x
  exact h.congr rfl

/-! ## Requests and messages -/

theorem MsDesk.Sound.fault {d : MsDesk} (h : d.Sound) (c : Cause) : (d.fault c).Sound := by
  unfold MsDesk.fault
  refine MsDesk.Sound.congr (MsDesk.enterFaulted_sound c ?_) (MsDesk.answerArm_soundItems _ _ _)
  split
  · exact MsDesk.drive_of_items h.drive (MsDesk.endSegment_soundItems _ _)
  · exact h.drive

/-- A test that MS stops. -/
theorem MsDesk.Sound.stops {d : MsDesk} (h : d.Sound) (e : EndCause) (c : Cause) : ((d.endSegment e).enterStopped c).Sound :=
  MsDesk.enterStopped_sound c (MsDesk.drive_of_items h.drive (MsDesk.endSegment_soundItems _ _))

theorem MsDesk.Sound.acceptArm {d : MsDesk} (h : d.Sound) (tag : Tag) (p : Program) : (d.acceptArm tag p).Sound := by
  have entered : (MsDesk.enter { d with ms := { d.ms with
      armingCount := d.ms.armingCount + 1, armReply := some tag, cursor := some { index := 0, phase := .notStarted },
      pauses := .empty, pendingTransition := none } } (.arming (d.ms.armingCount + 1)) .none).Sound :=
    MsDesk.enter_sound_of_empty _ h.drive (by simp [MotionTag.state]) rfl
  exact entered.congr rfl

theorem MsDesk.Sound.takeStatus {d : MsDesk} (h : d.Sound) (st : DriveStatus) : (d.takeStatus st).Sound := by
  refine ⟨h.pause, h.drive.1, ?_⟩
  simp only [MsDesk.takeStatus]
  split
  · omega
  · exact h.drive.2

theorem MsMove.sound {o : Option Instr} {d e : MsDesk} (m : MsMove d o e) (h : d.Sound) : e.Sound := by
  cases m with
  | readback tag pointer count => exact h.congr rfl
  | program tag l =>
    unfold MsDesk.takeProgram
    split
    · exact h.congr rfl
    · split
      · exact h.congr rfl
      · split <;> exact h.congr rfl
  | calLoad tag l => unfold MsDesk.takeCalLoad; split <;> exact h.congr rfl
  | evalLoad tag l => unfold MsDesk.takeEvalLoad; split <;> exact h.congr rfl
  | store tag => unfold MsDesk.takeStore; split <;> exact h.congr rfl
  | arm tag =>
    unfold MsDesk.takeArm
    split
    · exact h.congr rfl
    · exact h.acceptArm tag _
    · exact h
  | start tag =>
    unfold MsDesk.takeStart
    split
    · have entered : (MsDesk.enter { d with ms := { d.ms with
          yieldMark := false, proofMark := false, releasedMark := false, pendingTransition := none, pauses := .empty } }
          .running .none).Sound := MsDesk.enter_sound_of_empty _ h.drive (by decide) rfl
      exact MsDesk.Sound.congr (entered.congr (MsDesk.startSegment_soundItems _ 0)) rfl
    · exact h.congr rfl
    · exact h.congr rfl
  | stop tag =>
    unfold MsDesk.takeStop
    split
    · exact (h.stops _ _).congr rfl
    · exact h.congr rfl
  | abort tag =>
    refine MsDesk.Sound.congr (d := if d.ms.state = .faulted then d else d.fault .consoleAbort) ?_ rfl
    split
    · exact h
    · exact h.fault _
  | resetTest tag =>
    unfold MsDesk.takeResetTest
    split
    · have entered : (d.enter (.idle true) .none).Sound := MsDesk.enter_sound_of_clears _ h.drive rfl
      exact MsDesk.Sound.congr (entered.congr (MsDesk.answerArm_soundItems _ _ _)) rfl
    · exact h.congr rfl
  | pause tag =>
    unfold MsDesk.takePause
    split
    · next testing =>
      exact (MsDesk.pauseIfRunning_sound (d := { d with ms := { d.ms with pauses := { d.ms.pauses with console := true } } })
        h.drive (d.ms.testing_iff.1 testing) (by simp [PauseCauses.empty])).congr rfl
    · exact h.congr rfl
  | resume tag =>
    unfold MsDesk.takeResume
    split
    · next paused =>
      exact (MsDesk.resumeIfFree_sound
        (d := { d with ms := { d.ms with pauses := { d.ms.pauses with console := false, extFailed := false } } })
        h.drive (.inl paused)).congr rfl
    · exact h.congr rfl
  | jog tag rate =>
    unfold MsDesk.takeJog
    simp only
    split
    · next idle =>
      split
      · exact h.congr rfl
      · have entered : (MsDesk.enter { d with ms := { d.ms with
            jogRate := saturate (-d.ms.vMax) d.ms.vMax rate, jogEnabling := true } } .jogging .none).Sound :=
          MsDesk.enter_sound_of_empty _ h.drive (by decide) (h.no_pauses (by simp [idle]))
        exact entered.congr rfl
    · exact h.congr rfl
    · exact h.congr rfl
  | jogStop tag =>
    unfold MsDesk.takeJogStop
    split
    · have entered : (MsDesk.enter { d with ms := { d.ms with jogRate := 0 } } (.idle false) .jogStop).Sound :=
        MsDesk.enter_sound_of_clears _ h.drive rfl
      exact entered.congr rfl
    · exact h.congr rfl
  | status st => exact h.takeStatus st
  | outcome b => cases b <;> simp only [MsDesk.takeOutcome] <;> split <;> exact h.congr rfl
  | summary => unfold MsDesk.takeSummary; split <;> exact h.congr rfl
  | fault b k rest _ =>
    unfold MsDesk.takeFault
    split
    · refine MsDesk.Sound.fault ?_ _
      exact h.congr rfl
    · exact h.congr rfl
  | criterion e x rest _ =>
    refine MsDesk.Sound.criterionEvent ?_ e
    exact h.congr rfl
  | hold _ =>
    unfold MsDesk.takeHold
    split
    · next testing =>
      exact MsDesk.pauseIfRunning_sound (d := { d with
        ms := { d.ms with pauses := { d.ms.pauses with extRemoval := true } }
        paths := { d.paths with holds := d.paths.holds - 1 } })
        h.drive (d.ms.testing_iff.1 testing) (by simp [PauseCauses.empty])
    · exact h.congr rfl
  | removed rest _ =>
    unfold MsDesk.takeRemovalComplete
    split
    · have released : (MsDesk.criterionEvent { d with paths := { d.paths with removals := rest } } .released).Sound := by
        refine MsDesk.Sound.criterionEvent ?_ .released
        exact h.congr rfl
      generalize MsDesk.criterionEvent _ _ = e at released ⊢
      refine MsDesk.resumeIfFree_sound released.drive ?_
      by_cases paused : e.ms.state = .paused
      · exact .inl paused
      · have empty := released.no_pauses paused
        refine .inr (released.congr ?_)
        simp only [MsDesk.soundItems, empty]
        rfl
    · exact h.congr rfl
  | timeout rest _ =>
    unfold MsDesk.takeRemovalTimeout
    split
    · refine MsDesk.Sound.stops ?_ _ _
      exact h.congr rfl
    · exact h.congr rfl
  | brk n rest _ =>
    unfold MsDesk.takeBreak
    split
    · refine MsDesk.Sound.stops ?_ _ _
      exact h.congr rfl
    · exact h.congr rfl
  | extTag t rest _ => exact h.congr rfl

end Sys2Proof.Machine
end

