-- ==== Sys2Proof/Proofs/BlockLaws.lean ====
section
/-! The invariants of MC's zeros (R16, R18, R19, R21, R22) and of CR's post count (R147 to R149), and the invariants of all blocks
together. -/

namespace Sys2Proof.Machine

/-! ## Zeros -/

theorem restored_crosshead (f : Option Fitted) : (restored f).crosshead = true := by
  rcases f with _ | f
  · rfl
  · cases f <;> rfl

theorem Permitted.foldl_drop_crosshead (l : List ArmId) (p : Permitted) : (l.foldl Permitted.drop p).crosshead = p.crosshead := by
  induction l generalizing p with
  | nil => rfl
  | cons i l ih => exact (ih _).trans (by cases i <;> rfl)

theorem Mc.choose_crosshead {m : Mc} (f : SampleFrame) (raw : RawStrains) (h : m.permitted.crosshead = true) :
    (m.choose f raw).permitted.crosshead = true := by
  have now : m.permittedNow.crosshead = true := by
    unfold Mc.permittedNow
    split
    · exact restored_crosshead _
    · rw [Permitted.foldl_drop_crosshead, h]
  unfold Mc.choose
  simp only
  split
  · split
    · exact now
    · simp only
      split <;> exact now
  · exact now

theorem Mc.LawfulZeros.takeZero {d : McDesk} (h : d.mc.LawfulZeros) (k : RequestKind) (tag : Tag) (pend : Mc → Mc)
    (kept : (pend d.mc).armingZeros = d.mc.armingZeros ∧ (pend d.mc).tag = d.mc.tag ∧ (pend d.mc).source = d.mc.source ∧
      (pend d.mc).last = d.mc.last ∧ (pend d.mc).permitted = d.mc.permitted) : (d.takeZero k tag pend).mc.LawfulZeros := by
  obtain ⟨zeros, tag', source, last, permitted⟩ := kept
  obtain ⟨pending, arming, current, crosshead⟩ := h
  unfold McDesk.takeZero
  split
  · next takes =>
    have state : d.mc.tag.state = .idle ∨ d.mc.tag.state = .armed := by simpa [Mc.takesZero] using takes
    refine ⟨fun _ => by rwa [tag'], ?_, ?_, ?_⟩
    · simpa only [zeros, tag'] using arming
    · simpa only [source, last] using current
    · simpa only [permitted] using crosshead
  · exact ⟨pending, arming, current, crosshead⟩

theorem McDesk.takeTag_lawfulZeros {d : McDesk} (t : MotionTag) (h : d.mc.LawfulZeros) : (d.takeTag t).mc.LawfulZeros := by
  obtain ⟨-, -, current, crosshead⟩ := h
  have arming : ∀ n ∈ armingZerosOn t, t = .arming n := by
    intro n hn
    cases t <;> simp_all [armingZerosOn]
  unfold McDesk.takeTag
  simp only
  split
  · next keeps =>
    split
    · exact ⟨fun _ => keeps, arming, current, restored_crosshead _⟩
    · exact ⟨fun _ => keeps, arming, current, crosshead⟩
  · have none (m : Mc) : ¬ (m.cancelZeros.pendTare ≠ [] ∨ m.cancelZeros.pendZeroExt ≠ [] ∨ m.cancelZeros.pendZeroPosition ≠ []) := by
      simp [Mc.cancelZeros]
    split
    · exact ⟨fun pend => absurd pend (none _), arming, current, restored_crosshead _⟩
    · exact ⟨fun pend => absurd pend (none _), arming, current, crosshead⟩

theorem McMove.lawfulZeros {o : Option Instr} {d e : McDesk} (m : McMove d o e) (h : d.mc.LawfulZeros) : e.mc.LawfulZeros := by
  cases m with
  | reply r => exact h
  | tare tag => exact h.takeZero _ _ _ ⟨rfl, rfl, rfl, rfl, rfl⟩
  | zeroExt tag => exact h.takeZero _ _ _ ⟨rfl, rfl, rfl, rfl, rfl⟩
  | zeroPosition tag => exact h.takeZero _ _ _ ⟨rfl, rfl, rfl, rfl, rfl⟩
  | convert g rest _ =>
    exact ⟨by simp [McDesk.convert], by simp [McDesk.convert], rfl, Mc.choose_crosshead g.frame _ h.2.2.2⟩
  | tag t rest _ => exact McDesk.takeTag_lawfulZeros t h
  | load _ tag l rest _ =>
    unfold McDesk.takeLoad
    split
    · exact h
    · split <;> exact h
  | notice g p rest _ => exact h
  | dropArm x rest _ => exact h
  | storeDone _ => exact h

/-! ## The post count -/

theorem Cr.LawfulPost.congr {c c' : Cr} (h : c.LawfulPost) (post : c'.post = c.post) (remaining : c'.remaining = c.remaining)
    (state : c'.state = c.state ∨ c'.state ≠ .post) : c'.LawfulPost := by
  obtain ⟨bound, left, counts⟩ := h
  refine ⟨post ▸ bound, remaining ▸ left, fun h => ?_⟩
  rw [remaining]
  exact counts ((state.resolve_right (not_not_intro h)) ▸ h)

theorem CrDesk.trigger_lawfulPost {d : CrDesk} (t : Trigger) (h : d.cr.LawfulPost) : (d.trigger t).cr.LawfulPost := by
  obtain ⟨bound, -, -⟩ := h
  unfold CrDesk.trigger
  simp only
  split
  · next zero => exact ⟨bound, bound, fun post => RingState.noConfusion post⟩
  · next some_left => exact ⟨bound, bound, fun _ => Nat.pos_of_ne_zero some_left⟩

theorem Cr.restart_lawfulPost {c : Cr} (h : c.post ≤ 4095) : c.restart.LawfulPost := by
  refine ⟨h, Nat.zero_le _, fun post => ?_⟩
  simp only [Cr.restart] at post
  split at post <;> cases post

theorem CrMove.lawfulPost {o : Option Instr} {d e : CrDesk} (m : CrMove d o e) (h : d.cr.LawfulPost) : e.cr.LawfulPost := by
  cases m with
  | set tag enable post mask =>
    exact Cr.restart_lawfulPost (c := { d.cr with enable := enable, post := min 4095 post, mask := mask })
      (Nat.min_le_left _ _)
  | consoleTrigger tag =>
    unfold CrDesk.takeConsoleTrigger
    split
    · split
      · exact CrDesk.trigger_lawfulPost _ h
      · exact h
    · exact h
  | drain tag count =>
    unfold CrDesk.takeDrain
    split
    · split
      · exact h
      · exact h.congr rfl rfl (.inl rfl)
    · exact h
  | rearm tag => exact Cr.restart_lawfulPost h.1
  | sample x rest _ =>
    unfold CrDesk.takeSample
    split
    · exact h
    · exact h
    · exact h.congr rfl rfl (.inl rfl)
    · obtain ⟨bound, left, -⟩ := h
      simp only
      split
      · exact ⟨bound, (Nat.sub_le _ _).trans left, fun post => RingState.noConfusion post⟩
      · next some_left => exact ⟨bound, (Nat.sub_le _ _).trans left, fun _ => Nat.pos_of_ne_zero some_left⟩
  | trigger b t rest _ =>
    unfold CrDesk.takeTrigger
    split
    · exact CrDesk.trigger_lawfulPost t h
    · exact h

/-! ## All blocks -/

theorem State.Act.blocksLawful {o : Option Instr} {s t : State} (h : s.Act o t) (hs : s.BlocksLawful) : t.BlocksLawful := by
  obtain ⟨hold, fit, pin, pause, zeros, drive, post⟩ := hs
  have sound : s.msDesk.Sound := ⟨pause, drive⟩
  have te : t.te.LawfulHold ∧ t.te.LawfulFit := by
    rcases h.te_or with same | ⟨d, move, hd⟩
    · rw [same]; exact ⟨hold, fit⟩
    · rw [hd]; exact ⟨move.lawfulHold hold, move.lawfulFit fit⟩
  have cp : t.cp.LawfulPin := by
    rcases h.cp_or with same | change | ⟨d, move, hd⟩
    · rw [same]; exact pin
    · exact change.lawfulPin pin
    · rw [hd]; exact move.lawfulPin pin
  have mc : t.mc.LawfulZeros := by
    rcases h.mc_or with same | ⟨d, move, hd⟩ | ⟨d, move, hd⟩
    · rw [same]; exact zeros
    · rw [hd]; exact move.lawfulZeros zeros
    · obtain ⟨cal, i, inFlight, stored⟩ := move.mc_eq
      rw [hd, stored]; exact zeros
  have cr : t.cr.LawfulPost := by
    rcases h.cr_or with same | ⟨d, move, hd⟩
    · rw [same]; exact post
    · rw [hd]; exact move.lawfulPost post
  have ms : t.msDesk.Sound := by
    cases h with
    | ms d h =>
      have after := h.sound sound
      obtain ⟨own, port⟩ := d.notice_own (.of s.ms s.drive)
      exact after.congr (by simp only [MsDesk.soundItems, State.msDesk, State.onMs, State.putMs, own, port])
    | msSample x rest _ =>
      have after : (MsDesk.takeSample { s.msDesk with paths := { s.paths with samplesMs := rest } } x).Sound := by
        refine MsDesk.Sound.takeSample ?_ x
        exact sound.congr rfl
      exact after.congr rfl
    | _ => exact sound.congr rfl
  exact ⟨te.1, te.2, cp, ms.pause, mc, ms.drive, cr⟩

theorem State.reset_blocksLawful : State.reset.BlocksLawful := by
  refine ⟨?_, ?_, ?_, ?_, ?_, ?_, ?_⟩
  · exact ⟨by decide, fun _ => rfl⟩
  · exact ⟨fun _ => rfl, nofun, fun _ => rfl⟩
  · exact ⟨fun _ => ⟨by decide, rfl⟩, fun _ => by decide⟩
  · exact ⟨nofun, fun h => absurd rfl h⟩
  · exact ⟨fun _ => .inl rfl, by decide, rfl, rfl⟩
  · exact ⟨by decide, by decide⟩
  · exact ⟨by decide, by decide, fun h => RingState.noConfusion h⟩

end Sys2Proof.Machine

open Sys2Proof Sys2Proof.Machine

/-- Settles O13: each block's moves keep its own invariant, and no other block touches it (`State.Act.blocksLawful`). -/
theorem stepKeepsBlocksLawful : Obligations.StepKeepsBlocksLawful := by
  intro s t hs h
  refine step_keeps (P := State.BlocksLawful) (fun _ _ h => h) (fun s => ?_) (fun _ _ _ act => act.blocksLawful) hs h
  exact State.reset_blocksLawful
end

