-- ==== Sys2Proof/Proofs/DemandLaw.lean ====
section
/-! The law of bounded demand (R82) and the law of travel (R87): only stage 4 of a sample and the jog step form a new demand, from a
bounded increment, cut at the travel bounds. -/

namespace Sys2Proof.Machine

/-! ## The arithmetic of one step -/

theorem roundDiv_nonneg {a b : Int} (ha : 0 ≤ a) (hb : 0 ≤ b) : 0 ≤ roundDiv a b := by
  unfold roundDiv
  rw [if_pos (by rw [decide_eq_false (not_lt.2 ha), decide_eq_false (not_lt.2 hb)])]
  exact Int.natCast_nonneg _

theorem maxStep_nonneg {vMax : Int} (p : Period) (h : 0 ≤ vMax) : 0 ≤ maxStep vMax p :=
  roundDiv_nonneg (by simp only [q32]; omega) (by cases p <;> decide)

/-- The increment within the step bound is at most g × max_q (R82). -/
theorem boundStep_natAbs_le {vMax : Int} (p : Period) (g : Nat) (delta : Int) (h : 0 ≤ vMax) :
    ((boundStep vMax p g delta).natAbs : Int) ≤ g * maxStep vMax p := by
  have bound : 0 ≤ g * maxStep vMax p := Int.mul_nonneg (Int.natCast_nonneg g) (maxStep_nonneg p h)
  simp only [boundStep, saturate]
  omega

/-- From a demand within travel, a step of at most `bound` cut at the travel bounds is a step of at most `bound` that stays
within travel (R87). -/
theorem applyTravel_within {f : FrameTable} {demand delta bound : Int} (order : f.travelMin ≤ f.travelMax)
    (low : f.travelMin * q32 ≤ demand) (high : demand ≤ f.travelMax * q32) (step : (delta.natAbs : Int) ≤ bound) :
    (((applyTravel (some f) (demand + delta)).1 - demand).natAbs : Int) ≤ bound ∧
      f.travelMin * q32 ≤ (applyTravel (some f) (demand + delta)).1 ∧
      (applyTravel (some f) (demand + delta)).1 ≤ f.travelMax * q32 := by
  simp only [applyTravel, travelBound]
  by_cases below : demand + delta < f.travelMin * q32
  · rw [if_pos below]
    simp only [q32] at *
    omega
  · rw [if_neg below]
    by_cases above : f.travelMax * q32 < demand + delta
    · rw [if_pos above]
      simp only [q32] at *
      omega
    · rw [if_neg above]
      simp only [q32] at *
      omega

/-! ## What leaves the demand -/

/-- The demand of MS, and the calibration summary that bounds it. -/
def MsDesk.demandItems (d : MsDesk) : Int × CalSummary := (d.ms.demand, d.ms.summary)

section
variable (d : MsDesk)

@[simp] theorem MsDesk.enter_demandItems (t : MotionTag) (c : Cause) : (d.enter t c).demandItems = d.demandItems := by
  have own : ((d.ms.enter t c).demand, (d.ms.enter t c).summary) = d.demandItems := by
    cases t with
    | idle byResetTest => cases byResetTest <;> rfl
    | _ => rfl
  unfold MsDesk.enter
  simp only
  split <;> exact own

@[simp] theorem MsDesk.endSegment_demandItems (c : EndCause) : (d.endSegment c).demandItems = d.demandItems := by
  unfold MsDesk.endSegment
  split
  · split <;> rfl
  · rfl

@[simp] theorem MsDesk.startSegment_demandItems (i : Nat) : (d.startSegment i).demandItems = d.demandItems := by
  unfold MsDesk.startSegment
  split
  · simp only [Ms.startRates_eq_started]
    split <;> rfl
  · rfl

@[simp] theorem MsDesk.criterionMet_demandItems : d.criterionMet.demandItems = d.demandItems := by
  unfold MsDesk.criterionMet
  split
  · rfl
  · simp only
    split
    · exact (MsDesk.startSegment_demandItems _ _).trans (d.endSegment_demandItems _)
    · exact (MsDesk.enter_demandItems _ _ _).trans (d.endSegment_demandItems _)

@[simp] theorem MsDesk.testCriterion_demandItems (x : Sample) : (d.testCriterion x).demandItems = d.demandItems := by
  unfold MsDesk.testCriterion
  split
  · split
    · exact d.criterionMet_demandItems
    · rfl
  · rfl

@[simp] theorem MsDesk.checkSource_demandItems (x : Sample) : (d.checkSource x).demandItems = d.demandItems := by
  have event (d : MsDesk) (e : Event) : (d.event e).demandItems = d.demandItems := rfl
  unfold MsDesk.checkSource
  split
  · split
    · unfold MsDesk.crossheadSample
      split
      · simp only
        split <;> rfl
      · simp only [event]
        unfold MsDesk.pauseIfRunning
        split
        · exact MsDesk.enter_demandItems _ _ _
        · rfl
    · rfl
  · rfl

end

/-! ## What forms a demand -/

/-- The demand of `e` is at most `bound` from that of `d`, and within travel. -/
def MsDesk.DemandWithin (d : MsDesk) (f : FrameTable) (bound : Int) (e : MsDesk) : Prop :=
  ((e.ms.demand - d.ms.demand).natAbs : Int) ≤ bound ∧ f.travelMin * q32 ≤ e.ms.demand ∧ e.ms.demand ≤ f.travelMax * q32

theorem MsDesk.DemandWithin.congr {d d' e e' : MsDesk} {f : FrameTable} {bound : Int} (h : d.DemandWithin f bound e)
    (before : d'.demandItems = d.demandItems) (after : e'.demandItems = e.demandItems) : d'.DemandWithin f bound e' := by
  simp only [MsDesk.demandItems, Prod.mk.injEq] at before after
  unfold MsDesk.DemandWithin
  rw [before.1, after.1]
  exact h

@[simp] theorem MsDesk.setDemand_demandItems (d : MsDesk) (x : Sample) (r : Int × Option Int) :
    (d.setDemand x r).demandItems = (r.1, d.ms.summary) := by
  have travel (d : MsDesk) (b : Int) (st : MotionState) : (d.reportTravel b x st).demandItems = d.demandItems := rfl
  unfold MsDesk.setDemand
  simp only
  split
  · rfl
  · split
    · simp only [MsDesk.enterStopped, enter_demandItems, endSegment_demandItems, travel]
      rfl
    · simp only [enter_demandItems, travel]
      rfl

/-- A desk whose calibration summary has a Frame Table in order, and whose demand is within travel. -/
structure MsDesk.InTravel (d : MsDesk) (f : FrameTable) : Prop where
  frame : d.ms.summary.frame = some f
  order : f.travelMin ≤ f.travelMax
  rate : 0 ≤ f.vMax
  low : f.travelMin * q32 ≤ d.ms.demand
  high : d.ms.demand ≤ f.travelMax * q32

section
variable {d : MsDesk} {f : FrameTable}

theorem MsDesk.InTravel.congr {e : MsDesk} (h : d.InTravel f) (items : e.demandItems = d.demandItems) : e.InTravel f := by
  simp only [MsDesk.demandItems, Prod.mk.injEq] at items
  obtain ⟨demand, summary⟩ := items
  exact ⟨summary ▸ h.frame, h.order, h.rate, demand ▸ h.low, demand ▸ h.high⟩

/-- A desk that is left as it is keeps its demand. -/
theorem MsDesk.InTravel.unmoved (h : d.InTravel f) (x : Sample) : d.DemandWithin f (x.gap * maxStep f.vMax x.period) d := by
  refine ⟨?_, h.low, h.high⟩
  have bound : 0 ≤ x.gap * maxStep f.vMax x.period := Int.mul_nonneg (Int.natCast_nonneg _) (maxStep_nonneg _ h.rate)
  simpa using bound

/-- Steps 2 to 4 of R81 for any increment. -/
theorem MsDesk.InTravel.setDemand (h : d.InTravel f) (x : Sample) (delta : Int) :
    d.DemandWithin f (x.gap * maxStep f.vMax x.period) (d.setDemand x (d.ms.advance x delta)) := by
  have demand : (d.setDemand x (d.ms.advance x delta)).ms.demand = (d.ms.advance x delta).1 :=
    congrArg Prod.fst (d.setDemand_demandItems x _)
  have rate : d.ms.vMax = f.vMax := by simp [Ms.vMax, h.frame]
  unfold MsDesk.DemandWithin
  rw [demand, Ms.advance, h.frame, rate]
  exact applyTravel_within h.order h.low h.high (boundStep_natAbs_le x.period x.gap delta h.rate)

theorem MsDesk.InTravel.formDemand (h : d.InTravel f) (g : Segment) (x : Sample) :
    d.DemandWithin f (x.gap * maxStep f.vMax x.period) (d.formDemand g x) := by
  have targets : MsDesk.InTravel
      { d with ms := { d.ms with eTarget := (d.ms.increment g x).2.1, fTarget := (d.ms.increment g x).2.2 } } f := h.congr rfl
  exact (targets.setDemand x _).congr rfl rfl

theorem MsDesk.InTravel.moveDemand (h : d.InTravel f) (x : Sample) :
    d.DemandWithin f (x.gap * maxStep f.vMax x.period) (d.moveDemand x) := by
  unfold MsDesk.moveDemand
  split
  · split
    · exact h.formDemand _ x
    · exact h.unmoved x
  · exact h.unmoved x

theorem MsDesk.InTravel.runSample (h : d.InTravel f) (x : Sample) :
    d.DemandWithin f (x.gap * maxStep f.vMax x.period) (d.runSample x) := by
  have items : ((MsDesk.testCriterion { d with ms := d.ms.addTime x } x).checkSource x).demandItems = d.demandItems := by
    rw [MsDesk.checkSource_demandItems, MsDesk.testCriterion_demandItems]
    rfl
  exact ((h.congr items).moveDemand x).congr items.symm rfl

theorem MsDesk.InTravel.jogSample (h : d.InTravel f) (x : Sample) (enabled : d.ms.jogEnabling = false) :
    d.DemandWithin f (x.gap * maxStep f.vMax x.period) (d.jogSample x) := by
  unfold MsDesk.jogSample
  split
  · exact (h.unmoved x).congr rfl (MsDesk.enter_demandItems _ _ _)
  · rw [enabled, if_neg Bool.false_ne_true]
    exact h.setDemand x _

/-- The states with the drive enabled, JOGGING after its enabling step (R90, R91). -/
def Ms.DriveEnabled (m : Ms) : Prop :=
  m.state = .armed ∨ m.state = .running ∨ m.state = .paused ∨ m.state = .stopped ∨ (m.state = .jogging ∧ m.jogEnabling = false)

theorem MsDesk.InTravel.actsOnSample (h : d.InTravel f) (x : Sample) (enabled : d.ms.DriveEnabled) :
    d.DemandWithin f (x.gap * maxStep f.vMax x.period) (d.actsOnSample x) := by
  unfold MsDesk.actsOnSample
  rcases enabled with state | state | state | state | ⟨state, jog⟩ <;> rw [state]
  · exact h.unmoved x
  · exact h.runSample x
  · exact h.unmoved x
  · exact h.unmoved x
  · exact h.jogSample x jog

theorem MsDesk.InTravel.takeSample (h : d.InTravel f) (x : Sample) (enabled : d.ms.DriveEnabled) :
    d.DemandWithin f (x.gap * maxStep f.vMax x.period) (d.takeSample x) := by
  have held : MsDesk.InTravel { d with ms := { d.ms with last := some x } } f := h.congr rfl
  exact (held.actsOnSample x enabled).congr rfl rfl

end

end Sys2Proof.Machine

open Sys2Proof.Machine

/-- Settles O42: the increment is cut to the step bound (`boundStep_natAbs_le`) and the sum to the travel (`applyTravel_within`),
in each state that forms a demand (`MsDesk.InTravel.takeSample`). -/
theorem demandBoundedWhileEnabled : Obligations.DemandBoundedWhileEnabled := by
  intro s t x rest f h front sample frame order rate enabled low high
  obtain ⟨queue, pending⟩ := List.head?_eq_some_iff.1 front
  simp only [step, pending, exec, execConditionedSampleAtMs, sample] at h
  cases h
  have travel : s.msDesk.InTravel f := ⟨frame, order, rate, low, high⟩
  have taken : MsDesk.InTravel { s.msDesk with paths := { s.paths with samplesMs := rest } } f := travel.congr rfl
  exact taken.takeSample x enabled
end

