-- ==== Sys2Proof/Proofs/SegmentOrderLaw.lean ====
section
/-! The law of segment order (R63): each operation of MS in a test moves the cursor on and logs, in order, the segments it passes. -/

namespace Sys2Proof.Machine

/-! ## Cursors in order -/

/-- The place of a cursor: twice its index, and one more once its segment no longer runs. -/
def Cursor.place (c : Cursor) : Nat := 2 * c.index + if c.phase = .running then 0 else 1

theorem Cursor.place_ended (c : Cursor) : c.ended.place = 2 * c.index + 1 := rfl

theorem Cursor.place_running (i : Nat) : Cursor.place { index := i, phase := .running } = 2 * i := rfl

theorem Cursor.place_le_ended (c : Cursor) : c.place ≤ c.ended.place := by
  rw [Cursor.place_ended]
  unfold Cursor.place
  split <;> omega

theorem Cursor.place_of_running {c : Cursor} (h : c.phase = .running) : c.place = 2 * c.index := by
  simp only [Cursor.place, h, if_true, Nat.add_zero]

theorem Cursor.place_of_not_running {c : Cursor} (h : c.phase ≠ .running) : c.place = 2 * c.index + 1 := by
  simp only [Cursor.place, h, if_false]

/-- The segments that messages to TE log. -/
def loggedSegments (l : List TeMessage) : List Nat :=
  l.filterMap fun m => match m with | .entry e => some e.index | _ => none

theorem loggedSegments_append (l r : List TeMessage) : loggedSegments (l ++ r) = loggedSegments l ++ loggedSegments r :=
  List.filterMap_append

theorem mem_loggedSegments_of_entry {e : LogEntry} {l : List TeMessage} (h : TeMessage.entry e ∈ l) :
    e.index ∈ loggedSegments l := List.mem_filterMap.2 ⟨_, h, rfl⟩

/-- Between two places, segments are logged in order, each one running before and ended after. -/
structure LoggedBetween (from_ to_ : Nat) (segments : List Nat) : Prop where
  forward : from_ ≤ to_
  rising : segments.Pairwise (· < ·)
  passed : ∀ i ∈ segments, from_ ≤ 2 * i ∧ 2 * i + 1 ≤ to_

theorem LoggedBetween.none {a b : Nat} (h : a ≤ b) : LoggedBetween a b [] := ⟨h, List.Pairwise.nil, by simp⟩

theorem LoggedBetween.trans {a b c : Nat} {l r : List Nat} (first : LoggedBetween a b l) (second : LoggedBetween b c r) :
    LoggedBetween a c (l ++ r) := by
  refine ⟨first.forward.trans second.forward, List.pairwise_append.2 ⟨first.rising, second.rising, ?_⟩, ?_⟩
  · intro i hi j hj
    have passed := (first.passed i hi).2
    have still := (second.passed j hj).1
    omega
  · intro i hi
    rcases List.mem_append.1 hi with hi | hi
    · exact ⟨(first.passed i hi).1, (first.passed i hi).2.trans second.forward⟩
    · exact ⟨first.forward.trans (second.passed i hi).1, (second.passed i hi).2⟩

/-! ## Desks that move on -/

/-- `e` follows `d` in a test: what it has sent to TE logs the segments that its cursor has passed. -/
def MsDesk.MovesOn (d e : MsDesk) : Prop :=
  ∃ sent, e.paths.msToTe = d.paths.msToTe ++ sent ∧
    ∀ c, d.ms.cursor = some c → ∃ c', e.ms.cursor = some c' ∧ LoggedBetween c.place c'.place (loggedSegments sent)

/-- The cursor, and the path to TE. -/
def MsDesk.segmentItems (d : MsDesk) : Option Cursor × List TeMessage := (d.ms.cursor, d.paths.msToTe)

theorem MsDesk.MovesOn.refl (d : MsDesk) : d.MovesOn d :=
  ⟨[], by simp, fun c hc => ⟨c, hc, .none le_rfl⟩⟩

theorem MsDesk.MovesOn.trans {a b c : MsDesk} (first : a.MovesOn b) (second : b.MovesOn c) : a.MovesOn c := by
  obtain ⟨sent, toTe, moved⟩ := first
  obtain ⟨more, toTe', moved'⟩ := second
  refine ⟨sent ++ more, by rw [toTe', toTe, List.append_assoc], fun u hu => ?_⟩
  obtain ⟨v, hv, logged⟩ := moved u hu
  obtain ⟨w, hw, logged'⟩ := moved' v hv
  exact ⟨w, hw, by rw [loggedSegments_append]; exact logged.trans logged'⟩

theorem MsDesk.MovesOn.congr {a b a' b' : MsDesk} (h : a.MovesOn b) (before : a'.segmentItems = a.segmentItems)
    (after : b'.segmentItems = b.segmentItems) : a'.MovesOn b' := by
  simp only [MsDesk.segmentItems, Prod.mk.injEq] at before after
  unfold MsDesk.MovesOn
  rw [before.1, before.2, after.1, after.2]
  exact h

theorem MsDesk.MovesOn.of_items {d e : MsDesk} (h : e.segmentItems = d.segmentItems) : d.MovesOn e :=
  (MsDesk.MovesOn.refl d).congr rfl h

/-- From a desk with the same cursor and path. -/
theorem MsDesk.MovesOn.since {d e f : MsDesk} (h : e.MovesOn f) (items : d.segmentItems = e.segmentItems) : d.MovesOn f :=
  h.congr items rfl

theorem MsDesk.MovesOn.event {d e : MsDesk} (h : d.MovesOn e) (x : Event) : d.MovesOn (e.event x) := h.congr rfl rfl

theorem MsDesk.MovesOn.reply {d e : MsDesk} (h : d.MovesOn e) (r : Reply) : d.MovesOn (e.reply r) := h.congr rfl rfl

/-- A message that logs nothing, the cursor left. -/
theorem MsDesk.MovesOn.of_message {d e : MsDesk} {m : TeMessage} (toTe : e.paths.msToTe = d.paths.msToTe ++ [m])
    (quiet : loggedSegments [m] = []) (cursor : e.ms.cursor = d.ms.cursor) : d.MovesOn e :=
  ⟨[m], toTe, fun c hc => ⟨c, cursor.trans hc, by rw [quiet]; exact .none le_rfl⟩⟩

section
variable (d : MsDesk)

@[simp] theorem MsDesk.event_segmentItems (e : Event) : (d.event e).segmentItems = d.segmentItems := rfl

@[simp] theorem MsDesk.reply_segmentItems (r : Reply) : (d.reply r).segmentItems = d.segmentItems := rfl

@[simp] theorem MsDesk.answerArm_segmentItems (st : Status) (p : Payload) : (d.answerArm st p).segmentItems = d.segmentItems := by
  unfold MsDesk.answerArm
  split <;> rfl

@[simp] theorem MsDesk.reportTravel_segmentItems (b : Int) (x : Sample) (st : MotionState) :
    (d.reportTravel b x st).segmentItems = d.segmentItems := rfl

theorem MsDesk.takeStatus_segmentItems (st : DriveStatus) : (d.takeStatus st).segmentItems = d.segmentItems := by
  have raised (m : Ms) (drive : DrivePort) (p : Paths) (line : List (List Byte)) (b : Bool) (k : FaultKind) (x : Event) :
      MsDesk.segmentItems ⟨m, drive, p.raiseIf b k x, line⟩ = MsDesk.segmentItems ⟨m, drive, p, line⟩ := by cases b <;> rfl
  simp only [MsDesk.takeStatus, raised]
  rfl

/-! ## Entries -/

/-- Every entry but that of IDLE by RESET_TEST keeps the cursor's place or ends its segment. -/
theorem MsDesk.enter_movesOn (t : MotionTag) (c : Cause) (keeps : t ≠ .idle true) : d.MovesOn (d.enter t c) := by
  have toTe : (d.enter t c).paths.msToTe = d.paths.msToTe ++ [.tag t] := by
    unfold MsDesk.enter
    simp only
    split <;> rfl
  have cursor : (d.enter t c).ms.cursor = (d.ms.enter t c).cursor := by
    unfold MsDesk.enter
    simp only
    split <;> rfl
  refine ⟨[.tag t], toTe, fun u hu => ?_⟩
  rw [cursor]
  cases t with
  | idle byResetTest =>
    cases byResetTest with
    | false => exact ⟨u, hu, .none le_rfl⟩
    | true => exact absurd rfl keeps
  | stopped _ => exact ⟨u.ended, by simp [Ms.enter, hu], .none u.place_le_ended⟩
  | faulted _ =>
    refine ⟨u.stopRunning, by simp [Ms.enter, hu], .none ?_⟩
    unfold Cursor.stopRunning
    split
    · exact u.place_le_ended
    · exact le_rfl
  | _ => exact ⟨u, hu, .none le_rfl⟩

theorem MsDesk.enterStopped_movesOn (c : Cause) : d.MovesOn (d.enterStopped c) := d.enter_movesOn _ c (by simp)

theorem MsDesk.enterFaulted_movesOn (c : Cause) : d.MovesOn (d.enterFaulted c) := d.enter_movesOn _ c (by simp)

theorem MsDesk.endSegment_movesOn (c : EndCause) : d.MovesOn (d.endSegment c) := by
  unfold MsDesk.endSegment
  split
  · next u x cursor last =>
    split
    · next running =>
      refine ⟨[.entry (d.ms.entry u.index c x)], rfl, fun v hv => ⟨u.ended, rfl, ?_⟩⟩
      obtain rfl : u = v := Option.some.inj (cursor.symm.trans hv)
      rw [Cursor.place_of_running running, Cursor.place_ended]
      refine ⟨Nat.le_succ _, List.pairwise_singleton _ _, fun i hi => ?_⟩
      obtain rfl : i = u.index := List.mem_singleton.1 hi
      exact ⟨le_rfl, le_rfl⟩
    · exact .refl d
  · exact .refl d

/-- The segment after the one under the cursor starts. -/
theorem MsDesk.startSegment_movesOn (i : Nat) (before : ∀ c, d.ms.cursor = some c → c.index < i) : d.MovesOn (d.startSegment i) := by
  unfold MsDesk.startSegment
  split
  · refine ⟨[], ?_, fun c hc => ⟨{ index := i, phase := .running }, ?_, .none ?_⟩⟩
    · simp only
      split <;> simp [MsDesk.event, Paths.sendEvent]
    · simp only [Ms.startRates_eq_started]
      split <;> rfl
    · have index := before c hc
      rw [Cursor.place_running]
      unfold Cursor.place
      split <;> omega
  · exact .refl d

theorem MsDesk.endSegment_index {u : Cursor} (h : d.ms.cursor = some u) (c : EndCause) {v : Cursor}
    (hv : (d.endSegment c).ms.cursor = some v) : v.index = u.index := by
  unfold MsDesk.endSegment at hv
  split at hv
  · next w _ cursor _ =>
    obtain rfl : w = u := Option.some.inj (cursor.symm.trans h)
    split at hv
    · exact (congrArg Cursor.index (Option.some.inj hv)).symm
    · exact congrArg Cursor.index (Option.some.inj (hv.symm.trans cursor))
  · exact congrArg Cursor.index (Option.some.inj (hv.symm.trans h))

theorem Ms.running_index {m : Ms} {i : Nat} {g : Segment} (h : m.running = some (i, g)) : ∃ c, m.cursor = some c ∧ c.index = i := by
  unfold Ms.running at h
  split at h
  · next c cursor =>
    split at h
    · obtain ⟨_, -, eq⟩ := Option.map_eq_some_iff.1 h
      exact ⟨c, cursor, congrArg Prod.fst eq⟩
    · cases h
  · cases h

theorem MsDesk.criterionMet_movesOn : d.MovesOn d.criterionMet := by
  unfold MsDesk.criterionMet
  split
  · exact .refl d
  · next i g running =>
    obtain ⟨u, cursor, rfl⟩ := Ms.running_index running
    simp only
    split <;> refine (d.endSegment_movesOn (if d.ms.continuation = none then .criterion else .fallbackEnd)).trans ?_
    · exact MsDesk.startSegment_movesOn _ _ fun c hc => by rw [d.endSegment_index cursor _ hc]; exact Nat.lt_succ_self _
    · exact MsDesk.enterStopped_movesOn _ _

theorem MsDesk.criterionEvent_movesOn (e : CriterionEvent) : d.MovesOn (d.criterionEvent e) := by
  have marked : MsDesk.segmentItems { d with ms := d.ms.mark e } = d.segmentItems := by cases e <;> rfl
  unfold MsDesk.criterionEvent
  split
  · simp only
    split
    · split
      · split
        · exact (MsDesk.MovesOn.of_items marked).trans (MsDesk.criterionMet_movesOn _)
        · split <;> exact .of_items marked
      · exact .of_items marked
    · exact .of_items marked
  · exact .refl d

theorem MsDesk.applyPending_movesOn : d.MovesOn d.applyPending := by
  unfold MsDesk.applyPending
  split
  · exact .refl d
  · exact (MsDesk.criterionMet_movesOn _).since rfl

theorem MsDesk.resumeIfFree_movesOn : d.MovesOn d.resumeIfFree := by
  unfold MsDesk.resumeIfFree
  split
  · exact (d.enter_movesOn _ _ (by simp)).trans (MsDesk.applyPending_movesOn _)
  · exact .refl d

theorem MsDesk.pauseIfRunning_movesOn : d.MovesOn d.pauseIfRunning := by
  unfold MsDesk.pauseIfRunning
  split
  · exact d.enter_movesOn _ _ (by simp)
  · exact .refl d

theorem MsDesk.fault_movesOn (c : Cause) : d.MovesOn (d.fault c) := by
  unfold MsDesk.fault
  simp only
  refine MsDesk.MovesOn.trans ?_ (.of_items (MsDesk.answerArm_segmentItems _ _ _))
  split
  · exact (d.endSegment_movesOn _).trans (MsDesk.enterFaulted_movesOn _ _)
  · exact d.enterFaulted_movesOn _

theorem MsDesk.stops_movesOn (e : EndCause) (c : Cause) : d.MovesOn ((d.endSegment e).enterStopped c) :=
  (d.endSegment_movesOn e).trans (MsDesk.enterStopped_movesOn _ c)

/-! ## Samples -/

theorem MsDesk.setDemand_movesOn (x : Sample) (r : Int × Option Int) : d.MovesOn (d.setDemand x r) := by
  unfold MsDesk.setDemand
  simp only
  split
  · exact .of_items rfl
  · split
    · exact (MsDesk.stops_movesOn _ _ _).since rfl
    · exact (MsDesk.enter_movesOn _ _ _ (fun h => by cases h)).since rfl

theorem MsDesk.crossheadSample_movesOn (i : Nat) (g : Segment) (x : Sample) : d.MovesOn (d.crossheadSample i g x) := by
  unfold MsDesk.crossheadSample
  split
  · simp only
    split <;> exact .of_items rfl
  · exact MsDesk.MovesOn.event ((MsDesk.pauseIfRunning_movesOn _).since rfl) _

theorem MsDesk.runSample_movesOn (x : Sample) : d.MovesOn (d.runSample x) := by
  have criterion (d : MsDesk) : d.MovesOn (d.testCriterion x) := by
    unfold MsDesk.testCriterion
    split
    · split
      · exact d.criterionMet_movesOn
      · exact .refl d
    · exact .refl d
  have source (d : MsDesk) : d.MovesOn (d.checkSource x) := by
    unfold MsDesk.checkSource
    split
    · split
      · exact d.crossheadSample_movesOn _ _ x
      · exact .refl d
    · exact .refl d
  have move (d : MsDesk) : d.MovesOn (d.moveDemand x) := by
    unfold MsDesk.moveDemand
    split
    · split
      · exact MsDesk.MovesOn.since (MsDesk.setDemand_movesOn _ x _) rfl
      · exact .refl d
    · exact .refl d
  exact MsDesk.MovesOn.since (((criterion _).trans (source _)).trans (move _)) rfl

/-- A sample taken in a test. -/
theorem MsDesk.takeSample_movesOn (x : Sample) (testing : d.ms.state = .running ∨ d.ms.state = .paused) :
    d.MovesOn (d.takeSample x) := by
  have acts (d : MsDesk) (testing : d.ms.state = .running ∨ d.ms.state = .paused) : d.MovesOn (d.actsOnSample x) := by
    unfold MsDesk.actsOnSample
    rcases testing with state | state <;> rw [state]
    · exact d.runSample_movesOn x
    · exact .refl d
  have sent (d : MsDesk) : (d.sendFrame x).segmentItems = d.segmentItems := by
    simp only [MsDesk.sendFrame, MsDesk.segmentItems, MsDesk.noticeAlways]
    split <;> rfl
  rw [d.takeSample_eq]
  exact (acts { d with ms := { d.ms with last := some x } } testing).congr rfl (sent _)

end

/-! ## The moves of MS in a test -/

theorem MsMove.movesOn {o : Option Instr} {d e : MsDesk} (h : MsMove d o e)
    (testing : d.ms.state = .running ∨ d.ms.state = .paused) : d.MovesOn e := by
  cases h with
  | readback tag pointer count => exact .of_items rfl
  | program tag l =>
    unfold MsDesk.takeProgram
    split
    · exact .of_items rfl
    · split
      · exact .of_items rfl
      · split <;> exact .of_items rfl
  | calLoad tag l => unfold MsDesk.takeCalLoad; split <;> exact .of_items rfl
  | evalLoad tag l =>
    unfold MsDesk.takeEvalLoad
    split
    · exact .of_items rfl
    · exact .of_message (m := .params tag l) rfl rfl rfl
  | store tag => unfold MsDesk.takeStore; split <;> exact .of_items rfl
  | arm tag =>
    have refused : d.armRefusal = some (.wrongState, .notIdle, .none) := by
      rcases testing with state | state <;> simp [MsDesk.armRefusal, state]
    unfold MsDesk.takeArm
    rw [refused]
    exact .of_items rfl
  | start tag =>
    unfold MsDesk.takeStart
    rcases testing with state | state <;> rw [state] <;> exact .of_items rfl
  | stop tag =>
    unfold MsDesk.takeStop
    split
    · exact (d.stops_movesOn _ _).reply _
    · exact .of_items rfl
  | abort tag =>
    unfold MsDesk.takeAbort
    split
    · exact .of_items rfl
    · exact (d.fault_movesOn _).reply _
  | resetTest tag =>
    have kept : d.ms.state.resets = false := by rcases testing with state | state <;> rw [state] <;> rfl
    unfold MsDesk.takeResetTest
    rw [kept]
    exact .of_items rfl
  | pause tag =>
    unfold MsDesk.takePause
    split
    · exact MsDesk.MovesOn.reply ((MsDesk.pauseIfRunning_movesOn _).since rfl) _
    · exact .of_items rfl
  | resume tag =>
    unfold MsDesk.takeResume
    split
    · exact MsDesk.MovesOn.reply ((MsDesk.resumeIfFree_movesOn _).since rfl) _
    · exact .of_items rfl
  | jog tag rate =>
    unfold MsDesk.takeJog
    rcases testing with state | state <;> rw [state] <;> exact .of_items rfl
  | jogStop tag =>
    unfold MsDesk.takeJogStop
    rcases testing with state | state <;> rw [state] <;> exact .of_items rfl
  | status st => exact .of_items (d.takeStatus_segmentItems st)
  | outcome b => cases b <;> simp only [MsDesk.takeOutcome] <;> split <;> exact .of_items rfl
  | summary => unfold MsDesk.takeSummary; split <;> exact .of_items rfl
  | fault b k rest _ =>
    have taken : MsDesk.segmentItems { d with paths := d.paths.setFaults b rest } = d.segmentItems := by cases b <;> rfl
    unfold MsDesk.takeFault
    split
    · exact (MsDesk.fault_movesOn _ _).congr taken.symm rfl
    · exact .of_items taken
  | criterion e x rest _ => exact (MsDesk.criterionEvent_movesOn _ e).since rfl
  | hold _ =>
    unfold MsDesk.takeHold
    split
    · exact (MsDesk.pauseIfRunning_movesOn _).since rfl
    · exact .of_items rfl
  | removed rest _ =>
    unfold MsDesk.takeRemovalComplete
    split
    · refine MsDesk.MovesOn.trans ?_ (MsDesk.resumeIfFree_movesOn _)
      exact (MsDesk.criterionEvent_movesOn _ _).since rfl
    · exact .of_items rfl
  | timeout rest _ =>
    unfold MsDesk.takeRemovalTimeout
    split
    · exact (MsDesk.stops_movesOn _ _ _).since rfl
    · exact .of_items rfl
  | brk n rest _ =>
    unfold MsDesk.takeBreak
    split
    · exact (MsDesk.stops_movesOn _ _ _).since rfl
    · exact .of_items rfl
  | extTag t rest _ => exact .of_items rfl

/-! ## The step -/

theorem McMove.toTe {o : Option Instr} {d e : McDesk} (h : McMove d o e) : e.paths.trunk.toTe = d.paths.trunk.toTe := by
  rcases h.trunk with ⟨trunk, -⟩ | ⟨m, rest, -, -, trunk, -⟩ | ⟨tag, l, rest, -, rfl⟩
  · rw [trunk]
  · rw [trunk]
  · obtain ⟨sums, o, trunk, -⟩ := McDesk.takeLoad_trunk { d with paths := { d.paths with msToMc := rest } } tag l
    rw [trunk]
    rfl

theorem StoreMove.toTe {o : Option Instr} {d e : StoreDesk} (h : StoreMove d o e) : e.paths.trunk.toTe = d.paths.trunk.toTe := by
  cases h.report with
  | nothing _ _ trunk _ _ => rw [trunk]
  | loaded _ trunk _ => rw [trunk]
  | storing _ _ trunk _ _ => rw [trunk]

/-- The other blocks leave MS and at most take messages from its path to TE. -/
theorem State.Act.ms_or {o : Option Instr} {s t : State} (h : s.Act o t) :
    (t.ms = s.ms ∧ ∃ l, t.paths.msToTe = s.paths.msToTe.drop l) ∨ (∃ d, MsMove s.msDesk o d ∧ t = s.onMs fun _ => d) ∨
      ∃ x rest, s.paths.samplesMs = x :: rest ∧
        t = s.putMs (MsDesk.takeSample { s.msDesk with paths := { s.paths with samplesMs := rest } } x) := by
  have kept {p q : Paths} (h : q.trunk.toTe = p.trunk.toTe) : ∃ l, q.msToTe = p.msToTe.drop l := ⟨0, h⟩
  cases h with
  | ms d h => exact .inr (.inl ⟨d, h, rfl⟩)
  | msSample x rest h => exact .inr (.inr ⟨x, rest, h, rfl⟩)
  | inlet d h => exact .inl ⟨rfl, kept (congrArg Trunk.toTe h.trunk)⟩
  | mc d h => exact .inl ⟨rfl, kept h.toTe⟩
  | store d h => exact .inl ⟨rfl, kept h.toTe⟩
  | es d h =>
    have own : (d.notice s.es.state).paths.msToTe = d.paths.msToTe := by unfold EsDesk.notice; split <;> rfl
    refine .inl ⟨rfl, kept (own.trans ?_)⟩
    rcases h.trunk with trunk | ⟨m, rest, -, trunk⟩ <;> exact congrArg Trunk.toTe trunk
  | te d h =>
    refine .inl ⟨rfl, ?_⟩
    cases h.report with
    | nothing trunk _ => exact kept (congrArg Trunk.toTe trunk)
    | taken m rest head _ trunk _ =>
      have head : s.paths.msToTe = m :: rest := head
      exact ⟨1, (congrArg Trunk.toTe trunk).trans (by rw [head]; rfl)⟩
    | load tag l rest o head trunk =>
      have head : s.paths.msToTe = .params tag l :: rest := head
      exact ⟨1, (congrArg Trunk.toTe trunk).trans (by rw [head]; rfl)⟩
  | cr d h =>
    have own : (d.notice (.of s.cr)).paths.msToTe = d.paths.msToTe := by unfold CrDesk.notice; split <;> rfl
    exact .inl ⟨rfl, kept (own.trans (congrArg Trunk.toTe h.trunk))⟩
  | cp d h =>
    refine .inl ⟨rfl, ?_⟩
    rcases h.lock with ⟨-, trunk⟩ | ⟨x, rest, -, -, trunk⟩ <;>
    · have same := congrArg Trunk.toTe trunk
      exact kept same
  | _ => exact .inl ⟨rfl, 0, rfl⟩

/-- In a test, what a step leaves of the cursor and the path to TE. -/
def State.MovesOn (s t : State) : Prop :=
  ∃ l sent, t.paths.msToTe = s.paths.msToTe.drop l ++ sent ∧
    ∀ c, s.ms.cursor = some c → ∃ c', t.ms.cursor = some c' ∧ LoggedBetween c.place c'.place (loggedSegments sent)

theorem State.MovesOn.of_desk {s t : State} (h : s.msDesk.MovesOn t.msDesk) : s.MovesOn t := by
  obtain ⟨sent, toTe, moved⟩ := h
  exact ⟨0, sent, toTe, moved⟩

theorem State.MovesOn.of_taken {s t : State} (ms : t.ms = s.ms) (toTe : ∃ l, t.paths.msToTe = s.paths.msToTe.drop l) : s.MovesOn t := by
  obtain ⟨l, toTe⟩ := toTe
  exact ⟨l, [], by rw [toTe, List.append_nil], fun c hc => ⟨c, ms ▸ hc, .none le_rfl⟩⟩

@[simp] theorem State.onMs_segmentItems (s : State) (d : MsDesk) : (s.onMs fun _ => d).msDesk.segmentItems = d.segmentItems := by
  rw [State.onMs_eq]
  rfl

theorem State.Act.movesOn {o : Option Instr} {s t : State} (h : s.Act o t)
    (testing : s.ms.state = .running ∨ s.ms.state = .paused) : s.MovesOn t := by
  rcases h.ms_or with ⟨ms, toTe⟩ | ⟨d, move, rfl⟩ | ⟨x, rest, -, rfl⟩
  · exact .of_taken ms toTe
  · exact .of_desk ((move.movesOn testing).congr rfl (s.onMs_segmentItems d))
  · refine .of_desk (MsDesk.MovesOn.since (MsDesk.takeSample_movesOn _ x testing) rfl)

/-- Frames on FRONT and DRIVE change neither the cursor nor the path to TE. -/
theorem State.LinkActs.movesOn {s t : State} (h : s.LinkActs t) : s.MovesOn t := by
  have items : t.msDesk.segmentItems = s.msDesk.segmentItems := by
    induction h with
    | refl => rfl
    | tail _ last ih =>
      refine Eq.trans ?_ ih
      cases last with
      | inlet f => exact congrArg (Prod.mk _) (congrArg Trunk.toTe (InletMove.frame f).trunk)
      | status st => exact (State.onMs_segmentItems _ _).trans (MsDesk.takeStatus_segmentItems _ st)
      | _ => rfl
  exact .of_desk (.of_items items)

end Sys2Proof.Machine

open Sys2Proof.Machine

/-- Settles O11: each operation of MS moves the cursor's place on and logs the segments between (`MsMove.movesOn`), and the other
blocks only take from the path to TE (`State.Act.ms_or`). -/
theorem segmentsEndInOrder : Obligations.SegmentsEndInOrder := by
  intro s t c h single testing cursor
  have moves : s.MovesOn t := by
    obtain ⟨rest, rfl | ⟨o, act⟩ | links⟩ := step_single h single
    · exact .of_taken rfl ⟨0, rfl⟩
    · exact act.movesOn testing
    · exact links.movesOn
  obtain ⟨l, sent, toTe, moved⟩ := moves
  obtain ⟨c', cursor', forward, rising, passed⟩ := moved c cursor
  refine ⟨c', sent, cursor', ?_, ⟨l, toTe⟩, rising, fun e he => ?_⟩
  · unfold Cursor.place at forward
    split at forward <;> split at forward <;> omega
  · obtain ⟨low, high⟩ := passed e.index (mem_loggedSegments_of_entry he)
    unfold Cursor.place at low high
    refine ⟨?_, ?_, fun stopped => ?_⟩
    · split at low <;> omega
    · split at high <;> omega
    · rw [if_neg stopped] at low
      omega
end

