-- ==== Sys2Proof/Proofs/ArmCopyOrder.lean ====
section
/-! The arm copies go ahead of the ARMED tag (R52): what MS sends on its paths to TE and ES, with each change of state. -/

namespace Sys2Proof.Machine

/-! ## The paths -/

theorem teWillHave_append (opened copied : Bool) (l r : List TeMessage) :
    teWillHave opened copied (l ++ r) = (teWillHave opened copied l).bind fun w => teWillHave w.1 w.2 r := by
  induction l generalizing opened copied with
  | nil => rfl
  | cons m l ih =>
    cases m with
    | tag t => cases t <;> cases copied <;> simp [teWillHave, MotionTag.state, ih]
    | armCopy c => cases opened <;> simp [teWillHave, ih]
    | params tag l => simp [teWillHave, ih]
    | entry e => simp [teWillHave, ih]

/-- Each ARMED tag on the path to ES has an arm copy ahead of it, or ES has one already. -/
def CopyAhead (copied : Bool) (q : List EsMessage) : Prop :=
  ∀ l m, q = l ++ .tag .armed :: m → copied = true ∨ ∃ c, EsMessage.armCopy c ∈ l

theorem CopyAhead.append_one {copied : Bool} {q : List EsMessage} {x : EsMessage} (h : CopyAhead copied q)
    (last : x = .tag .armed → copied = true ∨ ∃ c, EsMessage.armCopy c ∈ q) : CopyAhead copied (q ++ [x]) := by
  intro l m split
  rcases List.eq_nil_or_concat m with rfl | ⟨m', y, rfl⟩
  · obtain ⟨rfl, ends⟩ := List.append_inj' split rfl
    exact last (List.singleton_inj.1 ends)
  · have shifted : q ++ [x] = (l ++ .tag .armed :: m') ++ [y] := by simpa using split
    exact h l m' (List.append_inj' shifted rfl).1

theorem CopyAhead.tail {copied : Bool} {x : EsMessage} {q : List EsMessage} (h : CopyAhead copied (x :: q))
    (notCopy : ∀ c, x ≠ .armCopy c) : CopyAhead copied q := by
  intro l m split
  rcases h (x :: l) m (by rw [split]; rfl) with copied | ⟨c, mem⟩
  · exact .inl copied
  · rcases List.mem_cons.1 mem with head | mem
    · exact absurd head.symm (notCopy c)
    · exact .inr ⟨c, mem⟩

/-! ## What MS has sent -/

/-- What the receivers have: whether the test is open at TE, and whether TE and ES have their arm copies. -/
structure TestSide where
  opened : Bool
  copied : Bool
  esCopied : Bool

/-- A motion state in which the test may be open at TE. -/
def MotionState.opens (m : MotionState) : Prop := m = .armed ∨ m = .running ∨ m = .paused

/-- What MS has sent fits its state: a test is open, or will be, in ARMED, RUNNING and PAUSED alone; in ARMING the arm copies are
sent (R52). -/
structure MsDesk.Sent (k : TestSide) (d : MsDesk) : Prop where
  toTe : ∃ opened copied, teWillHave k.opened k.copied d.paths.msToTe = some (opened, copied) ∧
    (opened = true → d.ms.state.opens) ∧ (d.ms.state = .arming → copied = true)
  copyToEs : d.ms.state = .arming → k.esCopied = true ∨ ∃ c, EsMessage.armCopy c ∈ d.paths.msToEs
  ahead : CopyAhead k.esCopied d.paths.msToEs

/-- What it speaks of. -/
def MsDesk.sentItems (d : MsDesk) : MotionState × List TeMessage × List EsMessage :=
  (d.ms.state, d.paths.msToTe, d.paths.msToEs)

section
variable {k : TestSide} {d e : MsDesk}

theorem MsDesk.Sent.congr (h : d.Sent k) (items : e.sentItems = d.sentItems) : e.Sent k := by
  simp only [MsDesk.sentItems, Prod.mk.injEq] at items
  obtain ⟨state, toTe, toEs⟩ := items
  obtain ⟨te, es, ahead⟩ := h
  exact ⟨by rw [toTe, state]; exact te, by rw [state, toEs]; exact es, toEs ▸ ahead⟩

/-- A message to TE that neither opens nor closes a test. -/
theorem MsDesk.Sent.message (h : d.Sent k) {m : TeMessage} (state : e.ms.state = d.ms.state)
    (toTe : e.paths.msToTe = d.paths.msToTe ++ [m]) (toEs : e.paths.msToEs = d.paths.msToEs)
    (neutral : ∀ o c, teWillHave o c [m] = some (o, c)) : e.Sent k := by
  obtain ⟨⟨opened, copied, will, opens, arming⟩, es, ahead⟩ := h
  refine ⟨⟨opened, copied, ?_, state ▸ opens, state ▸ arming⟩, by rw [state, toEs]; exact es, toEs ▸ ahead⟩
  rw [toTe, teWillHave_append, will]
  exact neutral opened copied

/-- A notice to ES. -/
theorem MsDesk.Sent.notice (h : d.Sent k) {g : Nat} {f : Option Fitted} (state : e.ms.state = d.ms.state)
    (toTe : e.paths.msToTe = d.paths.msToTe) (toEs : e.paths.msToEs = d.paths.msToEs ++ [.notice g f]) : e.Sent k := by
  obtain ⟨te, es, ahead⟩ := h
  refine ⟨by rw [toTe, state]; exact te, fun arming => ?_, toEs ▸ ahead.append_one nofun⟩
  rcases es (state ▸ arming) with copied | ⟨c, mem⟩
  · exact .inl copied
  · exact .inr ⟨c, toEs ▸ List.mem_append_left _ mem⟩

/-! ## Entries -/

/-- The state from which MS enters the one that a tag names, with a test that may be open. -/
def MotionTag.follows : MotionTag → MotionState → Prop
  | .armed, m => m = .arming
  | .running, m => m.opens
  | .paused, m => m.opens
  | .jogging, m => ¬ m.opens
  | .arming _, _ => False
  | .idle _, _ => True
  | .stopped _, _ => True
  | .faulted _, _ => True

theorem MsDesk.enter_sentItems (d : MsDesk) (t : MotionTag) (c : Cause) :
    (d.enter t c).sentItems = (t.state, d.paths.msToTe ++ [.tag t], d.paths.msToEs ++ [.tag t]) := by
  have state : (d.ms.enter t c).state = t.state := Ms.enter_state _ _ _
  unfold MsDesk.enter
  simp only
  split <;> exact congrArg (·, d.paths.msToTe ++ [.tag t], d.paths.msToEs ++ [.tag t]) state

theorem MsDesk.Sent.enter (h : d.Sent k) {t : MotionTag} (c : Cause) (follows : t.follows d.ms.state) : (d.enter t c).Sent k := by
  have items := d.enter_sentItems t c
  simp only [MsDesk.sentItems, Prod.mk.injEq] at items
  obtain ⟨state, toTe, toEs⟩ := items
  obtain ⟨⟨opened, copied, will, opens, arming⟩, es, ahead⟩ := h
  refine ⟨?_, fun isArming => ?_, ?_⟩
  · rw [toTe, teWillHave_append, will, state]
    cases t with
    | armed =>
      obtain rfl : copied = true := arming follows
      exact ⟨true, true, rfl, fun _ => .inl rfl, nofun⟩
    | running => exact ⟨opened, copied, rfl, fun _ => .inr (.inl rfl), nofun⟩
    | paused => exact ⟨opened, copied, rfl, fun _ => .inr (.inr rfl), nofun⟩
    | jogging => exact ⟨opened, copied, rfl, fun o => absurd (opens o) follows, nofun⟩
    | arming _ => exact follows.elim
    | idle _ => exact ⟨false, copied, rfl, nofun, nofun⟩
    | stopped _ => exact ⟨false, copied, rfl, nofun, nofun⟩
    | faulted _ => exact ⟨false, copied, rfl, nofun, nofun⟩
  · rw [state] at isArming
    cases t with
    | arming _ => exact follows.elim
    | _ => cases isArming
  · rw [toEs]
    refine ahead.append_one fun isArmed => ?_
    cases isArmed
    exact es follows

theorem MsDesk.Sent.enterStopped (h : d.Sent k) (c : Cause) : (d.enterStopped c).Sent k := h.enter c trivial

theorem MsDesk.Sent.enterFaulted (h : d.Sent k) (c : Cause) : (d.enterFaulted c).Sent k := h.enter c trivial

theorem MsDesk.Sent.event (h : d.Sent k) (x : Event) : (d.event x).Sent k := h.congr rfl

theorem MsDesk.Sent.reply (h : d.Sent k) (r : Reply) : (d.reply r).Sent k := h.congr rfl

theorem MsDesk.Sent.reportTravel (h : d.Sent k) (b : Int) (x : Sample) (st : MotionState) : (d.reportTravel b x st).Sent k :=
  h.congr rfl

theorem MsDesk.Sent.answerArm (h : d.Sent k) (st : Status) (p : Payload) : (d.answerArm st p).Sent k :=
  h.congr (by unfold MsDesk.answerArm; split <;> rfl)

theorem MsDesk.Sent.endSegment (h : d.Sent k) (c : EndCause) : (d.endSegment c).Sent k := by
  unfold MsDesk.endSegment
  split
  · split
    · exact h.message rfl rfl rfl fun _ _ => rfl
    · exact h
  · exact h

theorem MsDesk.Sent.startSegment (h : d.Sent k) (i : Nat) : (d.startSegment i).Sent k := by
  refine h.congr ?_
  unfold MsDesk.startSegment
  split
  · simp only [Ms.startRates_eq_started]
    split <;> rfl
  · rfl

/-! ## Segments and pauses -/

theorem MsDesk.Sent.criterionMet (h : d.Sent k) : d.criterionMet.Sent k := by
  unfold MsDesk.criterionMet
  split
  · exact h
  · simp only
    split
    · exact (h.endSegment _).startSegment _
    · exact (h.endSegment _).enterStopped _

theorem MsDesk.Sent.criterionEvent (h : d.Sent k) (e : CriterionEvent) : (d.criterionEvent e).Sent k := by
  have marked : MsDesk.Sent k { d with ms := d.ms.mark e } := h.congr (by cases e <;> rfl)
  unfold MsDesk.criterionEvent
  split
  · simp only
    split
    · split
      · split
        · exact marked.criterionMet
        · split
          · exact marked.congr rfl
          · exact marked
      · exact marked
    · exact marked
  · exact h

theorem MsDesk.Sent.resumeIfFree (h : d.Sent k) : d.resumeIfFree.Sent k := by
  unfold MsDesk.resumeIfFree
  split
  · next free =>
    have entered := h.enter (t := .running) .none (.inr (.inr free.1))
    unfold MsDesk.applyPending
    split
    · exact entered
    · exact MsDesk.Sent.criterionMet (entered.congr rfl)
  · exact h

theorem MsDesk.Sent.pauseIfRunning (h : d.Sent k) : d.pauseIfRunning.Sent k := by
  unfold MsDesk.pauseIfRunning
  split
  · next running => exact h.enter (t := .paused) .none (.inr (.inl running))
  · exact h

theorem MsDesk.Sent.fault (h : d.Sent k) (c : Cause) : (d.fault c).Sent k := by
  unfold MsDesk.fault
  refine MsDesk.Sent.answerArm (MsDesk.Sent.enterFaulted ?_ c) _ _
  split
  · exact h.endSegment _
  · exact h

theorem MsDesk.Sent.stops (h : d.Sent k) (e : EndCause) (c : Cause) : ((d.endSegment e).enterStopped c).Sent k :=
  (h.endSegment e).enterStopped c

/-! ## Samples -/

theorem MsDesk.Sent.setDemand (h : d.Sent k) (x : Sample) (r : Int × Option Int) : (d.setDemand x r).Sent k := by
  have moved : MsDesk.Sent k { d with ms := { d.ms with demand := r.1 } } := h.congr rfl
  unfold MsDesk.setDemand
  simp only
  split
  · exact moved
  · split
    · exact (moved.reportTravel _ _ _).stops _ _
    · exact (moved.reportTravel _ _ _).enter _ trivial

theorem MsDesk.Sent.crossheadSample (h : d.Sent k) (i : Nat) (g : Segment) (x : Sample) : (d.crossheadSample i g x).Sent k := by
  unfold MsDesk.crossheadSample
  split
  · simp only
    split <;> exact h.congr rfl
  · refine MsDesk.Sent.event (MsDesk.Sent.pauseIfRunning ?_) _
    exact h.congr rfl

theorem MsDesk.Sent.runSample (h : d.Sent k) (x : Sample) : (d.runSample x).Sent k := by
  have criterion {d : MsDesk} (h : d.Sent k) : (d.testCriterion x).Sent k := by
    unfold MsDesk.testCriterion
    split
    · split
      · exact h.criterionMet
      · exact h
    · exact h
  have source {d : MsDesk} (h : d.Sent k) : (d.checkSource x).Sent k := by
    unfold MsDesk.checkSource
    split
    · split
      · exact h.crossheadSample _ _ x
      · exact h
    · exact h
  have move {d : MsDesk} (h : d.Sent k) : (d.moveDemand x).Sent k := by
    unfold MsDesk.moveDemand
    split
    · split
      · refine MsDesk.Sent.setDemand ?_ x _
        exact h.congr rfl
      · exact h
    · exact h
  refine move (source (criterion ?_))
  exact h.congr rfl

theorem MsDesk.Sent.jogSample (h : d.Sent k) (x : Sample) : (d.jogSample x).Sent k := by
  unfold MsDesk.jogSample
  split
  · exact (h.enter (t := .idle false) _ trivial).event _
  · split
    · simp only
      split
      · exact h.congr rfl
      · refine MsDesk.Sent.reportTravel (MsDesk.Sent.enter (t := .idle false) ?_ _ trivial) _ _ _
        exact h.congr rfl
    · exact h.setDemand x _

theorem MsDesk.Sent.armingSample (h : d.Sent k) (x : Sample) (arming : d.ms.state = .arming) : (d.armingSample x).Sent k := by
  have set : MsDesk.Sent k { d with ms := { d.ms with demand := x.position * q32 } } := h.congr rfl
  have entered := set.enter (t := .armed) .none arming
  unfold MsDesk.armingSample MsDesk.completeArming
  split
  · simp only
    split
    · exact entered.answerArm _ _
    · exact ((entered.answerArm _ _).enterFaulted _).reportTravel _ _ _
  · exact h

theorem MsDesk.Sent.actsOnSample (h : d.Sent k) (x : Sample) : (d.actsOnSample x).Sent k := by
  unfold MsDesk.actsOnSample
  split
  · exact h.runSample x
  · exact h.jogSample x
  · next arming => exact h.armingSample x arming
  · exact h
  · exact h
  · exact h
  · exact h
  · exact h

theorem MsDesk.sendFrame_sentItems (d : MsDesk) (x : Sample) : (d.sendFrame x).sentItems = d.sentItems := by
  simp only [MsDesk.sendFrame, MsDesk.sentItems, MsDesk.noticeAlways]
  split <;> rfl

theorem MsDesk.Sent.takeSample (h : d.Sent k) (x : Sample) : (d.takeSample x).Sent k := by
  rw [MsDesk.takeSample_eq]
  refine MsDesk.Sent.congr (MsDesk.Sent.actsOnSample ?_ x) (MsDesk.sendFrame_sentItems _ x)
  exact h.congr rfl

/-! ## Requests and messages -/

/-- ARM is accepted in IDLE, with no test open: ARMING is entered, and the copies are sent after its tag. -/
theorem MsDesk.Sent.acceptArm (h : d.Sent k) (tag : Tag) (p : Program) (idle : d.ms.state = .idle) : (d.acceptArm tag p).Sent k := by
  obtain ⟨⟨opened, copied, will, opens, -⟩, -, ahead⟩ := h
  have closed : opened = false := by
    rw [idle] at opens
    rcases opened with - | -
    · rfl
    · rcases opens rfl with state | state | state <;> cases state
  subst closed
  have toTe : (d.acceptArm tag p).paths.msToTe =
      d.paths.msToTe ++ [.tag (.arming (d.ms.armingCount + 1)), .armCopy (p.teCopy d.ms.fMax)] := List.append_assoc _ _ _
  have toEs : (d.acceptArm tag p).paths.msToEs = d.paths.msToEs ++ [.tag (.arming (d.ms.armingCount + 1))] ++ [.armCopy p.esCopy] := rfl
  refine ⟨⟨false, true, ?_, nofun, fun _ => rfl⟩, fun _ => .inr ⟨p.esCopy, ?_⟩, ?_⟩
  · rw [toTe, teWillHave_append, will]
    rfl
  · rw [toEs]
    exact List.mem_append_right _ (List.mem_singleton_self _)
  · rw [toEs]
    exact (ahead.append_one fun armed => by cases armed).append_one fun armed => by cases armed

theorem MsDesk.armRefusal_state {d : MsDesk} (h : d.armRefusal = none) : d.ms.state = .idle := by
  unfold MsDesk.armRefusal at h
  simp only at h
  split at h
  · cases h
  · split at h
    · cases h
    · next idle => exact not_not.1 idle

theorem MsMove.sent {o : Option Instr} (m : MsMove d o e) (h : d.Sent k) : e.Sent k := by
  cases m with
  | readback tag pointer count => exact h.congr rfl
  | program tag l =>
    unfold MsDesk.takeProgram
    split
    · exact h.congr rfl
    · split
      · exact h.notice rfl rfl rfl
      · split
        · exact h.congr rfl
        · exact h.notice rfl rfl rfl
  | calLoad tag l => unfold MsDesk.takeCalLoad; split <;> exact h.congr rfl
  | evalLoad tag l =>
    unfold MsDesk.takeEvalLoad
    split
    · exact h.congr rfl
    · exact h.message (m := .params tag l) rfl rfl rfl fun _ _ => rfl
  | store tag => unfold MsDesk.takeStore; split <;> exact h.congr rfl
  | arm tag =>
    unfold MsDesk.takeArm
    split
    · exact h.congr rfl
    · next accepted _ => exact h.acceptArm tag _ (MsDesk.armRefusal_state accepted)
    · exact h
  | start tag =>
    unfold MsDesk.takeStart
    split
    · next armed =>
      have marked : MsDesk.Sent k { d with ms := { d.ms with
          yieldMark := false, proofMark := false, releasedMark := false, pendingTransition := none, pauses := .empty } } :=
        h.congr rfl
      exact ((marked.enter (t := .running) .none (.inl armed)).startSegment 0).reply _
    · exact h.congr rfl
    · exact h.congr rfl
  | stop tag =>
    unfold MsDesk.takeStop
    split
    · exact (h.stops _ _).reply _
    · exact h.congr rfl
  | abort tag =>
    unfold MsDesk.takeAbort
    split
    · exact h.congr rfl
    · exact (h.fault _).reply _
  | resetTest tag =>
    unfold MsDesk.takeResetTest
    split
    · exact ((h.enter (t := .idle true) .none trivial).answerArm _ _).reply _
    · exact h.congr rfl
  | pause tag =>
    unfold MsDesk.takePause
    split
    · refine MsDesk.Sent.reply (MsDesk.Sent.pauseIfRunning ?_) _
      exact h.congr rfl
    · exact h.congr rfl
  | resume tag =>
    unfold MsDesk.takeResume
    split
    · refine MsDesk.Sent.reply (MsDesk.Sent.resumeIfFree ?_) _
      exact h.congr rfl
    · exact h.congr rfl
  | jog tag rate =>
    unfold MsDesk.takeJog
    simp only
    split
    · next idle =>
      split
      · exact h.congr rfl
      · refine MsDesk.Sent.reply (MsDesk.Sent.enter ?_ .none ?_) _
        · exact h.congr rfl
        · simp [MotionTag.follows, MotionState.opens, idle]
    · exact h.congr rfl
    · exact h.congr rfl
  | jogStop tag =>
    unfold MsDesk.takeJogStop
    split
    · refine MsDesk.Sent.reply (MsDesk.Sent.enter (t := .idle false) ?_ .jogStop trivial) _
      exact h.congr rfl
    · exact h.congr rfl
  | status st =>
    have raised (m : Ms) (drive : DrivePort) (p : Paths) (line : List (List Byte)) (b : Bool) (k : FaultKind) (x : Event) :
        MsDesk.sentItems ⟨m, drive, p.raiseIf b k x, line⟩ = MsDesk.sentItems ⟨m, drive, p, line⟩ := by cases b <;> rfl
    refine h.congr ?_
    simp only [MsDesk.takeStatus, raised]
    rfl
  | outcome b => cases b <;> simp only [MsDesk.takeOutcome] <;> split <;> exact h.congr rfl
  | summary => unfold MsDesk.takeSummary; split <;> exact h.congr rfl
  | fault b kind rest _ =>
    have taken : MsDesk.Sent k { d with paths := d.paths.setFaults b rest } := h.congr (by cases b <;> rfl)
    unfold MsDesk.takeFault
    split
    · exact taken.fault _
    · exact taken
  | criterion e x rest _ =>
    refine MsDesk.Sent.criterionEvent ?_ e
    exact h.congr rfl
  | hold _ =>
    unfold MsDesk.takeHold
    split
    · refine MsDesk.Sent.pauseIfRunning ?_
      exact h.congr rfl
    · exact h.congr rfl
  | removed rest _ =>
    have taken : MsDesk.Sent k { d with paths := { d.paths with removals := rest } } := h.congr rfl
    unfold MsDesk.takeRemovalComplete
    split
    · refine MsDesk.Sent.resumeIfFree ?_
      exact (taken.criterionEvent .released).congr rfl
    · exact taken
  | timeout rest _ =>
    have taken : MsDesk.Sent k { d with paths := { d.paths with removals := rest } } := h.congr rfl
    unfold MsDesk.takeRemovalTimeout
    split
    · exact taken.stops _ _
    · exact taken
  | brk n rest _ =>
    have taken : MsDesk.Sent k { d with paths := { d.paths with teToMs := rest } } := h.congr rfl
    unfold MsDesk.takeBreak
    split
    · exact taken.stops _ _
    · exact taken
  | extTag t rest _ => exact h.congr rfl

end

end Sys2Proof.Machine
end

