-- ==== Sys2Proof/Proofs/SequencerTestLaw.lean ====
section
/-! What a test rests on in MS (R44, R51, R52, R58, R59): an installed program has segments, ARMING holds its reply, and RUNNING and
PAUSED stand on a running segment with a last sample. -/

namespace Sys2Proof.Machine

/-- The states in which MS holds a program and a last sample. -/
def MotionState.tests (m : MotionState) : Prop := m = .arming ∨ m = .armed ∨ m = .running ∨ m = .paused

/-- What `Ms.LawfulTest` speaks of. -/
def Ms.testItems (m : Ms) : MotionState × Option Cursor × Option Program × Option Sample × Option Tag :=
  (m.state, m.cursor, m.program, m.last, m.armReply)

theorem Ms.LawfulTest.congr {m m' : Ms} (h : m.LawfulTest) (items : m'.testItems = m.testItems) : m'.LawfulTest := by
  simp only [Ms.testItems, Prod.mk.injEq] at items
  obtain ⟨state, cursor, program, last, reply⟩ := items
  simpa only [Ms.LawfulTest, Ms.inSegment, state, cursor, program, last, reply] using h

/-- Outside ARMING, ARMED, RUNNING and PAUSED only the program counts. -/
theorem Ms.LawfulTest.outside {m : Ms} (programs : ∀ p, m.program = some p → p.segments ≠ []) (state : ¬ m.state.tests) :
    m.LawfulTest := by
  refine ⟨programs, fun arming => ?_, fun tests => absurd tests state, fun running => ?_⟩
  · exact absurd (.inl arming) state
  · exact absurd (running.elim (fun r => .inr (.inr (.inl r))) fun p => .inr (.inr (.inr p))) state

/-- In a segment of the program, RUNNING and PAUSED are lawful. -/
theorem Ms.LawfulTest.of_inSegment {m : Ms} (programs : ∀ p, m.program = some p → p.segments ≠ []) {i : Nat} {g : Segment}
    {x : Sample} (segment : m.inSegment i g x) (state : m.state = .running ∨ m.state = .paused) : m.LawfulTest := by
  refine ⟨programs, fun arming => ?_, fun _ => ?_, fun _ => ⟨i, g, x, segment⟩⟩
  · rcases state with state | state <;> rw [state] at arming <;> cases arming
  · obtain ⟨-, inProgram, last⟩ := segment
    obtain ⟨p, program, -⟩ := Option.bind_eq_some_iff.1 inProgram
    rw [program, last]
    exact ⟨rfl, rfl⟩

theorem Ms.LawfulTest.programs {m m' : Ms} (h : m.LawfulTest) (same : m'.program = m.program) :
    ∀ p, m'.program = some p → p.segments ≠ [] := by
  rw [same]
  exact h.1

theorem Ms.LawfulTest.segment {m : Ms} (h : m.LawfulTest) (state : m.state = .running ∨ m.state = .paused) :
    ∃ i g x, m.inSegment i g x := h.2.2.2 state

section
variable {d : MsDesk}

/-! ## Entries -/

/-- A desk of the same outline in a state outside the test. -/
theorem MsDesk.lawful_outside {e : MsDesk} (h : d.ms.LawfulTest) (outline : e.outline = d.outline) (state : ¬ e.ms.state.tests) :
    e.ms.LawfulTest := .outside (h.programs (congrArg MsOutline.program outline)) state

theorem MsDesk.enter_state (d : MsDesk) (t : MotionTag) (c : Cause) : (d.enter t c).ms.state = t.state :=
  congrArg (fun i => i.1) (d.enter_sentItems t c)

theorem MsDesk.enter_lawful_outside (h : d.ms.LawfulTest) (t : MotionTag) (c : Cause) (state : ¬ t.state.tests) :
    (d.enter t c).ms.LawfulTest :=
  MsDesk.lawful_outside h (d.outline_enter t c) (by rwa [MsDesk.enter_state])

theorem MotionState.not_tests_of_mem {m : MotionState} (h : m ∈ [.idle, .jogging, .stopped, .faulted]) : ¬ m.tests := by
  unfold MotionState.tests
  simp only [List.mem_cons, List.not_mem_nil, or_false] at h
  rcases h with rfl | rfl | rfl | rfl <;> simp

/-- RUNNING and PAUSED follow each other in the same segment. -/
theorem MsDesk.enter_lawful_testing (h : d.ms.LawfulTest) (state : d.ms.state = .running ∨ d.ms.state = .paused) {t : MotionTag}
    (c : Cause) (testing : t = .running ∨ t = .paused) : (d.enter t c).ms.LawfulTest := by
  obtain ⟨i, g, x, segment⟩ := h.segment state
  rcases testing with rfl | rfl
  · exact Ms.LawfulTest.of_inSegment h.1 (i := i) (g := g) (x := x) segment (.inl rfl)
  · exact Ms.LawfulTest.of_inSegment h.1 (i := i) (g := g) (x := x) segment (.inr rfl)

/-! ## Segments and pauses -/

theorem MsDesk.criterionMet_lawful (h : d.ms.LawfulTest) (running : d.ms.state = .running) : d.criterionMet.ms.LawfulTest := by
  obtain ⟨i, g, x, segment⟩ := h.segment (.inl running)
  rw [MsDesk.criterionMet_does d i g x segment]
  simp only [Ms.criterionEnds]
  split
  · next g' next =>
    have inProgram : (d.ms.program.bind fun p => p.segments[i + 1]?) = some g' := by
      split at next
      · exact next
      · cases next
    exact .of_inSegment h.1 (i := i + 1) (g := g') (x := x) ⟨rfl, inProgram, segment.2.2⟩ (.inl running)
  · exact .outside h.1 (MotionState.not_tests_of_mem (by simp))

theorem MsDesk.criterionEvent_lawful (h : d.ms.LawfulTest) (e : CriterionEvent) : (d.criterionEvent e).ms.LawfulTest := by
  have marked : (d.ms.mark e).LawfulTest := h.congr (by cases e <;> rfl)
  unfold MsDesk.criterionEvent
  split
  · simp only
    split
    · split
      · split
        · next running => exact MsDesk.criterionMet_lawful (d := { d with ms := d.ms.mark e }) marked running
        · split
          · exact marked.congr rfl
          · exact marked
      · exact marked
    · exact marked
  · exact h

theorem MsDesk.resumeIfFree_lawful (h : d.ms.LawfulTest) : d.resumeIfFree.ms.LawfulTest := by
  unfold MsDesk.resumeIfFree
  split
  · next free =>
    have entered := MsDesk.enter_lawful_testing h (.inr free.1) (t := .running) .none (.inl rfl)
    unfold MsDesk.applyPending
    split
    · exact entered
    · refine MsDesk.criterionMet_lawful ?_ (MsDesk.enter_state _ _ _)
      exact entered.congr rfl
  · exact h

theorem MsDesk.pauseIfRunning_lawful (h : d.ms.LawfulTest) : d.pauseIfRunning.ms.LawfulTest := by
  unfold MsDesk.pauseIfRunning
  split
  · next running => exact MsDesk.enter_lawful_testing h (.inl running) .none (.inr rfl)
  · exact h

theorem MsDesk.stops_lawful (h : d.ms.LawfulTest) (e : EndCause) (c : Cause) : ((d.endSegment e).enterStopped c).ms.LawfulTest :=
  MsDesk.lawful_outside h ((MsDesk.outline_enterStopped _ _).trans (d.outline_endSegment _))
    (MotionState.not_tests_of_mem (by simp [MsDesk.enterStopped, MsDesk.enter_state, MotionTag.state]))

theorem MsDesk.fault_lawful (h : d.ms.LawfulTest) (c : Cause) : (d.fault c).ms.LawfulTest :=
  MsDesk.lawful_outside h (d.outline_fault c)
    (MotionState.not_tests_of_mem (by
      simp [MsDesk.fault, MsDesk.answerArm_state, MsDesk.enterFaulted, MsDesk.enter_state, MotionTag.state]))

/-! ## Samples -/

theorem MsDesk.setDemand_lawful (h : d.ms.LawfulTest) (x : Sample) (r : Int × Option Int) : (d.setDemand x r).ms.LawfulTest := by
  have moved : Ms.LawfulTest { d.ms with demand := r.1 } := h.congr rfl
  unfold MsDesk.setDemand
  simp only
  split
  · exact moved
  · split
    · refine MsDesk.stops_lawful ?_ _ _
      exact moved
    · refine MsDesk.enter_lawful_outside ?_ _ _ (MotionState.not_tests_of_mem (by simp [MotionTag.state]))
      exact moved

theorem MsDesk.crossheadSample_lawful (h : d.ms.LawfulTest) (i : Nat) (g : Segment) (x : Sample) :
    (d.crossheadSample i g x).ms.LawfulTest := by
  unfold MsDesk.crossheadSample
  split
  · simp only
    split <;> exact h.congr rfl
  · simp only
    refine (MsDesk.pauseIfRunning_lawful ?_).congr rfl
    exact h.congr rfl

theorem MsDesk.runSample_lawful (h : d.ms.LawfulTest) (x : Sample) (running : d.ms.state = .running) :
    (d.runSample x).ms.LawfulTest := by
  have criterion {d : MsDesk} (h : d.ms.LawfulTest) (running : d.ms.state = .running) : (d.testCriterion x).ms.LawfulTest := by
    unfold MsDesk.testCriterion
    split
    · split
      · exact MsDesk.criterionMet_lawful h running
      · exact h
    · exact h
  have source {d : MsDesk} (h : d.ms.LawfulTest) : (d.checkSource x).ms.LawfulTest := by
    unfold MsDesk.checkSource
    split
    · split
      · exact MsDesk.crossheadSample_lawful h _ _ x
      · exact h
    · exact h
  have move {d : MsDesk} (h : d.ms.LawfulTest) : (d.moveDemand x).ms.LawfulTest := by
    unfold MsDesk.moveDemand
    split
    · split
      · refine MsDesk.setDemand_lawful ?_ x _
        exact h.congr rfl
      · exact h
    · exact h
  refine move (source (criterion ?_ running))
  exact h.congr rfl

theorem MsDesk.jogSample_lawful (h : d.ms.LawfulTest) (x : Sample) : (d.jogSample x).ms.LawfulTest := by
  have idle {d : MsDesk} (c : Cause) (h : d.ms.LawfulTest) : (d.enter (.idle false) c).ms.LawfulTest :=
    MsDesk.enter_lawful_outside h _ _ (MotionState.not_tests_of_mem (by simp [MotionTag.state]))
  unfold MsDesk.jogSample
  split
  · exact (idle _ h).congr rfl
  · split
    · have set : Ms.LawfulTest { d.ms with demand := x.position * q32, jogEnabling := false } := h.congr rfl
      simp only
      split
      · exact set
      · exact (idle (d := { d with ms := { d.ms with demand := x.position * q32, jogEnabling := false } }) .travelLimit set).congr rfl
    · exact MsDesk.setDemand_lawful h x _

/-- ARMED is entered from ARMING with the program and the sample held. -/
theorem MsDesk.armingSample_lawful (h : d.ms.LawfulTest) (x : Sample) (arming : d.ms.state = .arming) :
    (d.armingSample x).ms.LawfulTest := by
  have unmarked := h
  obtain ⟨programs, -, held, -⟩ := h
  have set : Ms.LawfulTest { d.ms with state := .armed, cause := .none, demand := x.position * q32 } :=
    ⟨programs, nofun, fun _ => held (.inl arming), by simp⟩
  have answered (st : Status) (p : Payload) : ((MsDesk.enter { d with ms := { d.ms with demand := x.position * q32 } } .armed .none).answerArm
      st p).ms.LawfulTest := by
    unfold MsDesk.answerArm
    split
    · exact set
    · exact ⟨programs, nofun, fun _ => held (.inl arming), by simp [MsDesk.enter, Ms.enter, MotionTag.endsTest, MsDesk.reply]⟩
  unfold MsDesk.armingSample MsDesk.completeArming
  split
  · simp only
    split
    · exact answered _ _
    · exact (MsDesk.enter_lawful_outside (answered _ _) (.faulted .travelLimit) .travelLimit
        (MotionState.not_tests_of_mem (by simp [MotionTag.state]))).congr rfl
  · exact unmarked

theorem MsDesk.takeSample_lawful (h : d.ms.LawfulTest) (x : Sample) : (d.takeSample x).ms.LawfulTest := by
  have held : Ms.LawfulTest { d.ms with last := some x } := by
    obtain ⟨programs, reply, held, segment⟩ := h
    refine ⟨programs, reply, fun tests => ⟨(held tests).1, rfl⟩, fun testing => ?_⟩
    obtain ⟨i, g, _, cursor, inProgram, -⟩ := segment testing
    exact ⟨i, g, x, cursor, inProgram, rfl⟩
  have acts {d : MsDesk} (h : d.ms.LawfulTest) : (d.actsOnSample x).ms.LawfulTest := by
    unfold MsDesk.actsOnSample
    split
    · next running => exact MsDesk.runSample_lawful h x running
    · exact MsDesk.jogSample_lawful h x
    · next arming => exact MsDesk.armingSample_lawful h x arming
    · exact h
    · exact h
    · exact h
    · exact h
    · exact h
  rw [MsDesk.takeSample_eq]
  exact (acts (d := { d with ms := { d.ms with last := some x } }) held).congr rfl

/-! ## Requests and messages -/

theorem MsDesk.startSegment_lawful (programs : ∀ p, d.ms.program = some p → p.segments ≠ []) {i : Nat} {g : Segment} {x : Sample}
    (inProgram : d.ms.segmentAt i = some g) (last : d.ms.last = some x) (state : d.ms.state = .running ∨ d.ms.state = .paused) :
    (d.startSegment i).ms.LawfulTest := by
  rw [MsDesk.startSegment_does d i g x inProgram last]
  exact .of_inSegment programs (i := i) (g := g) (x := x) ⟨rfl, inProgram, last⟩ state

/-- START begins segment 0, which a lawful program has. -/
theorem MsDesk.takeStart_lawful (h : d.ms.LawfulTest) (tag : Tag) : (d.takeStart tag).ms.LawfulTest := by
  unfold MsDesk.takeStart
  split
  · next armed =>
    obtain ⟨programs, -, held, -⟩ := h
    obtain ⟨hasProgram, hasLast⟩ := held (.inr (.inl armed))
    obtain ⟨p, program⟩ := Option.isSome_iff_exists.1 hasProgram
    obtain ⟨x, last⟩ := Option.isSome_iff_exists.1 hasLast
    obtain ⟨g, gs, segments⟩ := List.exists_cons_of_ne_nil (programs p program)
    have first : (d.ms.program.bind fun p => p.segments[0]?) = some g := by rw [program]; simp [segments]
    refine Ms.LawfulTest.congr (MsDesk.startSegment_lawful (g := g) (x := x) ?_ ?_ ?_ (.inl ?_)) rfl
    · exact programs
    · exact first
    · exact last
    · rfl
  · exact h
  · exact h

theorem MsDesk.armRefusal_last {d : MsDesk} (h : d.armRefusal = none) : d.ms.last.isSome = true := by
  have judged : d.ms.positionRefusal = none := by
    unfold MsDesk.armRefusal at h
    simp only at h
    iterate 4
      split at h
      · cases h
    split at h
    · cases h
    split at h
    · cases h
    split at h
    · cases h
    split at h
    · cases h
    split at h
    · cases h
    · assumption
  unfold Ms.positionRefusal at judged
  split at judged
  · cases judged
  · next last _ => rw [last]; rfl
  · next last _ => rw [last]; rfl

/-- ARM is accepted with a program and a last sample. -/
theorem MsDesk.takeArm_lawful (h : d.ms.LawfulTest) (tag : Tag) : (d.takeArm tag).ms.LawfulTest := by
  unfold MsDesk.takeArm
  split
  · exact h
  · next accepted program =>
    have last : d.ms.last.isSome = true := MsDesk.armRefusal_last accepted
    have held : d.ms.program.isSome = true := by rw [program]; rfl
    exact ⟨h.1, fun _ => rfl, fun _ => ⟨held, last⟩, by simp [MsDesk.acceptArm, MsDesk.enter, Ms.enter, MotionTag.endsTest]⟩
  · exact h

theorem checkProgram_segments {r : RawProgram} {p : Program} {n : Nat} (h : checkProgram r = .ok (p, n)) : p.segments ≠ [] := by
  have first (c : Criterion) (i : Nat) (raw : List RawSegment) (segs : List Segment × Nat) (some_raw : raw ≠ [])
      (checked : checkSegments c i raw = .ok segs) : segs.1 ≠ [] := by
    obtain ⟨s, rest, rfl⟩ := List.exists_cons_of_ne_nil some_raw
    unfold checkSegments at checked
    split at checked
    · cases checked
    · cases others : checkSegments c (i + 1) rest with
      | error e => rw [others] at checked; cases checked
      | ok l =>
        rw [others] at checked
        cases checked
        exact List.cons_ne_nil _ _
  unfold checkProgram at h
  split at h
  · cases h
  split at h
  · split at h
    · cases h
    split at h
    · cases h
    next count =>
      rename_i criterion _ _ _
      cases checked : checkSegments criterion 0 r.segments with
      | error e => rw [checked] at h; cases h
      | ok segs =>
        rw [checked] at h
        cases h
        exact first criterion 0 r.segments segs (fun empty => count (.inl (by rw [empty]; rfl))) checked
  · cases h

theorem MsDesk.takeProgram_lawful (h : d.ms.LawfulTest) (tag : Tag) (l : ProgramLoad) : (d.takeProgram tag l).ms.LawfulTest := by
  unfold MsDesk.takeProgram
  split
  · exact h
  · next unlocked =>
    have outside : ¬ d.ms.state.tests := by
      refine MotionState.not_tests_of_mem ?_
      rcases (Ms.unlocked_iff d.ms).1 (by simpa using unlocked) with state | state <;> simp [state]
    split
    · refine Ms.LawfulTest.congr (m := (d.install none).ms) ?_ rfl
      exact .outside (fun q installed => nomatch (show (none : Option Program) = some q from installed)) outside
    · split
      · exact h
      · next p clamps checked =>
        refine Ms.LawfulTest.congr (m := (d.install (some p)).ms) ?_ rfl
        refine .outside (fun q installed => ?_) outside
        obtain rfl : p = q := Option.some.inj installed
        exact checkProgram_segments checked

end

theorem MsMove.lawfulTest {o : Option Instr} {d e : MsDesk} (m : MsMove d o e) (h : d.ms.LawfulTest) : e.ms.LawfulTest := by
  cases m with
  | readback tag pointer count => exact h
  | program tag l => exact MsDesk.takeProgram_lawful h tag l
  | calLoad tag l => unfold MsDesk.takeCalLoad; split <;> exact h.congr rfl
  | evalLoad tag l => unfold MsDesk.takeEvalLoad; split <;> exact h.congr rfl
  | store tag => unfold MsDesk.takeStore; split <;> exact h
  | arm tag => exact MsDesk.takeArm_lawful h tag
  | start tag => exact MsDesk.takeStart_lawful h tag
  | stop tag =>
    unfold MsDesk.takeStop
    split
    · exact (MsDesk.stops_lawful h _ _).congr rfl
    · exact h
  | abort tag =>
    unfold MsDesk.takeAbort
    split
    · exact h
    · exact (MsDesk.fault_lawful h _).congr rfl
  | resetTest tag =>
    unfold MsDesk.takeResetTest
    split
    · exact MsDesk.lawful_outside h
        ((MsDesk.outline_reply _ _).trans ((MsDesk.outline_answerArm _ _ _).trans (d.outline_enter _ _)))
        (MotionState.not_tests_of_mem (by simp [MsDesk.reply, MsDesk.answerArm_state, MsDesk.enter_state, MotionTag.state]))
    · exact h
  | pause tag =>
    unfold MsDesk.takePause
    split
    · refine Ms.LawfulTest.congr (MsDesk.pauseIfRunning_lawful ?_) rfl
      exact h.congr rfl
    · exact h
  | resume tag =>
    unfold MsDesk.takeResume
    split
    · refine Ms.LawfulTest.congr (MsDesk.resumeIfFree_lawful ?_) rfl
      exact h.congr rfl
    · exact h
  | jog tag rate =>
    unfold MsDesk.takeJog
    simp only
    split
    · split
      · exact h
      · refine Ms.LawfulTest.congr (MsDesk.enter_lawful_outside ?_ .jogging .none (MotionState.not_tests_of_mem ?_)) rfl
        · exact h.congr rfl
        · simp [MotionTag.state]
    · exact h.congr rfl
    · exact h
  | jogStop tag =>
    unfold MsDesk.takeJogStop
    split
    · refine Ms.LawfulTest.congr (MsDesk.enter_lawful_outside ?_ (.idle false) .jogStop (MotionState.not_tests_of_mem ?_)) rfl
      · exact h.congr rfl
      · simp [MotionTag.state]
    · exact h
  | status st => exact h
  | outcome b => cases b <;> simp only [MsDesk.takeOutcome] <;> split <;> exact h.congr rfl
  | summary =>
    unfold MsDesk.takeSummary
    split
    · exact h.congr rfl
    · exact h
  | fault b kind rest _ =>
    unfold MsDesk.takeFault
    split
    · refine MsDesk.fault_lawful ?_ _
      exact h
    · exact h
  | criterion e x rest _ =>
    refine MsDesk.criterionEvent_lawful ?_ e
    exact h
  | hold _ =>
    unfold MsDesk.takeHold
    split
    · refine MsDesk.pauseIfRunning_lawful ?_
      exact h.congr rfl
    · exact h
  | removed rest _ =>
    unfold MsDesk.takeRemovalComplete
    split
    · refine MsDesk.resumeIfFree_lawful ?_
      exact (MsDesk.criterionEvent_lawful (d := { d with paths := { d.paths with removals := rest } }) h .released).congr rfl
    · exact h
  | timeout rest _ =>
    unfold MsDesk.takeRemovalTimeout
    split
    · refine MsDesk.stops_lawful ?_ _ _
      exact h
    · exact h
  | brk n rest _ =>
    unfold MsDesk.takeBreak
    split
    · refine MsDesk.stops_lawful ?_ _ _
      exact h
    · exact h
  | extTag t rest _ => exact h.congr rfl

end Sys2Proof.Machine
end

