-- ==== Sys2Proof/Proofs/SupervisorTestLaw.lean ====
section
/-! ES supervises with an arm copy and a source seen (R100, R104), and only the taking of an arm copy changes the copy it holds. -/

namespace Sys2Proof.Machine

/-- ES works from its copy in this state. -/
def ExtState.supervises (e : ExtState) : Prop := e = .active ∨ ∃ sub, e = .removalPending sub

theorem Es.lawfulTest_of_not {e : Es} (h : ¬ e.state.supervises) : e.LawfulTest := fun state => absurd state h

/-- ES keeps its copy, and its invariant. -/
structure EsDesk.Keeps (d e : EsDesk) : Prop where
  copy : e.es.copy = d.es.copy
  lawful : d.es.LawfulTest → e.es.LawfulTest

section
variable {d e f : EsDesk}

theorem EsDesk.Keeps.refl (d : EsDesk) : d.Keeps d := ⟨rfl, id⟩

theorem EsDesk.Keeps.trans (first : d.Keeps e) (second : e.Keeps f) : d.Keeps f :=
  ⟨second.copy.trans first.copy, fun h => second.lawful (first.lawful h)⟩

/-- State, copy and source seen as they were. -/
theorem EsDesk.Keeps.of_items (h : (e.es.state, e.es.copy, e.es.sourceSeen) = (d.es.state, d.es.copy, d.es.sourceSeen)) : d.Keeps e := by
  simp only [Prod.mk.injEq] at h
  obtain ⟨state, copy, seen⟩ := h
  exact ⟨copy, fun lawful => by simpa only [Es.LawfulTest, state, copy, seen] using lawful⟩

/-- From a desk with the same state. -/
theorem EsDesk.Keeps.since (h : e.Keeps f) (same : e.es = d.es) : d.Keeps f := ⟨same ▸ h.copy, same ▸ h.lawful⟩

theorem EsDesk.Keeps.reply (h : d.Keeps e) (r : Reply) : d.Keeps (e.reply r) := ⟨h.copy, h.lawful⟩

theorem EsDesk.Keeps.confirmed (h : d.Keeps e) (tag : Tag) : d.Keeps (e.confirmed tag) := ⟨h.copy, h.lawful⟩

/-- A state in which ES does not supervise. -/
theorem EsDesk.Keeps.of_not (copy : e.es.copy = d.es.copy) (state : ¬ e.es.state.supervises) : d.Keeps e :=
  ⟨copy, fun _ => Es.lawfulTest_of_not state⟩

/-- A supervising state follows another, with copy and source seen as they were. -/
theorem EsDesk.Keeps.of_supervising (was : d.es.state.supervises) (copy : e.es.copy = d.es.copy)
    (seen : e.es.sourceSeen = d.es.sourceSeen ∨ e.es.sourceSeen.isSome = true) : d.Keeps e := by
  refine ⟨copy, fun lawful _ => ?_⟩
  obtain ⟨hasCopy, hasSeen⟩ := lawful was
  refine ⟨copy ▸ hasCopy, ?_⟩
  rcases seen with same | some_seen
  · exact same ▸ hasSeen
  · exact some_seen

theorem EsDesk.Keeps.tagIfChanged (h : d.Keeps e) (was : ExtName) : d.Keeps (e.tagIfChanged was) := by
  refine h.trans (.of_items ?_)
  unfold EsDesk.tagIfChanged
  split <;> rfl

theorem ExtState.seating_not_supervises (f : Option Fitted) (a b : Bool) : ¬ (seating f a b).supervises := by
  rcases f with _ | f
  · simp [seating, ExtState.supervises]
  · cases f <;> cases a <;> cases b <;> simp [seating, ExtState.supervises]

theorem Es.judge_not_supervises (e : Es) : ¬ e.judge.supervises := by
  unfold Es.judge
  split <;> exact ExtState.seating_not_supervises _ _ _

/-! ## A sample -/

theorem EsDesk.demote_keeps (x : Sample) (active : d.es.state = .active) : d.Keeps (d.demote x) := by
  unfold EsDesk.demote
  split
  · exact .refl d
  · split
    · exact .refl d
    · simp only
      split
      · exact .of_not rfl (by simp [ExtState.supervises, EsDesk.event, EsDesk.sendTag])
      · split <;> exact .of_supervising (.inl active) rfl (.inr rfl)

theorem EsDesk.judgeSlip_keeps (x : Sample) : d.Keeps (d.judgeSlip x) := by
  have slip (d : EsDesk) (i : ArmId) : d.Keeps (d.slip x i) := by
    unfold EsDesk.slip
    split
    · cases i <;> exact .of_items rfl
    · exact .refl d
  exact (slip d .a).trans (slip _ .b)

theorem EsDesk.startRemoval_keeps (c : Criterion) (n : Option Nat) (strain : Int) (active : d.es.state = .active) :
    d.Keeps (d.startRemoval c n strain) := .of_supervising (.inl active) rfl (.inl rfl)

theorem EsDesk.testRemoval_keeps (x : Sample) (active : d.es.state = .active) : d.Keeps (d.testRemoval x) := by
  unfold EsDesk.testRemoval
  split
  · exact EsDesk.startRemoval_keeps _ _ _ active
  · exact .refl d

theorem EsDesk.whileActive_keeps {g : EsDesk → EsDesk} (h : ∀ d : EsDesk, d.es.state = .active → d.Keeps (g d)) :
    d.Keeps (d.whileActive g) := by
  unfold EsDesk.whileActive
  split
  · next active => exact h d active.1
  · exact .refl d

theorem EsDesk.release_keeps (n : Option Nat) (s : Option Source) (inTime : Bool) : d.Keeps (d.release n s inTime) := by
  unfold EsDesk.release
  cases inTime <;> exact .of_not rfl (by simp [ExtState.supervises, EsDesk.event, EsDesk.sendTag])

theorem EsDesk.judgeOpen_keeps (x : Sample) : d.Keeps (d.judgeOpen x) := by
  unfold EsDesk.judgeOpen
  split
  · next sub pending =>
    split
    · split
      · exact .of_supervising (.inr ⟨_, pending⟩) rfl (.inl rfl)
      · exact EsDesk.release_keeps _ _ _
      · exact EsDesk.release_keeps _ _ _
      · exact .refl d
    · exact .refl d
  · exact .refl d

theorem EsDesk.actOn_keeps (x : Sample) : d.Keeps (d.actOn x) := by
  unfold EsDesk.actOn
  split
  · next active =>
    have slips := EsDesk.whileActive_keeps (d := d.demote x) (g := fun d => d.judgeSlip x) fun _ _ => EsDesk.judgeSlip_keeps x
    have removal (d : EsDesk) := EsDesk.whileActive_keeps (d := d) (g := fun d => d.testRemoval x) fun _ => EsDesk.testRemoval_keeps x
    exact (((EsDesk.demote_keeps x active).trans slips).trans (removal _)).trans (EsDesk.judgeOpen_keeps x)
  · next sub pending =>
    have seen : d.Keeps { d with es := { d.es with sourceSeen := some x.source } } :=
      .of_supervising (.inr ⟨sub, pending⟩) rfl (.inr rfl)
    exact seen.trans (EsDesk.judgeOpen_keeps x)
  · exact .refl d
  · exact .refl d
  · exact .refl d
  · exact .refl d
  · exact .refl d

theorem EsDesk.seat_keeps (x : Sample) : d.Keeps (d.seat x) := by
  have judged : d.Keeps (if d.es.tag.state.judgesSeating then
      EsDesk.tagIfChanged { d with es := { d.es with state := seating d.es.fitted x.contactA x.contactB } } d.es.state.name
    else d) := by
    split
    · have seated : d.Keeps { d with es := { d.es with state := seating d.es.fitted x.contactA x.contactB } } :=
        .of_not rfl (ExtState.seating_not_supervises _ _ _)
      exact seated.tagIfChanged _
    · exact .refl d
  unfold EsDesk.seat
  split
  · exact judged
  · exact judged
  · exact judged
  · exact .refl d

theorem EsDesk.takeSample_keeps (x : Sample) : d.Keeps (d.takeSample x) :=
  ((EsDesk.actOn_keeps x).trans (EsDesk.seat_keeps x)).trans (.of_items rfl)

/-! ## Tags, requests and events -/

/-- ACTIVE is entered with the top source of the copy (R100). -/
theorem Es.onTag_keeps (e : Es) (t : MotionTag) (p p' : Paths) : EsDesk.Keeps ⟨e, p⟩ ⟨e.onTag t, p'⟩ := by
  cases t with
  | idle _ => exact .of_not rfl (Es.judge_not_supervises _)
  | armed =>
    unfold Es.onTag
    simp only
    split
    · exact .of_not rfl (by simp [ExtState.supervises])
    · next top hasTop =>
      refine ⟨rfl, fun _ _ => ⟨?_, rfl⟩⟩
      show e.copy.isSome = true
      cases copy : e.copy with
      | none => simp [Es.copyFitted, copy, topSource] at hasTop
      | some _ => rfl
  | faulted _ =>
    unfold Es.onTag
    simp only
    split <;> exact .of_items rfl
  | _ => exact .of_items rfl

theorem EsDesk.takeTag_keeps (t : MotionTag) : d.Keeps (d.takeTag t) :=
  EsDesk.Keeps.tagIfChanged (d.es.onTag_keeps t _ _) _

theorem EsDesk.takeNotice_keeps (g : Nat) (f : Option Fitted) : d.Keeps (d.takeNotice g f) := by
  unfold EsDesk.takeNotice
  simp only
  split
  · exact .of_not rfl (Es.judge_not_supervises _)
  · exact .of_items rfl

theorem EsDesk.failAtBreak_keeps (n : Nat) : d.Keeps (d.failAtBreak n) :=
  .of_not rfl (by simp [ExtState.supervises, EsDesk.failAtBreak, EsDesk.event, EsDesk.sendTag])

theorem EsDesk.takeConfirm_keeps (tag : Tag) : d.Keeps (d.takeConfirm tag) := by
  unfold EsDesk.takeConfirm
  split
  · next sub pending =>
    split
    · exact .of_items rfl
    · split
      · exact .of_supervising (.inr ⟨_, pending⟩) rfl (.inl rfl)
      · exact (EsDesk.release_keeps _ _ _).confirmed tag
      · exact .of_items rfl
  · split <;> exact .of_items rfl

theorem EsDesk.expireRemoval_keeps : d.Keeps d.expireRemoval := by
  unfold EsDesk.expireRemoval
  split
  · have timedOut : d.Keeps { d with es := { d.es with timedOut := true, timer := none } } := .of_items rfl
    simp only
    split
    · exact timedOut.trans ((EsDesk.release_keeps _ _ _).since rfl)
    · exact timedOut.trans (.of_items rfl)
  · exact .refl d

/-- A move of ES keeps the copy, or takes the one at the head of MS's path; no other message is one. -/
theorem EsMove.keeps {o : Option Instr} (m : EsMove d o e) :
    (d.Keeps e ∧ (e.paths.msToEs = d.paths.msToEs ∨ ∃ x, (∀ c, x ≠ .armCopy c) ∧ d.paths.msToEs = x :: e.paths.msToEs)) ∨
      ∃ c, d.paths.msToEs = .armCopy c :: e.paths.msToEs ∧ e.es = { d.es with copy := some c } := by
  have same {e : EsDesk} (keeps : d.Keeps e) (trunk : e.paths.trunk = d.paths.trunk) :
      (d.Keeps e ∧ (e.paths.msToEs = d.paths.msToEs ∨ ∃ x, (∀ c, x ≠ .armCopy c) ∧ d.paths.msToEs = x :: e.paths.msToEs)) ∨
      ∃ c, d.paths.msToEs = .armCopy c :: e.paths.msToEs ∧ e.es = { d.es with copy := some c } :=
    .inl ⟨keeps, .inl (congrArg Trunk.toEs trunk)⟩
  cases m with
  | armCopy c rest h => exact .inr ⟨c, h, rfl⟩
  | notice g f rest h =>
    refine .inl ⟨(EsDesk.takeNotice_keeps g f).since rfl, .inr ⟨.notice g f, nofun, ?_⟩⟩
    exact h
  | tag t rest h =>
    refine .inl ⟨(EsDesk.takeTag_keeps t).since rfl, .inr ⟨.tag t, nofun, ?_⟩⟩
    rw [h]
    unfold EsDesk.takeTag EsDesk.tagIfChanged
    split <;> rfl
  | remove tag =>
    refine same ?_ (d.takeRemove_trunk tag)
    unfold EsDesk.takeRemove
    simp only
    split
    · next active => exact (EsDesk.startRemoval_keeps .manual _ _ active.1).reply _
    · split <;> exact .of_items rfl
  | confirm tag => exact same (EsDesk.takeConfirm_keeps tag) (d.takeConfirm_trunk tag)
  | sample x rest _ =>
    exact same ((EsDesk.takeSample_keeps x).since rfl) (EsDesk.takeSample_trunk _ x)
  | criterion c n strain x rest _ =>
    refine same ?_ (EsDesk.takeCriterion_trunk _ c n strain)
    unfold EsDesk.takeCriterion
    split
    · next active =>
      split
      · exact (EsDesk.startRemoval_keeps _ _ _ active.1).since rfl
      · exact .of_items rfl
    · exact .of_items rfl
  | expiry => exact same EsDesk.expireRemoval_keeps d.expireRemoval_trunk
  | brk n rest _ =>
    refine same ?_ (EsDesk.takeBreak_trunk _ n)
    unfold EsDesk.takeBreak
    split
    · exact (EsDesk.failAtBreak_keeps n).since rfl
    · split
      · exact .of_items rfl
      · split
        · exact .of_items rfl
        · exact (EsDesk.failAtBreak_keeps n).since rfl
    · exact .of_items rfl

theorem EsMove.lawfulTest {o : Option Instr} (m : EsMove d o e) (h : d.es.LawfulTest) : e.es.LawfulTest := by
  rcases m.keeps with ⟨keeps, -⟩ | ⟨c, -, taken⟩
  · exact keeps.lawful h
  · rw [taken]
    exact fun state => ⟨rfl, (h state).2⟩

end

end Sys2Proof.Machine
end

