-- ==== Sys2Proof/Proofs/EvaluatorTestLaw.lean ====
section
/-! What the detectors of TE rest on while a test is open (R52, R122, R130), and what TE takes from the path of MS. -/

namespace Sys2Proof.Machine

/-- The detectors: PLATEAU has a ReH, WATCHING a pre-break candidate, and WAITING a maximum below the break minimum force. -/
structure Te.Detects (t : Te) (p : EvalParams) : Prop where
  plateau : t.yieldState = .plateau → t.working.reH.isSome = true
  watching : t.breakState = .watching → t.candidate.isSome = true
  waiting : t.breakState = .waiting → ∀ m ∈ t.working.fm, m.force < p.breakMinForce

/-- What they speak of. -/
def Te.detectItems (t : Te) : YieldState × Option SourcePoint × BreakState × Option Point × Option Point :=
  (t.yieldState, t.working.reH, t.breakState, t.candidate, t.working.fm)

theorem Te.Detects.congr {t t' : Te} {p : EvalParams} (h : t.Detects p) (items : t'.detectItems = t.detectItems) : t'.Detects p := by
  simp only [Te.detectItems, Prod.mk.injEq] at items
  obtain ⟨yieldState, reH, breakState, candidate, fm⟩ := items
  exact ⟨by rw [yieldState, reH]; exact h.plateau, by rw [breakState, candidate]; exact h.watching,
    by rw [breakState, fm]; exact h.waiting⟩

theorem Te.lawfulTest_iff (t : Te) :
    t.LawfulTest ↔ (t.testOpen = true → t.copy.isSome = true ∧ ∃ p, t.params = some p ∧ t.Detects p) := by
  unfold Te.LawfulTest
  refine forall_congr' fun _ => and_congr_right fun _ => ⟨fun ⟨params, plateau, watching, waiting⟩ => ?_, fun ⟨p, params, h⟩ => ?_⟩
  · obtain ⟨p, hp⟩ := Option.isSome_iff_exists.1 params
    exact ⟨p, hp, plateau, watching, fun w m hm => waiting w m hm p hp⟩
  · refine ⟨by rw [params]; rfl, h.plateau, h.watching, fun w m hm q hq => ?_⟩
    cases params.symm.trans hq
    exact h.waiting w m hm

/-! ## The stages of a sample -/

/-- The detectors between stage 1 and stage 5 of a sample that raised Fm, or did not. -/
structure Te.DetectsOn (t : Te) (p : EvalParams) (raised : Bool) : Prop where
  plateau : t.yieldState = .plateau → t.working.reH.isSome = true
  watching : t.breakState = .watching → t.candidate.isSome = true
  waiting : t.breakState = .waiting → raised = false → ∀ m ∈ t.working.fm, m.force < p.breakMinForce

section
variable {t : Te} {d : TeDesk} {p : EvalParams} {raised : Bool}

theorem Te.DetectsOn.congr {t' : Te} (h : t.DetectsOn p raised) (items : t'.detectItems = t.detectItems) : t'.DetectsOn p raised := by
  simp only [Te.detectItems, Prod.mk.injEq] at items
  obtain ⟨yieldState, reH, breakState, candidate, fm⟩ := items
  exact ⟨by rw [yieldState, reH]; exact h.plateau, by rw [breakState, candidate]; exact h.watching,
    by rw [breakState, fm]; exact h.waiting⟩

theorem Te.Detects.trackMax (h : t.Detects p) (x : Sample) : (t.trackMax x).DetectsOn p (t.raisesMax x) := by
  unfold Te.trackMax
  split
  · next raises => exact ⟨h.plateau, h.watching, fun _ kept => absurd (raises.symm.trans kept) nofun⟩
  · exact ⟨h.plateau, h.watching, fun w _ => h.waiting w⟩

theorem Te.takePeak_detectItems (t : Te) (x : Sample) : (t.takePeak x).detectItems = t.detectItems := by
  unfold Te.takePeak
  split
  · rfl
  · split <;> rfl

/-- Stage 2 enters PLATEAU with a ReH. -/
theorem Te.DetectsOn.judgeYield (h : d.te.DetectsOn p raised) (x : Sample) : (d.judgeYield p x).te.DetectsOn p raised := by
  unfold TeDesk.judgeYield
  split
  · have peak : (d.te.takePeak x).DetectsOn p raised := h.congr (d.te.takePeak_detectItems x)
    unfold TeDesk.seekYield
    simp only
    split
    · exact peak
    · split
      · exact ⟨fun _ => rfl, peak.watching, peak.waiting⟩
      · split
        · exact ⟨nofun, peak.watching, peak.waiting⟩
        · exact peak
  · unfold TeDesk.followPlateau
    split
    · exact h
    · split
      · exact ⟨nofun, h.watching, h.waiting⟩
      · split
        · exact h
        · refine h.congr ?_
          simp only [Te.countLower]
          split
          · rfl
          · split <;> rfl
  · exact h
  · exact h

theorem TeDesk.judgeFit_detectItems (d : TeDesk) (p : EvalParams) (x : Sample) :
    (d.judgeFit p x).te.detectItems = d.te.detectItems := by
  unfold TeDesk.judgeFit TeDesk.closeFit
  split
  · rfl
  split
  · rfl
  split
  · simp only
    split <;> rfl
  split <;> rfl

theorem Te.DetectsOn.judgeRunning (h : d.te.DetectsOn p raised) (x : Sample) : (d.judgeRunning p x).te.DetectsOn p raised := by
  have fitted : ((d.judgeYield p x).judgeFit p x).te.DetectsOn p raised :=
    (h.judgeYield x).congr (TeDesk.judgeFit_detectItems _ p x)
  unfold TeDesk.judgeRunning TeDesk.judgeProof
  simp only
  split
  · split
    · exact fitted.congr rfl
    · exact fitted
  · exact fitted

/-- A confirmed break leaves no plateau open. -/
theorem TeDesk.confirmBreak_detects (d : TeDesk) (p : EvalParams) (x : Sample) : (d.confirmBreak x).te.Detects p := by
  have closed (u : TeDesk) (confirmed : u.te.breakState = .confirmed) :
      (u.closeOpenFit (some x.number)).te.closeProof.closeYield.Detects p := by
    have items : (u.closeOpenFit (some x.number)).te.closeProof.detectItems = u.te.detectItems := by
      unfold TeDesk.closeOpenFit Te.closeProof
      split <;> split <;> rfl
    have broken : (u.closeOpenFit (some x.number)).te.closeProof.breakState = .confirmed :=
      (congrArg (fun i => i.2.2.1) items).trans confirmed
    generalize (u.closeOpenFit (some x.number)).te.closeProof = v at broken ⊢
    unfold Te.closeYield
    split
    · exact ⟨nofun, fun w => (nomatch broken.symm.trans w), fun w => (nomatch broken.symm.trans w)⟩
    · next open_ =>
      exact ⟨fun plateau => absurd plateau open_, fun w => (nomatch broken.symm.trans w), fun w => (nomatch broken.symm.trans w)⟩
  have all := closed { d with te := { d.te with breakConfirmed := true, breakState := .confirmed } } rfl
  unfold TeDesk.confirmBreak
  simp only
  split
  · exact all
  · exact all.congr rfl

/-- WATCHING keeps its candidate on a drop, and takes a new one else. -/
theorem Te.DetectsOn.watchBreak (h : d.te.DetectsOn p raised) (x : Sample) (watching : d.te.breakState = .watching) :
    (d.watchBreak p x raised).te.Detects p := by
  have notWaiting (w : d.te.breakState = .waiting) : ∀ m ∈ d.te.working.fm, m.force < p.breakMinForce := nomatch watching.symm.trans w
  unfold TeDesk.watchBreak
  split
  · simp only
    split
    · exact TeDesk.confirmBreak_detects _ p x
    · exact ⟨h.plateau, h.watching, notWaiting⟩
  · exact ⟨h.plateau, fun _ => rfl, notWaiting⟩

theorem Te.DetectsOn.judgeBreak (h : d.te.DetectsOn p raised) (x : Sample) : (d.judgeBreak p x raised).te.Detects p := by
  unfold TeDesk.judgeBreak
  split
  · next waiting =>
    split
    · next reached =>
      -- the sample that brings Fm to the minimum has raised it, so it is no drop sample and becomes the candidate
      have raises : raised = true := by
        cases raised with
        | true => rfl
        | false =>
          obtain ⟨m, hm, above⟩ := (Option.any_eq_true _ _).1 reached
          exact absurd (of_decide_eq_true above) (not_le.2 (h.waiting waiting rfl m hm))
      unfold TeDesk.watchBreak Te.drops
      rw [raises]
      exact ⟨h.plateau, fun _ => rfl, nofun⟩
    · next below =>
      refine ⟨h.plateau, h.watching, fun _ m hm => ?_⟩
      by_contra above
      exact below (by simpa [Te.maxReached, Option.mem_def.1 hm] using above)
  · next watching => exact h.watchBreak x watching
  · next confirmed =>
    exact ⟨h.plateau, h.watching, fun waiting => (nomatch confirmed.symm.trans waiting)⟩

theorem Te.Detects.judge (h : d.te.Detects p) (x : Sample) : (d.judge p x).te.Detects p := by
  unfold TeDesk.judge
  simp only
  refine Te.DetectsOn.judgeBreak ?_ x
  have tracked : Te.DetectsOn (d.te.trackMax x) p (d.te.raisesMax x) := h.trackMax x
  split
  · exact Te.DetectsOn.judgeRunning (d := { d with te := d.te.trackMax x }) tracked x
  · exact tracked

/-! ## The moves of TE -/

theorem Te.LawfulTest.of_closed (h : t.testOpen = false) : t.LawfulTest := fun open_ => nomatch h.symm.trans open_

/-- What `Te.LawfulTest` speaks of. -/
def Te.testItems (t : Te) : (Bool × Option TeArmCopy × Option EvalParams) × YieldState × Option SourcePoint × BreakState ×
    Option Point × Option Point := ((t.testOpen, t.copy, t.params), t.detectItems)

theorem Te.LawfulTest.congr {t' : Te} (h : t.LawfulTest) (items : t'.testItems = t.testItems) : t'.LawfulTest := by
  simp only [Te.testItems, Prod.mk.injEq] at items
  obtain ⟨⟨opened, copy, params⟩, detect⟩ := items
  rw [Te.lawfulTest_iff] at h ⊢
  rw [opened, copy, params]
  intro open_
  obtain ⟨hasCopy, p, hp, detects⟩ := h open_
  exact ⟨hasCopy, p, hp, detects.congr detect⟩

theorem Te.publish_testItems (t : Te) : t.publish.testItems = t.testItems := by
  unfold Te.publish
  split <;> rfl

theorem Te.settle_testItems (t : Te) (was : Results) : (t.settle was).testItems = t.testItems := by
  unfold Te.settle
  simp only
  split
  · rfl
  · exact Te.publish_testItems _

theorem Te.LawfulTest.takeSample (h : d.te.LawfulTest) (x : Sample) : (d.takeSample x).te.LawfulTest := by
  unfold TeDesk.takeSample
  split
  · exact h
  · next p params =>
    split
    · refine Te.LawfulTest.congr (t := (d.judge p x).te) ?_ (Te.settle_testItems _ _)
      have setting := d.judge_setting p x
      simp only [Te.setting, Prod.mk.injEq] at setting
      obtain ⟨⟨-, copy, params', -, opened⟩, -⟩ := setting
      rw [Te.lawfulTest_iff] at h ⊢
      rw [copy, params', opened]
      intro open_
      obtain ⟨hasCopy, q, hq, detects⟩ := h open_
      obtain rfl : p = q := Option.some.inj (params.symm.trans hq)
      exact ⟨hasCopy, p, hq, detects.judge x⟩
    · exact h

/-- The test that an ARMED tag opens has what the copy brought (R52, R54). -/
theorem Te.clear_lawfulTest (t : Te) (copied : (t.copy.isSome && t.params.isSome) = true) : t.clear.LawfulTest := by
  obtain ⟨copy, params⟩ := Bool.and_eq_true_iff.1 copied
  rw [Te.lawfulTest_iff]
  intro _
  obtain ⟨p, hp⟩ := Option.isSome_iff_exists.1 params
  exact ⟨copy, p, hp, nofun, nofun, fun _ m hm => nomatch hm⟩

/-- Whether the test is open at TE, and whether it has its copies. -/
def Te.side (t : Te) : Bool × Bool := (t.testOpen, t.copy.isSome && t.params.isSome)

theorem TeDesk.takeSample_side (d : TeDesk) (x : Sample) :
    (d.takeSample x).te.side = d.te.side ∧ (d.takeSample x).paths.msToTe = d.paths.msToTe := by
  unfold TeDesk.takeSample
  split
  · exact ⟨rfl, rfl⟩
  · next p _ =>
    split
    · have judged := d.judge_left p x
      simp only [TeDesk.left, Te.setting, Prod.mk.injEq] at judged
      obtain ⟨⟨⟨-, copy, params, -, opened⟩, -⟩, trunk⟩ := judged
      have settled := Te.settle_testItems (d.judge p x).te d.te.working
      simp only [Te.testItems, Prod.mk.injEq] at settled
      obtain ⟨⟨opened', copy', params'⟩, -⟩ := settled
      exact ⟨by simp only [Te.side, opened', copy', params', opened, copy, params], congrArg Trunk.toTe trunk⟩
    · exact ⟨rfl, rfl⟩

theorem TeDesk.onArmed_testItems (d : TeDesk) : d.onArmed.te.testItems = d.te.clear.testItems := by
  unfold TeDesk.onArmed
  simp only
  split
  · exact Te.publish_testItems _
  · rfl

theorem TeDesk.endTest_closed (d : TeDesk) (c : Cause) : (d.endTest c).te.testOpen = false := by
  have publish (t : Te) : t.publish.testOpen = t.testOpen := congrArg (fun i => i.1.1) t.publish_testItems
  unfold TeDesk.endTest
  split
  · exact publish _
  · next closed => simpa using closed

theorem TeDesk.endTest_copies (d : TeDesk) (c : Cause) : ((d.endTest c).te.copy, (d.endTest c).te.params) = (d.te.copy, d.te.params) := by
  have publish (t : Te) : (t.publish.copy, t.publish.params) = (t.copy, t.params) :=
    congrArg (fun i => i.1.2) t.publish_testItems
  have closed := TeDesk.close_left ⟨d.te.onWorking fun r => { r with endCause := c }, d.paths⟩ none
  simp only [TeDesk.left, Te.setting, Prod.mk.injEq] at closed
  obtain ⟨⟨⟨-, copy, params, -⟩, -⟩, -⟩ := closed
  unfold TeDesk.endTest
  split
  · refine (publish _).trans ?_
    simp only
    split
    · rfl
    · exact Prod.ext copy params
  · rfl

/-- TE after a tag: its invariant holds, and it has what `teWillHave` says. -/
theorem TeDesk.takeTag_test (d : TeDesk) (t : MotionTag) (h : d.te.LawfulTest) {w : Bool × Bool} {rest : List TeMessage}
    (will : teWillHave d.te.side.1 d.te.side.2 (.tag t :: rest) = some w) :
    (d.takeTag t).te.LawfulTest ∧ teWillHave (d.takeTag t).te.side.1 (d.takeTag t).te.side.2 rest = some w := by
  have ended (c : Cause) (rest : List TeMessage) (will : teWillHave false d.te.side.2 rest = some w) :
      (TeDesk.endTest { d with te := { d.te with tag := t } } c).te.LawfulTest ∧
        teWillHave (TeDesk.endTest { d with te := { d.te with tag := t } } c).te.side.1
          (TeDesk.endTest { d with te := { d.te with tag := t } } c).te.side.2 rest = some w := by
    have copies := TeDesk.endTest_copies { d with te := { d.te with tag := t } } c
    simp only [Prod.mk.injEq] at copies
    refine ⟨.of_closed (TeDesk.endTest_closed _ c), ?_⟩
    simp only [Te.side, TeDesk.endTest_closed, copies.1, copies.2]
    exact will
  cases t with
  | armed =>
    have copied : d.te.side.2 = true := by
      by_contra none
      simp [teWillHave, MotionTag.state, none] at will
    have items := TeDesk.onArmed_testItems { d with te := { d.te with tag := .armed } }
    refine ⟨(Te.clear_lawfulTest _ copied).congr items, ?_⟩
    have side : (d.takeTag .armed).te.side = (true, d.te.side.2) := by
      simp only [Te.testItems, Prod.mk.injEq] at items
      obtain ⟨⟨opened, copy, params⟩, -⟩ := items
      simp only [TeDesk.takeTag, Te.side, opened, copy, params]
      rfl
    rw [side, copied]
    simpa [teWillHave, MotionTag.state, copied] using will
  | running =>
    unfold TeDesk.takeTag
    simp only
    split
    · exact ⟨h.congr rfl, will⟩
    · exact ⟨h.congr rfl, will⟩
  | stopped c => exact ended c rest will
  | faulted c => exact ended c rest will
  | idle b => exact ⟨.of_closed rfl, will⟩
  | paused => exact ⟨h.congr rfl, will⟩
  | jogging => exact ⟨h.congr rfl, will⟩
  | arming n => exact ⟨h.congr rfl, will⟩

/-- What TE will have once it has taken all of the path is left by each of its moves. -/
theorem TeMove.test {o : Option Instr} {e : TeDesk} (m : TeMove d o e) (h : d.te.LawfulTest) {w : Bool × Bool}
    (will : teWillHave d.te.side.1 d.te.side.2 d.paths.msToTe = some w) :
    e.te.LawfulTest ∧ teWillHave e.te.side.1 e.te.side.2 e.paths.msToTe = some w := by
  have same {e : TeDesk} (items : e.te.testItems = d.te.testItems) (toTe : e.paths.msToTe = d.paths.msToTe) :
      e.te.LawfulTest ∧ teWillHave e.te.side.1 e.te.side.2 e.paths.msToTe = some w := by
    refine ⟨h.congr items, ?_⟩
    simp only [Te.testItems, Prod.mk.injEq] at items
    obtain ⟨⟨opened, copy, params⟩, -⟩ := items
    rw [toTe, Te.side, opened, copy, params]
    exact will
  cases m with
  | reply r => exact same rfl rfl
  | hold tag => exact same rfl rfl
  | release tag =>
    refine same ?_ rfl
    show d.te.release.testItems = d.te.testItems
    unfold Te.release
    split <;> rfl
  | sample x rest _ =>
    obtain ⟨side, toTe⟩ := TeDesk.takeSample_side { d with paths := { d.paths with samplesTe := rest } } x
    refine ⟨Te.LawfulTest.takeSample (d := { d with paths := { d.paths with samplesTe := rest } }) h x, ?_⟩
    rw [side, toTe]
    exact will
  | params tag l rest head =>
    rw [head] at will
    unfold TeDesk.takeEvalLoad
    split
    · exact ⟨h.congr rfl, will⟩
    · split <;> exact ⟨h.congr rfl, will⟩
  | armCopy c rest head =>
    rw [head] at will
    have closed : d.te.testOpen = false := by
      cases open_ : d.te.testOpen with
      | false => rfl
      | true => simp [teWillHave, Te.side, open_] at will
    refine ⟨.of_closed closed, ?_⟩
    simpa [teWillHave, Te.side, closed] using will
  | tag t rest head =>
    rw [head] at will
    have taken := TeDesk.takeTag_test { d with paths := { d.paths with msToTe := rest } } t h will
    have toTe : (TeDesk.takeTag { d with paths := { d.paths with msToTe := rest } } t).paths.msToTe = rest :=
      congrArg Trunk.toTe (TeDesk.takeTag_left { d with paths := { d.paths with msToTe := rest } } t).2
    rw [toTe]
    exact taken
  | entry e rest head =>
    rw [head] at will
    have items := Te.publish_testItems (d.te.onWorking fun r => { r with log := r.log ++ [e] })
    refine ⟨h.congr items, ?_⟩
    simp only [Te.testItems, Prod.mk.injEq] at items
    obtain ⟨⟨opened, copy, params⟩, -⟩ := items
    simp only [Te.side, opened, copy, params]
    exact will
  | expiry =>
    unfold TeDesk.expireHold
    split
    · exact same rfl rfl
    · exact same rfl rfl

end

end Sys2Proof.Machine
end

