-- ==== Sys2Proof/Proofs/TestLaw.lean ====
section
/-! What a test rests on across MS, ES and TE: each block keeps its part, and the arm copies stay ahead of the ARMED tag on both
paths. -/

namespace Sys2Proof.Machine

/-- What ES and TE have. -/
def State.testSide (s : State) : TestSide :=
  { opened := s.te.side.1, copied := s.te.side.2, esCopied := s.es.copy.isSome }

theorem State.copiesSent_iff (s : State) : s.CopiesSent ↔ s.msDesk.Sent s.testSide := by
  constructor
  · intro ⟨te, es, ahead⟩
    exact ⟨te, es, ahead⟩
  · intro ⟨te, es, ahead⟩
    exact ⟨te, es, ahead⟩

theorem McMove.toEs {o : Option Instr} {d e : McDesk} (h : McMove d o e) : e.paths.trunk.toEs = d.paths.trunk.toEs := by
  rcases h.trunk with ⟨trunk, -⟩ | ⟨m, rest, -, -, trunk, -⟩ | ⟨tag, l, rest, -, rfl⟩
  · rw [trunk]
  · rw [trunk]
  · obtain ⟨sums, o, trunk, -⟩ := McDesk.takeLoad_trunk { d with paths := { d.paths with msToMc := rest } } tag l
    rw [trunk]
    rfl

theorem StoreMove.toEs {o : Option Instr} {d e : StoreDesk} (h : StoreMove d o e) : e.paths.trunk.toEs = d.paths.trunk.toEs := by
  cases h.report with
  | nothing _ _ trunk _ _ => rw [trunk]
  | loaded _ trunk _ => rw [trunk]
  | storing _ _ trunk _ _ => rw [trunk]

section
variable {s t : State}

/-- The blocks of a test, and the paths to ES and TE, as they were. -/
theorem State.TestLawful.congr (h : s.TestLawful) (blocks : (t.ms, t.es, t.te) = (s.ms, s.es, s.te))
    (toTe : t.paths.msToTe = s.paths.msToTe) (toEs : t.paths.msToEs = s.paths.msToEs) : t.TestLawful := by
  simp only [Prod.mk.injEq] at blocks
  obtain ⟨ms, es, te⟩ := blocks
  simpa only [State.TestLawful, State.CopiesSent, ms, es, te, toTe, toEs] using h

/-- A change at MS. -/
theorem State.TestLawful.ofMs (h : s.TestLawful) (blocks : (t.es, t.te) = (s.es, s.te)) (ms : t.ms.LawfulTest)
    (sent : t.msDesk.Sent s.testSide) : t.TestLawful := by
  simp only [Prod.mk.injEq] at blocks
  obtain ⟨es, te⟩ := blocks
  obtain ⟨-, esLawful, teLawful, -⟩ := h
  refine ⟨ms, es ▸ esLawful, te ▸ teLawful, (State.copiesSent_iff t).2 ?_⟩
  simpa only [State.testSide, es, te] using sent

theorem State.onMs_sentItems (s : State) (d : MsDesk) : (s.onMs fun _ => d).msDesk.sentItems = d.sentItems := by
  rw [State.onMs_eq]
  rfl

/-- A move of ES takes at most the head of its path. -/
theorem State.TestLawful.onEs (h : s.TestLawful) {o : Option Instr} {d : EsDesk} (m : EsMove ⟨s.es, s.paths⟩ o d) :
    (s.onEs fun _ => d).TestLawful := by
  obtain ⟨ms, es, te, toTe, copyToEs, ahead⟩ := h
  have own : ((d.notice s.es.state).es, (d.notice s.es.state).paths.msToTe, (d.notice s.es.state).paths.msToEs) =
      (d.es, d.paths.msToTe, d.paths.msToEs) := by
    unfold EsDesk.notice
    split <;> rfl
  simp only [Prod.mk.injEq] at own
  obtain ⟨ownEs, ownToTe, ownToEs⟩ := own
  have toTeKept : d.paths.msToTe = s.paths.msToTe := by
    rcases m.trunk with trunk | ⟨_, _, -, trunk⟩ <;>
    · have same := congrArg Trunk.toTe trunk
      exact same
  refine ⟨ms, ?_, te, ?_, ?_⟩
  · show (d.notice s.es.state).es.LawfulTest
    rw [ownEs]
    exact m.lawfulTest es
  · obtain ⟨opened, copied, will, rest⟩ := toTe
    refine ⟨opened, copied, ?_, rest⟩
    show teWillHave _ _ (d.notice s.es.state).paths.msToTe = _
    rw [ownToTe, toTeKept]
    exact will
  · show (_ → (d.notice s.es.state).es.copy.isSome = true ∨ ∃ c, EsMessage.armCopy c ∈ (d.notice s.es.state).paths.msToEs) ∧
      CopyAhead (d.notice s.es.state).es.copy.isSome (d.notice s.es.state).paths.msToEs
    rw [ownEs, ownToEs]
    have ahead : CopyAhead s.es.copy.isSome s.paths.msToEs := ahead
    rcases m.keeps with ⟨keeps, same | ⟨x, notCopy, taken⟩⟩ | ⟨c, taken, copied⟩
    · have same : d.paths.msToEs = s.paths.msToEs := same
      rw [keeps.copy, same]
      exact ⟨copyToEs, ahead⟩
    · have taken : s.paths.msToEs = x :: d.paths.msToEs := taken
      rw [taken] at copyToEs ahead
      rw [keeps.copy]
      refine ⟨fun arming => (copyToEs arming).imp id fun ⟨c, mem⟩ => ⟨c, ?_⟩, ahead.tail notCopy⟩
      exact (List.mem_cons.1 mem).resolve_left fun head => notCopy c head.symm
    · rw [copied]
      exact ⟨fun _ => .inl rfl, fun _ _ _ => .inl rfl⟩

theorem State.TestLawful.onTe (h : s.TestLawful) {o : Option Instr} {d : TeDesk} (m : TeMove ⟨s.te, s.paths⟩ o d) :
    (s.onTe fun _ => d).TestLawful := by
  obtain ⟨ms, es, te, ⟨opened, copied, will, rest⟩, toEs⟩ := h
  have toEsKept : d.paths.msToEs = s.paths.msToEs := by
    cases m.report with
    | nothing trunk _ => exact congrArg Trunk.toEs trunk
    | taken _ _ _ _ trunk _ =>
      have same := congrArg Trunk.toEs trunk
      exact same
    | load _ _ _ _ _ trunk =>
      have same := congrArg Trunk.toEs trunk
      exact same
  obtain ⟨te', will'⟩ := m.test te will
  refine ⟨ms, es, te', ⟨opened, copied, will', rest⟩, ?_⟩
  show (_ → _ ∨ ∃ c, EsMessage.armCopy c ∈ d.paths.msToEs) ∧ CopyAhead _ d.paths.msToEs
  rw [toEsKept]
  exact toEs

theorem State.Act.testLawful {o : Option Instr} (act : s.Act o t) (h : s.TestLawful) : t.TestLawful := by
  have sent : s.msDesk.Sent s.testSide := (State.copiesSent_iff s).1 h.2.2.2
  cases act with
  | rx r => exact h.congr rfl rfl rfl
  | frontError => exact h.congr rfl rfl rfl
  | driveError => exact h.congr rfl rfl rfl
  | inlet d m => exact h.congr rfl (congrArg Trunk.toTe m.trunk) (congrArg Trunk.toEs m.trunk)
  | mc d m => exact h.congr rfl m.toTe m.toEs
  | store d m => exact h.congr rfl m.toTe m.toEs
  | ms d m =>
    refine h.ofMs rfl ?_ ((m.sent sent).congr (s.onMs_sentItems d))
    rw [State.onMs_eq]
    exact m.lawfulTest h.1
  | msSample x rest _ =>
    have taken : MsDesk.Sent s.testSide { s.msDesk with paths := { s.paths with samplesMs := rest } } := sent.congr rfl
    exact h.ofMs rfl (MsDesk.takeSample_lawful (d := { s.msDesk with paths := { s.paths with samplesMs := rest } }) h.1 x)
      ((taken.takeSample x).congr rfl)
  | es d m => exact h.onEs m
  | te d m => exact h.onTe m
  | cr d m =>
    have own : ((d.notice (.of s.cr)).paths.msToTe, (d.notice (.of s.cr)).paths.msToEs) = (d.paths.msToTe, d.paths.msToEs) := by
      unfold CrDesk.notice
      split <;> rfl
    simp only [Prod.mk.injEq] at own
    exact h.congr rfl (own.1.trans (congrArg Trunk.toTe m.trunk)) (own.2.trans (congrArg Trunk.toEs m.trunk))
  | cp d m =>
    rcases m.lock with ⟨-, trunk⟩ | ⟨x, rest, -, -, trunk⟩ <;>
    · have toTe := congrArg Trunk.toTe trunk
      have toEs := congrArg Trunk.toEs trunk
      exact h.congr rfl toTe toEs
  | cpOwn c _ => exact h.congr rfl rfl rfl

end

theorem State.reset_testLawful : State.reset.TestLawful := by
  have ms : Ms.reset.LawfulTest := .outside (fun p none => nomatch none) (MotionState.not_tests_of_mem (m := .idle) (by simp))
  have es : Es.reset.LawfulTest := Es.lawfulTest_of_not (by simp [ExtState.supervises, Es.reset])
  have te : Te.reset.LawfulTest := .of_closed rfl
  have sent : State.reset.msDesk.Sent State.reset.testSide := by
    refine ⟨⟨false, false, rfl, fun closed => absurd closed Bool.false_ne_true, fun arming => ?_⟩, fun arming => ?_, ?_⟩
    · exact MotionState.noConfusion (show MotionState.idle = .arming from arming)
    · exact MotionState.noConfusion (show MotionState.idle = .arming from arming)
    · intro l m split
      exact absurd (congrArg List.length (show [] = l ++ .tag .armed :: m from split)) (by simp)
  exact ⟨ms, es, te, (State.copiesSent_iff _).2 sent⟩

end Sys2Proof.Machine

open Sys2Proof Sys2Proof.Machine

/-- Settles O14: MS enters each state of a test with what it needs (`MsMove.lawfulTest`), sends the arm copies ahead of the ARMED
tag (`MsMove.sent`), and ES and TE take them in this order (`EsMove.keeps`, `TeMove.test`). -/
theorem stepKeepsTestLawful : Obligations.StepKeepsTestLawful := by
  intro s t hs h
  exact step_keeps (P := State.TestLawful) (fun _ _ h => h) (fun _ => State.reset_testLawful) (fun _ _ _ act => act.testLawful) hs h

/-- Settles O15: by the registers of the reset state. -/
theorem resetMeetsInvariants : Obligations.ResetMeetsInvariants := by
  refine ⟨⟨Nat.zero_le _, List.Pairwise.nil⟩, ⟨Nat.zero_le _, List.Pairwise.nil, nofun, nofun⟩, ?_, ?_, ⟨rfl, rfl, rfl, rfl⟩,
    State.reset_blocksLawful, State.reset_testLawful⟩
  · exact (Te.lawfulOrder_iff _).2 ⟨⟨Results.cleared_ordered none 0, nofun, nofun, fun _ => ⟨rfl, rfl⟩⟩, Results.cleared_ordered none 0⟩
  · exact ⟨rfl, ⟨rfl, .inl rfl⟩, fun idle => absurd rfl idle, fun _ => ⟨rfl, rfl, .inl rfl, rfl, rfl, rfl⟩⟩
end

