-- ==== Sys2Proof/Proofs/MotionRequests.lean ====
section
/-! The motion requests, in every motion state (R65 to R71, R77, R79). -/

namespace Sys2Proof.Machine

/-- MS's desk after an effect and its replies. -/
def MsDesk.after (d : MsDesk) (e : MsEffect) (replies : List Reply) : MsDesk :=
  { d with ms := e.ms, paths := d.paths.msSends e.toTe e.tags e.events replies }

theorem Paths.msSends_nothing (p : Paths) : p.msSends [] [] [] [] = p := by simp [Paths.msSends]

theorem MsDesk.after_reply (d : MsDesk) (e : MsEffect) (rs : List Reply) (r : Reply) : (d.after e rs).reply r = d.after e (rs ++ [r]) := by
  rw [MsDesk.reply_does]
  simp [MsDesk.after, Paths.msSends_msSends]

section
variable (s : State)

/-! ## A step of MS -/

/-- A request that MS answers at once, changing nothing. -/
theorem State.msRequest_answers {k : RequestKind} {tag : Tag} {f : MsDesk → MsDesk} {r : Reply} (ready : s.cp.store ≠ .loading)
    (h : f s.msDesk = s.msDesk.reply r) : s.request k tag (fun s => s.onMs f) = s.msAnswers r := by
  rw [State.request_ready s _ _ _ ready, s.onMs_eq_msAnswers f r h]

/-- A request that MS takes. -/
theorem State.msRequest_does {k : RequestKind} {tag : Tag} {f : MsDesk → MsDesk} {e : MsEffect} {rs : List Reply}
    (ready : s.cp.store ≠ .loading) (h : f s.msDesk = s.msDesk.after e rs) :
    ∃ t, Host.Outcome.next (φ := Fault) (ρ := Refusal) (s.request k tag fun s => s.onMs f) = .next t ∧
      t = s.msDoes s.paths e rs t := by
  refine ⟨s.onMs f, congrArg Host.Outcome.next (State.request_ready s _ _ _ ready), ?_⟩
  exact s.onMs_eq_msDoes f s.paths e rs (by rw [h]; rfl) (by rw [h]; rfl) (by rw [h]; rfl) (by rw [h]; rfl)

/-- MS takes the head of a path. -/
theorem State.onMsPaths_does {p : Paths} {f : MsDesk → MsDesk} {e : MsEffect} {rs : List Reply}
    (h : f ⟨s.ms, s.drive, p, s.driveLine⟩ = MsDesk.after ⟨s.ms, s.drive, p, s.driveLine⟩ e rs) :
    ∃ t, Host.Outcome.next (φ := Fault) (ρ := Refusal) (s.onMsPaths p f) = .next t ∧ t = s.msDoes p e rs t := by
  refine ⟨s.onMsPaths p f, rfl, ?_⟩
  exact s.onMs_eq_msDoes (fun d => f { d with paths := p }) p e rs (congrArg MsDesk.ms h) (congrArg MsDesk.drive h)
    (congrArg MsDesk.line h) (congrArg MsDesk.paths h)

/-- MS disregards the head of a path. -/
theorem State.onMsPaths_same {p : Paths} {f : MsDesk → MsDesk} (h : f ⟨s.ms, s.drive, p, s.driveLine⟩ = ⟨s.ms, s.drive, p, s.driveLine⟩) :
    s.onMsPaths p f = { s with paths := p } := by
  show s.putMs (MsDesk.notice (f ⟨s.ms, s.drive, p, s.driveLine⟩) _) = _
  rw [h]
  simp [MsDesk.notice, State.putMs]

end

/-! ## START (R65) -/

section
variable (d : MsDesk) (tag : Tag)

theorem MsDesk.takeStart_armed {p : Program} {g : Segment} {x : Sample} (armed : d.ms.state = .armed) (program : d.ms.program = some p)
    (first : p.segments[0]? = some g) (last : d.ms.last = some x) :
    d.takeStart tag =
      (let m : Ms := { d.ms with
        state := .running, cause := .none, pauses := .empty, pendingTransition := none, yieldMark := false,
        proofMark := false, releasedMark := false }
       d.after { ms := m.started 0 g x, toTe := [.tag .running], tags := [.running], events := m.startEvents 0 g x }
         [answer .start tag .done (.startedFrom x.number)]) := by
  have inProgram : (d.ms.program.bind fun p => p.segments[0]?) = some g := by rw [program]; exact first
  have payload : d.ms.startPayload = .startedFrom x.number := by rw [Ms.startPayload, last]
  unfold MsDesk.takeStart
  rw [armed]
  simp only [MsDesk.enter_does _ .running _ rfl, payload]
  rw [MsDesk.startSegment_does _ 0 g x ?_ ?_, MsDesk.reply_does]
  · simp only [Paths.msSends_msSends, Ms.enter, DrivePort.enter, List.nil_append, List.append_nil]
    rfl
  · exact inProgram
  · exact last

theorem MsDesk.takeStart_arming (arming : d.ms.state = .arming) :
    d.takeStart tag = d.reply (refuse .start tag .wrongState .armInProgress (.motionState .arming)) := by
  unfold MsDesk.takeStart
  rw [arming]

theorem MsDesk.takeStart_elsewhere (armed : d.ms.state ≠ .armed) (arming : d.ms.state ≠ .arming) :
    d.takeStart tag = d.wrongState .start tag := by
  unfold MsDesk.takeStart
  split
  · exact absurd ‹_› armed
  · exact absurd ‹_› arming
  · rfl

end

end Sys2Proof.Machine

open Sys2Proof Sys2Proof.Machine

/-- Settles O33: `MsDesk.takeStart_armed` and the refusals. -/
theorem startBeginsFirstSegment : Obligations.StartBeginsFirstSegment := by
  intro s tag ready
  refine ⟨fun p g x armed program first last => ?_, fun arming => ?_, fun armed arming => ?_⟩
  · exact s.msRequest_does ready (s.msDesk.takeStart_armed tag armed program first last)
  · exact congrArg Host.Outcome.next (s.msRequest_answers ready (s.msDesk.takeStart_arming tag arming))
  · exact congrArg Host.Outcome.next (s.msRequest_answers ready (s.msDesk.takeStart_elsewhere tag armed arming))
end

