-- ==== Sys2Proof/Proofs/StopAndPause.lean ====
section
/-! STOP, ABORT, RESET_TEST (R66 to R68), PAUSE, RESUME and the hold of ES (R69 to R71), in every motion state. -/

namespace Sys2Proof.Machine

theorem MotionState.eq_paused_or_not (m : MotionState) : m = .paused ∨ m ≠ .paused := eq_or_ne m .paused

section
variable (s : State)

/-- A step of MS that changes the Drive Port as well. -/
theorem State.onMs_eq_msDoes_drive {f : MsDesk → MsDesk} {e : MsEffect} {rs : List Reply} {port : DrivePort}
    (h : f s.msDesk = { s.msDesk.after e rs with drive := port }) :
    s.onMs f = { s.msDoes s.paths e rs (s.onMs f) with drive := port } := by
  refine (State.onMs_eq s f).trans ?_
  rw [h]
  rfl

theorem State.msRequest_does_drive {k : RequestKind} {tag : Tag} {f : MsDesk → MsDesk} {e : MsEffect} {rs : List Reply}
    {port : DrivePort} (ready : s.cp.store ≠ .loading) (h : f s.msDesk = { s.msDesk.after e rs with drive := port }) :
    ∃ t, Host.Outcome.next (φ := Fault) (ρ := Refusal) (s.request k tag fun s => s.onMs f) = .next t ∧
      t = { s.msDoes s.paths e rs t with drive := port } :=
  ⟨s.onMs f, congrArg Host.Outcome.next (State.request_ready s _ _ _ ready), s.onMs_eq_msDoes_drive h⟩

end

section
variable (d : MsDesk) (tag : Tag)

theorem Ms.testing_eq_false {m : Ms} (running : m.state ≠ .running) (paused : m.state ≠ .paused) : m.testing = false := by
  simp [Ms.testing, running, paused]

/-! ## STOP, ABORT and RESET_TEST -/

theorem MsDesk.stops_after {i : Nat} {g : Segment} {x : Sample} (e : EndCause) (c : Cause) (segment : d.ms.inSegment i g x) :
    (d.endSegment e).enterStopped c = d.after (d.ms.testStops i e c x) [] := d.stops_does i g x e c segment

theorem MsDesk.takeStop_testing {i : Nat} {g : Segment} {x : Sample} (testing : d.ms.state = .running ∨ d.ms.state = .paused)
    (segment : d.ms.inSegment i g x) :
    d.takeStop tag = d.after (d.ms.testStops i .stop .consoleStop x) [answer .stop tag .done .none] := by
  unfold MsDesk.takeStop
  rw [if_pos ((Ms.testing_iff _).2 testing), d.stops_after _ _ segment, MsDesk.after_reply]
  rfl

theorem MsDesk.takeStop_elsewhere (running : d.ms.state ≠ .running) (paused : d.ms.state ≠ .paused) :
    d.takeStop tag = d.wrongState .stop tag := by
  unfold MsDesk.takeStop
  rw [Ms.testing_eq_false running paused]
  rfl

theorem MsDesk.fault_after (c : Cause) : d.fault c = d.after (d.ms.faults c) d.ms.armCancelled := d.fault_does c

theorem MsDesk.takeAbort_active (state : d.ms.state ≠ .faulted) :
    d.takeAbort tag = d.after (d.ms.faults .consoleAbort) (d.ms.armCancelled ++ [answer .abort tag .done .none]) := by
  unfold MsDesk.takeAbort
  rw [if_neg state, MsDesk.fault_after, MsDesk.after_reply]

theorem MsDesk.takeAbort_faulted (state : d.ms.state = .faulted) : d.takeAbort tag = d.reply (answer .abort tag .done .none) := by
  unfold MsDesk.takeAbort
  rw [if_pos state]

theorem MotionState.resets_iff (m : MotionState) :
    m.resets = true ↔ m = .stopped ∨ m = .faulted ∨ m = .armed ∨ m = .arming := by
  cases m <;> simp [MotionState.resets]

theorem MsDesk.takeResetTest_accepted (state : d.ms.state = .stopped ∨ d.ms.state = .faulted ∨ d.ms.state = .armed ∨ d.ms.state = .arming) :
    d.takeResetTest tag =
      { d.after
          { ms := { d.ms with
              state := .idle, cause := .none, pauses := .empty, cursor := none, continuation := none,
              continuationRate := none, fallbackUsed := false, segmentTime := 0, pendingTransition := none,
              jogRate := 0, jogEnabling := false, armReply := none }
            toTe := [.tag (.idle true)], tags := [.idle true], events := [] }
          (d.ms.armCancelled ++ [answer .resetTest tag .done .none]) with
        drive := { d.drive with unanswered := 0, faultMark := false, endMark := false, notReadyMark := false } } := by
  have cancelled : Ms.armCancelled (d.ms.enter (.idle true) .none) = d.ms.armCancelled := rfl
  unfold MsDesk.takeResetTest
  rw [if_pos ((MotionState.resets_iff _).2 state), MsDesk.enter_does _ _ _ rfl, MsDesk.answerArm_cancelled, MsDesk.reply_does]
  simp only [cancelled, Paths.msSends_msSends, List.nil_append, List.append_nil]
  rfl

theorem MsDesk.takeResetTest_elsewhere (state : d.ms.state = .idle ∨ d.ms.state = .jogging ∨ d.ms.state = .running ∨ d.ms.state = .paused) :
    d.takeResetTest tag = d.wrongState .resetTest tag := by
  have kept : d.ms.state.resets = false := by rcases state with state | state | state | state <;> rw [state] <;> rfl
  unfold MsDesk.takeResetTest
  rw [kept]
  rfl

/-! ## Pauses -/

/-- MS with a pause cause added, in PAUSED; `was` says that it was RUNNING. -/
def Ms.pausedWith (m : Ms) (causes : PauseCauses) (was : Bool) : MsEffect :=
  { ms := { m with state := .paused, cause := if was then .none else m.cause, pauses := causes }
    toTe := if was then [.tag .paused] else [], tags := if was then [.paused] else [], events := [] }

theorem MsDesk.pauseIfRunning_after (causes : PauseCauses) {was : Bool}
    (state : d.ms.state = .running ∧ was = true ∨ d.ms.state = .paused ∧ was = false) :
    MsDesk.pauseIfRunning { d with ms := { d.ms with pauses := causes } } = d.after (d.ms.pausedWith causes was) [] := by
  unfold MsDesk.pauseIfRunning
  rcases state with ⟨state, rfl⟩ | ⟨state, rfl⟩
  · rw [if_pos state, MsDesk.enter_does _ _ _ rfl]
    rfl
  · have notRunning : d.ms.state ≠ .running := by rw [state]; decide
    have same : { d.ms with state := .paused, pauses := causes } = { d.ms with pauses := causes } := by rw [← state]
    rw [if_neg notRunning]
    simp only [MsDesk.after, Ms.pausedWith, Bool.false_eq_true, if_false, Paths.msSends_nothing]
    rw [same]

theorem Ms.testing_of_pausable {m : Ms} {was : Bool} (state : m.state = .running ∧ was = true ∨ m.state = .paused ∧ was = false) :
    m.testing = true := (Ms.testing_iff m).2 (state.imp And.left And.left)

theorem MsDesk.takePause_testing {was : Bool} (state : d.ms.state = .running ∧ was = true ∨ d.ms.state = .paused ∧ was = false) :
    d.takePause tag =
      d.after (d.ms.pausedWith { d.ms.pauses with console := true } was) [answer .pause tag .done .none] := by
  unfold MsDesk.takePause
  rw [if_pos (Ms.testing_of_pausable state), d.pauseIfRunning_after _ state, MsDesk.after_reply]
  rfl

theorem MsDesk.takePause_elsewhere (running : d.ms.state ≠ .running) (paused : d.ms.state ≠ .paused) :
    d.takePause tag = d.reply (answer .pause tag .wrongState .none) := by
  unfold MsDesk.takePause
  rw [Ms.testing_eq_false running paused]
  rfl

theorem MsDesk.takeHold_testing {was : Bool} (state : d.ms.state = .running ∧ was = true ∨ d.ms.state = .paused ∧ was = false) :
    d.takeHold = d.after (d.ms.pausedWith { d.ms.pauses with extRemoval := true } was) [] := by
  unfold MsDesk.takeHold
  rw [if_pos (Ms.testing_of_pausable state), d.pauseIfRunning_after _ state]

theorem MsDesk.takeHold_elsewhere (running : d.ms.state ≠ .running) (paused : d.ms.state ≠ .paused) : d.takeHold = d := by
  unfold MsDesk.takeHold
  rw [Ms.testing_eq_false running paused]
  rfl

/-! ## RESUME -/

/-- EXT_REMOVAL is left: MS stays PAUSED. -/
theorem MsDesk.takeResume_held (state : d.ms.state = .paused) (held : d.ms.pauses.extRemoval = true) :
    d.takeResume tag =
      d.after { ms := { d.ms with pauses := { console := false, extRemoval := true, extFailed := false } }
                toTe := [], tags := [], events := [] }
        [answer .resume tag .done (.resumed .paused true)] := by
  have left : ({ d.ms.pauses with console := false, extFailed := false } : PauseCauses) =
      { console := false, extRemoval := true, extFailed := false } := by rw [← held]
  unfold MsDesk.takeResume
  rw [if_pos state, left]
  have stays : MsDesk.resumeIfFree { d with ms := { d.ms with pauses := { console := false, extRemoval := true, extFailed := false } } } =
      { d with ms := { d.ms with pauses := { console := false, extRemoval := true, extFailed := false } } } := by
    unfold MsDesk.resumeIfFree
    exact if_neg fun free => Bool.noConfusion (show true = false from congrArg PauseCauses.extRemoval free.2)
  rw [stays]
  simp only [held, state, MsDesk.reply_does]
  rfl

/-- No cause is left: MS returns to RUNNING (R70). -/
theorem MsDesk.takeResume_returns {i : Nat} {g : Segment} {x : Sample} (state : d.ms.state = .paused)
    (free : d.ms.pauses.extRemoval = false) (segment : d.ms.inSegment i g x) :
    d.takeResume tag =
      d.after (d.ms.returns i g x) [answer .resume tag .done (.resumed (d.ms.returns i g x).ms.state false)] := by
  have left : ({ d.ms.pauses with console := false, extFailed := false } : PauseCauses) = .empty := by rw [PauseCauses.empty, ← free]
  have same : Ms.returns { d.ms with pauses := .empty } i g x = d.ms.returns i g x := rfl
  unfold MsDesk.takeResume
  rw [if_pos state, left]
  have returned := MsDesk.resumeIfFree_does { d with ms := { d.ms with pauses := .empty } } i g x segment state rfl
  simp only [same] at returned
  simp only [returned, free, MsDesk.reply_does, Paths.msSends_msSends, List.append_nil, List.nil_append]
  rfl

theorem MsDesk.takeResume_elsewhere (state : d.ms.state ≠ .paused) :
    d.takeResume tag = d.reply (answer .resume tag .wrongState .none) := by
  unfold MsDesk.takeResume
  rw [if_neg state]

end

end Sys2Proof.Machine

open Sys2Proof Sys2Proof.Machine

/-- Settles O34: each of the three requests in the states that accept it and in the others. -/
theorem stopAbortAndResetTest : Obligations.StopAbortAndResetTest := by
  intro s tag ready
  have answers {k : RequestKind} {f : MsDesk → MsDesk} {r : Reply} (h : f s.msDesk = s.msDesk.reply r) :=
    congrArg (Host.Outcome.next (φ := Fault) (ρ := Refusal)) (s.msRequest_answers (k := k) (tag := tag) ready h)
  refine ⟨fun i g x testing segment => ?_, fun running paused => ?_, fun active => ?_, fun faulted => ?_, fun resets => ?_, fun keeps => ?_⟩
  · exact s.msRequest_does ready (s.msDesk.takeStop_testing tag testing segment)
  · exact answers (s.msDesk.takeStop_elsewhere tag running paused)
  · exact s.msRequest_does ready (s.msDesk.takeAbort_active tag active)
  · exact answers (s.msDesk.takeAbort_faulted tag faulted)
  · exact s.msRequest_does_drive ready (s.msDesk.takeResetTest_accepted tag resets)
  · exact answers (s.msDesk.takeResetTest_elsewhere tag keeps)

/-- Settles O35: a cause added keeps or brings PAUSED (`MsDesk.pauseIfRunning_after`); RESUME leaves EXT_REMOVAL, or returns to
RUNNING (`MsDesk.takeResume_returns`). -/
theorem pauseCausesAddedAndRemoved : Obligations.PauseCausesAddedAndRemoved := by
  refine ⟨fun s tag ready => ?_, fun s n held => ?_⟩
  · have answers {k : RequestKind} {f : MsDesk → MsDesk} {r : Reply} (h : f s.msDesk = s.msDesk.reply r) :=
      congrArg (Host.Outcome.next (φ := Fault) (ρ := Refusal)) (s.msRequest_answers (k := k) (tag := tag) ready h)
    refine ⟨fun was state => ?_, fun running paused => ?_, fun paused held => ?_, fun i g x paused free segment => ?_, fun state => ?_⟩
    · exact s.msRequest_does ready (s.msDesk.takePause_testing tag state)
    · exact answers (s.msDesk.takePause_elsewhere tag running paused)
    · exact s.msRequest_does ready (s.msDesk.takeResume_held tag paused held)
    · exact s.msRequest_does ready (s.msDesk.takeResume_returns tag paused free segment)
    · exact answers (s.msDesk.takeResume_elsewhere tag state)
  · have taken : exec .extRemovalHold s = .next (s.onMsPaths { s.paths with holds := n } MsDesk.takeHold) := by
      show Host.Outcome.next (if s.paths.holds = 0 then s else s.onMsPaths { s.paths with holds := s.paths.holds - 1 } MsDesk.takeHold) = _
      rw [held, if_neg (Nat.succ_ne_zero n), Nat.add_sub_cancel]
    rw [taken]
    refine ⟨fun was state => ?_, fun running paused => ?_⟩
    · exact s.onMsPaths_does (MsDesk.takeHold_testing _ state)
    · exact congrArg Host.Outcome.next (s.onMsPaths_same (MsDesk.takeHold_elsewhere _ running paused))
end

