-- ==== Sys2Proof/Proofs/CriteriaAndFaults.lean ====
section
/-! Removal complete and the criterion events (R62, R72), the removal timeout, BREAK and faults (R73, R74, R76). -/

namespace Sys2Proof.Machine

section
variable {d : MsDesk} {i : Nat} {g : Segment} {x : Sample}

/-! ## Criterion events -/

theorem Ms.mark_inSegment {m : Ms} (e : CriterionEvent) (segment : m.inSegment i g x) : (m.mark e).inSegment i g x := by
  cases e <;> exact segment

theorem Ms.mark_state (m : Ms) (e : CriterionEvent) : (m.mark e).state = m.state := by cases e <;> rfl

/-- The effect of an effect that MS's own state alone makes. -/
def Ms.quietly (m : Ms) : MsEffect := { ms := m, toTe := [], tags := [], events := [] }

theorem MsDesk.after_quietly (d : MsDesk) (m : Ms) : d.after m.quietly [] = { d with ms := m } := by
  simp [MsDesk.after, Ms.quietly, Paths.msSends_nothing]

/-- In RUNNING a criterion of the event's kind is met (R62). -/
theorem MsDesk.criterionEvent_running (e : CriterionEvent) (segment : d.ms.inSegment i g x) (state : d.ms.state = .running) :
    d.criterionEvent e =
      d.after (if g.endKind = e.kind then (d.ms.mark e).criterionEnds i g x else (d.ms.mark e).quietly) [] := by
  have marked := Ms.mark_inSegment e segment
  have running : (d.ms.mark e).running = some (i, g) := Ms.running_of_inSegment _ i g x marked
  have markedState : (d.ms.mark e).state = .running := (Ms.mark_state _ _).trans state
  unfold MsDesk.criterionEvent
  rw [if_pos (.inl state)]
  simp only [running, markedState, if_true]
  split
  · exact MsDesk.criterionMet_does { d with ms := d.ms.mark e } i g x marked
  · exact (d.after_quietly _).symm

/-- MS marked by an event in PAUSED, with the pending transition it may leave (R62). -/
def Ms.marksPaused (m : Ms) (e : CriterionEvent) (i : Nat) (g : Segment) : Ms :=
  { m.mark e with
    pendingTransition := if g.endKind = e.kind ∧ m.pendingTransition = none then some i else m.pendingTransition }

/-- In PAUSED it becomes the pending transition, if none is yet. -/
theorem MsDesk.criterionEvent_paused (e : CriterionEvent) (segment : d.ms.inSegment i g x) (state : d.ms.state = .paused) :
    d.criterionEvent e = { d with ms := d.ms.marksPaused e i g } := by
  have running : (d.ms.mark e).running = some (i, g) := Ms.running_of_inSegment _ i g x (Ms.mark_inSegment e segment)
  have notRunning : (d.ms.mark e).state ≠ .running := by rw [Ms.mark_state, state]; decide
  have pending : (d.ms.mark e).pendingTransition = d.ms.pendingTransition := by cases e <;> rfl
  have kept : { d.ms.mark e with pendingTransition := d.ms.pendingTransition } = d.ms.mark e := by rw [← pending]
  unfold MsDesk.criterionEvent Ms.marksPaused
  rw [if_pos (.inr state)]
  simp only [running, if_neg notRunning, pending]
  by_cases kind : g.endKind = e.kind
  · by_cases free : d.ms.pendingTransition = none
    · simp only [kind, free, and_self, if_true]
    · simp only [kind, free, and_false, if_true, if_false]
      rw [kept]
  · simp only [kind, false_and, if_false]
    rw [kept]

theorem MsDesk.criterionEvent_elsewhere (e : CriterionEvent) (running : d.ms.state ≠ .running) (paused : d.ms.state ≠ .paused) :
    d.criterionEvent e = d := by
  unfold MsDesk.criterionEvent
  exact if_neg fun h => h.elim running paused

/-! ## Removal complete -/

/-- A criterion met in RUNNING without a pause cause leaves none, and does not lead to PAUSED. -/
theorem Ms.criterionEnds_unpaused {m : Ms} (state : m.state = .running) (pauses : m.pauses = .empty) :
    (m.criterionEnds i g x).ms.pauses = .empty ∧ (m.criterionEnds i g x).ms.state ≠ .paused := by
  unfold Ms.criterionEnds
  simp only
  split
  · exact ⟨pauses, by show m.state ≠ .paused; rw [state]; decide⟩
  · exact ⟨rfl, by show MotionState.stopped ≠ .paused; decide⟩

theorem MsDesk.removed_unpaused {e : MsDesk} (pauses : e.ms.pauses = .empty) (state : e.ms.state ≠ .paused) :
    MsDesk.resumeIfFree { e with ms := { e.ms with pauses := { e.ms.pauses with extRemoval := false } } } = e := by
  have same : ({ e.ms with pauses := { e.ms.pauses with extRemoval := false } } : Ms) = e.ms := by
    rw [pauses]
    show { e.ms with pauses := .empty } = e.ms
    rw [← pauses]
  rw [same]
  unfold MsDesk.resumeIfFree
  exact if_neg fun h => state h.1

theorem MsDesk.takeRemovalComplete_running (segment : d.ms.inSegment i g x) (state : d.ms.state = .running) (pauses : d.ms.pauses = .empty) :
    d.takeRemovalComplete =
      d.after (if g.endKind = .extReleased then Ms.criterionEnds { d.ms with releasedMark := true } i g x
        else Ms.quietly { d.ms with releasedMark := true }) [] := by
  unfold MsDesk.takeRemovalComplete
  rw [if_pos ((Ms.testing_iff _).2 (.inl state)), d.criterionEvent_running .released segment state]
  refine (MsDesk.removed_unpaused ?_ ?_).trans rfl
  · split
    · exact (Ms.criterionEnds_unpaused (m := d.ms.mark .released) state pauses).1
    · exact pauses
  · split
    · exact (Ms.criterionEnds_unpaused (m := d.ms.mark .released) state pauses).2
    · show d.ms.state ≠ .paused
      rw [state]
      decide

/-- In PAUSED EXT_REMOVAL is removed, and MS returns to RUNNING when no cause is left (R72). -/
theorem MsDesk.takeRemovalComplete_paused (segment : d.ms.inSegment i g x) (state : d.ms.state = .paused) :
    d.takeRemovalComplete =
      (let freed : PauseCauses := { d.ms.pauses with extRemoval := false }
       let waiting : Ms := { d.ms.marksPaused .released i g with pauses := freed }
       d.after (if freed = .empty then waiting.returns i g x else waiting.quietly) []) := by
  unfold MsDesk.takeRemovalComplete
  rw [if_pos ((Ms.testing_iff _).2 (.inr state)), d.criterionEvent_paused .released segment state]
  simp only
  split
  · next free =>
    exact MsDesk.resumeIfFree_does
      { d with ms := { d.ms.marksPaused .released i g with pauses := { d.ms.pauses with extRemoval := false } } } i g x segment state free
  · next held =>
    rw [MsDesk.after_quietly]
    exact if_neg fun h => held h.2

theorem MsDesk.takeRemovalComplete_elsewhere (running : d.ms.state ≠ .running) (paused : d.ms.state ≠ .paused) :
    d.takeRemovalComplete = d := by
  unfold MsDesk.takeRemovalComplete
  rw [Ms.testing_eq_false running paused]
  rfl

/-! ## Timeout, BREAK, faults -/

theorem MsDesk.takeRemovalTimeout_testing (testing : d.ms.state = .running ∨ d.ms.state = .paused) (segment : d.ms.inSegment i g x) :
    d.takeRemovalTimeout = d.after (d.ms.testStops i .removalTimeout .removalTimeout x) [] := by
  unfold MsDesk.takeRemovalTimeout
  rw [if_pos ((Ms.testing_iff _).2 testing), d.stops_after _ _ segment]

theorem MsDesk.takeRemovalTimeout_elsewhere (running : d.ms.state ≠ .running) (paused : d.ms.state ≠ .paused) :
    d.takeRemovalTimeout = d := by
  unfold MsDesk.takeRemovalTimeout
  rw [Ms.testing_eq_false running paused]
  rfl

theorem MsDesk.takeBreak_testing (testing : d.ms.state = .running ∨ d.ms.state = .paused) (segment : d.ms.inSegment i g x) :
    d.takeBreak = d.after (d.ms.testStops i .brk .brk x) [] := by
  unfold MsDesk.takeBreak
  rw [if_pos ((Ms.testing_iff _).2 testing), d.stops_after _ _ segment]

theorem MsDesk.takeBreak_elsewhere (running : d.ms.state ≠ .running) (paused : d.ms.state ≠ .paused) : d.takeBreak = d := by
  unfold MsDesk.takeBreak
  rw [Ms.testing_eq_false running paused]
  rfl

theorem MsDesk.takeFault_active (k : FaultKind) (idle : d.ms.state ≠ .idle) (faulted : d.ms.state ≠ .faulted) :
    d.takeFault k = d.after (d.ms.faults (.fault k)) d.ms.armCancelled := by
  unfold MsDesk.takeFault
  rw [if_pos ((MotionState.active_iff _).2 ⟨idle, faulted⟩), MsDesk.fault_after]

theorem MsDesk.takeFault_inactive (k : FaultKind) (state : d.ms.state = .idle ∨ d.ms.state = .faulted) : d.takeFault k = d := by
  unfold MsDesk.takeFault
  rcases state with state | state <;> rw [state] <;> rfl

end

end Sys2Proof.Machine

open Sys2Proof Sys2Proof.Machine

/-- Settles O36: removal complete and the criterion events in RUNNING, PAUSED and elsewhere. -/
theorem removalCompleteAndCriterionEvents : Obligations.RemovalCompleteAndCriterionEvents := by
  refine ⟨fun s rest waiting => ?_, fun s e rest kind n strain waiting isKind => ?_⟩
  · have taken : exec .removalComplete s = .next (s.onMsPaths { s.paths with removals := rest } MsDesk.takeRemovalComplete) := by
      show execRemovalComplete s = _
      unfold execRemovalComplete
      rw [waiting]
    rw [taken]
    refine ⟨fun running paused => ?_, fun i g x segment => ⟨fun state pauses => ?_, fun state => ?_⟩⟩
    · exact congrArg Host.Outcome.next (s.onMsPaths_same (MsDesk.takeRemovalComplete_elsewhere running paused))
    · exact s.onMsPaths_does (MsDesk.takeRemovalComplete_running segment state pauses)
    · exact s.onMsPaths_does (MsDesk.takeRemovalComplete_paused segment state)
  · obtain ⟨event, taken, kinds, marks⟩ : ∃ event : CriterionEvent,
        exec .criterionEventAtMs s = .next (s.onMsPaths { s.paths with teToMs := rest } fun d => d.criterionEvent event) ∧
        kind = event.kind ∧ s.ms.mark event = { s.ms with
          yieldMark := decide (kind = .yieldDone) || s.ms.yieldMark
          proofMark := decide (kind = .proofDone) || s.ms.proofMark } := by
      have taking : exec .criterionEventAtMs s = execCriterionEventAtMs s := rfl
      unfold execCriterionEventAtMs at taking
      rcases isKind with ⟨rfl, rfl⟩ | ⟨rfl, rfl⟩
      · exact ⟨.yieldDone, by rw [taking, waiting], rfl, rfl⟩
      · exact ⟨.proof, by rw [taking, waiting], rfl, rfl⟩
    rw [taken]
    subst kinds
    refine ⟨fun running paused => ?_, fun i g x segment => ⟨fun state => ?_, fun state => ?_⟩⟩
    · exact congrArg Host.Outcome.next (s.onMsPaths_same (MsDesk.criterionEvent_elsewhere event running paused))
    · simp only [← marks]
      exact s.onMsPaths_does (MsDesk.criterionEvent_running event segment state)
    · have pending := MsDesk.criterionEvent_paused (d := ⟨s.ms, s.drive, { s.paths with teToMs := rest }, s.driveLine⟩) event segment state
      simp only [Ms.marksPaused, marks] at pending
      exact s.onMsPaths_does (pending.trans (MsDesk.after_quietly ⟨s.ms, s.drive, { s.paths with teToMs := rest }, s.driveLine⟩ _).symm)

/-- Settles O37: the timeout, BREAK and faults in a test and elsewhere, and the extensometer tag. -/
theorem timeoutBreakAndFaultsEndTheTest : Obligations.TimeoutBreakAndFaultsEndTheTest := by
  refine ⟨fun s rest waiting => ?_, fun s n rest waiting => ?_, fun s b k rest waiting => ?_, fun s tag rest waiting => ?_⟩
  · have taken : exec .removalTimeout s = .next (s.onMsPaths { s.paths with removals := rest } MsDesk.takeRemovalTimeout) := by
      show execRemovalTimeout s = _
      unfold execRemovalTimeout
      rw [waiting]
    rw [taken]
    exact ⟨fun i g x testing segment => s.onMsPaths_does (MsDesk.takeRemovalTimeout_testing testing segment),
      fun running paused => congrArg Host.Outcome.next (s.onMsPaths_same (MsDesk.takeRemovalTimeout_elsewhere running paused))⟩
  · have taken : exec .breakAtMs s = .next (s.onMsPaths { s.paths with teToMs := rest } MsDesk.takeBreak) := by
      show execBreakAtMs s = _
      unfold execBreakAtMs
      rw [waiting]
    rw [taken]
    exact ⟨fun i g x testing segment => s.onMsPaths_does (MsDesk.takeBreak_testing testing segment),
      fun running paused => congrArg Host.Outcome.next (s.onMsPaths_same (MsDesk.takeBreak_elsewhere running paused))⟩
  · have taken : exec (.faultEventAtMs b) s = .next (s.onMsPaths (s.paths.setFaults b rest) fun d => d.takeFault k) := by
      show execFaultEventAtMs b s = _
      unfold execFaultEventAtMs
      rw [waiting]
    rw [taken]
    exact ⟨fun idle faulted => s.onMsPaths_does (MsDesk.takeFault_active k idle faulted),
      fun state => congrArg Host.Outcome.next (s.onMsPaths_same (MsDesk.takeFault_inactive k state))⟩
  · show execExtensometerTag s = _
    unfold execExtensometerTag
    rw [waiting]
    simp only [State.onMsPaths, State.onMs, MsDesk.notice, State.msDesk, State.putMs, MsNotice.of, if_true]
end

