-- ==== Sys2Proof/Proofs/JogAndLoads.lean ====
section
/-! JOG and JOG_STOP (R77, R79), the table lock (R28, R47), and the Test Program at MS (R42, R46). -/

namespace Sys2Proof.Machine

section
variable (d : MsDesk) (tag : Tag)

/-! ## The checks of R77 -/

theorem MsDesk.jogRefusal_of_loads (loads : 0 < d.ms.loadCount) : d.jogRefusal = some (.wrongState, .loadInProgress) := by
  unfold MsDesk.jogRefusal
  rw [if_pos loads]

theorem MsDesk.jogRefusal_of_incomplete (loads : d.ms.loadCount = 0)
    (h : d.ms.summary.frame = none ∨ d.ms.summary.crosshead = false) : d.jogRefusal = some (.badTable, .incompleteCalibration) := by
  unfold MsDesk.jogRefusal
  rw [if_neg (by omega), if_pos (by rwa [Option.isNone_iff_eq_none])]

/-- With the tables there, the drive and the last sample are judged. -/
theorem MsDesk.jogRefusal_of_tables {f : FrameTable} (loads : d.ms.loadCount = 0) (frame : d.ms.summary.frame = some f)
    (crosshead : d.ms.summary.crosshead = true) :
    d.jogRefusal =
      match driveRefusal d.drive.status with
      | some r => some (.wrongState, r)
      | none => d.ms.positionRefusal.map fun r => (.wrongState, r) := by
  unfold MsDesk.jogRefusal
  rw [if_neg (by omega), if_neg (by simp [frame, crosshead])] <;> rfl

/-! ## JOG and JOG_STOP -/

/-- The rate of a jog within v_max (R77). -/
def Ms.jogRateOf (m : Ms) (rate : Int) : Int := max (-m.vMax) (min m.vMax rate)

theorem MsDesk.takeJog_refused {rate : Int} {st : Status} {r : Reason} (idle : d.ms.state = .idle) (refused : d.jogRefusal = some (st, r)) :
    d.takeJog tag rate = d.reply (refuse .jog tag st r .none) := by
  unfold MsDesk.takeJog
  simp only [idle, refused]

theorem MsDesk.takeJog_starts {rate : Int} (idle : d.ms.state = .idle) (accepted : d.jogRefusal = none) :
    d.takeJog tag rate =
      d.after
        { ms := { d.ms with state := .jogging, cause := .none, jogRate := d.ms.jogRateOf rate, jogEnabling := true }
          toTe := [.tag .jogging], tags := [.jogging], events := [] }
        [answer .jog tag .done (.jogRate (d.ms.jogRateOf rate) (decide (d.ms.jogRateOf rate ≠ rate)))] := by
  unfold MsDesk.takeJog
  simp only [idle, accepted, MsDesk.enter_does _ .jogging _ rfl, MsDesk.reply_does, Paths.msSends_msSends, List.append_nil, List.nil_append]
  rfl

theorem MsDesk.takeJog_changes {rate : Int} (jogging : d.ms.state = .jogging) :
    d.takeJog tag rate =
      MsDesk.reply { d with ms := { d.ms with jogRate := d.ms.jogRateOf rate } }
        (answer .jog tag .done (.jogRate (d.ms.jogRateOf rate) (decide (d.ms.jogRateOf rate ≠ rate)))) := by
  unfold MsDesk.takeJog
  rw [jogging]
  rfl

theorem MsDesk.takeJog_elsewhere {rate : Int} (idle : d.ms.state ≠ .idle) (jogging : d.ms.state ≠ .jogging) :
    d.takeJog tag rate = d.reply (answer .jog tag .wrongState .none) := by
  unfold MsDesk.takeJog
  split
  · exact absurd ‹_› idle
  · exact absurd ‹_› jogging
  · rfl

theorem MsDesk.takeJogStop_jogging (jogging : d.ms.state = .jogging) :
    d.takeJogStop tag =
      { d.after
          { ms := { d.ms with
              state := .idle, cause := .jogStop, pauses := .empty, continuation := none, continuationRate := none,
              pendingTransition := none, jogRate := 0 }
            toTe := [.tag (.idle false)], tags := [.idle false], events := [] }
          [answer .jogStop tag .done .none] with
        drive := { d.drive with unanswered := 0, faultMark := false, endMark := false, notReadyMark := false } } := by
  unfold MsDesk.takeJogStop
  rw [if_pos jogging, MsDesk.enter_does _ _ _ rfl, MsDesk.reply_does]
  simp only [Paths.msSends_msSends, List.append_nil, List.nil_append]
  rfl

theorem MsDesk.takeJogStop_elsewhere (jogging : d.ms.state ≠ .jogging) :
    d.takeJogStop tag = d.reply (answer .jogStop tag .wrongState .none) := by
  unfold MsDesk.takeJogStop
  rw [if_neg jogging]

/-! ## Loads -/

theorem Ms.unlocked_of_loads {m : Ms} (state : m.state = .idle ∨ m.state = .faulted) : m.unlocked = true := (Ms.unlocked_iff m).2 state

theorem Ms.locked_of_not {m : Ms} (idle : m.state ≠ .idle) (faulted : m.state ≠ .faulted) : m.unlocked = false := by
  simp [Ms.unlocked, idle, faulted]

theorem MsDesk.takeProgram_none (state : d.ms.state = .idle ∨ d.ms.state = .faulted) :
    d.takeProgram tag none = (d.install none).reply (answer .load tag .done (.clampCount 0)) := by
  unfold MsDesk.takeProgram
  rw [Ms.unlocked_of_loads state]
  rfl

theorem MsDesk.takeProgram_ok {r : RawProgram} {p : Program} {n : Nat} (state : d.ms.state = .idle ∨ d.ms.state = .faulted)
    (checked : checkProgram r = .ok (p, n)) :
    d.takeProgram tag (some r) = (d.install (some p)).reply (answer .load tag .done (.clampCount n)) := by
  unfold MsDesk.takeProgram
  rw [Ms.unlocked_of_loads state]
  simp only [checked]
  rfl

theorem MsDesk.takeProgram_error {r : RawProgram} {f : TableFault} (state : d.ms.state = .idle ∨ d.ms.state = .faulted)
    (checked : checkProgram r = .error f) :
    d.takeProgram tag (some r) = d.reply (refuse .load tag .badTable f.reason (.entryIndex f.index)) := by
  unfold MsDesk.takeProgram
  rw [Ms.unlocked_of_loads state]
  simp only [checked]
  rfl

theorem MsDesk.takeProgram_locked {l : ProgramLoad} (idle : d.ms.state ≠ .idle) (faulted : d.ms.state ≠ .faulted) :
    d.takeProgram tag l = d.reply (answer .load tag .wrongState .none) := by
  unfold MsDesk.takeProgram
  rw [if_pos (Ms.locked_of_not idle faulted)]

end

/-- A step of MS that changes nothing of which a status notice tells. -/
theorem State.onMs_eq_putMs (s : State) {f : MsDesk → MsDesk} {e : MsDesk} (h : f s.msDesk = e)
    (told : MsNotice.of e.ms e.drive = .of s.ms s.drive) : s.onMs f = s.putMs e := by
  unfold State.onMs MsDesk.notice
  rw [h, if_pos told]

end Sys2Proof.Machine

open Sys2Proof Sys2Proof.Machine

/-- Settles O38: the checks of R77 in their order, and JOG and JOG_STOP in each state. -/
theorem jogStartsChangesAndStops : Obligations.JogStartsChangesAndStops := by
  intro s tag rate ready
  have refused {st : Status} {r : Reason} (idle : s.ms.state = .idle) (h : s.msDesk.jogRefusal = some (st, r)) :
      exec (.jog tag rate) s = .next (s.msAnswers (refuse .jog tag st r .none)) :=
    congrArg Host.Outcome.next (s.msRequest_answers ready (s.msDesk.takeJog_refused tag idle h))
  refine ⟨fun idle loads h => ?_, fun f idle loads frame crosshead => ?_, fun jogging => ?_, fun idle jogging => ?_, fun jogging => ?_,
    fun jogging => ?_⟩
  · exact refused idle (s.msDesk.jogRefusal_of_incomplete loads h)
  · have judged := s.msDesk.jogRefusal_of_tables loads frame crosshead
    have drives {r : Reason} (h : driveRefusal s.drive.status = some r) :=
      refused idle (judged.trans (by rw [show s.msDesk.drive.status = s.drive.status from rfl, h]))
    refine ⟨fun h => drives (by rw [h]; rfl), fun st status => ?_⟩
    rw [status] at drives
    refine ⟨fun h => drives (by simp [driveRefusal, h]), fun h h' => drives (by simp [driveRefusal, h, h']),
      fun h h' h'' => drives (by simp [driveRefusal, h, h', h'']), fun fault endSwitch isReady => ?_⟩
    have drive : driveRefusal s.msDesk.drive.status = none :=
      (congrArg driveRefusal status).trans (driveRefusal_of_clear fault endSwitch isReady)
    rw [drive] at judged
    have positions {r : Reason} (h : s.ms.positionRefusal = some r) :=
      refused idle (judged.trans (by rw [show s.msDesk.ms.positionRefusal = s.ms.positionRefusal from rfl, h]; rfl))
    refine ⟨fun h => positions (Ms.positionRefusal_of_no_sample h), fun x last => ⟨fun h => ?_, fun low high => ?_⟩⟩
    · exact positions ((Ms.positionRefusal_of_sample last frame).trans (if_pos ((outsideTravel_iff x).2 h)))
    · have inside : s.msDesk.ms.positionRefusal = none := Ms.positionRefusal_of_inside last frame low high
      exact s.msRequest_does ready (s.msDesk.takeJog_starts tag idle (judged.trans (by rw [inside]; rfl)))
  · refine congrArg Host.Outcome.next ((State.request_ready s _ _ _ ready).trans ?_)
    refine (s.onMs_eq_putMs (s.msDesk.takeJog_changes tag jogging) rfl).trans ?_
    rw [MsDesk.reply_does]
    rfl
  · exact congrArg Host.Outcome.next (s.msRequest_answers ready (s.msDesk.takeJog_elsewhere tag idle jogging))
  · exact s.msRequest_does_drive ready (s.msDesk.takeJogStop_jogging tag jogging)
  · exact congrArg Host.Outcome.next (s.msRequest_answers ready (s.msDesk.takeJogStop_elsewhere tag jogging))

/-- Settles O28: the loads and STORE by the lock, the refusals of ARM and JOG, outcomes and summaries. -/
theorem loadsPassTableLock : Obligations.LoadsPassTableLock := by
  refine ⟨fun s tag cal eval ready => ⟨fun state => ?_, fun idle faulted => ?_, fun idle loads => ?_⟩, fun s o => ?_, fun s c rest waiting => ?_⟩
  · have unlocked : s.msDesk.ms.unlocked = true := Ms.unlocked_of_loads state
    have taken {k : RequestKind} {f : MsDesk → MsDesk} {e : MsDesk} (h : f s.msDesk = e) (told : MsNotice.of e.ms e.drive = .of s.ms s.drive) :
        Host.Outcome.next (φ := Fault) (ρ := Refusal) (s.request k tag fun s => s.onMs f) = .next (s.putMs e) :=
      congrArg Host.Outcome.next ((State.request_ready s _ _ _ ready).trans (s.onMs_eq_putMs h told))
    refine ⟨(taken (f := fun d => d.takeCalLoad tag cal) (by simp only [MsDesk.takeCalLoad, unlocked]; rfl) rfl).trans rfl,
      (taken (f := fun d => d.takeEvalLoad tag eval) (by simp only [MsDesk.takeEvalLoad, unlocked]; rfl) rfl).trans rfl,
      (taken (f := fun d => d.takeStore tag) (by simp only [MsDesk.takeStore, unlocked]; rfl) rfl).trans rfl⟩
  · have locked : s.msDesk.ms.unlocked = false := Ms.locked_of_not idle faulted
    have answers {k : RequestKind} {f : MsDesk → MsDesk} {r : Reply} (h : f s.msDesk = s.msDesk.reply r) :=
      congrArg (Host.Outcome.next (φ := Fault) (ρ := Refusal)) (s.msRequest_answers (k := k) (tag := tag) ready h)
    exact ⟨answers (f := fun d => d.takeCalLoad tag cal) (if_pos locked), answers (f := fun d => d.takeEvalLoad tag eval) (if_pos locked),
      answers (f := fun d => d.takeStore tag) (if_pos locked)⟩
  · refine ⟨exec_arm_of_refusal s tag ready (s.msDesk.armRefusal_of_loads idle loads), fun rate => ?_⟩
    exact congrArg Host.Outcome.next
      (s.msRequest_answers ready (s.msDesk.takeJog_refused tag idle (s.msDesk.jogRefusal_of_loads loads)))
  · refine ⟨fun rest waiting => ?_, fun rest waiting => ?_⟩
    · refine congrArg Host.Outcome.next ((s.onMs_eq_putMs (f := fun d => d.takeOutcome .mc)
        (e := { s.msDesk with ms := s.ms.loadEnded, paths := { s.paths with mcToMs := rest } }) ?_ rfl).trans rfl)
      simp only [MsDesk.takeOutcome, State.msDesk, waiting]
    · refine congrArg Host.Outcome.next ((s.onMs_eq_putMs (f := fun d => d.takeOutcome .te)
        (e := { s.msDesk with ms := s.ms.loadEnded, paths := { s.paths with teOutcomes := rest } }) ?_ rfl).trans rfl)
      simp only [MsDesk.takeOutcome, State.msDesk, waiting]
  · refine congrArg Host.Outcome.next ((s.onMs_eq_putMs (f := fun d => d.takeSummary)
      (e := { s.msDesk with ms := { s.ms with summary := c }, paths := { s.paths with mcToMs := rest } }) ?_ rfl).trans rfl)
    simp only [MsDesk.takeSummary, State.msDesk, waiting]

/-- Settles O29: a program load by its check and the lock, and READBACK from the program held. -/
theorem programInstalledRemovedAndReadBack : Obligations.ProgramInstalledRemovedAndReadBack := by
  intro s tag ready
  have taken {l : ProgramLoad} {e : MsDesk} (h : s.msDesk.takeProgram tag l = e) (told : MsNotice.of e.ms e.drive = .of s.ms s.drive) :
      exec (.loadProgram tag l) s = .next (s.putMs e) :=
    congrArg Host.Outcome.next ((State.request_ready s _ _ _ ready).trans (s.onMs_eq_putMs (f := fun d => d.takeProgram tag l) h told))
  refine ⟨fun state => ⟨?_, fun r p n checked => ?_, fun r f checked => ?_⟩, fun idle faulted l => ?_, fun pointer count => ⟨fun none => ?_, fun p held => ?_⟩⟩
  · exact (taken (s.msDesk.takeProgram_none tag state) rfl).trans rfl
  · exact (taken (s.msDesk.takeProgram_ok tag state checked) rfl).trans rfl
  · exact congrArg Host.Outcome.next (s.msRequest_answers ready (s.msDesk.takeProgram_error tag state checked))
  · exact congrArg Host.Outcome.next (s.msRequest_answers ready (s.msDesk.takeProgram_locked tag idle faulted))
  · refine congrArg Host.Outcome.next (s.msRequest_answers (f := fun d => d.reply (d.ms.readback tag pointer count)) ready ?_)
    simp only [Ms.readback, State.msDesk, none]
  · refine congrArg Host.Outcome.next (s.msRequest_answers (f := fun d => d.reply (d.ms.readback tag pointer count)) ready ?_)
    simp only [Ms.readback, State.msDesk, held]
    rfl
end

