-- ==== Sys2Proof/Proofs/SamplesAtMs.lean ====
section
/-! A Conditioned Sample at MS in each motion state: outside RUNNING and JOGGING, in RUNNING, and in JOGGING (R53, R60, R78, R87,
R91). -/

namespace Sys2Proof.Machine

/-- MS's desk after an effect, replies and triggers for CR. -/
def MsDesk.afterWith (d : MsDesk) (e : MsEffect) (triggers : List Trigger) (replies : List Reply) (port : DrivePort) : MsDesk :=
  { d with
    ms := e.ms, drive := port
    paths := { d.paths.msSends e.toTe e.tags e.events replies with
      triggers := { d.paths.triggers with ms := d.paths.triggers.ms ++ triggers } } }

/-- The desk on which MS acts on a sample taken from its path. -/
def State.sampleDesk (s : State) (x : Sample) (rest : List Sample) : MsDesk :=
  ⟨{ s.ms with last := some x }, s.drive, { s.paths with samplesMs := rest }, s.driveLine⟩

theorem State.exec_sample_of_acts {s : State} {x : Sample} {rest : List Sample} (waiting : s.paths.samplesMs = x :: rest)
    {e : MsEffect} {triggers : List Trigger} {replies : List Reply} {port : DrivePort}
    (acts : (s.sampleDesk x rest).actsOnSample x = (s.sampleDesk x rest).afterWith e triggers replies port) :
    exec .conditionedSampleAtMs s = .next (s.afterSample rest x e triggers replies port) := by
  have taken : exec .conditionedSampleAtMs s = .next (s.putMs (((s.sampleDesk x rest).actsOnSample x).sendFrame x)) := by
    show execConditionedSampleAtMs s = _
    unfold execConditionedSampleAtMs
    rw [waiting]
    rfl
  rw [taken, acts]
  exact congrArg Host.Outcome.next (s.sendFrame_eq_afterSample x rest e triggers replies _ rfl rfl rfl)

theorem MsDesk.afterWith_nothing (d : MsDesk) : d.afterWith d.ms.quietly [] [] d.drive = d := by
  simp [MsDesk.afterWith, Ms.quietly, Paths.msSends_nothing]

theorem MsDesk.after_eq_afterWith (d : MsDesk) (e : MsEffect) (rs : List Reply) : d.after e rs = d.afterWith e [] rs d.drive := by
  simp [MsDesk.afterWith, MsDesk.after, Paths.msSends]

section
variable (d : MsDesk) {x : Sample}

/-! ## Travel (R87, R91) -/

theorem Ms.outside_of_frame {m : Ms} {f : FrameTable} (frame : m.summary.frame = some f) (x : Sample) :
    m.outside x = if x.position < f.travelMin then some f.travelMin else if f.travelMax < x.position then some f.travelMax else none := by
  have low : x.position * q32 < f.travelMin * q32 ↔ x.position < f.travelMin := by simp only [q32]; omega
  have high : f.travelMax * q32 < x.position * q32 ↔ f.travelMax < x.position := by simp only [q32]; omega
  simp only [Ms.outside, frame, Option.bind_some, travelBound, low, high]

theorem MsDesk.reportTravel_does (b : Int) (st : MotionState) :
    d.reportTravel b x st = d.afterWith { d.ms.quietly with events := [.travelLimit b x.number st] } [.travelLimit] [] d.drive := by
  simp [MsDesk.reportTravel, MsDesk.afterWith, Ms.quietly, Paths.msSends, Paths.sendEvent, Paths.sendTrigger, PerBlock.push,
    PerBlock.set, PerBlock.get]

theorem MsDesk.afterWith_afterWith (e e' : MsEffect) (tr tr' : List Trigger) (rs rs' : List Reply) (port port' : DrivePort) :
    (d.afterWith e tr rs port).afterWith e' tr' rs' port' =
      d.afterWith { e' with toTe := e.toTe ++ e'.toTe, tags := e.tags ++ e'.tags, events := e.events ++ e'.events } (tr ++ tr')
        (rs ++ rs') port' := by
  simp [MsDesk.afterWith, Paths.msSends]

theorem MsDesk.answerArm_pending {tag : Tag} (pending : d.ms.armReply = some tag) (st : Status) (p : Payload) :
    d.answerArm st p = d.after { ms := { d.ms with armReply := none }, toTe := [], tags := [], events := [] } [answer .arm tag st p] := by
  unfold MsDesk.answerArm
  rw [pending]
  simp only [MsDesk.reply_does]
  rfl

/-! ## ARMING -/

theorem Ms.restoredSet_of_program {m : Ms} {p : Program} (held : m.program = some p) :
    m.restoredSet =
      match p.fitted with
      | .none => [.crosshead]
      | .both => [.both, .armA, .armB, .crosshead]
      | .armA => [.armA, .crosshead]
      | .armB => [.armB, .crosshead] := by
  simp only [Ms.restoredSet, held, Option.map_some]
  cases p.fitted <;> rfl

/-- MS in ARMED on the sample that completes ARMING (R53). -/
def Ms.armedOn (m : Ms) (x : Sample) : Ms :=
  { m with state := .armed, cause := .none, demand := x.position * 4294967296, armReply := none }

theorem MsDesk.armingSample_unmarked (unmarked : x.armingMark ≠ some d.ms.armingCount) : d.armingSample x = d := by
  unfold MsDesk.armingSample
  rw [if_neg unmarked]

theorem MsDesk.enter_afterWith (t : MotionTag) (c : Cause) (h : t.endsTest = false) :
    d.enter t c = d.afterWith { ms := d.ms.enter t c, toTe := [.tag t], tags := [t], events := [] } [] [] (d.drive.enter t) := by
  rw [MsDesk.enter_does d t c h]
  simp [MsDesk.afterWith, Paths.msSends]

section
variable {tag : Tag} {p : Program}

/-- What MS does where ARMING completes, before it looks at travel. -/
def Ms.completes (m : Ms) (x : Sample) : MsEffect := { ms := m.armedOn x, toTe := [.tag .armed], tags := [.armed], events := [] }

def armedReply (tag : Tag) (x : Sample) (permitted : List Source) : Reply :=
  answer .arm tag .done (.armed x.number x.position x.source permitted)

theorem MsDesk.arms_does (pending : d.ms.armReply = some tag) :
    (MsDesk.enter { d with ms := { d.ms with demand := x.position * q32 } } .armed .none).answerArm .done
        (.armed x.number x.position x.source (MsDesk.enter { d with ms := { d.ms with demand := x.position * q32 } } .armed .none).ms.restoredSet) =
      d.afterWith (d.ms.completes x) [] [armedReply tag x d.ms.restoredSet] d.drive := by
  rw [MsDesk.enter_afterWith _ .armed .none rfl]
  refine (MsDesk.answerArm_pending (tag := tag) _ ?_ _ _).trans ?_
  · exact pending
  · rw [MsDesk.after_eq_afterWith]
    exact MsDesk.afterWith_afterWith _ _ _ _ _ _ _ _ _

variable (marked : x.armingMark = some d.ms.armingCount) (pending : d.ms.armReply = some tag)
include marked pending

theorem MsDesk.armingSample_within {f : FrameTable} (frame : d.ms.summary.frame = some f) (low : f.travelMin ≤ x.position) (high : x.position ≤ f.travelMax) :
    d.armingSample x = d.afterWith (d.ms.completes x) [] [armedReply tag x d.ms.restoredSet] d.drive := by
  have inside : (d.ms.armedOn x).outside x = none := by
    rw [Ms.outside_of_frame (m := d.ms.armedOn x) frame x, if_neg (by omega), if_neg (by omega)]
  unfold MsDesk.armingSample MsDesk.completeArming
  simp only [if_pos marked]
  rw [d.arms_does pending]
  rw [show (d.afterWith (d.ms.completes x) [] [armedReply tag x d.ms.restoredSet] d.drive).ms.outside x = none from inside]

theorem MsDesk.armingSample_outside {b : Int} (bound : (d.ms.armedOn x).outside x = some b) :
    d.armingSample x =
      d.afterWith
        { ms := (d.ms.armedOn x).enter (.faulted .travelLimit) .travelLimit
          toTe := [.tag .armed, .tag (.faulted .travelLimit)]
          tags := [.armed, .faulted .travelLimit]
          events := [.testEnd .faulted .travelLimit (d.ms.cursor.map Cursor.index) d.ms.lastNumber, .travelLimit b x.number .faulted] }
        [.travelLimit] [armedReply tag x d.ms.restoredSet] d.drive := by
  unfold MsDesk.armingSample MsDesk.completeArming
  simp only [if_pos marked]
  rw [d.arms_does pending]
  rw [show (d.afterWith (d.ms.completes x) [] [armedReply tag x d.ms.restoredSet] d.drive).ms.outside x = some b from bound]
  simp only [MsDesk.enterFaulted_does, MsDesk.reportTravel_does]
  simp [MsDesk.afterWith, Paths.msSends, Ms.quietly, Ms.completes, Ms.enter, Ms.armedOn, Ms.lastNumber]

end

end

end Sys2Proof.Machine

open Sys2Proof Sys2Proof.Machine

/-- Settles O39: `MsDesk.armingSample_within` and `_outside` for the marked sample; no other changes anything. -/
theorem samplesOutsideRunningKeepOrSetDemand : Obligations.SamplesOutsideRunningKeepOrSetDemand := by
  refine ⟨fun s x rest waiting quiet => ?_, fun s x rest tag p f waiting arming marked pending program frame => ?_⟩
  · refine State.exec_sample_of_acts waiting (e := Ms.quietly _) (.trans ?_ (MsDesk.afterWith_nothing _).symm)
    unfold MsDesk.actsOnSample
    obtain h | h | h | h | h | ⟨h, unmarked⟩ := quiet <;> rw [show (s.sampleDesk x rest).ms.state = _ from h]
    exact MsDesk.armingSample_unmarked _ unmarked
  · have acts : (s.sampleDesk x rest).actsOnSample x = (s.sampleDesk x rest).armingSample x := by
      unfold MsDesk.actsOnSample
      rw [show (s.sampleDesk x rest).ms.state = _ from arming]
    have set : (s.sampleDesk x rest).ms.restoredSet = _ := Ms.restoredSet_of_program program
    refine ⟨fun low high => ?_, fun b bound => ?_⟩
    · have within := acts.trans (MsDesk.armingSample_within _ marked pending frame low high)
      rw [set] at within
      exact State.exec_sample_of_acts waiting within
    · have outside := acts.trans (MsDesk.armingSample_outside _ marked pending (b := b) ?_)
      · rw [set] at outside
        exact State.exec_sample_of_acts waiting outside
      · rw [Ms.outside_of_frame (m := (s.sampleDesk x rest).ms.armedOn x) frame x]
        obtain ⟨low, rfl⟩ | ⟨low, high, rfl⟩ := bound
        · rw [if_pos low]
        · rw [if_neg (by omega), if_pos high]
end

