-- ==== Sys2Proof/Proofs/RunAndJogSamples.lean ====
section
/-! A Conditioned Sample in RUNNING and in JOGGING (R60 to R64, R78, R81 to R89). -/

namespace Sys2Proof.Machine

section
variable {d : MsDesk} {i : Nat} {g g' : Segment} {x : Sample}

/-! ## RUNNING -/

/-- A sample in RUNNING after its time is added. -/
def MsDesk.timed (d : MsDesk) (x : Sample) : MsDesk := { d with ms := d.ms.addTime x }

/-- The segment that a met criterion leads to (R63). -/
def Ms.nextSegment (m : Ms) (i : Nat) (g : Segment) : Option Segment :=
  if g.action = .next then m.program.bind fun p => p.segments[i + 1]? else none

theorem MsDesk.moves_does (segment : d.ms.inSegment i g x) (state : d.ms.state = .running) :
    (d.checkSource x).moveDemand x = d.afterWith (d.ms.moves i g x).1 (d.ms.moves i g x).2 [] d.drive :=
  d.moveDemand_does i g x segment state

theorem MsDesk.testCriterion_unmet (segment : d.ms.inSegment i g x) (unmet : ¬ d.ms.meets g x) : d.testCriterion x = d := by
  unfold MsDesk.testCriterion
  rw [Ms.running_of_inSegment _ i g x segment]
  exact if_neg fun met => unmet ((Ms.criterionMetBy_iff_meets _ g x).1 met)

theorem MsDesk.testCriterion_met (segment : d.ms.inSegment i g x) (met : d.ms.meets g x) :
    d.testCriterion x = d.after (d.ms.criterionEnds i g x) [] := by
  unfold MsDesk.testCriterion
  rw [Ms.running_of_inSegment _ i g x segment]
  exact (if_pos ((Ms.criterionMetBy_iff_meets _ g x).2 met)).trans (d.criterionMet_does i g x segment)

/-- With no segment running the sample forms no demand. -/
theorem MsDesk.moves_ended (ended : d.ms.running = none) : (d.checkSource x).moveDemand x = d := by
  have check : d.checkSource x = d := by
    unfold MsDesk.checkSource
    rw [ended]
  rw [check]
  unfold MsDesk.moveDemand
  rw [ended]

theorem Ms.criterionEnds_last {m : Ms} (next : m.nextSegment i g = none) : (m.criterionEnds i g x).ms.running = none := by
  have ended : (m.criterionEnds i g x).ms.cursor = some { index := i, phase := .ended } := by
    unfold Ms.criterionEnds
    simp only [show (if g.action = .next then m.program.bind fun p => p.segments[i + 1]? else none) = none from next]
  unfold Ms.running
  rw [ended]
  exact if_neg nofun

/-- The next segment runs, in the state that MS was in. -/
theorem Ms.criterionEnds_next {m : Ms} (segment : m.inSegment i g x) (next : m.nextSegment i g = some g') :
    (m.criterionEnds i g x).ms.inSegment (i + 1) g' x ∧ (m.criterionEnds i g x).ms.state = m.state := by
  obtain ⟨_, _, last⟩ := segment
  have held : (m.program.bind fun p => p.segments[i + 1]?) = some g' := by
    unfold Ms.nextSegment at next
    split at next
    · exact next
    · exact nomatch next
  unfold Ms.criterionEnds
  simp only [show (if g.action = .next then m.program.bind fun p => p.segments[i + 1]? else none) = some g' from next]
  exact ⟨⟨rfl, held, last⟩, rfl⟩

theorem MsDesk.runSample_eq (d : MsDesk) (x : Sample) :
    d.runSample x = (((d.timed x).testCriterion x).checkSource x).moveDemand x := rfl

section
variable (segment : (d.ms.addTime x).inSegment i g x)
include segment

theorem MsDesk.runSample_unmet (state : d.ms.state = .running) (unmet : ¬ (d.ms.addTime x).meets g x) :
    d.runSample x = d.afterWith ((d.ms.addTime x).moves i g x).1 ((d.ms.addTime x).moves i g x).2 [] d.drive := by
  rw [MsDesk.runSample_eq, MsDesk.testCriterion_unmet (d := d.timed x) segment unmet]
  exact MsDesk.moves_does (d := d.timed x) segment state

theorem MsDesk.runSample_stops (met : (d.ms.addTime x).meets g x) (next : (d.ms.addTime x).nextSegment i g = none) :
    d.runSample x = d.afterWith ((d.ms.addTime x).criterionEnds i g x) [] [] d.drive := by
  rw [MsDesk.runSample_eq, MsDesk.testCriterion_met (d := d.timed x) segment met, MsDesk.moves_ended]
  · exact (d.timed x).after_eq_afterWith _ _
  · exact Ms.criterionEnds_last next

theorem MsDesk.runSample_next (state : d.ms.state = .running) (met : (d.ms.addTime x).meets g x)
    (next : (d.ms.addTime x).nextSegment i g = some g') :
    d.runSample x =
      (let ended := (d.ms.addTime x).criterionEnds i g x
       d.afterWith (ended.andThen (ended.ms.moves (i + 1) g' x).1) (ended.ms.moves (i + 1) g' x).2 [] d.drive) := by
  obtain ⟨inNext, kept⟩ := Ms.criterionEnds_next segment next
  rw [MsDesk.runSample_eq, MsDesk.testCriterion_met (d := d.timed x) segment met, MsDesk.after_eq_afterWith]
  refine (MsDesk.moves_does ?_ ?_).trans (MsDesk.afterWith_afterWith _ _ _ _ _ _ _ _ _)
  · exact inNext
  · exact kept.trans state

end

/-! ## JOGGING -/

/-- MS and the Drive Port after a jog ends. -/
def MsDesk.jogEnds (d : MsDesk) (m : Ms) (c : Cause) (e : Event) (triggers : List Trigger) : MsDesk :=
  d.afterWith { ms := m.enter (.idle false) c, toTe := [.tag (.idle false)], tags := [.idle false], events := [e] } triggers []
    (d.drive.enter (.idle false))

theorem MsDesk.event_afterWith (d : MsDesk) (e : Event) : d.event e = d.afterWith { d.ms.quietly with events := [e] } [] [] d.drive := by
  simp [MsDesk.event, MsDesk.afterWith, Ms.quietly, Paths.msSends, Paths.sendEvent, PerBlock.push, PerBlock.set, PerBlock.get]

/-- The demand of a jog step and the bound that cuts it (R82, R87). -/
theorem Ms.advance_of_frame {m : Ms} {f : FrameTable} (frame : m.summary.frame = some f) (delta : Int) :
    m.advance x delta =
      if m.stepped x delta < f.travelMin * 4294967296 then (f.travelMin * 4294967296, some f.travelMin)
      else if f.travelMax * 4294967296 < m.stepped x delta then (f.travelMax * 4294967296, some f.travelMax)
      else (m.stepped x delta, none) := by
  have bounded : m.advance x delta = applyTravel m.summary.frame (m.stepped x delta) := by
    simp [Ms.advance, Ms.stepped, boundStep, maxStep, q32, saturate_eq_clampTo, Ms.vMax]
  rw [bounded, frame]
  simp only [applyTravel, travelBound, q32]
  by_cases low : m.stepped x delta < f.travelMin * 4294967296
  · simp only [low, ↓reduceIte]
  · by_cases high : f.travelMax * 4294967296 < m.stepped x delta
    · simp only [low, high, ↓reduceIte]
    · simp only [low, high, ↓reduceIte]

section
variable {f : FrameTable} (frame : d.ms.summary.frame = some f)
include frame

theorem MsDesk.jogSample_force (above : f.jogForceLimit < (x.force.natAbs : Int)) :
    d.jogSample x = d.jogEnds d.ms .jogForceStop (.jogForceStop x.force x.number) [] := by
  unfold MsDesk.jogSample
  rw [if_pos (by rw [frame]; exact decide_eq_true above), d.enter_afterWith _ _ rfl, MsDesk.event_afterWith]
  exact MsDesk.afterWith_afterWith _ _ _ _ _ _ _ _ _

variable (below : (x.force.natAbs : Int) ≤ f.jogForceLimit)
include below

theorem FrameTable.force_not_any : ¬ (d.ms.summary.frame.any fun t => decide (t.jogForceLimit < (x.force.natAbs : Int))) = true := by
  rw [frame]
  exact fun h => absurd (of_decide_eq_true h) (by omega)

/-- MS on the sample that enables a jog (R91). -/
def Ms.jogEnabledOn (m : Ms) (x : Sample) : Ms := { m with demand := x.position * q32, jogEnabling := false }

section
variable (enabling : d.ms.jogEnabling = true)
include enabling

theorem MsDesk.jogSample_enabling : d.jogSample x =
    match (d.ms.jogEnabledOn x).outside x with
    | none => d.afterWith (d.ms.jogEnabledOn x).quietly [] [] d.drive
    | some b => d.jogEnds (d.ms.jogEnabledOn x) .travelLimit (.travelLimit b x.number .idle) [.travelLimit] := by
  unfold MsDesk.jogSample
  rw [if_neg (FrameTable.force_not_any frame below), if_pos enabling]
  simp only
  rw [show ({ d.ms with demand := x.position * q32, jogEnabling := false } : Ms) = d.ms.jogEnabledOn x from rfl]
  cases (d.ms.jogEnabledOn x).outside x with
  | none => exact (MsDesk.afterWith_nothing { d with ms := d.ms.jogEnabledOn x }).symm
  | some b =>
    simp only
    rw [MsDesk.enter_afterWith _ _ _ rfl, MsDesk.reportTravel_does]
    exact MsDesk.afterWith_afterWith _ _ _ _ _ _ _ _ _

end

section
variable (jogging : d.ms.state = .jogging) (enabled : d.ms.jogEnabling = false)
include jogging enabled

theorem MsDesk.jogSample_moves : d.jogSample x =
    match (d.ms.advance x (rateStep d.ms.jogRate x.period x.gap)) with
    | (v, none) => d.afterWith { d.ms with demand := v }.quietly [] [] d.drive
    | (v, some b) => d.jogEnds { d.ms with demand := v } .travelLimit (.travelLimit b x.number .jogging) [.travelLimit] := by
  unfold MsDesk.jogSample
  rw [if_neg (FrameTable.force_not_any frame below), enabled, if_neg Bool.false_ne_true]
  obtain ⟨v, b⟩ := d.ms.advance x (rateStep d.ms.jogRate x.period x.gap)
  unfold MsDesk.setDemand
  cases b with
  | none => exact (MsDesk.afterWith_nothing { d with ms := { d.ms with demand := v } }).symm
  | some b =>
    simp only
    rw [if_neg (by rw [jogging]; decide), MsDesk.reportTravel_does, MsDesk.enter_afterWith _ _ _ rfl, jogging]
    exact MsDesk.afterWith_afterWith _ _ _ _ _ _ _ _ _

end

end

end

end Sys2Proof.Machine

open Sys2Proof Sys2Proof.Machine

/-- Settles O40: stages 1 to 4 of `MsDesk.runSample`, in the segment that the criterion leaves. -/
theorem runningSamplePassesTheStages : Obligations.RunningSamplePassesTheStages := by
  intro s x rest i g waiting state
  intro m segment next ended
  have acts : (s.sampleDesk x rest).actsOnSample x = (s.sampleDesk x rest).runSample x := by
    unfold MsDesk.actsOnSample
    rw [show (s.sampleDesk x rest).ms.state = _ from state]
  refine ⟨fun unmet => ?_, fun met last => ?_, fun g' met follows => ?_⟩
  · exact State.exec_sample_of_acts waiting (acts.trans (MsDesk.runSample_unmet segment state unmet))
  · exact State.exec_sample_of_acts waiting (acts.trans (MsDesk.runSample_stops segment met last))
  · exact State.exec_sample_of_acts waiting (acts.trans (MsDesk.runSample_next segment state met follows))

/-- Settles O41: the force limit, the enabling step (R91) and the jog step, each with `MsDesk.jogEnds` where the jog ends. -/
theorem jogSamplePassesTheStages : Obligations.JogSamplePassesTheStages := by
  intro s x rest f waiting state frame
  have acts : (s.sampleDesk x rest).actsOnSample x = (s.sampleDesk x rest).jogSample x := by
    unfold MsDesk.actsOnSample
    rw [show (s.sampleDesk x rest).ms.state = _ from state]
  have does {e tr port} (h : (s.sampleDesk x rest).jogSample x = (s.sampleDesk x rest).afterWith e tr [] port) :=
    State.exec_sample_of_acts waiting (acts.trans h)
  refine ⟨fun above => ?_, fun below enabling => ?_, fun below enabled => ?_⟩
  · exact does (MsDesk.jogSample_force frame above)
  · have jog := MsDesk.jogSample_enabling (d := s.sampleDesk x rest) frame below enabling
    rw [Ms.outside_of_frame (m := (s.sampleDesk x rest).ms.jogEnabledOn x) frame x] at jog
    refine ⟨fun low high => ?_, fun low => ?_, fun low high => ?_⟩
    · rw [if_neg (by omega), if_neg (by omega)] at jog
      exact does jog
    · rw [if_pos low] at jog
      exact does jog
    · rw [if_neg (by omega), if_pos high] at jog
      exact does jog
  · have jog := MsDesk.jogSample_moves (d := s.sampleDesk x rest) frame below state enabled
    have moved : (s.sampleDesk x rest).ms.stepped x (rateStep (s.sampleDesk x rest).ms.jogRate x.period x.gap) =
        s.ms.stepped x (positionIncrement s.ms.jogRate x) := rfl
    rw [Ms.advance_of_frame (m := (s.sampleDesk x rest).ms) frame, moved] at jog
    refine ⟨fun low high => ?_, fun low => ?_, fun low high => ?_⟩
    · rw [if_neg (not_lt.2 low), if_neg (not_lt.2 high)] at jog
      exact does jog
    · rw [if_pos low] at jog
      exact does jog
    · rw [if_neg (not_lt.2 low), if_pos high] at jog
      exact does jog
end

