-- ==== Sys2Proof/Proofs/RequestsJudged.lean ====
section
/-! Requests that CP judges itself: in LOADING, of an unknown kind, for an unknown table (R156, R157), and STATUS with the notices
it is formed from (R169). -/

namespace Sys2Proof.Machine

/-! ## Kinds and tables -/

theorem RequestKind.code_range (k : RequestKind) : 16 ≤ k.code.toNat ∧ k.code.toNat ≤ 45 := by cases k <;> decide

theorem RequestKind.ofCode_eq_none_iff (n : Nat) : RequestKind.ofCode n = none ↔ n < 16 ∨ 45 < n := by
  constructor
  · intro unknown
    by_contra inside
    obtain ⟨low, high⟩ : 16 ≤ n ∧ n ≤ 45 := by omega
    interval_cases n <;> exact absurd unknown (by decide)
  · intro outside
    refine List.find?_eq_none.2 fun k _ named => ?_
    have code := of_decide_eq_true named
    have range := k.code_range
    omega

theorem tableKnown_eq_false_iff (kind index : Nat) :
    tableKnown kind index = false ↔
      kind = 0 ∨ 6 < kind ∨ (kind = 3 ∧ 1 < index) ∨ (kind ≠ 3 ∧ kind ≠ 4 ∧ 0 < index) := by
  simp only [tableKnown, tableRef]
  split_ifs <;> simp <;> omega

section
variable {s : State}

/-! ## LOADING (R157) -/

theorem State.cpRequest_loading (k : RequestKind) (tag : Tag) (take : Cp → Cp) (loading : s.cp.store = .loading) :
    s.cpRequest k tag take = s.cpAnswer (answer k tag .notReady .none) :=
  s.request_loading k tag _ loading

theorem State.cpRequest_ready (k : RequestKind) (tag : Tag) (take : Cp → Cp) (ready : s.cp.store ≠ .loading) :
    s.cpRequest k tag take = { s with cp := take s.cp } :=
  s.request_ready k tag _ ready

theorem exec_request_of_loading {c : Instr} {k : RequestKind} {tag : Tag} (loading : s.cp.store = .loading)
    (request : requestOf c = some (k, tag)) (inquire : k ≠ .inquire) (status : k ≠ .status) :
    exec c s = .next (s.cpAnswer (answer k tag .notReady .none)) := by
  cases c <;> simp only [requestOf, Option.some.injEq, Prod.mk.injEq, reduceCtorEq] at request
  all_goals obtain ⟨rfl, rfl⟩ := request
  case inquire => exact absurd rfl inquire
  case status => exact absurd rfl status
  case clear | maskSet | attnMode | streamSet => exact congrArg Host.Outcome.next (State.cpRequest_loading _ _ _ loading)
  all_goals exact congrArg Host.Outcome.next (State.request_loading s _ _ _ loading)

theorem exec_unknownKind_eq {kind : Byte} (tag : Tag) (unknown : kind.toNat < 16 ∨ 45 < kind.toNat) :
    exec (.unknownKind kind tag) s =
      .next (s.cpAnswer (if s.cp.store = .loading then notReady kind tag else badRequest kind tag .unknownKind)) := by
  have none : RequestKind.ofCode kind.toNat = none := (RequestKind.ofCode_eq_none_iff _).2 unknown
  show execUnknownKind kind tag s = _
  unfold execUnknownKind takeRequest
  simp only [none, RequestKind.gated, and_true, Option.isSome_none, Bool.false_eq_true, if_false]
  split <;> rfl

theorem exec_unknownTable_eq {kind index : Byte} (tag : Tag) (unknown : tableKnown kind.toNat index.toNat = false) :
    exec (.unknownTable tag kind index) s =
      .next (s.request .load tag fun s => s.cpAnswer (badRequest RequestKind.load.code tag .unknownTable)) := by
  show execUnknownTable tag kind index s = _
  unfold execUnknownTable
  rw [if_neg (by rw [unknown]; exact Bool.false_ne_true)]

/-! ## Notices and STATUS (R157, R169) -/

theorem State.cpAnswer_eq (s : State) (r : Reply) : s.cpAnswer r = { s with cp := s.cp.replied r } := by
  rw [State.cpAnswer, Cp.offerReply_eq_replied]

/-- A step of CP from what it leaves at its desk. -/
theorem State.onCp_eq {f : CpDesk → CpDesk} (d : CpDesk) (h : f ⟨s.cp, s.paths, s.consoleLine⟩ = d) :
    s.onCp f = { s with cp := d.cp, paths := d.paths, consoleLine := d.line } := by
  rw [← h]
  rfl

theorem Cp.statusRecord_eq (c : Cp) : c.statusRecord =
    { flags := c.flags, mask := c.mask, attention := c.flags &&& c.mask, mode := c.mode, attnLow := c.attnLow,
      frontErrors := c.frontErrors, driveErrors := c.driveErrors, consoleErrors := c.consoleErrors, hold := c.hold,
      free := 64 - c.queue.length, lossMark := c.lossMark, stream := c.stream, decimation := c.decimation,
      motion := c.motion, ext := c.ext, capture := c.capture, store := c.store, lastSample := c.lastSample } := rfl

end

end Sys2Proof.Machine

open Sys2Proof Sys2Proof.Machine

/-- Settles O4: each request passes `State.request`, which LOADING answers. -/
theorem loadingAnswersNotReady : Obligations.LoadingAnswersNotReady := by
  intro s tag loading
  refine ⟨fun c k request inquire status => exec_request_of_loading loading request inquire status, ?_, ?_⟩
  · rintro kind r unknown rfl
    rw [exec_unknownKind_eq tag unknown, if_pos loading]
    rfl
  · intro kind index unknown
    rw [exec_unknownTable_eq tag ((tableKnown_eq_false_iff _ _).2 unknown), State.request_loading _ _ _ _ loading]
    rfl

/-- Settles O57: the notices, `Cp.statusRecord_eq`, and the requests that CP refuses itself. -/
theorem statusFormedAndFaultyRequestsRefused : Obligations.StatusFormedAndFaultyRequestsRefused := by
  refine ⟨fun s x rest waiting => ?_, fun s n rest waiting => ?_, fun s n rest waiting => ?_, fun s n rest waiting => ?_, ?_, ?_, ?_⟩
  · exact congrArg Host.Outcome.next (State.onCp_eq ⟨{ s.cp with store := x }, { s.paths with storeStates := rest }, s.consoleLine⟩ (by simp only [waiting]))
  · exact congrArg Host.Outcome.next (State.onCp_eq ⟨{ s.cp with motion := n }, { s.paths with msNotices := rest }, s.consoleLine⟩ (by simp only [waiting]))
  · exact congrArg Host.Outcome.next (State.onCp_eq ⟨{ s.cp with ext := n }, { s.paths with esNotices := rest }, s.consoleLine⟩ (by simp only [waiting]))
  · exact congrArg Host.Outcome.next (State.onCp_eq ⟨{ s.cp with capture := n }, { s.paths with crNotices := rest }, s.consoleLine⟩ (by simp only [waiting]))
  · rintro s tag c rfl
    exact congrArg Host.Outcome.next (s.cpAnswer_eq _)
  · intro s tag kind ready unknown
    rw [exec_unknownKind_eq tag unknown, if_neg ready, State.cpAnswer_eq]
    rfl
  · intro s tag kind index ready unknown
    rw [exec_unknownTable_eq tag ((tableKnown_eq_false_iff _ _).2 unknown), State.request_ready _ _ _ _ ready, State.cpAnswer_eq]
    rfl
end

