-- ==== Sys2Proof/Proofs/EventsAndFlags.lean ====
section
/-! Events, replies and link errors at CP (R155, R159, R162, R164), and the requests on flags, mask, mode and stream (R163, R165 to
R168). -/

namespace Sys2Proof.Machine

/-! ## Operands -/

theorem flagSet_of_lt {w : BitVec 16} (h : w.toNat < 2048) : flagSet w = some (w.setWidth 11) := if_pos h

theorem flagSet_of_le {w : BitVec 16} (h : 2048 ≤ w.toNat) : flagSet w = none := if_neg (by omega)

theorem decimationOf_zero : decimationOf 0 = 1 := rfl

theorem decimationOf_of_large {n : Nat} (h : 256 < n) : decimationOf n = 256 := by
  simp only [decimationOf]
  split_ifs <;> omega

/-- The decimation in use is the greatest power of two at or below the one asked for (R163). -/
theorem decimationOf_spec {n : Nat} (low : 1 ≤ n) (high : n ≤ 256) :
    ∃ k, decimationOf n = 2 ^ k ∧ decimationOf n ≤ n ∧ n < 2 * decimationOf n := by
  unfold decimationOf
  split_ifs
  · exact ⟨0, by omega⟩
  · exact ⟨1, by omega⟩
  · exact ⟨2, by omega⟩
  · exact ⟨3, by omega⟩
  · exact ⟨4, by omega⟩
  · exact ⟨5, by omega⟩
  · exact ⟨6, by omega⟩
  · exact ⟨7, by omega⟩
  · exact ⟨8, by omega⟩

/-! ## CP on its own requests -/

section
variable (c : Cp) (tag : Tag)

theorem Cp.takeClear_of_lt {flags : BitVec 16} (h : flags.toNat < 2048) :
    c.takeClear tag flags =
      (let c1 := c.clearSet (flags.setWidth 11)
       c1.replied (answer .clear tag .done (.cleared c1.flags (c1.flags &&& c1.mask)))) := by
  simp only [Cp.takeClear, flagSet_of_lt h, Cp.offerReply_eq_replied]
  rfl

theorem Cp.takeMaskSet_of_lt {flags : BitVec 16} (h : flags.toNat < 2048) :
    c.takeMaskSet tag flags =
      (let c1 := Cp.settled { c with mask := flags.setWidth 11 }
       c1.replied (answer .maskSet tag .done (.masked c1.mask (c1.flags &&& c1.mask)))) := by
  simp only [Cp.takeMaskSet, flagSet_of_lt h, Cp.offerReply_eq_replied, Cp.setMask, Cp.settlePin_eq_settled]
  rfl

theorem Cp.takeClear_of_le {flags : BitVec 16} (h : 2048 ≤ flags.toNat) :
    c.takeClear tag flags = c.replied (refuse .clear tag .badRequest .unknownFlag .none) := by
  simp only [Cp.takeClear, flagSet_of_le h, Cp.offerReply_eq_replied]

theorem Cp.takeMaskSet_of_le {flags : BitVec 16} (h : 2048 ≤ flags.toNat) :
    c.takeMaskSet tag flags = c.replied (refuse .maskSet tag .badRequest .unknownFlag .none) := by
  simp only [Cp.takeMaskSet, flagSet_of_le h, Cp.offerReply_eq_replied]

theorem Cp.setMode_latched : c.setMode .latched = Cp.settled { c with mode := .latched, pulse := none } := by
  rw [Cp.setMode, Cp.settlePin_eq_settled]
  rfl

theorem Cp.setMode_pulse : c.setMode .pulse = { c with mode := .pulse, pulse := none, attnLow := false } := rfl

theorem Cp.takeAttnMode_eq (mode : Byte) :
    c.takeAttnMode tag mode =
      if mode = 0 then
        Cp.replied (Cp.settled { c with mode := .latched, pulse := none }) (answer .attnMode tag .done (.attnMode .latched))
      else if mode = 1 then
        Cp.replied { c with mode := .pulse, pulse := none, attnLow := false } (answer .attnMode tag .done (.attnMode .pulse))
      else c.replied (refuse .attnMode tag .badRequest .unknownCode .none) := by
  unfold Cp.takeAttnMode AttnMode.ofCode
  split_ifs
  · simp only [Cp.offerReply_eq_replied, Cp.setMode_latched]
  · simp only [Cp.offerReply_eq_replied, Cp.setMode_pulse]
  · simp only [Cp.offerReply_eq_replied]

theorem Cp.endPulse_of_running (mode : c.mode = .pulse) (running : c.pulse.isSome = true) :
    c.endPulse = { c with attnLow := false, pulse := none } := by
  obtain ⟨us, pulse⟩ := Option.isSome_iff_exists.1 running
  simp only [Cp.endPulse, mode, pulse]

end

/-! ## Events -/

theorem Event.flag_eq_kindFlag {e : Event} (h : e.code ≠ 16) : e.flag = kindFlag e.code := by
  cases e
  case segmentFallback => exact absurd rfl h
  all_goals rfl

/-- The code and the sample number of each event kind, as section 11.5 and the raising rules give them. -/
theorem Event.code_and_number (e : Event) : (e.code, e.number) =
    (match e with
     | .inletGap _ _ => (1, none)
     | .inletSilent _ n => (2, n)
     | .periodChanged _ _ => (3, none)
     | .overload _ _ => (4, none)
     | .rangeInvalid _ => (5, none)
     | .driveFault _ _ => (6, none)
     | .endSwitch _ => (7, none)
     | .driveNotReady _ => (8, none)
     | .driveSilent _ _ => (9, none)
     | .travelLimit _ n _ => (10, some n)
     | .jogForceStop _ n => (11, some n)
     | .storeError _ => (12, none)
     | .autoloadDone _ => (13, none)
     | .testEnd _ _ _ n => (14, n)
     | .segmentEnd entry => (15, some entry.number)
     | .segmentFallback _ n _ _ _ => (16, some n)
     | .rateClamped _ _ _ _ _ => (17, none)
     | .armDemoted _ _ n _ _ => (18, some n)
     | .extFailed _ n _ => (19, some n)
     | .extRemovalRequest _ n _ _ => (20, n)
     | .linkError _ _ => (21, none)
     | .extReleased n _ _ => (23, n)
     | .extRemovalTimeout _ n => (24, n)
     | .extAtBreak _ _ n => (25, some n)
     | .yieldUpper _ falling => (26, some falling)
     | .yieldDone _ _ _ _ n => (27, some n)
     | .fitDone _ _ _ n => (28, some n)
     | .fitFailed _ _ n => (29, n)
     | .proof rp _ => (30, some rp.number)
     | .brk n _ => (31, some n)
     | .holdExpired _ _ => (32, none)
     | .captureHeld _ _ _ _ _ => (33, none)) := by
  cases e <;> rfl

section
variable (s : State)

/-! ## The steps of CP -/

theorem exec_cp_of_ready {c : Instr} {k : RequestKind} {tag : Tag} {take : Cp → Cp} (ready : s.cp.store ≠ .loading)
    (routed : exec c s = .next (s.cpRequest k tag take)) : exec c s = .next { s with cp := take s.cp } := by
  rw [routed, State.cpRequest_ready k tag take ready]

theorem exec_linkError_front {n : Nat} (h : s.paths.frontErrors = n + 1) :
    exec (.linkError .front) s = .next { s with
      cp := s.cp.linkErrorTaken .front, paths := { s.paths with frontErrors := n } } := by
  refine congrArg Host.Outcome.next (State.onCp_eq ⟨s.cp.linkErrorTaken .front, { s.paths with frontErrors := n }, s.consoleLine⟩ ?_)
  simp only [h, Nat.add_one_ne_zero, if_false, Nat.add_sub_cancel, Cp.takeLinkError_eq]

theorem exec_linkError_drive {n : Nat} (h : s.paths.driveErrors = n + 1) :
    exec (.linkError .drive) s = .next { s with
      cp := s.cp.linkErrorTaken .drive, paths := { s.paths with driveErrors := n } } := by
  refine congrArg Host.Outcome.next (State.onCp_eq ⟨s.cp.linkErrorTaken .drive, { s.paths with driveErrors := n }, s.consoleLine⟩ ?_)
  simp only [h, Nat.add_one_ne_zero, if_false, Nat.add_sub_cancel, Cp.takeLinkError_eq]

theorem exec_linkError_console :
    exec (.linkError .console) s = .next { s with cp := s.cp.linkErrorTaken .console } := by
  refine congrArg Host.Outcome.next (State.onCp_eq ⟨s.cp.linkErrorTaken .console, s.paths, s.consoleLine⟩ ?_)
  simp only [Cp.takeLinkError_eq]

end

end Sys2Proof.Machine

open Sys2Proof Sys2Proof.Machine

/-- Settles O54: `Cp.takeEvent_eq_told`, `Cp.offerReply_eq_replied`, and the table of codes, numbers and flags. -/
theorem eventsAndRepliesQueued : Obligations.EventsAndRepliesQueued := by
  refine ⟨fun s b r rest waiting => ?_, fun s b e rest waiting => ?_, Event.code_and_number, fun _ => Event.flag_eq_kindFlag,
    fun i n src rate p => rfl⟩
  · refine congrArg Host.Outcome.next (State.onCp_eq ⟨s.cp.replied r, { s.paths with replies := s.paths.replies.set b rest }, s.consoleLine⟩ ?_)
    simp only [waiting, Cp.offerReply_eq_replied]
  · refine congrArg Host.Outcome.next (State.onCp_eq ⟨s.cp.told e e.flag (if e.number.isSome then e.number else s.cp.lastSample), { s.paths with events := s.paths.events.set b rest }, s.consoleLine⟩ ?_)
    simp only [waiting, Cp.takeEvent_eq_told]

/-- Settles O56: the five requests on `Cp`, the end of a pulse, and `Cp.takeLinkError_eq`. -/
theorem flagsMaskModePulseAndLinkErrors : Obligations.FlagsMaskModePulseAndLinkErrors := by
  refine ⟨fun s tag ready => ⟨?clear, ?mask, ?unknown, ?mode, ?stream⟩, fun s mode running => ?pulse,
    fun s n => ⟨exec_linkError_front s, exec_linkError_drive s, exec_linkError_console s⟩⟩
  case clear =>
    rintro flags inside c rfl
    rw [exec_cp_of_ready s (c := .clear tag flags) ready rfl, Cp.takeClear_of_lt _ tag inside, Cp.clearSet_eq]
    simp only [BitVec.getLsbD_setWidth, Nat.reduceLT, decide_true, Bool.true_and]
  case mask =>
    rintro flags inside c rfl
    rw [exec_cp_of_ready s (c := .maskSet tag flags) ready rfl, Cp.takeMaskSet_of_lt _ tag inside]
  case unknown =>
    intro flags outside
    rw [exec_cp_of_ready s (c := .clear tag flags) ready rfl, exec_cp_of_ready s (c := .maskSet tag flags) ready rfl,
      Cp.takeClear_of_le _ tag outside, Cp.takeMaskSet_of_le _ tag outside]
    exact ⟨rfl, rfl⟩
  case mode =>
    intro mode
    rw [exec_cp_of_ready s (c := .attnMode tag mode) ready rfl, Cp.takeAttnMode_eq]
  case stream =>
    intro enable asked _
    refine ⟨decimationOf asked, ?_, fun h => h ▸ decimationOf_zero, decimationOf_of_large, decimationOf_spec⟩
    rw [exec_cp_of_ready s (c := .streamSet tag enable asked) ready rfl, Cp.takeStreamSet, Cp.offerReply_eq_replied]
  case pulse =>
    show Host.Outcome.next { s with cp := s.cp.endPulse } = _
    rw [Cp.endPulse_of_running _ mode running]
end

