-- ==== Sys2Proof/Proofs/CaptureRing.lean ====
section
/-! Samples, triggers and requests at the Capture Ring (R146 to R152). -/

namespace Sys2Proof.Machine

/-- CR's desk with the ring changed, and events and replies sent. -/
def CrDesk.does (p : Paths) (c : Cr) (events : List Event) (replies : List Reply) : CrDesk :=
  ⟨c, { p with
    events := { p.events with cr := p.events.cr ++ events }
    replies := { p.replies with cr := p.replies.cr ++ replies } }⟩

theorem CrDesk.does_nothing (p : Paths) (c : Cr) : CrDesk.does p c [] [] = ⟨c, p⟩ := by
  simp only [CrDesk.does, List.append_nil]

theorem State.onCr_does {s : State} {f : CrDesk → CrDesk} {p : Paths} {c : Cr} {events : List Event} {replies : List Reply}
    (h : f ⟨s.cr, s.paths⟩ = CrDesk.does p c events replies) :
    Host.Outcome.next (φ := Fault) (ρ := Refusal) (s.onCr f) = .next (s.crDoes p c events replies) :=
  congrArg Host.Outcome.next (State.onCr_eq_crDoes s f p c events replies h)

theorem State.crDoes_nothing (s : State) (p : Paths) : s.crDoes p s.cr [] [] = { s with paths := p } := by
  simp [State.crDoes]

/-! ## Samples (R146, R148) -/

section
variable {c : Cr} {p : Paths} (x : Sample)

theorem CrDesk.takeSample_idle (idle : c.state = .off ∨ c.state = .held) : CrDesk.takeSample ⟨c, p⟩ x = ⟨c, p⟩ := by
  unfold CrDesk.takeSample
  obtain state | state := idle <;> simp only [state]

theorem CrDesk.takeSample_filling (state : c.state = .filling) :
    CrDesk.takeSample ⟨c, p⟩ x = CrDesk.does p { c with ring := c.recorded x } [] [] := by
  unfold CrDesk.takeSample
  simp only [state, appendRecord_eq_recorded, CrDesk.does_nothing]

/-- The ring with a record more and one sample less to go, in POST. -/
def Cr.counted (c : Cr) (x : Sample) : Cr := { c with ring := c.recorded x, remaining := c.remaining - 1 }

theorem CrDesk.takeSample_counts (state : c.state = .post) :
    CrDesk.takeSample ⟨c, p⟩ x = if c.remaining - 1 = 0 then CrDesk.hold ⟨c.counted x, p⟩ else ⟨c.counted x, p⟩ := by
  unfold CrDesk.takeSample
  rw [state]
  simp only [appendRecord_eq_recorded]
  rfl

theorem CrDesk.takeSample_post (state : c.state = .post) (more : 1 < c.remaining) :
    CrDesk.takeSample ⟨c, p⟩ x = CrDesk.does p (c.counted x) [] [] := by
  rw [CrDesk.takeSample_counts x state, if_neg (by omega), CrDesk.does_nothing]

theorem CrDesk.takeSample_last (state : c.state = .post) (last : c.remaining = 1) :
    CrDesk.takeSample ⟨c, p⟩ x = CrDesk.does p (c.counted x).enteredHeld.1 (c.counted x).enteredHeld.2 [] := by
  rw [CrDesk.takeSample_counts x state, if_pos (by omega), CrDesk.hold_eq]
  simp only [CrDesk.does, List.append_nil]

/-! ## Triggers (R147) -/

theorem CrDesk.trigger_does (t : Trigger) : CrDesk.trigger ⟨c, p⟩ t = CrDesk.does p (c.triggered t).1 (c.triggered t).2 [] := by
  rw [CrDesk.trigger_eq]
  simp only [CrDesk.does, List.append_nil]

theorem CrDesk.takeTrigger_masked {t : Trigger} (filling : c.state = .filling) (masked : c.masked t = true) :
    CrDesk.takeTrigger ⟨c, p⟩ t = CrDesk.does p (c.triggered t).1 (c.triggered t).2 [] := by
  unfold CrDesk.takeTrigger
  rw [if_pos ⟨filling, masked⟩, CrDesk.trigger_does]

theorem CrDesk.takeTrigger_disregards {t : Trigger} (h : c.state ≠ .filling ∨ c.masked t = false) :
    CrDesk.takeTrigger ⟨c, p⟩ t = ⟨c, p⟩ := by
  unfold CrDesk.takeTrigger
  refine if_neg fun ⟨filling, masked⟩ => ?_
  obtain other | clear := h
  · exact other filling
  · exact Bool.noConfusion (clear.symm.trans masked)

end

/-! ## Requests (R149 to R152) -/

section
variable {c : Cr} {p : Paths} (tag : Tag)

theorem CrDesk.does_reply (events : List Event) (k : RequestKind) (st : Status) (more : CaptureMore) :
    CrDesk.reply (CrDesk.does p c events []) k tag st more = CrDesk.does p c events [c.says k tag st none more] := by
  simp only [CrDesk.does, CrDesk.reply, List.append_nil]
  rfl

theorem CrDesk.reply_does (k : RequestKind) (st : Status) (more : CaptureMore) :
    CrDesk.reply ⟨c, p⟩ k tag st more = CrDesk.does p c [] [c.says k tag st none more] := by
  rw [← CrDesk.does_nothing, CrDesk.does_reply]

theorem triggerMask_of_lt {mask : Byte} (h : mask.toNat < 32) : triggerMask mask = some (mask.setWidth 5) := if_pos h

theorem triggerMask_of_le {mask : Byte} (h : 32 ≤ mask.toNat) : triggerMask mask = none := if_neg (by omega)

/-- The ring that CAPTURE_SET leaves (R149). -/
theorem CrDesk.takeSet_does (enable : Byte) (post : Nat) (mask : BitVec 5) {c' : Cr}
    (set : c' = { c with
      enable := decide (enable ≠ 0), post := min post 4095, mask := mask, ring := [], trigger := none, cause := none,
      remaining := 0, state := if enable = 0 then .off else .filling }) :
    CrDesk.takeSet ⟨c, p⟩ tag (decide (enable ≠ 0)) post mask =
      CrDesk.does p c' [] [c'.says .captureSet tag .done none (.clamped (decide (4095 < post)))] := by
  have cut : (min 4095 post ≠ post) ↔ 4095 < post := by omega
  have restarted : Cr.restart { c with enable := decide (enable ≠ 0), post := min 4095 post, mask := mask } = c' := by
    rw [set, Nat.min_comm]
    by_cases off : enable = 0 <;> simp [Cr.restart, off]
  unfold CrDesk.takeSet
  simp only [restarted, CrDesk.reply_does, cut]

section
variable (filling : c.state = .filling)
include filling

theorem CrDesk.takeConsoleTrigger_masked (masked : c.mask.getLsbD 4 = true) :
    CrDesk.takeConsoleTrigger ⟨c, p⟩ tag =
      CrDesk.does p (c.triggered .console).1 (c.triggered .console).2
        [(c.triggered .console).1.says .captureTrigger tag .done none
          (.triggered (c.triggered .console).1.trigger (c.triggered .console).1.state)] := by
  unfold CrDesk.takeConsoleTrigger
  rw [if_pos filling, if_pos (show c.masked .console = true from masked), CrDesk.trigger_does, CrDesk.does_reply]
  rfl

theorem CrDesk.takeConsoleTrigger_clear (clear : c.mask.getLsbD 4 = false) :
    CrDesk.takeConsoleTrigger ⟨c, p⟩ tag =
      CrDesk.does p c [] [c.says .captureTrigger tag .wrongState (some .notInMask) .nothing] := by
  unfold CrDesk.takeConsoleTrigger
  rw [if_pos filling, if_neg (by rw [show c.masked .console = false from clear]; exact Bool.false_ne_true)]
  simp only [CrDesk.does, List.append_nil]
  rfl

end

theorem CrDesk.takeConsoleTrigger_elsewhere (state : c.state ≠ .filling) :
    CrDesk.takeConsoleTrigger ⟨c, p⟩ tag = CrDesk.does p c [] [c.says .captureTrigger tag .wrongState none .nothing] := by
  unfold CrDesk.takeConsoleTrigger
  rw [if_neg state, CrDesk.reply_does]

theorem Cr.triggered_trigger (t : Trigger) : (c.triggered t).1.trigger = c.newest := by
  unfold Cr.triggered
  split <;> rfl

section
variable (k : Nat)

theorem CrDesk.takeDrain_held (held : c.state = .held) (some : c.ring ≠ []) :
    CrDesk.takeDrain ⟨c, p⟩ tag k =
      (let c' : Cr := { c with ring := c.ring.drop (min k 32) }
       CrDesk.does p c' [] [c'.says .captureDrain tag .done none (.drained c'.ring.length (c.ring.take (min k 32)))]) := by
  unfold CrDesk.takeDrain
  rw [if_pos held, if_neg some]
  exact CrDesk.reply_does tag _ _ _

theorem CrDesk.takeDrain_empty (held : c.state = .held) (empty : c.ring = []) :
    CrDesk.takeDrain ⟨c, p⟩ tag k = CrDesk.does p c [] [c.says .captureDrain tag .empty none (.drained 0 [])] := by
  unfold CrDesk.takeDrain
  rw [if_pos held, if_pos empty, CrDesk.reply_does]

theorem CrDesk.takeDrain_elsewhere (state : c.state ≠ .held) :
    CrDesk.takeDrain ⟨c, p⟩ tag k = CrDesk.does p c [] [c.says .captureDrain tag .wrongState none .nothing] := by
  unfold CrDesk.takeDrain
  rw [if_neg state, CrDesk.reply_does]

end

section
variable (s : State)

theorem exec_cr_of_ready {i : Instr} {k : RequestKind} {take : CrDesk → CrDesk} {c' : Cr} {events : List Event}
    {replies : List Reply} (ready : s.cp.store ≠ .loading)
    (routed : exec i s = .next (s.request k tag fun s => s.onCr take))
    (does : take ⟨s.cr, s.paths⟩ = CrDesk.does s.paths c' events replies) :
    exec i s = .next (s.crDoes s.paths c' events replies) := by
  rw [routed, State.request_ready _ _ _ _ ready]
  exact State.onCr_does does

theorem exec_captureSet_eq {enable mask : Byte} {post : Nat} (ready : s.cp.store ≠ .loading) :
    exec (.captureSet tag enable post mask) s = .next
      (match triggerMask mask with
       | none => s.cpAnswer (refuse .captureSet tag .badRequest .unknownFlag .none)
       | some m => s.onCr fun d => d.takeSet tag (decide (enable ≠ 0)) post m) := by
  show Host.Outcome.next (reqCaptureSet tag enable post mask s) = _
  unfold reqCaptureSet
  rw [State.request_ready _ _ _ _ ready] <;> rfl

/-- A sample waiting for CR is taken. -/
theorem exec_conditionedSampleAtCr_of_waiting {x : Sample} {rest : List Sample} (waiting : s.paths.samplesCr = x :: rest)
    {c' : Cr} {events : List Event}
    (does : CrDesk.takeSample ⟨s.cr, { s.paths with samplesCr := rest }⟩ x = CrDesk.does { s.paths with samplesCr := rest } c' events []) :
    exec .conditionedSampleAtCr s = .next (s.crDoes { s.paths with samplesCr := rest } c' events []) := by
  refine State.onCr_does ?_
  simp only [waiting]
  exact does

theorem exec_triggerEventAtCr_of_waiting {b : Block} {t : Trigger} {rest : List Trigger} (waiting : s.paths.triggers.get b = t :: rest)
    {c' : Cr} {events : List Event}
    (does : CrDesk.takeTrigger ⟨s.cr, { s.paths with triggers := s.paths.triggers.set b rest }⟩ t =
      CrDesk.does { s.paths with triggers := s.paths.triggers.set b rest } c' events []) :
    exec (.triggerEventAtCr b) s = .next (s.crDoes { s.paths with triggers := s.paths.triggers.set b rest } c' events []) := by
  refine State.onCr_does ?_
  simp only [waiting]
  exact does

end

end

end Sys2Proof.Machine

open Sys2Proof Sys2Proof.Machine

/-- Settles O53: samples and triggers in each ring state, and the four requests, each by what it leaves at CR's desk. -/
theorem captureRingRecordsTriggersAndAnswers : Obligations.CaptureRingRecordsTriggersAndAnswers := by
  refine ⟨⟨?samples, ?triggers⟩, fun s tag ready => ⟨?set, ?refused, ?masked, ?clear, ?elsewhere, fun k => ⟨?drain, ?empty, ?other⟩, ?rearm⟩⟩
  case samples =>
    rintro s x rest waiting p rfl
    refine ⟨fun idle => ?_, fun filling => ?_, ?_⟩
    · rw [exec_conditionedSampleAtCr_of_waiting s waiting ((CrDesk.takeSample_idle x idle).trans (CrDesk.does_nothing _ _).symm),
        State.crDoes_nothing]
    · exact exec_conditionedSampleAtCr_of_waiting s waiting (CrDesk.takeSample_filling x filling)
    · rintro post c rfl
      exact ⟨fun more => exec_conditionedSampleAtCr_of_waiting s waiting (CrDesk.takeSample_post x post more),
        fun last => exec_conditionedSampleAtCr_of_waiting s waiting (CrDesk.takeSample_last x post last)⟩
  case triggers =>
    rintro s b t rest waiting p rfl bit rfl
    refine ⟨fun filling masked => ?_, fun h => ?_⟩
    · exact exec_triggerEventAtCr_of_waiting s waiting (CrDesk.takeTrigger_masked filling masked)
    · rw [exec_triggerEventAtCr_of_waiting s waiting ((CrDesk.takeTrigger_disregards h).trans (CrDesk.does_nothing _ _).symm),
        State.crDoes_nothing]
  case set =>
    intro enable mask post inside c set
    rw [exec_captureSet_eq tag s ready, triggerMask_of_lt inside]
    exact State.onCr_does (CrDesk.takeSet_does tag enable post _ set)
  case refused =>
    intro enable mask post outside
    rw [exec_captureSet_eq tag s ready, triggerMask_of_le outside]
    rfl
  case masked =>
    rintro filling masked c rfl
    have does := CrDesk.takeConsoleTrigger_masked (p := s.paths) tag filling masked
    rw [Cr.triggered_trigger] at does
    exact exec_cr_of_ready tag s ready rfl does
  case clear => exact fun filling clear => exec_cr_of_ready tag s ready rfl (CrDesk.takeConsoleTrigger_clear tag filling clear)
  case elsewhere => exact fun state => exec_cr_of_ready tag s ready rfl (CrDesk.takeConsoleTrigger_elsewhere tag state)
  case drain =>
    rintro held some c rfl
    exact exec_cr_of_ready tag s ready rfl (CrDesk.takeDrain_held tag k held some)
  case empty => exact fun held empty => exec_cr_of_ready tag s ready rfl (CrDesk.takeDrain_empty tag k held empty)
  case other => exact fun state => exec_cr_of_ready tag s ready rfl (CrDesk.takeDrain_elsewhere tag k state)
  case rearm =>
    rintro c rfl
    exact exec_cr_of_ready tag s ready rfl (CrDesk.reply_does tag _ _ _)
end

