-- ==== Sys2Proof/Proofs/ExtensometerSamples.lean ====
section
/-! A Conditioned Sample at ES, stage by stage (R98, R101 to R106, R109, R110). -/

namespace Sys2Proof.Machine

/-! ## What ES leaves at its desk -/

/-- ES's desk: its own state, its tag to MS if it sends one, events and replies, over the paths `p`. -/
def EsDesk.does (p : Paths) (e : Es) (tag : Bool) (events : List Event) (replies : List Reply) : EsDesk :=
  ⟨e, { p with
    extTags := p.extTags ++ (if tag then [{ name := e.state.name, generation := e.generation }] else [])
    events := { p.events with es := p.events.es ++ events }
    replies := { p.replies with es := p.replies.es ++ replies } }⟩

theorem EsDesk.does_nothing (p : Paths) (e : Es) : EsDesk.does p e false [] [] = ⟨e, p⟩ := by simp [EsDesk.does]

section
variable {p : Paths} {e : Es} {tag : Bool} {events : List Event} {replies : List Reply}

theorem State.onEs_does {s : State} {f : EsDesk → EsDesk} (h : f ⟨s.es, s.paths⟩ = EsDesk.does p e tag events replies) :
    Host.Outcome.next (φ := Fault) (ρ := Refusal) (s.onEs f) = .next (s.esDoes p e tag events replies) :=
  congrArg Host.Outcome.next (State.onEs_eq_esDoes s f p e tag events replies (congrArg EsDesk.es h) (congrArg EsDesk.paths h))

theorem EsDesk.does_event (ev : Event) :
    EsDesk.event (EsDesk.does p e tag events replies) ev = EsDesk.does p e tag (events ++ [ev]) replies := by
  simp only [EsDesk.event, EsDesk.does, Paths.sendEvent, PerBlock.push_es, List.append_assoc]

theorem EsDesk.does_reply (r : Reply) :
    EsDesk.reply (EsDesk.does p e tag events replies) r = EsDesk.does p e tag events (replies ++ [r]) := by
  simp only [EsDesk.reply, EsDesk.does, Paths.sendReply, PerBlock.push_es, List.append_assoc]

theorem EsDesk.does_sendTag : EsDesk.sendTag (EsDesk.does p e false events replies) = EsDesk.does p e true events replies := by
  simp [EsDesk.sendTag, EsDesk.does]

theorem EsDesk.does_tagIfChanged (was : ExtName) :
    EsDesk.tagIfChanged (EsDesk.does p e false events replies) was =
      EsDesk.does p e (decide (e.state.name ≠ was)) events replies := by
  rw [EsDesk.tagIfChanged_does]
  simp [EsDesk.does]

/-- While no tag is sent ES's state may change. -/
theorem EsDesk.does_es (e' : Es) :
    { EsDesk.does p e false events replies with es := e' } = EsDesk.does p e' false events replies := rfl

end

/-! ## Stage 5 -/

section
variable {p p' : Paths} {e e' : Es} {tag : Bool} {events : List Event} (x : Sample)

theorem EsDesk.takeSample_records {d : EsDesk} (stages : (d.actOn x).seat x = EsDesk.does p' e' tag events []) :
    d.takeSample x = EsDesk.does p' (e'.recorded x) tag events [] := by
  unfold EsDesk.takeSample
  simp only [stages]
  rfl

/-- A state in which seating is judged: before a test (R98). -/
def ExtState.Seats (st : ExtState) : Prop := st = .notFitted ∨ st = .unseated ∨ st = .seated

theorem ExtState.not_seats_removalPending (sub : RemovalSub) : ¬ (ExtState.removalPending sub).Seats := by simp [ExtState.Seats]
theorem ExtState.not_seats_released : ¬ ExtState.released.Seats := by simp [ExtState.Seats]
theorem ExtState.not_seats_active : ¬ ExtState.active.Seats := by simp [ExtState.Seats]
theorem ExtState.not_seats_failed (c : FailCause) : ¬ (ExtState.failed c).Seats := by simp [ExtState.Seats]

theorem EsDesk.seat_elsewhere {d : EsDesk} (h : ¬ d.es.state.Seats) : d.seat x = d := by
  unfold EsDesk.seat
  split
  · exact absurd (.inl ‹_›) h
  · exact absurd (.inr (.inl ‹_›)) h
  · exact absurd (.inr (.inr ‹_›)) h
  · rfl

/-- Between the states of seating the name tells the state. -/
theorem ExtState.Seats.name_ne_iff {a b : ExtState} (ha : a.Seats) (hb : b.Seats) : a.name ≠ b.name ↔ a ≠ b := by
  obtain rfl | rfl | rfl := ha <;> obtain rfl | rfl | rfl := hb <;> decide

theorem seatedBy_seats (f : Option Fitted) (a b : Bool) : (seatedBy f a b).Seats := by
  unfold seatedBy ExtState.Seats
  split
  · exact .inl rfl
  · exact .inl rfl
  all_goals split
  all_goals first | exact .inr (.inl rfl) | exact .inr (.inr rfl)

theorem EsDesk.actOn_seats (seats : e.state.Seats) : EsDesk.actOn ⟨e, p⟩ x = ⟨e, p⟩ := by
  unfold EsDesk.actOn
  obtain h | h | h := seats <;> simp only [h]

theorem EsDesk.seat_judges (seats : e.state.Seats) (before : e.tag.state.judgesSeating = true) :
    EsDesk.seat ⟨e, p⟩ x =
      (let st := seatedBy e.fitted x.contactA x.contactB
       EsDesk.does p { e with state := st } (decide (st ≠ e.state)) [] []) := by
  have judged : EsDesk.seat ⟨e, p⟩ x =
      EsDesk.tagIfChanged ⟨{ e with state := seating e.fitted x.contactA x.contactB }, p⟩ e.state.name := by
    unfold EsDesk.seat
    obtain h | h | h := seats <;> simp only [h, before, if_true]
  rw [judged, seating_eq_seatedBy, ← EsDesk.does_nothing, EsDesk.does_tagIfChanged]
  simp only [(seatedBy_seats e.fitted x.contactA x.contactB).name_ne_iff seats]

theorem EsDesk.seat_afterwards (before : ¬ e.tag.state.judgesSeating = true) : EsDesk.seat ⟨e, p⟩ x = ⟨e, p⟩ := by
  unfold EsDesk.seat
  split <;> first | exact if_neg before | rfl

/-! ## Stage 4 (R110) -/

/-- RELEASED, with its event and tag (R112, R113). -/
theorem EsDesk.release_does (number : Option Nat) (source : Option Source) (inTime : Bool) (events : List Event) :
    EsDesk.release (EsDesk.does p e false events []) number source inTime =
      EsDesk.does (if inTime then { p with removals := p.removals ++ [.complete] } else p)
        { e with state := .released, timer := none } true (events ++ [.extReleased number source inTime]) [] := by
  cases inTime
  · show EsDesk.sendTag (EsDesk.event (EsDesk.does p { e with state := .released, timer := none } false events []) _) = _
    rw [EsDesk.does_event, EsDesk.does_sendTag]
    rfl
  · show EsDesk.sendTag (EsDesk.event
      (EsDesk.does { p with removals := p.removals ++ [.complete] } { e with state := .released, timer := none } false events []) _) = _
    rw [EsDesk.does_event, EsDesk.does_sendTag]
    rfl

theorem Sample.armsOpen_iff : x.armsOpen = true ↔ x.contactA = false ∧ x.contactB = false := by simp [Sample.armsOpen]

theorem EsDesk.judgeOpen_elsewhere {d : EsDesk} (h : ∀ sub, d.es.state ≠ .removalPending sub) : d.judgeOpen x = d := by
  unfold EsDesk.judgeOpen
  split
  · exact absurd ‹_› (h _)
  · rfl

section
variable {sub : RemovalSub} (pending : e.state = .removalPending sub)
include pending

theorem EsDesk.judgeOpen_closed (closed : ¬ x.armsOpen = true) : EsDesk.judgeOpen ⟨e, p⟩ x = ⟨e, p⟩ := by
  unfold EsDesk.judgeOpen
  simp only [pending]
  exact if_neg closed

end

section
variable (opened : x.armsOpen = true)
include opened

theorem EsDesk.judgeOpen_confirms (pending : e.state = .removalPending .awaitBoth) (inTime : e.timedOut = false) :
    EsDesk.judgeOpen ⟨e, p⟩ x = EsDesk.does p { e with state := .removalPending .awaitConfirm } false [] [] := by
  cases e
  simp only at pending inTime
  subst pending inTime
  exact (if_pos opened).trans (EsDesk.does_nothing _ _).symm

theorem EsDesk.judgeOpen_completes (pending : e.state = .removalPending .awaitArms) (inTime : e.timedOut = false) :
    EsDesk.judgeOpen ⟨e, p⟩ x =
      EsDesk.does { p with removals := p.removals ++ [.complete] } { e with state := .released, timer := none } true
        [.extReleased (some x.number) (some x.source) true] [] := by
  have released : EsDesk.judgeOpen ⟨e, p⟩ x = EsDesk.release ⟨e, p⟩ (some x.number) (some x.source) true := by
    cases e
    simp only at pending inTime
    subst pending inTime
    exact if_pos opened
  rw [released, ← EsDesk.does_nothing, EsDesk.release_does]
  rfl

theorem EsDesk.judgeOpen_late (pending : e.state = .removalPending .awaitBoth) (late : e.timedOut = true) :
    EsDesk.judgeOpen ⟨e, p⟩ x =
      EsDesk.does p { e with state := .released, timer := none } true
        [.extReleased (some x.number) (some x.source) false] [] := by
  have released : EsDesk.judgeOpen ⟨e, p⟩ x = EsDesk.release ⟨e, p⟩ (some x.number) (some x.source) false := by
    cases e
    simp only at pending late
    subst pending late
    exact if_pos opened
  rw [released, ← EsDesk.does_nothing, EsDesk.release_does]
  rfl

end

theorem EsDesk.judgeOpen_stays {sub : RemovalSub} (pending : e.state = .removalPending sub)
    (h : ¬ x.armsOpen = true ∨ sub = .awaitConfirm ∨ (sub = .awaitArms ∧ e.timedOut = true)) :
    EsDesk.judgeOpen ⟨e, p⟩ x = ⟨e, p⟩ := by
  by_cases opened : x.armsOpen = true
  · cases e
    simp only at pending h
    subst pending
    obtain closed | rfl | ⟨rfl, late⟩ := h
    · exact absurd opened closed
    · exact if_pos opened
    · subst late
      exact if_pos opened
  · exact EsDesk.judgeOpen_closed x pending opened

end

/-- ES on a sample in REMOVAL_PENDING (R105). -/
def Es.sees (e : Es) (x : Sample) : Es := { e with sourceSeen := some x.source }

theorem EsDesk.actOn_pending {e : Es} {p : Paths} {x : Sample} {sub : RemovalSub} (pending : e.state = .removalPending sub) :
    EsDesk.actOn ⟨e, p⟩ x = EsDesk.judgeOpen ⟨e.sees x, p⟩ x := by
  unfold EsDesk.actOn
  rw [show (EsDesk.mk e p).es.state = _ from pending]
  rfl

/-! ## The step -/

section
variable (s : State) {x : Sample} {rest : List Sample} (waiting : s.paths.samplesEs = x :: rest)
include waiting

theorem exec_conditionedSampleAtEs_of_waiting {p' : Paths} {e' : Es} {tag : Bool} {events : List Event}
    (stages : (EsDesk.actOn ⟨s.es, { s.paths with samplesEs := rest }⟩ x).seat x = EsDesk.does p' e' tag events []) :
    exec .conditionedSampleAtEs s = .next (s.esDoes p' (e'.recorded x) tag events []) := by
  refine State.onEs_does ?_
  simp only [waiting]
  exact EsDesk.takeSample_records x stages

/-- In REMOVAL_PENDING the source seen becomes the sample's, and the arms are judged. -/
theorem exec_conditionedSampleAtEs_pending {sub : RemovalSub} (pending : s.es.state = .removalPending sub) {p' : Paths} {e' : Es}
    {tag : Bool} {events : List Event} (state : ¬ e'.state.Seats)
    (judged : EsDesk.judgeOpen ⟨s.es.sees x, { s.paths with samplesEs := rest }⟩ x =
      EsDesk.does p' e' tag events []) :
    exec .conditionedSampleAtEs s = .next (s.esDoes p' (e'.recorded x) tag events []) := by
  refine exec_conditionedSampleAtEs_of_waiting s waiting ?_
  rw [EsDesk.actOn_pending pending, judged, EsDesk.seat_elsewhere]
  exact state

end

end Sys2Proof.Machine

open Sys2Proof Sys2Proof.Machine

/-- Settles O45: seating before a test (`EsDesk.seat_judges`), the arms in a removal (`EsDesk.judgeOpen_open`), the record in every
state. -/
theorem esJudgesSeatingAndOpening : Obligations.EsJudgesSeatingAndOpening := by
  intro s x rest waiting
  have records (seat : EsDesk.seat ⟨s.es, { s.paths with samplesEs := rest }⟩ x = ⟨s.es, { s.paths with samplesEs := rest }⟩)
      (acts : EsDesk.actOn ⟨s.es, { s.paths with samplesEs := rest }⟩ x = ⟨s.es, { s.paths with samplesEs := rest }⟩) :=
    exec_conditionedSampleAtEs_of_waiting s waiting ((congrArg (EsDesk.seat · x) acts).trans (seat.trans (EsDesk.does_nothing _ _).symm))
  refine ⟨fun seats => ⟨fun before => ?judged, fun after => ?after⟩, fun ended => ?ended, fun sub pending => ⟨?confirm, ?complete, ?late, ?rest⟩⟩
  case judged =>
    intro e
    refine exec_conditionedSampleAtEs_of_waiting s waiting (e' := { s.es with state := seatedBy s.es.fitted x.contactA x.contactB }) ?_
    rw [EsDesk.actOn_seats x seats]
    exact EsDesk.seat_judges x seats ((MotionState.judgesSeating_iff _).2 before)
  case after =>
    exact records (EsDesk.seat_afterwards x (mt (MotionState.judgesSeating_iff _).1 after)) (EsDesk.actOn_seats x seats)
  case ended =>
    refine records (EsDesk.seat_elsewhere x ?_) ?_
    · obtain h | ⟨c, h⟩ := ended
      · exact h ▸ ExtState.not_seats_released
      · exact h ▸ ExtState.not_seats_failed c
    · unfold EsDesk.actOn
      obtain h | ⟨c, h⟩ := ended <;> simp only [h]
  case confirm =>
    rintro opened rfl inTime
    exact exec_conditionedSampleAtEs_pending s waiting pending (ExtState.not_seats_removalPending _)
      (EsDesk.judgeOpen_confirms (e := s.es.sees x) x ((Sample.armsOpen_iff x).2 opened) pending inTime)
  case complete =>
    rintro opened rfl inTime
    exact exec_conditionedSampleAtEs_pending s waiting pending ExtState.not_seats_released
      (EsDesk.judgeOpen_completes (e := s.es.sees x) x ((Sample.armsOpen_iff x).2 opened) pending inTime)
  case late =>
    rintro opened rfl late
    exact exec_conditionedSampleAtEs_pending s waiting pending ExtState.not_seats_released
      (EsDesk.judgeOpen_late (e := s.es.sees x) x ((Sample.armsOpen_iff x).2 opened) pending late)
  case rest =>
    intro h
    rw [← Sample.armsOpen_iff] at h
    refine exec_conditionedSampleAtEs_pending s waiting pending (e' := s.es.sees x) ?_
      ((EsDesk.judgeOpen_stays (e := s.es.sees x) x pending h).trans (EsDesk.does_nothing _ _).symm)
    rw [show (s.es.sees x).state = _ from pending]
    exact ExtState.not_seats_removalPending sub
end

