-- ==== Sys2Proof/Proofs/ArmSupervision.lean ====
section
/-! A Conditioned Sample at ES in ACTIVE: demotion, slip and the removal criterion, in this order (R101 to R104, R106, R109). -/

namespace Sys2Proof.Machine

section
variable {p : Paths} {e : Es} {x : Sample} {events : List Event} {c : EsArmCopy}

/-! ## Stage 1 (R104) -/

/-- ES after a sample that leaves an arm, at stage 1. -/
def Es.demoted (e : Es) (x : Sample) (seen : Source) : Es :=
  { e with sourceSeen := some (if seen.code < x.source.code then x.source else seen) }

/-- ARM_DEMOTED of stage 1. -/
def Es.demotion (e : Es) (x : Sample) (seen : Source) : List Event :=
  if seen.code < x.source.code ∧ e.requested (lostArm x.source) = false then
    [.armDemoted (lostArm x.source) .contactOrRange x.number none x.source] else []

theorem EsDesk.demote_leavesArm {seen : Source} (before : e.sourceSeen = some seen)
    (kept : ¬ (seen.code < x.source.code ∧ x.source = .crosshead)) :
    EsDesk.demote ⟨e, p⟩ x = EsDesk.does p (e.demoted x seen) false (e.demotion x seen) [] := by
  rw [EsDesk.demote_does ⟨e, p⟩ x seen before kept]
  simp only [EsDesk.does, Paths.esEvents, List.append_nil, Bool.false_eq_true, if_false]
  rfl

/-- The cause of FAILED by the arms of the fitted set that were asked for (R104). -/
theorem Es.lossCause_eq (copy : e.copy = some c) :
    e.lossCause =
      if (e.requestedA = true ∧ (c.fitted = .both ∨ c.fitted = .armA)) ∨
          (e.requestedB = true ∧ (c.fitted = .both ∨ c.fitted = .armB)) then .slip else .armsLost := by
  unfold Es.lossCause
  rw [Es.copyFitted_of_copy copy]
  cases c.fitted <;> simp [topSource, Source.uses, Es.requested]

/-- The last arm lost: FAILED, reported to CP and CR (R104). -/
theorem EsDesk.demote_fails {seen : Source} (before : e.sourceSeen = some seen) (lost : seen.code < x.source.code)
    (crosshead : x.source = .crosshead) :
    EsDesk.demote ⟨e, p⟩ x =
      EsDesk.does { p with triggers := { p.triggers with es := p.triggers.es ++ [.extFailed] } }
        { e with state := .failed e.lossCause, sourceSeen := some .crosshead } true
        [.extFailed e.lossCause x.number seen] [] := by
  unfold EsDesk.demote
  simp only [before]
  rw [if_neg (by omega), if_pos crosshead, crosshead]
  simp [EsDesk.does, EsDesk.sendTag, EsDesk.event, Paths.sendEvent, Paths.sendTrigger, PerBlock.push_es]

/-! ## Stage 2 (R102, R103) -/

theorem Es.slipped_iff (i : ArmId) (copy : e.copy = some c) :
    e.slipped x i = true ↔
      x.source.uses i = true ∧ e.requested i = false ∧
        ∃ h, e.history = some h ∧ x.dL i < h.dL i - c.slip ∧ h.force ≤ x.force := by
  unfold Es.slipped
  cases e.history with
  | none => simp
  | some h => simp [copy, and_assoc]

theorem Es.fall_of_slipped {i : ArmId} (h : e.slipped x i = true) :
    some (e.fall x i) = e.history.map fun h => h.dL i - x.dL i := by
  unfold Es.slipped at h
  unfold Es.fall
  cases history : e.history with
  | none => rw [history] at h; exact Bool.noConfusion h
  | some past => rfl

/-- What stage 2 reports of an arm, and asks of MC. -/
def Es.slipEvents (e : Es) (x : Sample) (i : ArmId) : List Event :=
  if e.slipped x i then [.armDemoted i .slip x.number (some (e.fall x i)) x.source] else []

def Es.slipRequests (e : Es) (x : Sample) (i : ArmId) : List ArmId := if e.slipped x i then [i] else []

theorem EsDesk.does_slip (i : ArmId) :
    EsDesk.slip (EsDesk.does p e false events []) x i =
      EsDesk.does { p with dropArms := p.dropArms ++ e.slipRequests x i } (if e.slipped x i then e.request i else e) false
        (events ++ e.slipEvents x i) [] := by
  rw [EsDesk.slip_does]
  simp only [EsDesk.does, Paths.esEvents, Es.slipEvents, Es.slipRequests, Bool.false_eq_true, if_false, List.append_assoc]

/-- ES after stage 2. -/
def Es.slips (e : Es) (x : Sample) : Es :=
  { e with requestedA := e.requestedA || e.slipped x .a, requestedB := e.requestedB || e.slipped x .b }

theorem EsDesk.does_judgeSlip :
    EsDesk.judgeSlip (EsDesk.does p e false events []) x =
      EsDesk.does { p with dropArms := p.dropArms ++ e.slipRequests x .a ++ e.slipRequests x .b } (e.slips x) false
        (events ++ e.slipEvents x .a ++ e.slipEvents x .b) [] := by
  have other : (if e.slipped x .a then e.request .a else e).slipped x .b = e.slipped x .b := by split <;> rfl
  have otherFall : (if e.slipped x .a then e.request .a else e).fall x .b = e.fall x .b := by split <;> rfl
  have asked : (if e.slipped x .b then (if e.slipped x .a then e.request .a else e).request .b
      else if e.slipped x .a then e.request .a else e) = e.slips x := by
    unfold Es.slips
    cases e.slipped x .a <;> cases e.slipped x .b <;> simp [Es.request]
  unfold EsDesk.judgeSlip
  rw [EsDesk.does_slip, EsDesk.does_slip]
  simp only [Es.slipRequests, Es.slipEvents, other, otherFall, asked]

/-! ## Stage 3 (R106, R109) -/

theorem Es.criterionMetBy_iff (copy : e.copy = some c) :
    e.criterionMetBy x = true ↔
      (c.criterion = .atStrain ∧ c.removalStrain ≤ x.strain) ∨
        ((c.criterion = .afterYield ∨ c.criterion = .afterProof) ∧ e.eventMark = true) := by
  unfold Es.criterionMetBy
  rw [copy]
  cases h : c.criterion <;> simp [h]

theorem EsDesk.does_startRemoval (copy : e.copy = some c) (criterion : Criterion) (number : Option Nat) (strain : Int) :
    EsDesk.startRemoval (EsDesk.does p e false events []) criterion number strain =
      EsDesk.does { p with holds := p.holds + 1 } (e.removalStarted c.removalTimeout) true
        (events ++ [.extRemovalRequest criterion number strain c.removalTimeout]) [] := by
  have timeout : (e.copy.map EsArmCopy.removalTimeout).getD 0 = c.removalTimeout := by rw [copy]; rfl
  unfold EsDesk.startRemoval
  simp only [show (EsDesk.does p e false events []).es.copy = e.copy from rfl, timeout]
  show EsDesk.sendTag (EsDesk.event
    (EsDesk.does { p with holds := p.holds + 1 } (e.removalStarted c.removalTimeout) false events []) _) = _
  rw [EsDesk.does_event, EsDesk.does_sendTag]

theorem EsDesk.does_testRemoval (copy : e.copy = some c) :
    EsDesk.testRemoval (EsDesk.does p e false events []) x =
      if e.criterionMetBy x then
        EsDesk.does { p with holds := p.holds + 1 } (e.removalStarted c.removalTimeout) true
          (events ++ [.extRemovalRequest c.criterion (some x.number) x.strain c.removalTimeout]) []
      else EsDesk.does p e false events [] := by
  have criterion : e.criterion = c.criterion := by simp [Es.criterion, copy]
  unfold EsDesk.testRemoval
  rw [← criterion, ← EsDesk.does_startRemoval copy]
  rfl

/-! ## Stage 4 (R110) -/

/-- A removal just started is judged open on the same sample. -/
theorem EsDesk.does_judgeOpen (pending : e.state = .removalPending .awaitBoth) (inTime : e.timedOut = false) :
    EsDesk.judgeOpen (EsDesk.does p e true events []) x =
      EsDesk.does p { e with state := .removalPending (if x.contactA = false ∧ x.contactB = false then .awaitConfirm else .awaitBoth) }
        true events [] := by
  by_cases opened : x.contactA = false ∧ x.contactB = false
  · have confirms := EsDesk.judgeOpen_confirms (p := (EsDesk.does p e true events []).paths) x ((Sample.armsOpen_iff x).2 opened)
      pending inTime
    rw [EsDesk.does_nothing] at confirms
    rw [if_pos opened]
    refine confirms.trans ?_
    simp only [EsDesk.does, pending, ExtState.name]
  · have stays := EsDesk.judgeOpen_closed (p := (EsDesk.does p e true events []).paths) x pending
      (mt (Sample.armsOpen_iff x).1 opened)
    rw [if_neg opened, ← pending]
    exact stays

theorem EsDesk.judgeOpen_active {d : EsDesk} (active : d.es.state = .active) : d.judgeOpen x = d :=
  EsDesk.judgeOpen_elsewhere x fun _ h => nomatch active.symm.trans h

/-! ## The stages together -/

theorem EsDesk.whileActive_running {d : EsDesk} {f : EsDesk → EsDesk} (active : d.es.state = .active)
    (running : d.es.tag.state = .running) : d.whileActive f = f d := if_pos ⟨active, running⟩

theorem EsDesk.whileActive_not_running {d : EsDesk} {f : EsDesk → EsDesk} (running : d.es.tag.state ≠ .running) :
    d.whileActive f = d := if_neg fun h => running h.2

theorem EsDesk.whileActive_not_active {d : EsDesk} {f : EsDesk → EsDesk} (active : d.es.state ≠ .active) :
    d.whileActive f = d := if_neg fun h => active h.1

theorem EsDesk.actOn_active (active : e.state = .active) :
    EsDesk.actOn ⟨e, p⟩ x =
      (((EsDesk.demote ⟨e, p⟩ x).whileActive fun d => d.judgeSlip x).whileActive fun d => d.testRemoval x).judgeOpen x := by
  unfold EsDesk.actOn
  rw [show (EsDesk.mk e p).es.state = _ from active]

section
variable {seen : Source} (active : e.state = .active) (before : e.sourceSeen = some seen)
include active before

theorem EsDesk.actOn_lastArmLost (lost : seen.code < x.source.code) (crosshead : x.source = .crosshead) :
    EsDesk.actOn ⟨e, p⟩ x =
      EsDesk.does { p with triggers := { p.triggers with es := p.triggers.es ++ [.extFailed] } }
        { e with state := .failed e.lossCause, sourceSeen := some .crosshead } true
        [.extFailed e.lossCause x.number seen] [] := by
  rw [EsDesk.actOn_active active, EsDesk.demote_fails before lost crosshead, EsDesk.whileActive_not_active (f := fun d => d.judgeSlip x), EsDesk.whileActive_not_active, EsDesk.judgeOpen_elsewhere]
  · exact fun sub h => ExtState.noConfusion h
  · exact fun h => ExtState.noConfusion h
  · exact fun h => ExtState.noConfusion h

variable (kept : ¬ (seen.code < x.source.code ∧ x.source = .crosshead))
include kept

/-- Outside RUNNING stage 1 alone acts. -/
theorem EsDesk.actOn_not_running (running : e.tag.state ≠ .running) :
    EsDesk.actOn ⟨e, p⟩ x = EsDesk.does p (e.demoted x seen) false (e.demotion x seen) [] := by
  rw [EsDesk.actOn_active active, EsDesk.demote_leavesArm before kept, 
    EsDesk.whileActive_not_running (f := fun d => d.judgeSlip x) running, EsDesk.whileActive_not_running running,
    EsDesk.judgeOpen_active active]

/-- The paths and the events after stages 1 and 2. -/
def Es.slipPaths (e : Es) (x : Sample) (p : Paths) : Paths :=
  { p with dropArms := p.dropArms ++ e.slipRequests x .a ++ e.slipRequests x .b }

def Es.armEvents (e : Es) (x : Sample) (seen : Source) : List Event :=
  e.demotion x seen ++ (e.demoted x seen).slipEvents x .a ++ (e.demoted x seen).slipEvents x .b

theorem EsDesk.actOn_running (running : e.tag.state = .running) (copy : e.copy = some c) :
    EsDesk.actOn ⟨e, p⟩ x =
      (let e1 := e.demoted x seen
       let e2 := e1.slips x
       let sub : RemovalSub := if x.contactA = false ∧ x.contactB = false then .awaitConfirm else .awaitBoth
       if e.criterionMetBy x then
         EsDesk.does { e1.slipPaths x p with holds := p.holds + 1 }
           { e2.removalStarted c.removalTimeout with state := .removalPending sub } true
           (e.armEvents x seen ++ [.extRemovalRequest c.criterion (some x.number) x.strain c.removalTimeout]) []
       else EsDesk.does (e1.slipPaths x p) e2 false (e.armEvents x seen) []) := by
  have copied : ((e.demoted x seen).slips x).copy = some c := copy
  have met : ((e.demoted x seen).slips x).criterionMetBy x = e.criterionMetBy x := rfl
  rw [EsDesk.actOn_active active, EsDesk.demote_leavesArm before kept, 
    EsDesk.whileActive_running (f := fun d => d.judgeSlip x) active running, EsDesk.does_judgeSlip, EsDesk.whileActive_running active running, EsDesk.does_testRemoval copied, met]
  by_cases ended : e.criterionMetBy x
  · simp only [if_pos ended]
    exact EsDesk.does_judgeOpen rfl rfl
  · simp only [if_neg ended]
    exact EsDesk.judgeOpen_active active

end

end

/-- What stage 2 finds of an arm, with stage 1 behind it. -/
theorem Es.demoted_slipped (e : Es) (x : Sample) (seen : Source) (i : ArmId) : (e.demoted x seen).slipped x i = e.slipped x i := rfl

theorem Es.demotion_eq (e : Es) (x : Sample) (seen : Source) :
    e.demotion x seen =
      (let lost : ArmId := if x.source = .armA then .b else .a
       let requested : Bool := match lost with | .a => e.requestedA | .b => e.requestedB
       if seen.code < x.source.code ∧ requested = false then [.armDemoted lost .contactOrRange x.number none x.source] else []) := by
  unfold Es.demotion
  cases x.source <;> rfl

theorem Es.slipEvents_eq (e : Es) (x : Sample) (i : ArmId) :
    e.slipEvents x i =
      if e.slipped x i then [.armDemoted i .slip x.number (e.history.map fun h => h.dL i - x.dL i) x.source] else [] := by
  unfold Es.slipEvents
  split
  · rw [Es.fall_of_slipped ‹_›]
  · rfl

theorem Source.uses_iff (a : Source) (i : ArmId) :
    a.uses i = true ↔ a = .both ∨ a = (match i with | .a => .armA | .b => .armB) := by
  cases a <;> cases i <;> decide

theorem MotionTag.state_paused_iff (t : MotionTag) : t.state = .paused ↔ t = .paused := by
  cases t <;> simp [MotionTag.state]

theorem MotionTag.state_running_iff (t : MotionTag) : t.state = .running ↔ t = .running := by
  cases t <;> simp [MotionTag.state]

end Sys2Proof.Machine

open Sys2Proof Sys2Proof.Machine

/-- Settles O46: `EsDesk.actOn_lastArmLost`, and with an arm left the stages of `EsDesk.actOn_running`. -/
theorem esSupervisesTheArms : Obligations.EsSupervisesTheArms := by
  intro s x rest seen c waiting active before copy
  refine ⟨fun lost crosshead => ?_, fun kept slipA slipB met slipA_iff slipB_iff met_iff => ?_⟩
  · have fails := EsDesk.actOn_lastArmLost (p := { s.paths with samplesEs := rest }) active before lost crosshead
    rw [Es.lossCause_eq copy] at fails
    refine exec_conditionedSampleAtEs_of_waiting s waiting ((congrArg (EsDesk.seat · x) fails).trans (EsDesk.seat_elsewhere x ?_))
    exact ExtState.not_seats_failed _
  · by_cases running : s.es.tag = .running
    · have stages := EsDesk.actOn_running (p := { s.paths with samplesEs := rest }) active before kept
        ((MotionTag.state_running_iff _).2 running) copy
      obtain rfl : slipA = s.es.slipped x .a := Bool.eq_iff_iff.2 <| slipA_iff.trans
        ⟨fun ⟨_, uses, free, past⟩ => (Es.slipped_iff .a copy).2 ⟨(Source.uses_iff _ .a).2 uses, free, past⟩,
          fun h => let ⟨uses, free, past⟩ := (Es.slipped_iff .a copy).1 h
            ⟨running, (Source.uses_iff _ .a).1 uses, free, past⟩⟩
      obtain rfl : slipB = s.es.slipped x .b := Bool.eq_iff_iff.2 <| slipB_iff.trans
        ⟨fun ⟨_, uses, free, past⟩ => (Es.slipped_iff .b copy).2 ⟨(Source.uses_iff _ .b).2 uses, free, past⟩,
          fun h => let ⟨uses, free, past⟩ := (Es.slipped_iff .b copy).1 h
            ⟨running, (Source.uses_iff _ .b).1 uses, free, past⟩⟩
      obtain rfl : met = s.es.criterionMetBy x := Bool.eq_iff_iff.2 <| met_iff.trans
        ⟨fun ⟨_, h⟩ => (Es.criterionMetBy_iff copy).2 h, fun h => ⟨running, (Es.criterionMetBy_iff copy).1 h⟩⟩
      simp only [Es.armEvents, Es.demotion_eq, Es.slipEvents_eq] at stages
      cases ended : s.es.criterionMetBy x
      case true =>
        simp only [ended, if_true] at stages ⊢
        exact exec_conditionedSampleAtEs_of_waiting s waiting ((congrArg (EsDesk.seat · x) stages).trans
          (EsDesk.seat_elsewhere x (ExtState.not_seats_removalPending _)))
      case false =>
        simp only [ended, Bool.false_eq_true, if_false, List.append_nil] at stages ⊢
        exact exec_conditionedSampleAtEs_of_waiting s waiting ((congrArg (EsDesk.seat · x) stages).trans
          (EsDesk.seat_elsewhere x (show ¬ (s.es.state).Seats from active ▸ ExtState.not_seats_active)))
    · have stages := EsDesk.actOn_not_running (p := { s.paths with samplesEs := rest }) active before kept
        (mt (MotionTag.state_running_iff _).1 running)
      obtain rfl : slipA = false := Bool.eq_false_iff.2 fun h => running (slipA_iff.1 h).1
      obtain rfl : slipB = false := Bool.eq_false_iff.2 fun h => running (slipB_iff.1 h).1
      obtain rfl : met = false := Bool.eq_false_iff.2 fun h => running (met_iff.1 h).1
      have step := exec_conditionedSampleAtEs_of_waiting s waiting ((congrArg (EsDesk.seat · x) stages).trans
        (EsDesk.seat_elsewhere x (show ¬ (s.es.state).Seats from active ▸ ExtState.not_seats_active)))
      rw [Es.demotion_eq] at step
      simp only [Bool.or_false, Bool.false_eq_true, if_false, List.append_nil]
      exact step
end

