-- ==== Sys2Proof/Proofs/RemovalProtocol.lean ====
section
/-! The removal asked for, confirmed and timed out, and BREAK at ES (R107 to R109, R111 to R113, R115). -/

namespace Sys2Proof.Machine

section
variable {p : Paths} {e : Es} {c : EsArmCopy}

theorem EsDesk.startRemoval_does (copy : e.copy = some c) (criterion : Criterion) (number : Option Nat) (strain : Int) :
    EsDesk.startRemoval ⟨e, p⟩ criterion number strain =
      EsDesk.does { p with holds := p.holds + 1 } (e.removalStarted c.removalTimeout) true
        [.extRemovalRequest criterion number strain c.removalTimeout] [] := by
  rw [← EsDesk.does_nothing, EsDesk.does_startRemoval copy]
  rfl

theorem EsDesk.reply_does (r : Reply) : EsDesk.reply ⟨e, p⟩ r = EsDesk.does p e false [] [r] := by
  rw [← EsDesk.does_nothing, EsDesk.does_reply]
  rfl

theorem Es.criterion_of_copy (copy : e.copy = some c) : e.criterion = c.criterion := by simp [Es.criterion, copy]

/-! ## The criterion met by an event of TE (R107) -/

section
variable {kind : Criterion} (n : Nat) (strain : Int)

section
variable (active : e.state = .active) (criterion : e.criterion = kind)
include active criterion

theorem EsDesk.takeCriterion_running (copy : e.copy = some c) (running : e.tag = .running) :
    EsDesk.takeCriterion ⟨e, p⟩ kind n strain =
      EsDesk.does { p with holds := p.holds + 1 } (e.removalStarted c.removalTimeout) true
        [.extRemovalRequest kind (some n) strain c.removalTimeout] [] := by
  unfold EsDesk.takeCriterion
  rw [if_pos ⟨active, criterion⟩, if_pos ((MotionTag.state_running_iff _).2 running)]
  exact EsDesk.startRemoval_does copy kind (some n) strain

theorem EsDesk.takeCriterion_marks (running : e.tag ≠ .running) :
    EsDesk.takeCriterion ⟨e, p⟩ kind n strain = EsDesk.does p { e with eventMark := true } false [] [] := by
  unfold EsDesk.takeCriterion
  rw [if_pos ⟨active, criterion⟩, if_neg (mt (MotionTag.state_running_iff _).1 running), EsDesk.does_nothing]

end

theorem EsDesk.takeCriterion_disregards (h : e.state ≠ .active ∨ e.criterion ≠ kind) :
    EsDesk.takeCriterion ⟨e, p⟩ kind n strain = EsDesk.does p e false [] [] := by
  unfold EsDesk.takeCriterion
  rw [if_neg fun both => h.elim (absurd both.1) (absurd both.2), EsDesk.does_nothing]

/-- A criterion that no arm copy names is not the one of ES. -/
theorem Es.criterion_ne (h : ∀ c, e.copy = some c → c.criterion ≠ kind) (some : kind ≠ .none) : e.criterion ≠ kind := by
  cases copy : e.copy with
  | none => rw [Es.criterion, copy]; exact some.symm
  | some c => rw [Es.criterion_of_copy copy]; exact h c copy

end

/-! ## EXT_REMOVE (R108) -/

section
variable (tag : Tag)

theorem EsDesk.takeRemove_starts {x : EsLast} (active : e.state = .active) (copy : e.copy = some c) (last : e.last = some x)
    (test : e.tag = .running ∨ e.tag = .paused) (criterion : c.criterion ≠ .none) :
    EsDesk.takeRemove ⟨e, p⟩ tag =
      EsDesk.does { p with holds := p.holds + 1 } (e.removalStarted c.removalTimeout) true
        [.extRemovalRequest .manual (some x.number) x.strain c.removalTimeout]
        [answer .extRemove tag .done (.sampleNumber (some x.number))] := by
  have under : e.tag.state = .running ∨ e.tag.state = .paused := by
    obtain h | h := test
    · exact .inl (by rw [h]; rfl)
    · exact .inr (by rw [h]; rfl)
  have criterion' : e.criterion ≠ .none := by rwa [Es.criterion_of_copy copy]
  unfold EsDesk.takeRemove
  simp only [last, Option.map_some, Option.getD_some]
  rw [if_pos ⟨active, under, criterion'⟩, EsDesk.startRemoval_does copy, EsDesk.does_reply]
  rfl

theorem EsDesk.takeRemove_noRemoval (active : e.state = .active) (criterion : e.criterion = .none) :
    EsDesk.takeRemove ⟨e, p⟩ tag = EsDesk.does p e false [] [refuse .extRemove tag .wrongState .noRemoval .none] := by
  unfold EsDesk.takeRemove
  simp only
  rw [if_neg fun h => h.2.2 criterion, if_pos ⟨active, criterion⟩, EsDesk.reply_does]

theorem EsDesk.takeRemove_refuses
    (h : e.state ≠ .active ∨ (e.criterion ≠ .none ∧ e.tag.state ≠ .running ∧ e.tag.state ≠ .paused)) :
    EsDesk.takeRemove ⟨e, p⟩ tag = EsDesk.does p e false [] [answer .extRemove tag .wrongState (.extState e.state)] := by
  unfold EsDesk.takeRemove
  simp only
  rw [if_neg, if_neg, EsDesk.reply_does]
  · rintro ⟨active, none⟩
    exact h.elim (absurd active) fun h => h.1 none
  · rintro ⟨active, under, _⟩
    exact h.elim (absurd active) fun h => under.elim h.2.1 h.2.2

/-! ## EXT_CONFIRM (R111) -/

/-- Outside REMOVAL_PENDING the confirmation is refused. -/
theorem EsDesk.takeConfirm_elsewhere (h : ∀ sub, e.state ≠ .removalPending sub) :
    EsDesk.takeConfirm ⟨e, p⟩ tag = EsDesk.does p e false []
      [if e.state = .released ∧ e.timedOut = true then refuse .extConfirm tag .wrongState .tooLate (.extState e.state)
       else answer .extConfirm tag .wrongState (.extState e.state)] := by
  rw [← EsDesk.reply_does]
  unfold EsDesk.takeConfirm
  split
  · exact absurd ‹_› (h _)
  · rfl

section
variable {sub : RemovalSub}

theorem EsDesk.takeConfirm_pending (pending : e.state = .removalPending sub) :
    EsDesk.takeConfirm ⟨e, p⟩ tag =
      if e.timedOut then EsDesk.reply ⟨e, p⟩ (refuse .extConfirm tag .wrongState .tooLate .none)
      else
        match sub with
        | .awaitBoth => EsDesk.confirmed ⟨{ e with state := .removalPending .awaitArms, timer := none }, p⟩ tag
        | .awaitConfirm =>
          (EsDesk.release ⟨e, p⟩ (e.last.map EsLast.number) (e.last.map EsLast.source) true).confirmed tag
        | .awaitArms => EsDesk.confirmed ⟨e, p⟩ tag := by
  cases e
  simp only at pending
  subst pending
  cases sub <;> rfl

theorem EsDesk.does_confirmed {tagged : Bool} {events : List Event} :
    EsDesk.confirmed (EsDesk.does p e tagged events []) tag =
      EsDesk.does p e tagged events [answer .extConfirm tag .done (.extSubstate e.state.substate)] := by
  unfold EsDesk.confirmed
  rw [EsDesk.does_reply]
  rfl

theorem EsDesk.takeConfirm_tooLate (pending : e.state = .removalPending sub) (late : e.timedOut = true) :
    EsDesk.takeConfirm ⟨e, p⟩ tag = EsDesk.does p e false [] [refuse .extConfirm tag .wrongState .tooLate .none] := by
  rw [EsDesk.takeConfirm_pending tag pending, if_pos late, EsDesk.reply_does]

variable (inTime : e.timedOut = false)
include inTime

theorem EsDesk.takeConfirm_inTime (pending : e.state = .removalPending sub) :
    EsDesk.takeConfirm ⟨e, p⟩ tag =
      match sub with
      | .awaitBoth => EsDesk.confirmed ⟨{ e with state := .removalPending .awaitArms, timer := none }, p⟩ tag
      | .awaitConfirm =>
        (EsDesk.release ⟨e, p⟩ (e.last.map EsLast.number) (e.last.map EsLast.source) true).confirmed tag
      | .awaitArms => EsDesk.confirmed ⟨e, p⟩ tag := by
  rw [EsDesk.takeConfirm_pending tag pending, if_neg (by rw [inTime]; exact Bool.false_ne_true)] <;> rfl

theorem EsDesk.takeConfirm_awaitBoth (pending : e.state = .removalPending .awaitBoth) :
    EsDesk.takeConfirm ⟨e, p⟩ tag =
      EsDesk.does p { e with state := .removalPending .awaitArms, timer := none } false []
        [answer .extConfirm tag .done (.extSubstate (some .awaitArms))] := by
  rw [EsDesk.takeConfirm_inTime tag inTime pending]
  simp only
  rw [← EsDesk.does_nothing, EsDesk.does_confirmed]
  rfl

theorem EsDesk.takeConfirm_awaitConfirm (pending : e.state = .removalPending .awaitConfirm) :
    EsDesk.takeConfirm ⟨e, p⟩ tag =
      EsDesk.does { p with removals := p.removals ++ [.complete] } { e with state := .released, timer := none } true
        [.extReleased (e.last.map EsLast.number) (e.last.map EsLast.source) true]
        [answer .extConfirm tag .done (.extSubstate none)] := by
  rw [EsDesk.takeConfirm_inTime tag inTime pending]
  simp only
  rw [← EsDesk.does_nothing, EsDesk.release_does, EsDesk.does_confirmed]
  rfl

theorem EsDesk.takeConfirm_awaitArms (pending : e.state = .removalPending .awaitArms) :
    EsDesk.takeConfirm ⟨e, p⟩ tag =
      EsDesk.does p e false [] [answer .extConfirm tag .done (.extSubstate (some .awaitArms))] := by
  rw [EsDesk.takeConfirm_inTime tag inTime pending]
  simp only
  rw [← EsDesk.does_nothing, EsDesk.does_confirmed, pending]
  rfl

end

end

/-! ## The removal timer (R113) -/

/-- ES at the expiry of the removal timer. -/
def Es.expires (e : Es) : Es := { e with timedOut := true, timer := none }

section
variable {sub : RemovalSub} {us : Nat} (pending : e.state = .removalPending sub) (timer : e.timer = some us)
include pending timer

theorem EsDesk.expireRemoval_pending :
    EsDesk.expireRemoval ⟨e, p⟩ =
      (let d := EsDesk.does { p with removals := p.removals ++ [.timeout] } e.expires false
        [.extRemovalTimeout sub (e.last.map EsLast.number)] []
       if sub = .awaitConfirm then d.release (e.last.map EsLast.number) (e.last.map EsLast.source) false else d) := by
  have expired : ({ EsDesk.event ⟨e.expires, p⟩ (.extRemovalTimeout sub (e.last.map EsLast.number)) with
        paths := { (EsDesk.event ⟨e.expires, p⟩ (.extRemovalTimeout sub (e.last.map EsLast.number))).paths with
          removals := p.removals ++ [.timeout] } } : EsDesk) =
      EsDesk.does { p with removals := p.removals ++ [.timeout] } e.expires false
        [.extRemovalTimeout sub (e.last.map EsLast.number)] [] := by
    rw [← EsDesk.does_nothing p, EsDesk.does_event]
    rfl
  rw [← expired]
  unfold EsDesk.expireRemoval
  rw [show (EsDesk.mk e p).es.state = _ from pending, show (EsDesk.mk e p).es.timer = _ from timer]
  rfl

theorem EsDesk.expireRemoval_waits (sub_ne : sub ≠ .awaitConfirm) :
    EsDesk.expireRemoval ⟨e, p⟩ =
      EsDesk.does { p with removals := p.removals ++ [.timeout] } e.expires false
        [.extRemovalTimeout sub (e.last.map EsLast.number)] [] := by
  rw [EsDesk.expireRemoval_pending pending timer]
  exact if_neg sub_ne

theorem EsDesk.expireRemoval_releases (sub_eq : sub = .awaitConfirm) :
    EsDesk.expireRemoval ⟨e, p⟩ =
      EsDesk.does { p with removals := p.removals ++ [.timeout] } { e.expires with state := .released } true
        [.extRemovalTimeout sub (e.last.map EsLast.number),
          .extReleased (e.last.map EsLast.number) (e.last.map EsLast.source) false] [] := by
  rw [EsDesk.expireRemoval_pending pending timer]
  simp only [if_pos sub_eq, EsDesk.release_does]
  rfl

end

theorem EsDesk.expireRemoval_disregards (h : e.timer = none ∨ ∀ sub, e.state ≠ .removalPending sub) :
    EsDesk.expireRemoval ⟨e, p⟩ = EsDesk.does p e false [] [] := by
  rw [EsDesk.does_nothing]
  unfold EsDesk.expireRemoval
  split
  · rename_i pending running
    obtain stopped | elsewhere := h
    · exact nomatch stopped.symm.trans running
    · exact absurd pending (elsewhere _)
  · rfl

/-! ## BREAK (R115) -/

theorem EsDesk.failAtBreak_does (n : Nat) :
    EsDesk.failAtBreak ⟨e, p⟩ n =
      EsDesk.does p { e with state := .failed .atBreak, timer := none } true
        [.extAtBreak e.state.name (e.last.map EsLast.source) n] [] := by
  show EsDesk.sendTag (EsDesk.event ⟨{ e with state := .failed .atBreak, timer := none }, p⟩ _) = _
  rw [← EsDesk.does_nothing, EsDesk.does_event, EsDesk.does_sendTag]
  rfl

theorem EsDesk.takeBreak_active (n : Nat) (active : e.state = .active) : EsDesk.takeBreak ⟨e, p⟩ n = EsDesk.failAtBreak ⟨e, p⟩ n := by
  unfold EsDesk.takeBreak
  rw [show (EsDesk.mk e p).es.state = _ from active]

theorem EsDesk.takeBreak_pending (n : Nat) {sub : RemovalSub} {x : EsLast} (pending : e.state = .removalPending sub)
    (last : e.last = some x) :
    EsDesk.takeBreak ⟨e, p⟩ n = if x.source = .crosshead then ⟨e, p⟩ else EsDesk.failAtBreak ⟨e, p⟩ n := by
  unfold EsDesk.takeBreak
  rw [show (EsDesk.mk e p).es.state = _ from pending, show (EsDesk.mk e p).es.last = _ from last]

theorem EsDesk.takeBreak_elsewhere (n : Nat) (active : e.state ≠ .active) (h : ∀ sub, e.state ≠ .removalPending sub) :
    EsDesk.takeBreak ⟨e, p⟩ n = ⟨e, p⟩ := by
  unfold EsDesk.takeBreak
  split
  · exact absurd ‹_› active
  · exact absurd ‹_› (h _)
  · rfl

end

/-! ## The steps -/

section
variable (s : State)

theorem exec_es_of_ready {i : Instr} {k : RequestKind} {tag : Tag} {take : EsDesk → EsDesk} {p : Paths} {e : Es} {tagged : Bool}
    {events : List Event} {replies : List Reply} (ready : s.cp.store ≠ .loading)
    (routed : exec i s = .next (s.request k tag fun s => s.onEs take))
    (does : take ⟨s.es, s.paths⟩ = EsDesk.does p e tagged events replies) :
    exec i s = .next (s.esDoes p e tagged events replies) := by
  rw [routed, State.request_ready _ _ _ _ ready]
  exact State.onEs_does does

theorem State.esDoes_nothing : s.esDoes s.paths s.es false [] [] = s := by
  simp [State.esDoes]

/-- YIELD_DONE or PROOF of TE at the head of its path is taken. -/
theorem exec_removalEventAtEs_of_waiting {ev : TeEvent} {rest : List TeEvent} {kind : Criterion} {n : Nat} {strain : Int}
    (waiting : s.paths.teToEs = ev :: rest)
    (criterion : ev = .yieldDone n strain ∧ kind = .afterYield ∨ ev = .proof n strain ∧ kind = .afterProof)
    {p : Paths} {e : Es} {tagged : Bool} {events : List Event} {replies : List Reply}
    (does : EsDesk.takeCriterion ⟨s.es, { s.paths with teToEs := rest }⟩ kind n strain = EsDesk.does p e tagged events replies) :
    exec .removalEventAtEs s = .next (s.esDoes p e tagged events replies) := by
  refine State.onEs_does ?_
  obtain ⟨rfl, rfl⟩ | ⟨rfl, rfl⟩ := criterion
  · simp only [waiting]
    exact does
  · simp only [waiting]
    exact does

theorem exec_breakAtEs_of_waiting {n : Nat} {rest : List TeEvent} (waiting : s.paths.teToEs = .brk n :: rest)
    {p : Paths} {e : Es} {tagged : Bool} {events : List Event} {replies : List Reply}
    (does : EsDesk.takeBreak ⟨s.es, { s.paths with teToEs := rest }⟩ n = EsDesk.does p e tagged events replies) :
    exec .breakAtEs s = .next (s.esDoes p e tagged events replies) := by
  refine State.onEs_does ?_
  simp only [waiting]
  exact does

end

end Sys2Proof.Machine

open Sys2Proof Sys2Proof.Machine

/-- Settles O47: the criterion's events, EXT_REMOVE, EXT_CONFIRM, the timer and BREAK, each by what it leaves at ES's desk. -/
theorem removalRequestedConfirmedOrTimedOut : Obligations.RemovalRequestedConfirmedOrTimedOut := by
  refine ⟨⟨fun s ev rest kind n strain waiting criterion => ⟨fun c copy active named => ⟨fun running => ?starts, fun running => ?marks⟩,
      fun h => ?disregards⟩, fun s tag ready => ⟨fun c x copy last active => ⟨fun test some => ?remove, fun none => ?noRemoval,
        fun some running paused => ?outside⟩, fun other => ?inactive⟩⟩,
    ⟨fun s tag ready => ⟨fun sub pending => ⟨fun late => ?tooLate, ?both, ?confirm, ?arms⟩, fun released late => ?released,
        fun other h => ?refused⟩, fun s sub us pending timer => ⟨fun sub_ne => ?waits, fun sub_eq => ?releases⟩, fun s h => ?stopped⟩,
    fun s n rest waiting => ⟨fun active => ?fails, fun sub x pending last => ⟨fun arm => ?failsInRemoval, fun crosshead => ?keeps⟩,
      fun active other => ?keepsElsewhere⟩⟩
  case starts =>
    exact exec_removalEventAtEs_of_waiting s waiting criterion
      (EsDesk.takeCriterion_running n strain active ((Es.criterion_of_copy copy).trans named) copy running)
  case marks =>
    exact exec_removalEventAtEs_of_waiting s waiting criterion
      (EsDesk.takeCriterion_marks n strain active ((Es.criterion_of_copy copy).trans named) running)
  case disregards =>
    have some : kind ≠ .none := by
      obtain ⟨_, rfl⟩ | ⟨_, rfl⟩ := criterion <;> decide
    exact exec_removalEventAtEs_of_waiting s waiting criterion
      (EsDesk.takeCriterion_disregards n strain (h.imp_right fun other => Es.criterion_ne other some))
  case remove => exact exec_es_of_ready s ready rfl (EsDesk.takeRemove_starts tag active copy last test some)
  case noRemoval =>
    exact exec_es_of_ready s ready rfl (EsDesk.takeRemove_noRemoval tag active ((Es.criterion_of_copy copy).trans none))
  case outside =>
    have refuses := EsDesk.takeRemove_refuses (p := s.paths) tag (.inr ⟨(Es.criterion_of_copy copy).trans_ne some,
      mt (MotionTag.state_running_iff _).1 running, mt (MotionTag.state_paused_iff _).1 paused⟩)
    rw [active] at refuses
    exact exec_es_of_ready s ready rfl refuses
  case inactive => exact exec_es_of_ready s ready rfl (EsDesk.takeRemove_refuses tag (.inl other))
  case tooLate => exact exec_es_of_ready s ready rfl (EsDesk.takeConfirm_tooLate tag pending late)
  case both =>
    rintro inTime rfl
    exact exec_es_of_ready s ready rfl (EsDesk.takeConfirm_awaitBoth tag inTime pending)
  case confirm =>
    rintro inTime rfl
    exact exec_es_of_ready s ready rfl (EsDesk.takeConfirm_awaitConfirm tag inTime pending)
  case arms =>
    rintro inTime rfl
    exact exec_es_of_ready s ready rfl (EsDesk.takeConfirm_awaitArms tag inTime pending)
  case released =>
    have refuses := EsDesk.takeConfirm_elsewhere (p := s.paths) (e := s.es) tag fun sub h => nomatch released.symm.trans h
    rw [if_pos ⟨released, late⟩, released] at refuses
    exact exec_es_of_ready s ready rfl refuses
  case refused =>
    have refuses := EsDesk.takeConfirm_elsewhere (p := s.paths) tag other
    rw [if_neg fun both => h.elim (fun elsewhere => elsewhere both.1) fun inTime => Bool.noConfusion (inTime.symm.trans both.2)] at refuses
    exact exec_es_of_ready s ready rfl refuses
  case waits => exact State.onEs_does (EsDesk.expireRemoval_waits pending timer sub_ne)
  case releases => exact State.onEs_does (EsDesk.expireRemoval_releases pending timer sub_eq)
  case stopped => exact (State.onEs_does (EsDesk.expireRemoval_disregards h)).trans (congrArg Host.Outcome.next s.esDoes_nothing)
  case fails =>
    exact exec_breakAtEs_of_waiting s waiting ((EsDesk.takeBreak_active n active).trans (EsDesk.failAtBreak_does n))
  case failsInRemoval =>
    exact exec_breakAtEs_of_waiting s waiting (((EsDesk.takeBreak_pending n pending last).trans (if_neg arm)).trans
      (EsDesk.failAtBreak_does n))
  case keeps =>
    exact exec_breakAtEs_of_waiting s waiting (((EsDesk.takeBreak_pending n pending last).trans (if_pos crosshead)).trans
      (EsDesk.does_nothing _ _).symm)
  case keepsElsewhere =>
    exact exec_breakAtEs_of_waiting s waiting ((EsDesk.takeBreak_elsewhere n active other).trans (EsDesk.does_nothing _ _).symm)
end

