-- ==== Sys2Proof/Proofs/EvaluatorStages.lean ====
section
/-! Each stage of a sample at TE as what it leaves of TE and what it sends (R120 to R134). -/

namespace Sys2Proof.Machine

/-! ## What a stage makes -/

/-- TE after a stage, with its events, its messages to MS and ES and its triggers. -/
structure TeMade where
  te : Te
  events : List Event := []
  msgs : List TeEvent := []
  triggers : List Trigger := []

/-- A desk that a stage leaves, over the paths it found. -/
def TeMade.on (m : TeMade) (p : Paths) : TeDesk :=
  ⟨m.te, { p with
    teToMs := p.teToMs ++ m.msgs
    teToEs := p.teToEs ++ m.msgs
    events := { p.events with te := p.events.te ++ m.events }
    triggers := { p.triggers with te := p.triggers.te ++ m.triggers } }⟩

/-- One stage after another. -/
def TeMade.andThen (m : TeMade) (f : Te → TeMade) : TeMade :=
  { te := (f m.te).te
    events := m.events ++ (f m.te).events
    msgs := m.msgs ++ (f m.te).msgs
    triggers := m.triggers ++ (f m.te).triggers }

theorem TeMade.on_te (t : Te) (p : Paths) : TeMade.on { te := t } p = ⟨t, p⟩ := by simp only [TeMade.on, List.append_nil]

theorem TeMade.on_andThen (m : TeMade) (p : Paths) (f : Te → TeMade) :
    TeMade.on (f m.te) (m.on p).paths = (m.andThen f).on p := by
  simp only [TeMade.on, TeMade.andThen, List.append_assoc]

/-- A stage that acts on TE's state alone acts so after another one. -/
theorem TeMade.stage_andThen {g : TeDesk → TeDesk} {f : Te → TeMade} (h : ∀ t p, g ⟨t, p⟩ = (f t).on p) (m : TeMade) (p : Paths) :
    g (m.on p) = (m.andThen f).on p :=
  (h m.te (m.on p).paths).trans (m.on_andThen p f)

theorem TeDesk.event_eq (t : Te) (p : Paths) (e : Event) : TeDesk.event ⟨t, p⟩ e = TeMade.on { te := t, events := [e] } p := by
  simp only [TeDesk.event, TeMade.on, List.append_nil]
  rfl

theorem TeMade.on_event (m : TeMade) (p : Paths) (e : Event) :
    (m.on p).event e = TeMade.on { m with events := m.events ++ [e] } p := by
  simp only [TeDesk.event, TeMade.on, Paths.sendEvent, PerBlock.push, PerBlock.get, PerBlock.set, List.append_assoc]

theorem TeMade.on_tell (m : TeMade) (p : Paths) (e : TeEvent) :
    (m.on p).tell e = TeMade.on { m with msgs := m.msgs ++ [e] } p := by
  simp only [TeDesk.tell, TeMade.on, List.append_assoc]

theorem TeMade.on_sendTrigger (m : TeMade) (p : Paths) (g : Trigger) :
    { m.on p with paths := (m.on p).paths.sendTrigger .te g } = TeMade.on { m with triggers := m.triggers ++ [g] } p := by
  simp only [TeMade.on, Paths.sendTrigger, PerBlock.push, PerBlock.get, PerBlock.set, List.append_assoc]

section
variable (t : Te) (p : EvalParams) (x : Sample)

/-! ## Stage 2: yield (R122 to R124) -/

/-- The peak with a sample seen (R122). -/
def Te.peakOn : SourcePoint :=
  match t.peak with
  | none => sampleSourcePoint x
  | some q => if q.force < x.force then sampleSourcePoint x else q

theorem Te.takePeak_eq : t.takePeak x = { t with peak := some (t.peakOn x) } := by
  unfold Te.takePeak Te.peakOn
  cases peak : t.peak with
  | none => rfl
  | some q =>
    simp only
    split
    · rfl
    · rw [← peak]

/-- YIELD_DONE to CP, MS and ES. -/
def Te.tellsYield : TeMade :=
  { te := t
    events := [.yieldDone t.working.outcome t.working.reH t.working.reL t.working.reLFinal x.number]
    msgs := [.yieldDone x.number x.strain] }

theorem TeDesk.yieldDone_eq (q : Paths) : TeDesk.yieldDone ⟨t, q⟩ x = (t.tellsYield x).on q := by
  unfold TeDesk.yieldDone
  simp only
  rw [TeDesk.event_eq, TeMade.on_tell]
  rfl

/-- A sample in SEEKING: the fall from the peak, the end of the window, or neither (R122). -/
def Te.seekStage : TeMade :=
  let peak := t.peakOn x
  if p.yieldMinForce ≤ peak.force ∧ x.force ≤ dropThreshold peak.force p.yieldDrop then
    { te := { t with peak := some peak, yieldState := .plateau, working := { t.working with reH := some peak } }
      events := [.yieldUpper peak x.number]
      triggers := [.yieldUpper] }
  else if p.yieldWindowEnd ≤ x.strain then
    Te.tellsYield { t with peak := some peak, yieldState := .none, working := { t.working with outcome := .continuous } } x
  else { te := { t with peak := some peak } }

theorem TeDesk.seekYield_eq (q : Paths) : TeDesk.seekYield ⟨t, q⟩ p x = (t.seekStage p x).on q := by
  unfold TeDesk.seekYield Te.seekStage
  simp only [Te.takePeak_eq]
  split
  · rw [TeDesk.event_eq, TeMade.on_sendTrigger]
    rfl
  · split
    · exact TeDesk.yieldDone_eq _ x q
    · exact (TeMade.on_te _ q).symm

/-- A sample in PLATEAU above or at the end of the window, in the transient, or counted (R123, R124). -/
def Te.plateauStage : TeMade :=
  match t.working.reH with
  | none => { te := t }
  | some reH =>
    if reH.force < x.force ∨ p.yieldWindowEnd ≤ x.strain then t.endPlateau.tellsYield x
    else if x.strain < reH.strain + p.transient then { te := t }
    else { te := t.countLower x }

theorem TeDesk.followPlateau_eq (q : Paths) : TeDesk.followPlateau ⟨t, q⟩ p x = (t.plateauStage p x).on q := by
  unfold TeDesk.followPlateau Te.plateauStage
  cases t.working.reH with
  | none => exact (TeMade.on_te _ q).symm
  | some reH =>
    simp only
    split
    · exact TeDesk.yieldDone_eq _ x q
    · split <;> exact (TeMade.on_te _ q).symm

/-- Stage 2. -/
def Te.yieldStage : TeMade :=
  match t.yieldState with
  | .seeking => t.seekStage p x
  | .plateau => t.plateauStage p x
  | .done => { te := t }
  | .none => { te := t }

theorem TeDesk.judgeYield_eq (q : Paths) : TeDesk.judgeYield ⟨t, q⟩ p x = (t.yieldStage p x).on q := by
  unfold TeDesk.judgeYield Te.yieldStage
  cases t.yieldState
  · exact TeDesk.seekYield_eq t p x q
  · exact TeDesk.followPlateau_eq t p x q
  · exact (TeMade.on_te _ q).symm
  · exact (TeMade.on_te _ q).symm

/-! ## Stage 3: the modulus fit (R125 to R127) -/

/-- The fit failed, with its event (R127). -/
def Te.fitFails (r : FitReason) (number : Option Nat) : TeMade :=
  { te := t.failFit r, events := [.fitFailed r t.working.fitN number] }

theorem TeDesk.failFit_eq (q : Paths) (r : FitReason) (number : Option Nat) :
    TeDesk.failFit ⟨t, q⟩ r number = (t.fitFails r number).on q := TeDesk.event_eq _ q _

/-- The fit done, with its event (R126). -/
def Te.fitSucceeds : TeMade :=
  let k := t.sums.slope t.working.fitN
  let b := t.sums.intercept t.working.fitN
  { te := { t with proofState := .seeking, working := { t.working with fitStatus := .done, fitK := k, fitB := b } }
    events := [.fitDone t.working.fitN k b x.number] }

/-- The fit closes on a sample. -/
def Te.closeStage : TeMade :=
  match t.sums.failure t.working.fitN with
  | some r => t.fitFails r (some x.number)
  | none => t.fitSucceeds x

theorem TeDesk.closeFit_eq (q : Paths) : TeDesk.closeFit ⟨t, q⟩ x = (t.closeStage x).on q := by
  unfold TeDesk.closeFit Te.closeStage
  simp only
  cases t.sums.failure t.working.fitN with
  | some r => exact TeDesk.failFit_eq t q r _
  | none => exact TeDesk.event_eq _ q _

/-- Stage 3. -/
def Te.fitStage : TeMade :=
  if t.working.fitStatus ≠ .collecting then { te := t }
  else if t.fitSource.any fun s => decide (s ≠ x.source) then t.fitFails .sourceChanged (some x.number)
  else if p.fHi < x.force then t.closeStage x
  else if p.fLo < p.fHi ∧ p.fLo ≤ x.force ∧ t.working.fitN < Config.maxFitPoints then { te := t.addPoint x }
  else { te := t }

theorem TeDesk.judgeFit_eq (q : Paths) : TeDesk.judgeFit ⟨t, q⟩ p x = (t.fitStage p x).on q := by
  unfold TeDesk.judgeFit Te.fitStage
  simp only
  split
  · exact (TeMade.on_te _ q).symm
  split
  · exact TeDesk.failFit_eq t q _ _
  split
  · exact TeDesk.closeFit_eq t x q
  split <;> exact (TeMade.on_te _ q).symm

/-! ## Stage 4: proof (R128) -/

/-- Stage 4. -/
def Te.proofStage : TeMade :=
  let off := offsetForce t.working.fitK t.working.fitB p.offsetStrain x.strain
  if t.proofState = .seeking ∧ p.offsetStrain < x.strain ∧ x.force ≤ off then
    { te := { t with proofState := .found, working := { t.working with rp := some (sampleSourcePoint x) } }
      events := [.proof (sampleSourcePoint x) off]
      msgs := [.proof x.number x.strain] }
  else { te := t }

theorem TeDesk.judgeProof_eq (q : Paths) : TeDesk.judgeProof ⟨t, q⟩ p x = (t.proofStage p x).on q := by
  unfold TeDesk.judgeProof Te.proofStage
  simp only
  split
  · rw [TeDesk.event_eq, TeMade.on_tell]
    rfl
  · exact (TeMade.on_te _ q).symm

/-- Stages 2 to 4, under the RUNNING tag. -/
def Te.runningStages : TeMade :=
  let m := (t.yieldStage p x).andThen (·.fitStage p x)
  if t.proofState = .seeking then m.andThen (·.proofStage p x) else m

theorem TeDesk.judgeRunning_eq (q : Paths) : TeDesk.judgeRunning ⟨t, q⟩ p x = (t.runningStages p x).on q := by
  have fit : TeDesk.judgeFit (TeDesk.judgeYield ⟨t, q⟩ p x) p x = ((t.yieldStage p x).andThen (·.fitStage p x)).on q := by
    rw [TeDesk.judgeYield_eq]
    exact TeMade.stage_andThen (g := (·.judgeFit p x)) (f := (·.fitStage p x)) (fun t q => TeDesk.judgeFit_eq t p x q) _ q
  unfold TeDesk.judgeRunning Te.runningStages
  simp only [fit, decide_eq_true_eq]
  split
  · exact TeMade.stage_andThen (g := (·.judgeProof p x)) (f := (·.proofStage p x)) (fun t q => TeDesk.judgeProof_eq t p x q) _ q
  · rfl

/-! ## Stage 5: break (R130 to R132) -/

/-- What closes with a confirmed break and at the end of a test (R131, R134). -/
def Te.closes (number : Option Nat) : TeMade :=
  if t.working.fitStatus = .collecting then
    { te := (t.failFit .windowNotPassed).closeProof.closeYield
      events := [.fitFailed .windowNotPassed t.working.fitN number] }
  else { te := t.closeProof.closeYield }

theorem TeDesk.closes_eq (q : Paths) (number : Option Nat) :
    { TeDesk.closeOpenFit ⟨t, q⟩ number with te := (TeDesk.closeOpenFit ⟨t, q⟩ number).te.closeProof.closeYield } =
      (t.closes number).on q := by
  unfold TeDesk.closeOpenFit Te.closes
  simp only
  split
  · rw [TeDesk.failFit_eq]
    rfl
  · exact (TeMade.on_te _ q).symm

/-- The break confirmed on a sample (R131). -/
def Te.confirmStage : TeMade :=
  let m := Te.closes { t with breakConfirmed := true, breakState := .confirmed } (some x.number)
  match m.te.candidate with
  | none => m
  | some pre =>
    { te := m.te.onWorking fun r => { r with brk := some (breakRecord m.te.working pre) }
      events := m.events ++ [.brk x.number (breakRecord m.te.working pre)]
      msgs := m.msgs ++ [.brk x.number]
      triggers := m.triggers ++ [.brk] }

theorem TeDesk.confirmBreak_eq (q : Paths) : TeDesk.confirmBreak ⟨t, q⟩ x = (t.confirmStage x).on q := by
  have closed := TeDesk.closes_eq { t with breakConfirmed := true, breakState := .confirmed } q (some x.number)
  unfold TeDesk.confirmBreak Te.confirmStage
  simp only
  generalize Te.closes _ _ = m at closed ⊢
  generalize TeDesk.closeOpenFit _ _ = d at closed ⊢
  obtain ⟨td, pd⟩ := d
  have te : td.closeProof.closeYield = m.te := congrArg TeDesk.te closed
  have paths : pd = (m.on q).paths := congrArg TeDesk.paths closed
  simp only [te, paths]
  cases m.te.candidate with
  | none => rfl
  | some pre =>
    simp only
    rw [show (TeDesk.mk (m.te.onWorking fun r => { r with brk := some (breakRecord m.te.working pre) }) (m.on q).paths) =
      TeMade.on { m with te := m.te.onWorking fun r => { r with brk := some (breakRecord m.te.working pre) } } q from rfl,
      TeMade.on_event, TeMade.on_tell, TeMade.on_sendTrigger]

/-- A sample judged in WATCHING (R130). -/
def Te.watchStage (raised : Bool) : TeMade :=
  if t.drops p x raised then
    if p.breakConfirm ≤ ((t.run + 1 : Nat) : Int) then Te.confirmStage { t with run := t.run + 1 } x
    else { te := { t with run := t.run + 1 } }
  else { te := { t with run := 0, candidate := some (samplePoint x) } }

theorem TeDesk.watchBreak_eq (q : Paths) (raised : Bool) : TeDesk.watchBreak ⟨t, q⟩ p x raised = (t.watchStage p x raised).on q := by
  unfold TeDesk.watchBreak Te.watchStage
  simp only
  split
  · split
    · exact TeDesk.confirmBreak_eq _ x q
    · exact (TeMade.on_te _ q).symm
  · exact (TeMade.on_te _ q).symm

/-- Stage 5. -/
def Te.breakStage (raised : Bool) : TeMade :=
  match t.breakState with
  | .waiting => if t.maxReached p then Te.watchStage { t with breakState := .watching } p x raised else { te := t }
  | .watching => t.watchStage p x raised
  | .confirmed => { te := t }

theorem TeDesk.judgeBreak_eq (q : Paths) (raised : Bool) : TeDesk.judgeBreak ⟨t, q⟩ p x raised = (t.breakStage p x raised).on q := by
  unfold TeDesk.judgeBreak Te.breakStage
  cases t.breakState
  · simp only
    split
    · exact TeDesk.watchBreak_eq _ p x q raised
    · exact (TeMade.on_te _ q).symm
  · exact TeDesk.watchBreak_eq t p x q raised
  · exact (TeMade.on_te _ q).symm

/-! ## The sample -/

/-- Stages 2 to 4 after stage 1: none but under the RUNNING tag (R119). -/
def Te.detectorStages : TeMade :=
  if t.tag = .running then (t.trackMax x).runningStages p x else { te := t.trackMax x }

/-- Stages 1 to 5. -/
def Te.judged : TeMade := (t.detectorStages p x).andThen (·.breakStage p x (t.raisesMax x))

theorem TeDesk.judge_eq (q : Paths) : TeDesk.judge ⟨t, q⟩ p x = (t.judged p x).on q := by
  have tag : (t.trackMax x).tag = t.tag := congrArg (fun s => s.1.2.2.2.1) (t.trackMax_setting x)
  have stages : (if (t.trackMax x).tag = .running then TeDesk.judgeRunning ⟨t.trackMax x, q⟩ p x else ⟨t.trackMax x, q⟩) =
      (t.detectorStages p x).on q := by
    unfold Te.detectorStages
    rw [tag]
    split
    · exact TeDesk.judgeRunning_eq _ p x q
    · exact (TeMade.on_te _ q).symm
  unfold TeDesk.judge
  simp only
  rw [stages]
  exact TeMade.stage_andThen (g := (·.judgeBreak p x (Te.raisesMax t x))) (f := (·.breakStage p x (Te.raisesMax t x)))
    (fun u q => TeDesk.judgeBreak_eq u p x q _) _ q

end

/-! ## The step -/

/-- TE while a detector works (R119). -/
theorem Te.works_iff (t : Te) : t.works = true ↔ t.testOpen = true ∧ t.breakConfirmed = false ∧ (t.tag = .running ∨ t.tag = .paused) := by
  simp [Te.works, and_assoc]

section
variable (s : State) {x : Sample} {rest : List Sample} (waiting : s.paths.samplesTe = x :: rest)
include waiting

theorem exec_conditionedSampleAtTe_of_works {p : EvalParams} (params : s.te.params = some p) (works : s.te.works = true) :
    exec .conditionedSampleAtTe s = .next { s with
      te := (s.te.judged p x).te.settle s.te.working
      paths := ((s.te.judged p x).on { s.paths with samplesTe := rest }).paths } := by
  have taken : TeDesk.takeSample ⟨s.te, { s.paths with samplesTe := rest }⟩ x =
      ⟨(s.te.judged p x).te.settle s.te.working, ((s.te.judged p x).on { s.paths with samplesTe := rest }).paths⟩ := by
    unfold TeDesk.takeSample
    simp only [params, works, if_true, TeDesk.judge_eq]
    rfl
  show Host.Outcome.next (s.onTe _) = _
  simp only [State.onTe, waiting, taken]

theorem exec_conditionedSampleAtTe_of_not_works (works : ¬ s.te.works = true) :
    exec .conditionedSampleAtTe s = .next { s with paths := { s.paths with samplesTe := rest } } := by
  have taken : TeDesk.takeSample ⟨s.te, { s.paths with samplesTe := rest }⟩ x = ⟨s.te, { s.paths with samplesTe := rest }⟩ := by
    unfold TeDesk.takeSample
    split
    · rfl
    · exact if_neg works
  show Host.Outcome.next (s.onTe _) = _
  simp only [State.onTe, waiting, taken]

end

end Sys2Proof.Machine
end

