-- ==== Sys2Proof/Proofs/RunningDetectors.lean ====
section
/-! The yield, fit and proof detectors on a sample in RUNNING that does not confirm a break (R122 to R128). -/

namespace Sys2Proof.Machine

/-! ## What belongs to each detector -/

def Te.yieldItems (t : Te) : YieldState × Option SourcePoint × Option SourcePoint × Option Point × Bool × YieldOutcome :=
  (t.yieldState, t.peak, t.working.reH, t.working.reL, t.working.reLFinal, t.working.outcome)

def Te.modulusItems (t : Te) : FitSums × Option Source × FitStatus × Option FitReason × Nat × Int × Int :=
  (t.sums, t.fitSource, t.working.fitStatus, t.working.fitReason, t.working.fitN, t.working.fitK, t.working.fitB)

def Te.proofItems (t : Te) : ProofState × Option SourcePoint := (t.proofState, t.working.rp)

/-! ## What each detector sends -/

theorem Event.isFit_of_isYield {e : Event} (h : e.isYield = true) : e.isFit = false := by cases e <;> first | rfl | exact nomatch h
theorem Event.isProof_of_isYield {e : Event} (h : e.isYield = true) : e.isProof = false := by cases e <;> first | rfl | exact nomatch h
theorem Event.isYield_of_isFit {e : Event} (h : e.isFit = true) : e.isYield = false := by cases e <;> first | rfl | exact nomatch h
theorem Event.isProof_of_isFit {e : Event} (h : e.isFit = true) : e.isProof = false := by cases e <;> first | rfl | exact nomatch h
theorem Event.isYield_of_isProof {e : Event} (h : e.isProof = true) : e.isYield = false := by cases e <;> first | rfl | exact nomatch h
theorem Event.isFit_of_isProof {e : Event} (h : e.isProof = true) : e.isFit = false := by cases e <;> first | rfl | exact nomatch h

theorem TeEvent.isProof_of_isYield {e : TeEvent} (h : e.isYield = true) : e.isProof = false := by cases e <;> first | rfl | exact nomatch h
theorem TeEvent.isYield_of_isProof {e : TeEvent} (h : e.isProof = true) : e.isYield = false := by cases e <;> first | rfl | exact nomatch h

/-- No member of a list is of another kind. -/
theorem filter_eq_nil_of_kind {α : Type} {f g : α → Bool} {l : List α} (all : ∀ a ∈ l, f a = true) (other : ∀ {a}, f a = true → g a = false) :
    l.filter g = [] :=
  List.filter_eq_nil_iff.2 fun a h => by rw [other (all a h)]; exact Bool.false_ne_true

section
variable (t : Te) (p : EvalParams) (x : Sample)

/-! ## Stage 1 -/

/-- Fm with a sample seen (R129). -/
def Te.maxOn : Option Point := if t.raisesMax x then some (samplePoint x) else t.working.fm

/-- TE after stage 1. -/
def Te.maxed : Te := { t with working := { t.working with fm := t.maxOn x } }

theorem Te.trackMax_eq : t.trackMax x = t.maxed x := by
  unfold Te.trackMax Te.maxed Te.maxOn
  split <;> rfl

/-! ## Stage 2 -/

theorem Te.countLower_eq : t.countLower x = { t with working := { t.working with
    reL := if ∀ l ∈ t.working.reL, x.force < l.force then some (samplePoint x) else t.working.reL } } := by
  unfold Te.countLower
  cases reL : t.working.reL with
  | none => simp [Te.onWorking]
  | some l =>
    by_cases lower : x.force < l.force
    · simp [Te.onWorking, lower]
    · simp only [Option.mem_def, Option.some.injEq, forall_eq', if_neg lower]
      rw [← reL]

/-- TE with other items of the yield detector. -/
def Te.yielded (peak : Option SourcePoint) (state : YieldState) (reH : Option SourcePoint) (reL : Option Point) (final : Bool)
    (outcome : YieldOutcome) : Te :=
  { t with
    peak := peak, yieldState := state
    working := { t.working with reH := reH, reL := reL, reLFinal := final, outcome := outcome } }

theorem Te.yieldStage_te : ∃ peak state reH reL final outcome,
    (t.yieldStage p x).te = t.yielded peak state reH reL final outcome := by
  unfold Te.yieldStage
  cases t.yieldState
  · unfold Te.seekStage
    simp only
    split_ifs <;> exact ⟨_, _, _, _, _, _, rfl⟩
  · unfold Te.plateauStage
    simp only
    cases t.working.reH with
    | none => exact ⟨_, _, _, _, _, _, rfl⟩
    | some reH =>
      simp only [Te.countLower_eq]
      split_ifs <;> exact ⟨_, _, _, _, _, _, rfl⟩
  · exact ⟨_, _, _, _, _, _, rfl⟩
  · exact ⟨_, _, _, _, _, _, rfl⟩

theorem Te.yieldStage_sends :
    (∀ e ∈ (t.yieldStage p x).events, e.isYield = true) ∧ (∀ e ∈ (t.yieldStage p x).msgs, e.isYield = true) := by
  unfold Te.yieldStage
  cases t.yieldState
  · unfold Te.seekStage Te.tellsYield
    simp only
    split_ifs <;> simp [Event.isYield, TeEvent.isYield]
  · unfold Te.plateauStage Te.tellsYield
    simp only
    cases t.working.reH with
    | none => simp
    | some reH =>
      simp only
      split_ifs <;> simp [Event.isYield, TeEvent.isYield]
  · simp
  · simp

/-! ## Stage 3 -/

/-- TE with other items of the fit, and the proof detector as it leaves it. -/
def Te.fitted (sums : FitSums) (source : Option Source) (proof : ProofState) (status : FitStatus) (reason : Option FitReason)
    (n : Nat) (k b : Int) : Te :=
  { t with
    sums := sums, fitSource := source, proofState := proof
    working := { t.working with fitStatus := status, fitReason := reason, fitN := n, fitK := k, fitB := b } }

theorem Te.fitStage_te : ∃ sums source proof status reason n k b,
    (t.fitStage p x).te = t.fitted sums source proof status reason n k b := by
  unfold Te.fitStage
  split_ifs
  · exact ⟨_, _, _, _, _, _, _, _, rfl⟩
  · exact ⟨_, _, _, _, _, _, _, _, rfl⟩
  · unfold Te.closeStage
    cases t.sums.failure t.working.fitN <;> exact ⟨_, _, _, _, _, _, _, _, rfl⟩
  · exact ⟨_, _, _, _, _, _, _, _, rfl⟩
  · exact ⟨_, _, _, _, _, _, _, _, rfl⟩

theorem Te.fitStage_sends :
    (∀ e ∈ (t.fitStage p x).events, e.isFit = true) ∧ (t.fitStage p x).msgs = [] ∧ (t.fitStage p x).triggers = [] := by
  unfold Te.fitStage
  split_ifs
  · simp
  · simp [Te.fitFails, Event.isFit]
  · unfold Te.closeStage
    cases t.sums.failure t.working.fitN <;> simp [Te.fitFails, Te.fitSucceeds, Event.isFit]
  · simp
  · simp

/-! ## Stage 4 -/

/-- TE with other items of the proof detector. -/
def Te.proved (state : ProofState) (rp : Option SourcePoint) : Te :=
  { t with proofState := state, working := { t.working with rp := rp } }

theorem Te.proofStage_te : ∃ state rp, (t.proofStage p x).te = t.proved state rp := by
  unfold Te.proofStage
  simp only
  split_ifs <;> exact ⟨_, _, rfl⟩

theorem Te.proofStage_sends :
    (∀ e ∈ (t.proofStage p x).events, e.isProof = true) ∧ (∀ e ∈ (t.proofStage p x).msgs, e.isProof = true) ∧
      (t.proofStage p x).triggers = [] := by
  unfold Te.proofStage
  simp only
  split_ifs <;> simp [Event.isProof, TeEvent.isProof]

/-- Stage 4 for a proof detector that was SEEKING before the sample. -/
def Te.proofPart (seeking : Bool) : TeMade := if seeking then t.proofStage p x else { te := t }

theorem Te.proofPart_te (seeking : Bool) : ∃ state rp, (t.proofPart p x seeking).te = t.proved state rp := by
  cases seeking
  · exact ⟨_, _, rfl⟩
  · exact t.proofStage_te p x

theorem Te.proofPart_sends (seeking : Bool) :
    (∀ e ∈ (t.proofPart p x seeking).events, e.isProof = true) ∧ (∀ e ∈ (t.proofPart p x seeking).msgs, e.isProof = true) ∧
      (t.proofPart p x seeking).triggers = [] := by
  cases seeking
  · simp [Te.proofPart]
  · exact t.proofStage_sends p x

/-! ## Stage 5, while no break is confirmed -/

/-- TE with other items of the break detector. -/
def Te.watched (state : BreakState) (run : Nat) (candidate : Option Point) : Te :=
  { t with breakState := state, run := run, candidate := candidate }

theorem Te.closeYield_breakConfirmed : t.closeYield.breakConfirmed = t.breakConfirmed := by
  unfold Te.closeYield
  split <;> rfl

theorem Te.closeProof_breakConfirmed : t.closeProof.breakConfirmed = t.breakConfirmed := by
  unfold Te.closeProof
  split <;> rfl

theorem Te.closes_breakConfirmed (number : Option Nat) : (t.closes number).te.breakConfirmed = t.breakConfirmed := by
  unfold Te.closes
  split
  · exact (Te.closeYield_breakConfirmed _).trans (Te.closeProof_breakConfirmed _)
  · exact (Te.closeYield_breakConfirmed _).trans (Te.closeProof_breakConfirmed _)

theorem Te.confirmStage_confirmed : (t.confirmStage x).te.breakConfirmed = true := by
  have closed := Te.closes_breakConfirmed { t with breakConfirmed := true, breakState := .confirmed } (some x.number)
  unfold Te.confirmStage
  simp only
  split
  · exact closed
  · exact closed

theorem Te.watchStage_unconfirmed {raised : Bool} (h : (t.watchStage p x raised).te.breakConfirmed = false) :
    ∃ run candidate, t.watchStage p x raised = { te := t.watched t.breakState run candidate } := by
  unfold Te.watchStage at h ⊢
  split_ifs at h ⊢
  · exact Bool.noConfusion ((Te.confirmStage_confirmed _ x).symm.trans h)
  · exact ⟨_, _, rfl⟩
  · exact ⟨_, _, rfl⟩

theorem Te.breakStage_unconfirmed {raised : Bool} (h : (t.breakStage p x raised).te.breakConfirmed = false) :
    ∃ state run candidate, t.breakStage p x raised = { te := t.watched state run candidate } := by
  unfold Te.breakStage at h ⊢
  cases state : t.breakState
  · simp only [state] at h ⊢
    split_ifs at h ⊢
    · obtain ⟨run, candidate, made⟩ := Te.watchStage_unconfirmed _ p x h
      exact ⟨_, run, candidate, made⟩
    · exact ⟨_, _, _, rfl⟩
  · simp only [state] at h ⊢
    obtain ⟨run, candidate, made⟩ := Te.watchStage_unconfirmed _ p x h
    exact ⟨_, run, candidate, made⟩
  · exact ⟨_, _, _, rfl⟩

/-! ## The sample -/

theorem Te.settle_confirmed (was : Results) : (t.settle was).breakConfirmed = t.breakConfirmed := by
  unfold Te.settle
  simp only [Te.publish_eq_ite]
  split <;> rfl

theorem Te.settle_yieldItems (was : Results) : (t.settle was).yieldItems = t.yieldItems := by
  unfold Te.settle
  simp only [Te.publish_eq_ite]
  split <;> rfl

theorem Te.settle_modulusItems (was : Results) : (t.settle was).modulusItems = t.modulusItems := by
  unfold Te.settle
  simp only [Te.publish_eq_ite]
  split <;> rfl

theorem Te.settle_proofItems (was : Results) : (t.settle was).proofItems = t.proofItems := by
  unfold Te.settle
  simp only [Te.publish_eq_ite]
  split <;> rfl

/-- The stages of the yield detector, of the fit and of the proof detector on a sample in RUNNING. -/
def Te.yieldPart : TeMade := (t.trackMax x).yieldStage p x
def Te.fitPart : TeMade := (t.yieldPart p x).te.fitStage p x
def Te.lastPart : TeMade := (t.fitPart p x).te.proofPart p x (decide (t.proofState = .seeking))

theorem Te.yieldPart_sends :
    (∀ e ∈ (t.yieldPart p x).events, e.isYield = true) ∧ (∀ e ∈ (t.yieldPart p x).msgs, e.isYield = true) :=
  (t.trackMax x).yieldStage_sends p x

theorem Te.fitPart_sends :
    (∀ e ∈ (t.fitPart p x).events, e.isFit = true) ∧ (t.fitPart p x).msgs = [] ∧ (t.fitPart p x).triggers = [] :=
  (t.yieldPart p x).te.fitStage_sends p x

theorem Te.lastPart_sends :
    (∀ e ∈ (t.lastPart p x).events, e.isProof = true) ∧ (∀ e ∈ (t.lastPart p x).msgs, e.isProof = true) ∧
      (t.lastPart p x).triggers = [] :=
  (t.fitPart p x).te.proofPart_sends p x _

theorem Te.detectorStages_running (running : t.tag = .running) :
    t.detectorStages p x =
      { te := (t.lastPart p x).te
        events := (t.yieldPart p x).events ++ (t.fitPart p x).events ++ (t.lastPart p x).events
        msgs := (t.yieldPart p x).msgs ++ (t.fitPart p x).msgs ++ (t.lastPart p x).msgs
        triggers := (t.yieldPart p x).triggers ++ (t.fitPart p x).triggers ++ (t.lastPart p x).triggers } := by
  have proof : (t.trackMax x).proofState = t.proofState := by rw [Te.trackMax_eq]; rfl
  unfold Te.detectorStages Te.runningStages
  rw [if_pos running, proof]
  unfold Te.lastPart Te.proofPart
  by_cases seeking : t.proofState = .seeking
  · simp only [seeking, if_true, decide_true]
    rfl
  · simp only [seeking, if_false, decide_false, Bool.false_eq_true, List.append_nil]
    rfl

/-- What a sample in RUNNING leaves and sends, while no break is confirmed: each detector its part. -/
structure Te.RanBy (m : TeMade) : Prop where
  events : m.events = (t.yieldPart p x).events ++ (t.fitPart p x).events ++ (t.lastPart p x).events
  msgs : m.msgs = (t.yieldPart p x).msgs ++ (t.lastPart p x).msgs
  triggers : m.triggers = (t.yieldPart p x).triggers
  yieldItems : m.te.yieldItems = (t.yieldPart p x).te.yieldItems
  modulusItems : m.te.modulusItems = (t.fitPart p x).te.modulusItems
  proofItems : m.te.proofItems = (t.lastPart p x).te.proofItems

theorem Te.judged_ranBy (running : t.tag = .running) (unconfirmed : (t.judged p x).te.breakConfirmed = false) :
    t.RanBy p x (t.judged p x) := by
  obtain ⟨state, run, candidate, watched⟩ := Te.breakStage_unconfirmed _ p x unconfirmed
  obtain ⟨_, fitMsgs, fitTriggers⟩ := t.fitPart_sends p x
  obtain ⟨_, _, lastTriggers⟩ := t.lastPart_sends p x
  obtain ⟨sums, source, proof, status, reason, n, k, b, fitTe⟩ := (t.yieldPart p x).te.fitStage_te p x
  obtain ⟨proof', rp, lastTe⟩ := (t.fitPart p x).te.proofPart_te p x (decide (t.proofState = .seeking))
  have stages := t.detectorStages_running p x running
  have te : (t.judged p x).te = (t.lastPart p x).te.watched state run candidate := by
    rw [Te.judged, TeMade.andThen, watched, stages]
  have last : (t.lastPart p x).te = (t.fitPart p x).te.proved proof' rp := lastTe
  have fit : (t.fitPart p x).te = (t.yieldPart p x).te.fitted sums source proof status reason n k b := fitTe
  constructor
  · rw [Te.judged, TeMade.andThen, watched, stages]
    exact List.append_nil _
  · rw [Te.judged, TeMade.andThen, watched, stages]
    simp only [fitMsgs, List.append_nil]
  · rw [Te.judged, TeMade.andThen, watched, stages]
    simp only [fitTriggers, lastTriggers,
      List.append_nil]
  · rw [te, last, fit]
    rfl
  · rw [te, last]
    rfl
  · rw [te]
    rfl

section
variable {t p x} {m : TeMade} (h : t.RanBy p x m)
include h

theorem Te.RanBy.yield_events : m.events.filter Event.isYield = (t.yieldPart p x).events := by
  have yields := (t.yieldPart_sends p x).1
  have fits := (t.fitPart_sends p x).1
  have proofs := (t.lastPart_sends p x).1
  rw [h.events, List.filter_append, List.filter_append, List.filter_eq_self.2 yields,
    filter_eq_nil_of_kind fits Event.isYield_of_isFit, filter_eq_nil_of_kind proofs Event.isYield_of_isProof, List.append_nil,
    List.append_nil]

theorem Te.RanBy.fit_events : m.events.filter Event.isFit = (t.fitPart p x).events := by
  have yields := (t.yieldPart_sends p x).1
  have fits := (t.fitPart_sends p x).1
  have proofs := (t.lastPart_sends p x).1
  rw [h.events, List.filter_append, List.filter_append, filter_eq_nil_of_kind yields Event.isFit_of_isYield,
    List.filter_eq_self.2 fits, filter_eq_nil_of_kind proofs Event.isFit_of_isProof, List.append_nil, List.nil_append]

theorem Te.RanBy.proof_events : m.events.filter Event.isProof = (t.lastPart p x).events := by
  have yields := (t.yieldPart_sends p x).1
  have fits := (t.fitPart_sends p x).1
  have proofs := (t.lastPart_sends p x).1
  rw [h.events, List.filter_append, List.filter_append, filter_eq_nil_of_kind yields Event.isProof_of_isYield,
    filter_eq_nil_of_kind fits Event.isProof_of_isFit, List.filter_eq_self.2 proofs, List.append_nil, List.nil_append]

theorem Te.RanBy.yield_msgs : m.msgs.filter TeEvent.isYield = (t.yieldPart p x).msgs := by
  have yields := (t.yieldPart_sends p x).2
  have proofs := (t.lastPart_sends p x).2.1
  rw [h.msgs, List.filter_append, List.filter_eq_self.2 yields, filter_eq_nil_of_kind proofs TeEvent.isYield_of_isProof,
    List.append_nil]

theorem Te.RanBy.proof_msgs : m.msgs.filter TeEvent.isProof = (t.lastPart p x).msgs := by
  have yields := (t.yieldPart_sends p x).2
  have proofs := (t.lastPart_sends p x).2.1
  rw [h.msgs, List.filter_append, filter_eq_nil_of_kind yields TeEvent.isProof_of_isYield, List.filter_eq_self.2 proofs,
    List.nil_append]

end

end

end Sys2Proof.Machine
end

