-- ==== Sys2Proof/Proofs/YieldJudged.lean ====
section
/-! The yield detector on a sample in RUNNING, case by case (R122 to R124). -/

namespace Sys2Proof.Machine

section
variable {t : Te} {p : EvalParams} {x : Sample}

/-! ## SEEKING -/

theorem Te.seekStage_peak : (t.seekStage p x).te.peak = some (t.peakOn x) := by
  unfold Te.seekStage
  simp only
  split_ifs <;> rfl

theorem Te.seekStage_falls
    (falls : p.yieldMinForce ≤ (t.peakOn x).force ∧ x.force ≤ dropThreshold (t.peakOn x).force p.yieldDrop) :
    t.seekStage p x =
      { te := { t with
          peak := some (t.peakOn x), yieldState := .plateau, working := { t.working with reH := some (t.peakOn x) } }
        events := [.yieldUpper (t.peakOn x) x.number]
        triggers := [.yieldUpper] } := if_pos falls

section
variable (stands : ¬ (p.yieldMinForce ≤ (t.peakOn x).force ∧ x.force ≤ dropThreshold (t.peakOn x).force p.yieldDrop))
include stands

theorem Te.seekStage_ends (ends : p.yieldWindowEnd ≤ x.strain) :
    t.seekStage p x =
      Te.tellsYield { t with
        peak := some (t.peakOn x), yieldState := .none, working := { t.working with outcome := .continuous } } x :=
  (if_neg stands).trans (if_pos ends)

theorem Te.seekStage_goesOn (within : x.strain < p.yieldWindowEnd) :
    t.seekStage p x = { te := { t with peak := some (t.peakOn x) } } :=
  (if_neg stands).trans (if_neg (by omega))

end

/-! ## PLATEAU -/

theorem Te.plateauStage_peak : (t.plateauStage p x).te.peak = t.peak := by
  unfold Te.plateauStage
  cases t.working.reH with
  | none => rfl
  | some reH =>
    simp only [Te.countLower_eq]
    split_ifs <;> rfl

section
variable {reH : SourcePoint} (upper : t.working.reH = some reH)
include upper

theorem Te.plateauStage_ends (ends : reH.force < x.force ∨ p.yieldWindowEnd ≤ x.strain) :
    t.plateauStage p x = t.endPlateau.tellsYield x := by
  unfold Te.plateauStage
  rw [upper]
  exact if_pos ends

variable (goesOn : ¬ (reH.force < x.force ∨ p.yieldWindowEnd ≤ x.strain))
include goesOn

theorem Te.plateauStage_transient (transient : x.strain < reH.strain + p.transient) : t.plateauStage p x = { te := t } := by
  unfold Te.plateauStage
  rw [upper]
  exact (if_neg goesOn).trans (if_pos transient)

theorem Te.plateauStage_counts (counted : reH.strain + p.transient ≤ x.strain) : t.plateauStage p x = { te := t.countLower x } := by
  unfold Te.plateauStage
  rw [upper]
  exact (if_neg goesOn).trans (if_neg (by omega))

end

/-! ## The part of the detector -/

theorem Te.yieldStage_seeking (state : t.yieldState = .seeking) : t.yieldStage p x = t.seekStage p x := by
  unfold Te.yieldStage
  rw [state]

theorem Te.yieldStage_plateau (state : t.yieldState = .plateau) : t.yieldStage p x = t.plateauStage p x := by
  unfold Te.yieldStage
  rw [state]

theorem Te.yieldStage_over (state : t.yieldState = .done ∨ t.yieldState = .none) : t.yieldStage p x = { te := t } := by
  unfold Te.yieldStage
  obtain state | state := state <;> rw [state]

theorem Te.yieldPart_eq : t.yieldPart p x = (t.maxed x).yieldStage p x := by rw [Te.yieldPart, Te.trackMax_eq]

end

end Sys2Proof.Machine

open Sys2Proof Sys2Proof.Machine

/-- Settles O50: what the sample leaves of the detector, and sends for it, is `Te.yieldPart` (`Te.judged_ranBy`), which the state
decides. -/
theorem teJudgesYield : Obligations.TeJudgesYield := by
  intro s x rest p waiting params testOpen before running
  have works : s.te.works = true := (Te.works_iff _).2 ⟨testOpen, before, .inl running⟩
  refine ⟨_, (s.te.judged p x).events, (s.te.judged p x).msgs, exec_conditionedSampleAtTe_of_works s waiting params works, rfl, rfl,
    rfl, fun unconfirmed => ?_⟩
  have ran := s.te.judged_ranBy p x (running ▸ rfl) ((Te.settle_confirmed _ _).symm.trans unconfirmed)
  have items := (Te.settle_yieldItems (s.te.judged p x).te s.te.working).trans ran.yieldItems
  have triggers := ran.triggers
  have events := ran.yield_events
  have msgs := ran.yield_msgs
  rw [Te.yieldPart_eq] at items triggers events msgs
  have state : (s.te.maxed x).yieldState = s.te.yieldState := rfl
  generalize (s.te.judged p x).te.settle s.te.working = u at items unconfirmed ⊢
  simp only [Te.yieldItems, Prod.mk.injEq] at items
  have sends {m : TeMade} (stage : (s.te.maxed x).yieldStage p x = m) :
      (s.te.judged p x).events.filter Event.isYield = m.events ∧ (s.te.judged p x).msgs.filter TeEvent.isYield = m.msgs ∧
        s.paths.triggers.te ++ (s.te.judged p x).triggers = s.paths.triggers.te ++ m.triggers :=
    ⟨events.trans (congrArg TeMade.events stage), msgs.trans (congrArg TeMade.msgs stage),
      congrArg (s.paths.triggers.te ++ ·) (triggers.trans (congrArg TeMade.triggers stage))⟩
  refine ⟨fun seeking => ?seeking, fun upper plateau held => ?plateau, fun judged => ?judged⟩
  case seeking =>
    rintro peak rfl
    have stage := Te.yieldStage_seeking (t := s.te.maxed x) (p := p) (x := x) seeking
    rw [stage] at items
    refine ⟨?_, fun falls => ?_, fun stands ends => ?_, fun stands within => ?_⟩
    · obtain ⟨_, peak, _⟩ := items
      exact peak.trans (Te.seekStage_peak (t := s.te.maxed x))
    · have made := Te.seekStage_falls (t := s.te.maxed x) falls
      rw [made] at items
      obtain ⟨state, peak, reH, reL, final, outcome⟩ := items
      exact ⟨state, reH, reL, final, outcome, sends (stage.trans made)⟩
    · have made := Te.seekStage_ends (t := s.te.maxed x) stands ends
      rw [made] at items
      obtain ⟨state, peak, reH, reL, final, outcome⟩ := items
      refine ⟨state, outcome, reH, reL, final, ?_⟩
      simp only [outcome, reH, reL, final]
      exact sends (stage.trans made)
    · have made := Te.seekStage_goesOn (t := s.te.maxed x) stands within
      rw [made] at items
      obtain ⟨state, peak, reH, reL, final, outcome⟩ := items
      exact ⟨state, reH, reL, final, outcome, sends (stage.trans made)⟩
  case plateau =>
    have stage := Te.yieldStage_plateau (t := s.te.maxed x) (p := p) (x := x) plateau
    rw [stage] at items
    refine ⟨?_, fun ends => ?_, fun goesOn transient => ?_, fun goesOn counted => ?_⟩
    · obtain ⟨_, peak, _⟩ := items
      exact peak.trans (Te.plateauStage_peak (t := s.te.maxed x))
    · have made := Te.plateauStage_ends (t := s.te.maxed x) held ends
      rw [made] at items
      obtain ⟨state, peak, reH, reL, final, outcome⟩ := items
      refine ⟨state, outcome, reH, reL, final, ?_⟩
      simp only [outcome, reH, reL, final]
      exact sends (stage.trans made)
    · have made := Te.plateauStage_transient (t := s.te.maxed x) held goesOn transient
      rw [made] at items
      obtain ⟨state, peak, reH, reL, final, outcome⟩ := items
      exact ⟨state, reH, reL, final, outcome, sends (stage.trans made)⟩
    · have made := Te.plateauStage_counts (t := s.te.maxed x) held goesOn counted
      rw [made, Te.countLower_eq] at items
      obtain ⟨state, peak, reH, reL, final, outcome⟩ := items
      exact ⟨state.trans plateau, outcome, reH, final, reL, sends (stage.trans made)⟩
  case judged =>
    have made := Te.yieldStage_over (t := s.te.maxed x) (p := p) (x := x) judged
    rw [made] at items
    obtain ⟨state, peak, reH, reL, final, outcome⟩ := items
    exact ⟨⟨state, reH, reL, final, outcome, sends made⟩, peak⟩
end

