-- ==== Sys2Proof/Proofs/FitAndProofJudged.lean ====
section
/-! The modulus fit and the proof detector on a sample in RUNNING, case by case (R125 to R128). -/

namespace Sys2Proof.Machine

section
variable {t : Te} {p : EvalParams} {x : Sample}

/-! ## The fit (R125 to R127) -/

theorem Te.fitStage_idle (idle : t.working.fitStatus ≠ .collecting) : t.fitStage p x = { te := t } := if_pos idle

section
variable (collecting : t.working.fitStatus = .collecting)
include collecting

theorem Te.fitStage_otherSource (other : ∃ src, t.fitSource = some src ∧ src ≠ x.source) :
    t.fitStage p x = t.fitFails .sourceChanged (some x.number) := by
  obtain ⟨src, source, changed⟩ := other
  unfold Te.fitStage
  rw [if_neg (not_not.2 collecting), if_pos]
  simp [source, changed]

variable (same : ¬ ∃ src, t.fitSource = some src ∧ src ≠ x.source)
include same

theorem Te.fitStage_sameSource :
    t.fitStage p x =
      if p.fHi < x.force then t.closeStage x
      else if p.fLo < p.fHi ∧ p.fLo ≤ x.force ∧ t.working.fitN < Config.maxFitPoints then { te := t.addPoint x }
      else { te := t } := by
  unfold Te.fitStage
  rw [if_neg (not_not.2 collecting), if_neg]
  intro other
  obtain ⟨src, source, changed⟩ := (Option.any_eq_true ..).1 other
  exact same ⟨src, source, of_decide_eq_true changed⟩

theorem Te.fitStage_closes (above : p.fHi < x.force) : t.fitStage p x = t.closeStage x :=
  (Te.fitStage_sameSource collecting same).trans (if_pos above)

theorem Te.fitStage_adds (window : p.fLo < p.fHi) (low : p.fLo ≤ x.force) (high : x.force ≤ p.fHi) (room : t.working.fitN < 65535) :
    t.fitStage p x = { te := t.addPoint x } := by
  rw [Te.fitStage_sameSource collecting same, if_neg (by omega)]
  exact if_pos ⟨window, low, room⟩

theorem Te.fitStage_passesBy (high : x.force ≤ p.fHi) (outside : p.fHi ≤ p.fLo ∨ x.force < p.fLo ∨ 65535 ≤ t.working.fitN) :
    t.fitStage p x = { te := t } := by
  rw [Te.fitStage_sameSource collecting same, if_neg (by omega)]
  refine if_neg fun ⟨window, low, room⟩ => ?_
  have room' : t.working.fitN < 65535 := room
  omega

end

theorem Te.closeStage_fails {r : FitReason} (failure : t.sums.failure t.working.fitN = some r) :
    t.closeStage x = t.fitFails r (some x.number) := by
  unfold Te.closeStage
  rw [failure]

theorem Te.closeStage_succeeds (passes : t.sums.failure t.working.fitN = none) : t.closeStage x = t.fitSucceeds x := by
  unfold Te.closeStage
  rw [passes]

section
variable {q : FitSums} {n : Nat}

theorem FitSums.failure_tooFew (few : n < 16) : q.failure n = some .tooFew := if_pos few

variable (many : 16 ≤ n)
include many

theorem FitSums.failure_flat (flat : q.den n ≤ 0) : q.failure n = some .flat :=
  (if_neg (show ¬ n < 16 by omega)).trans (if_pos flat)

variable (steep : 0 < q.den n)
include steep

theorem FitSums.failure_negative (falling : q.slope n ≤ 0) : q.failure n = some .negative :=
  ((if_neg (show ¬ n < 16 by omega)).trans (if_neg (by omega))).trans (if_pos falling)

theorem FitSums.failure_none (rising : 0 < q.slope n) : q.failure n = none :=
  ((if_neg (show ¬ n < 16 by omega)).trans (if_neg (by omega))).trans (if_neg (by omega))

end

/-! ## The proof detector (R128) -/

theorem Te.proofPart_seeking : t.proofPart p x true = t.proofStage p x := rfl

theorem Te.proofPart_not_seeking : t.proofPart p x false = { te := t } := rfl

theorem Te.proofStage_finds (seeking : t.proofState = .seeking) (above : p.offsetStrain < x.strain)
    (below : x.force ≤ offsetForce t.working.fitK t.working.fitB p.offsetStrain x.strain) :
    t.proofStage p x =
      { te := { t with proofState := .found, working := { t.working with rp := some (sampleSourcePoint x) } }
        events := [.proof (sampleSourcePoint x) (offsetForce t.working.fitK t.working.fitB p.offsetStrain x.strain)]
        msgs := [.proof x.number x.strain] } := if_pos ⟨seeking, above, below⟩

theorem Te.proofStage_seeks
    (h : x.strain ≤ p.offsetStrain ∨ offsetForce t.working.fitK t.working.fitB p.offsetStrain x.strain < x.force) :
    t.proofStage p x = { te := t } := if_neg fun ⟨_, above, below⟩ => by omega

/-- TE after stages 1 and 2: the fit and the proof detector still as they were. -/
theorem Te.yieldPart_te : ∃ peak state reH reL final outcome,
    (t.yieldPart p x).te = (t.maxed x).yielded peak state reH reL final outcome := by
  rw [Te.yieldPart_eq]
  exact (t.maxed x).yieldStage_te p x

end

end Sys2Proof.Machine

open Sys2Proof Sys2Proof.Machine

/-- Settles O51: `Te.fitPart` and `Te.lastPart`, which the fit's status and the sample decide (`Te.judged_ranBy`). -/
theorem teFitsModulusAndJudgesProof : Obligations.TeFitsModulusAndJudgesProof := by
  intro s x rest p waiting params testOpen before running
  have works : s.te.works = true := (Te.works_iff _).2 ⟨testOpen, before, .inl running⟩
  refine ⟨_, (s.te.judged p x).events, (s.te.judged p x).msgs, exec_conditionedSampleAtTe_of_works s waiting params works, rfl, rfl,
    rfl, fun unconfirmed => ?_⟩
  have ran := s.te.judged_ranBy p x (running ▸ rfl) ((Te.settle_confirmed _ _).symm.trans unconfirmed)
  have fit := (Te.settle_modulusItems (s.te.judged p x).te s.te.working).trans ran.modulusItems
  have proof := (Te.settle_proofItems (s.te.judged p x).te s.te.working).trans ran.proofItems
  have fitEvents := ran.fit_events
  have proofEvents := ran.proof_events
  have proofMsgs := ran.proof_msgs
  have events : (s.te.judged p x).events = (s.te.judged p x).events.filter Event.isYield ++
      (s.te.judged p x).events.filter Event.isFit ++ (s.te.judged p x).events.filter Event.isProof := by
    rw [ran.yield_events, ran.fit_events, ran.proof_events]
    exact ran.events
  have msgs : (s.te.judged p x).msgs = (s.te.judged p x).msgs.filter TeEvent.isYield ++
      (s.te.judged p x).msgs.filter TeEvent.isProof := by
    rw [ran.yield_msgs, ran.proof_msgs]
    exact ran.msgs
  obtain ⟨peak, state, reH, reL, final, outcome, y⟩ := s.te.yieldPart_te (p := p) (x := x)
  have fitPart : s.te.fitPart p x = ((s.te.maxed x).yielded peak state reH reL final outcome).fitStage p x := by rw [← y]; rfl
  have lastPart : s.te.lastPart p x = (s.te.fitPart p x).te.proofPart p x (decide (s.te.proofState = .seeking)) := rfl
  rw [lastPart] at proof proofEvents proofMsgs
  rw [fitPart] at fit proof fitEvents proofEvents proofMsgs
  generalize (s.te.judged p x).te.settle s.te.working = u at fit proof unconfirmed ⊢
  generalize (s.te.judged p x).events = evs at *
  generalize (s.te.judged p x).msgs = sent at *
  simp only [Te.modulusItems, Te.proofItems, Prod.mk.injEq] at fit proof
  clear ran y fitPart lastPart
  set y := (s.te.maxed x).yielded peak state reH reL final outcome with y_def
  have silent (notSeeking : s.te.proofState ≠ .seeking) (t : Te) :
      t.proofPart p x (decide (s.te.proofState = .seeking)) = { te := t } := by
    rw [decide_eq_false notSeeking, Te.proofPart_not_seeking]
  have fails {r : FitReason} (awaits : s.te.proofState = .awaitingFit) (made : y.fitStage p x = y.fitFails r (some x.number)) :
      (u.sums = s.te.sums ∧ u.fitSource = s.te.fitSource ∧ u.working.fitN = s.te.working.fitN) ∧
        u.working.fitStatus = .failed ∧ u.working.fitReason = some r ∧ u.working.fitK = 0 ∧ u.working.fitB = 0 ∧
        u.proofState = .notFound ∧ evs.filter Event.isFit = [.fitFailed r s.te.working.fitN (some x.number)] := by
    rw [made] at fit proof fitEvents
    rw [silent (by rw [awaits]; decide)] at proof
    obtain ⟨sums, source, status, reason, n, k, b⟩ := fit
    exact ⟨⟨sums, source, n⟩, status, reason, k, b, proof.1, fitEvents⟩
  refine ⟨fun collecting awaits => ⟨fun other => ?other, fun same above => ⟨fun few => ?few, fun many flat => ?flat,
      fun many steep falling => ?falling, fun many steep rising => ?rising⟩, fun same window low high room => ?adds,
      fun same high outside => ?passesBy⟩,
    fun idle => ?idle, fun done seeking => ⟨fun above below => ?finds, fun h => ?seeks⟩, fun notSeeking => ?silent, events, msgs,
    fun ended idle => ?kept⟩
  case other => exact fails awaits (Te.fitStage_otherSource (t := y) collecting other)
  case few =>
    exact fails awaits ((Te.fitStage_closes (t := y) collecting same above).trans
      (Te.closeStage_fails (FitSums.failure_tooFew few)))
  case flat =>
    exact fails awaits ((Te.fitStage_closes (t := y) collecting same above).trans
      (Te.closeStage_fails (FitSums.failure_flat many flat)))
  case falling =>
    exact fails awaits ((Te.fitStage_closes (t := y) collecting same above).trans
      (Te.closeStage_fails (FitSums.failure_negative many steep falling)))
  case rising =>
    have made := (Te.fitStage_closes (t := y) collecting same above).trans
      (Te.closeStage_succeeds (FitSums.failure_none many steep rising))
    rw [made] at fit proof fitEvents
    rw [silent (by rw [awaits]; decide)] at proof
    obtain ⟨sums, source, status, reason, n, k, b⟩ := fit
    exact ⟨⟨sums, source, n⟩, status, reason, k, b, proof.1, fitEvents⟩
  case adds =>
    rw [Te.fitStage_adds (t := y) collecting same window low high room] at fit fitEvents
    obtain ⟨sums, source, status, reason, n, k, b⟩ := fit
    refine ⟨sums, source.trans ?_, n, status.trans collecting, fitEvents⟩
    show some (s.te.fitSource.getD x.source) = some x.source
    cases source : s.te.fitSource with
    | none => rfl
    | some src => exact congrArg some (not_not.1 fun changed => same ⟨src, source, changed⟩)
  case passesBy =>
    rw [Te.fitStage_passesBy (t := y) collecting same high outside] at fit fitEvents
    obtain ⟨sums, source, status, reason, n, k, b⟩ := fit
    exact ⟨⟨sums, source, n⟩, status, reason, k, b, fitEvents⟩
  case idle =>
    rw [Te.fitStage_idle (t := y) idle] at fit fitEvents
    obtain ⟨sums, source, status, reason, n, k, b⟩ := fit
    exact ⟨⟨sums, source, n⟩, status, reason, k, b, fitEvents⟩
  case finds =>
    have made := Te.proofStage_finds (t := y) seeking above below
    rw [Te.fitStage_idle (t := y) (by rw [show y.working.fitStatus = _ from done]; decide), decide_eq_true seeking,
      Te.proofPart_seeking, made] at proof proofEvents proofMsgs
    exact ⟨proof.1, proof.2, proofEvents, proofMsgs⟩
  case seeks =>
    have made := Te.proofStage_seeks (t := y) h
    rw [Te.fitStage_idle (t := y) (by rw [show y.working.fitStatus = _ from done]; decide), decide_eq_true seeking,
      Te.proofPart_seeking, made] at proof proofEvents proofMsgs
    exact ⟨proof.1.trans seeking, proof.2, proofEvents, proofMsgs⟩
  case silent =>
    rw [silent notSeeking] at proofEvents proofMsgs
    exact ⟨proofEvents, proofMsgs⟩
  case kept =>
    have notSeeking : s.te.proofState ≠ .seeking := by
      obtain h | h := ended <;> rw [h] <;> decide
    rw [Te.fitStage_idle (t := y) idle, silent notSeeking] at proof
    exact proof
end

