-- ==== Sys2Proof/Proofs/TestEnds.lean ====
section
/-! The motion state tags at TE (R54, R118, R121, R134), and what closes at the end of a test. -/

namespace Sys2Proof.Machine

section
variable (t : Te)

/-! ## What closes (R131, R134) -/

theorem Te.closeProof_eq : t.closeProof = { t with
    proofState := if t.proofState = .seeking ∨ t.proofState = .awaitingFit then .notFound else t.proofState } := by
  unfold Te.closeProof
  split <;> rename_i state
  · rw [if_pos (.inl state)]
  · rw [if_pos (.inr state)]
  · rw [if_neg (by rw [state]; decide)]
  · rw [if_neg (by rw [state]; decide)]

theorem Te.closeYield_eq : t.closeYield = { t with
    yieldState := if t.yieldState = .plateau then .done else t.yieldState
    working := { t.working with
      reLFinal := if t.yieldState = .plateau then t.working.reL.isSome else t.working.reLFinal
      outcome := if t.yieldState = .plateau then .discontinuous else t.working.outcome } } := by
  unfold Te.closeYield
  split
  · rename_i state
    simp only [if_pos state]
    rfl
  · rename_i state
    simp only [if_neg state]

/-- TE with the fit failed, the proof detector ended and the plateau closed, each where it was open. -/
theorem Te.closes_eq (number : Option Nat) :
    t.closes number =
      { te := { t with
          proofState :=
            if t.working.fitStatus = .collecting ∨ t.proofState = .seeking ∨ t.proofState = .awaitingFit then .notFound
            else t.proofState
          yieldState := if t.yieldState = .plateau then .done else t.yieldState
          working := { t.working with
            fitStatus := if t.working.fitStatus = .collecting then .failed else t.working.fitStatus
            fitReason := if t.working.fitStatus = .collecting then some .windowNotPassed else t.working.fitReason
            fitK := if t.working.fitStatus = .collecting then 0 else t.working.fitK
            fitB := if t.working.fitStatus = .collecting then 0 else t.working.fitB
            reLFinal := if t.yieldState = .plateau then t.working.reL.isSome else t.working.reLFinal
            outcome := if t.yieldState = .plateau then .discontinuous else t.working.outcome } }
        events := if t.working.fitStatus = .collecting then [.fitFailed .windowNotPassed t.working.fitN number] else [] } := by
  unfold Te.closes
  by_cases collecting : t.working.fitStatus = .collecting
  · simp only [if_pos collecting, Te.closeYield_eq, Te.closeProof_eq, collecting, true_or, if_true]
    rfl
  · rw [if_neg collecting, Te.closeYield_eq, Te.closeProof_eq]
    simp only [collecting, false_or, if_false]

/-- What closes is neither a message nor a trigger. -/
theorem Te.closes_quiet (number : Option Nat) : (t.closes number).msgs = [] ∧ (t.closes number).triggers = [] := by
  rw [Te.closes_eq]
  exact ⟨rfl, rfl⟩

/-! ## The tags -/

/-- The ARMED tag: the clearing, published whatever the hold (R54, R143). -/
def Te.armedStage : TeMade :=
  { te := { t.clear.copyOut with
      hold := .free
      holdTimer := if t.hold = .held then none else t.holdTimer
      expired := if t.hold = .held then some .armed else t.expired }
    events := if t.hold = .held then [.holdExpired .armed (countUp t.count)] else [] }

theorem TeDesk.onArmed_eq (q : Paths) : TeDesk.onArmed ⟨t, q⟩ = t.armedStage.on q := by
  unfold TeDesk.onArmed Te.armedStage
  simp only
  cases hold : t.hold with
  | free =>
    have published : t.clear.publish = t.clear.copyOut := by
      unfold Te.publish
      rw [show t.clear.hold = .free from hold]
    have kept : t.clear.copyOut = { t.clear.copyOut with hold := .free, holdTimer := t.holdTimer, expired := t.expired } := by
      rw [← hold]
      rfl
    rw [show t.clear.hold = .free from hold]
    simp only [published, reduceCtorEq, if_false]
    rw [← kept]
    exact (TeMade.on_te _ q).symm
  | held =>
    simp only [show t.clear.hold = .held from hold, if_true]
    exact TeDesk.event_eq _ q _

/-- What is left open at the end of a test is closed, unless a confirmed break has closed it (R134). -/
def Te.endCloses : TeMade :=
  if t.breakConfirmed then { te := t } else { t.closes none with te := { (t.closes none).te with run := 0 } }

/-- The first STOPPED or FAULTED tag of an open test (R134). -/
def Te.endStage (c : Cause) : TeMade :=
  if t.testOpen then
    let m := Te.endCloses (t.onWorking fun r => { r with endCause := c })
    { m with te := Te.publish { m.te with testOpen := false } }
  else { te := t }

theorem TeDesk.endTest_eq (c : Cause) (q : Paths) : TeDesk.endTest ⟨t, q⟩ c = (t.endStage c).on q := by
  unfold TeDesk.endTest Te.endStage
  simp only
  split
  · unfold Te.endCloses
    split
    · exact (TeMade.on_te _ q).symm
    · have closed := TeDesk.closes_eq (t.onWorking fun r => { r with endCause := c }) q none
      exact congrArg₂ TeDesk.mk (congrArg (fun u => Te.publish { u with run := 0, testOpen := false }) (congrArg TeDesk.te closed))
        (congrArg TeDesk.paths closed)
  · exact (TeMade.on_te _ q).symm

/-- TE on a motion state tag. -/
def Te.tagStage (m : MotionTag) : TeMade :=
  match m with
  | .armed => Te.armedStage { t with tag := m }
  | .running =>
    { te := { t with
        tag := m
        working := { t.working with
          fitStatus := if t.tag = .armed ∧ t.working.fitStatus = .notStarted then .collecting else t.working.fitStatus } } }
  | .stopped c => Te.endStage { t with tag := m } c
  | .faulted c => Te.endStage { t with tag := m } c
  | .idle _ => { te := { t with tag := m, testOpen := false } }
  | .paused | .jogging | .arming _ => { te := { t with tag := m } }

theorem TeDesk.takeTag_eq (m : MotionTag) (q : Paths) : TeDesk.takeTag ⟨t, q⟩ m = (t.tagStage m).on q := by
  cases m
  case armed => exact TeDesk.onArmed_eq _ q
  case stopped c => exact TeDesk.endTest_eq _ c q
  case faulted c => exact TeDesk.endTest_eq _ c q
  case running =>
    unfold TeDesk.takeTag Te.tagStage
    simp only
    split <;> exact (TeMade.on_te _ q).symm
  all_goals exact (TeMade.on_te _ q).symm

theorem Te.endStage_quiet (c : Cause) : (t.endStage c).msgs = [] ∧ (t.endStage c).triggers = [] := by
  unfold Te.endStage Te.endCloses
  simp only
  split
  · split
    · exact ⟨rfl, rfl⟩
    · exact Te.closes_quiet _ none
  · exact ⟨rfl, rfl⟩

/-- A tag makes TE send events alone. -/
theorem Te.tagStage_quiet (m : MotionTag) : (t.tagStage m).msgs = [] ∧ (t.tagStage m).triggers = [] := by
  cases m
  case stopped c => exact Te.endStage_quiet _ c
  case faulted c => exact Te.endStage_quiet _ c
  all_goals exact ⟨rfl, rfl⟩

end

theorem TeMade.on_quiet {m : TeMade} (quiet : m.msgs = [] ∧ m.triggers = []) (p : Paths) :
    (m.on p).paths = { p with events := { p.events with te := p.events.te ++ m.events } } := by
  simp only [TeMade.on, quiet.1, quiet.2, List.append_nil]

/-- A tag at the head of the path of MS to TE is taken. -/
theorem exec_teStateTag_of_waiting (s : State) {m : MotionTag} {rest : List TeMessage} (waiting : s.paths.msToTe = .tag m :: rest) :
    exec .teStateTag s = .next { s with
      te := (s.te.tagStage m).te
      paths := { s.paths with
        msToTe := rest
        events := { s.paths.events with te := s.paths.events.te ++ (s.te.tagStage m).events } } } := by
  have paths := TeMade.on_quiet (s.te.tagStage_quiet m) { s.paths with msToTe := rest }
  show Host.Outcome.next (s.onTe _) = _
  simp only [State.onTe, waiting, TeDesk.takeTag_eq, paths]
  rfl

section
variable {t : Te}

theorem Te.endStage_closed (c : Cause) (closed : t.testOpen = false) : t.endStage c = { te := t } := by
  unfold Te.endStage
  rw [closed]
  rfl

section
variable (c : Cause) (testOpen : t.testOpen = true)
include testOpen

theorem Te.endStage_open :
    t.endStage c =
      (let m := Te.endCloses (t.onWorking fun r => { r with endCause := c })
       { m with te := Te.publish { m.te with testOpen := false } }) := if_pos testOpen

theorem Te.endStage_confirmed (confirmed : t.breakConfirmed = true) :
    t.endStage c = { te := Te.publish { t with working := { t.working with endCause := c }, testOpen := false } } := by
  rw [Te.endStage_open c testOpen, Te.endCloses, if_pos (show (t.onWorking _).breakConfirmed = true from confirmed)]
  rfl

theorem Te.endStage_unconfirmed (unconfirmed : ¬ t.breakConfirmed = true) :
    t.endStage c =
      (let m := Te.closes { t with working := { t.working with endCause := c } } none
       { m with te := Te.publish { m.te with run := 0, testOpen := false } }) := by
  rw [Te.endStage_open c testOpen, Te.endCloses, if_neg (show ¬ (t.onWorking _).breakConfirmed = true from unconfirmed)]
  rfl

end

end

end Sys2Proof.Machine

open Sys2Proof Sys2Proof.Machine

/-- Settles O48: `Te.tagStage` by the tag, with `Te.closes_eq` at the end of a test. -/
theorem teTakesMotionStateTags : Obligations.TeTakesMotionStateTags := by
  intro s m rest waiting
  refine ⟨_, (s.te.tagStage m).events, exec_teStateTag_of_waiting s waiting, rfl, ?_⟩
  refine ⟨?armed, ?running, ?others, ?idle, fun c ends => ?ended⟩
  case armed =>
    rintro rfl
    exact ⟨rfl, rfl⟩
  case running =>
    rintro rfl
    exact ⟨rfl, rfl⟩
  case others =>
    rintro (rfl | rfl | ⟨n, rfl⟩) <;> exact ⟨rfl, rfl⟩
  case idle =>
    intro idle
    cases m with
    | idle b => exact ⟨rfl, rfl⟩
    | _ => exact nomatch idle
  case ended =>
    have stage : s.te.tagStage m = Te.endStage { s.te with tag := m } c := by
      obtain rfl | rfl := ends <;> rfl
    rw [stage]
    refine ⟨fun closed => ?_, fun testOpen => ?_⟩
    · rw [Te.endStage_closed (t := { s.te with tag := m }) c closed]
      exact ⟨rfl, rfl⟩
    · cases confirmed : s.te.breakConfirmed
      case true =>
        rw [Te.endStage_confirmed (t := { s.te with tag := m }) c testOpen confirmed, Te.publish_eq_ite]
        simp only [reduceCtorEq, false_and, if_false]
        exact ⟨trivial, rfl⟩
      case false =>
        rw [Te.endStage_unconfirmed (t := { s.te with tag := m }) c testOpen (by simp [confirmed])]
        simp only [Te.publish_eq_ite, Te.closes_eq, true_and]
        rfl
end

