-- ==== Sys2Proof/Proofs/BreakJudged.lean ====
section
/-! The maximum force, the break detector and the publication on a sample at TE (R119, R129 to R133, R139). -/

namespace Sys2Proof.Machine

section
variable (t : Te) (p : EvalParams) (x : Sample)

/-! ## Stages 1 to 4 -/

theorem Te.detectorStages_frozen (paused : t.tag ≠ .running) : t.detectorStages p x = { te := t.maxed x } := by
  unfold Te.detectorStages
  rw [if_neg paused, Te.trackMax_eq]

/-- What the break detector works on, of which stages 2 to 4 change nothing. -/
def Te.breakItems : Bool × BreakState × Nat × Option Point × Option Point × Option TeArmCopy :=
  (t.breakConfirmed, t.breakState, t.run, t.candidate, t.working.fm, t.copy)

theorem Te.detectorStages_breakItems : (t.detectorStages p x).te.breakItems = (t.maxed x).breakItems := by
  by_cases running : t.tag = .running
  · obtain ⟨peak, state, reH, reL, final, outcome, y⟩ := t.yieldPart_te (p := p) (x := x)
    obtain ⟨sums, source, proof, status, reason, n, k, b, f⟩ := (t.yieldPart p x).te.fitStage_te p x
    obtain ⟨proof', rp, l⟩ := (t.fitPart p x).te.proofPart_te p x (decide (t.proofState = .seeking))
    rw [t.detectorStages_running p x running]
    show (t.lastPart p x).te.breakItems = _
    rw [show (t.lastPart p x).te = _ from l]
    show (t.fitPart p x).te.breakItems = _
    rw [show (t.fitPart p x).te = _ from f]
    show (t.yieldPart p x).te.breakItems = _
    rw [y]
    rfl
  · rw [t.detectorStages_frozen p x running]

theorem Te.detectorStages_kept :
    (t.detectorStages p x).te.breakConfirmed = t.breakConfirmed ∧ (t.detectorStages p x).te.breakState = t.breakState ∧
      (t.detectorStages p x).te.run = t.run ∧ (t.detectorStages p x).te.candidate = t.candidate ∧
      (t.detectorStages p x).te.working.fm = t.maxOn x ∧ (t.detectorStages p x).te.copy = t.copy := by
  have items := t.detectorStages_breakItems p x
  simp only [Te.breakItems, Prod.mk.injEq] at items
  exact items

/-! ### The parameters that these stages do not read -/

/-- A stage's outcome with other parameters in use. -/
def TeMade.withParams (m : TeMade) (o : Option EvalParams) : TeMade := { m with te := { m.te with params := o } }

/-- The parameters with another k_b. -/
def confirmingAfter (n : Int) : EvalParams := { p with breakConfirm := n }

variable (o : Option EvalParams) (n : Int)

theorem Te.seekStage_withParams : Te.seekStage { t with params := o } (confirmingAfter p n) x = (t.seekStage p x).withParams o := by
  by_cases falls : p.yieldMinForce ≤ (t.peakOn x).force ∧ x.force ≤ dropThreshold (t.peakOn x).force p.yieldDrop
  · exact (Te.seekStage_falls (t := { t with params := o }) (p := confirmingAfter p n) falls).trans
      (congrArg (TeMade.withParams · o) (Te.seekStage_falls falls).symm)
  · by_cases ends : p.yieldWindowEnd ≤ x.strain
    · exact (Te.seekStage_ends (t := { t with params := o }) (p := confirmingAfter p n) falls ends).trans
        (congrArg (TeMade.withParams · o) (Te.seekStage_ends falls ends).symm)
    · exact (Te.seekStage_goesOn (t := { t with params := o }) (p := confirmingAfter p n) falls (not_le.1 ends)).trans
        (congrArg (TeMade.withParams · o) (Te.seekStage_goesOn falls (not_le.1 ends)).symm)

theorem Te.plateauStage_withParams : Te.plateauStage { t with params := o } (confirmingAfter p n) x = (t.plateauStage p x).withParams o := by
  cases upper : t.working.reH with
  | none =>
    unfold Te.plateauStage
    simp only [upper]
    rfl
  | some reH =>
    by_cases ends : reH.force < x.force ∨ p.yieldWindowEnd ≤ x.strain
    · exact (Te.plateauStage_ends (t := { t with params := o }) (p := confirmingAfter p n) upper ends).trans
        (congrArg (TeMade.withParams · o) (Te.plateauStage_ends upper ends).symm)
    · by_cases transient : x.strain < reH.strain + p.transient
      · exact (Te.plateauStage_transient (t := { t with params := o }) (p := confirmingAfter p n) upper ends transient).trans
          (congrArg (TeMade.withParams · o) (Te.plateauStage_transient upper ends transient).symm)
      · refine (Te.plateauStage_counts (t := { t with params := o }) (p := confirmingAfter p n) upper ends (not_lt.1 transient)).trans ?_
        rw [Te.plateauStage_counts upper ends (not_lt.1 transient), Te.countLower_eq, Te.countLower_eq]
        rfl

theorem Te.yieldStage_withParams : Te.yieldStage { t with params := o } (confirmingAfter p n) x = (t.yieldStage p x).withParams o := by
  have states : t.yieldState = .seeking ∨ t.yieldState = .plateau ∨ t.yieldState = .done ∨ t.yieldState = .none := by
    cases t.yieldState <;> decide
  obtain seeking | plateau | ended := states
  · refine (Te.yieldStage_seeking (t := { t with params := o }) seeking).trans ?_
    rw [Te.yieldStage_seeking seeking]
    exact t.seekStage_withParams p x o n
  · refine (Te.yieldStage_plateau (t := { t with params := o }) plateau).trans ?_
    rw [Te.yieldStage_plateau plateau]
    exact t.plateauStage_withParams p x o n
  · refine (Te.yieldStage_over (t := { t with params := o }) ended).trans ?_
    rw [Te.yieldStage_over ended]
    rfl

theorem Te.closeStage_withParams : Te.closeStage { t with params := o } x = (t.closeStage x).withParams o := by
  unfold Te.closeStage
  simp only
  cases t.sums.failure t.working.fitN <;> rfl

theorem Te.fitStage_withParams : Te.fitStage { t with params := o } (confirmingAfter p n) x = (t.fitStage p x).withParams o := by
  by_cases collecting : t.working.fitStatus = .collecting
  · by_cases other : ∃ src, t.fitSource = some src ∧ src ≠ x.source
    · exact (Te.fitStage_otherSource (t := { t with params := o }) (p := confirmingAfter p n) collecting other).trans
        (congrArg (TeMade.withParams · o) (Te.fitStage_otherSource collecting other).symm)
    · rw [Te.fitStage_sameSource collecting other]
      refine (Te.fitStage_sameSource (t := { t with params := o }) (p := confirmingAfter p n) collecting other).trans ?_
      rw [Te.closeStage_withParams]
      unfold confirmingAfter
      simp only
      split_ifs <;> rfl
  · exact (Te.fitStage_idle (t := { t with params := o }) (p := confirmingAfter p n) collecting).trans
      (congrArg (TeMade.withParams · o) (Te.fitStage_idle collecting).symm)

theorem Te.proofPart_withParams (seeking : Bool) :
    Te.proofPart { t with params := o } (confirmingAfter p n) x seeking = (t.proofPart p x seeking).withParams o := by
  cases seeking
  · rfl
  · unfold Te.proofPart Te.proofStage confirmingAfter
    simp only [if_true]
    split_ifs <;> rfl

theorem Te.detectorStages_withParams :
    Te.detectorStages { t with params := o } (confirmingAfter p n) x = (t.detectorStages p x).withParams o := by
  by_cases running : t.tag = .running
  · have yield : Te.yieldPart { t with params := o } (confirmingAfter p n) x = (t.yieldPart p x).withParams o := by
      rw [Te.yieldPart_eq, Te.yieldPart_eq]
      exact (t.maxed x).yieldStage_withParams p x o n
    have fit : Te.fitPart { t with params := o } (confirmingAfter p n) x = (t.fitPart p x).withParams o := by
      unfold Te.fitPart
      rw [yield]
      exact (t.yieldPart p x).te.fitStage_withParams p x o n
    have last : Te.lastPart { t with params := o } (confirmingAfter p n) x = (t.lastPart p x).withParams o := by
      unfold Te.lastPart
      rw [fit]
      exact (t.fitPart p x).te.proofPart_withParams p x o n _
    refine (Te.detectorStages_running { t with params := o } _ x running).trans ?_
    rw [t.detectorStages_running p x running, yield, fit, last]
    rfl
  · refine (Te.detectorStages_frozen { t with params := o } _ x running).trans ?_
    rw [t.detectorStages_frozen p x running]
    rfl

/-! ## Stage 5 -/

theorem Te.raisesMax_iff : t.raisesMax x = true ↔ ∀ m ∈ t.working.fm, m.force < x.force := by
  unfold Te.raisesMax
  cases t.working.fm <;> simp

/-- The break detector watches a sample, or begins to (R130). -/
def Te.watchesAt (m : Point) : Prop :=
  t.breakState = .watching ∨ (t.breakState = .waiting ∧ p.breakMinForce ≤ m.force)

/-- The drop sample of R130, under the Fm that stage 1 left. -/
def Te.dropsAt (was : Te) (m : Point) : Prop :=
  ¬ (∀ q ∈ was.working.fm, q.force < x.force) ∧ x.force ≤ m.force - roundDiv (m.force * p.breakDrop) 1000

section
variable {t p x} {raised : Bool} {m : Point} (max : t.working.fm = some m)
include max

theorem Te.breakStage_waits (state : t.breakState = .waiting) (low : m.force < p.breakMinForce) :
    t.breakStage p x raised = { te := t } := by
  unfold Te.breakStage Te.maxReached
  simp only [state, max, Option.any_some, decide_eq_true_eq, if_neg (not_le.2 low)]

theorem Te.breakStage_watches (watches : t.watchesAt p m) :
    t.breakStage p x raised = Te.watchStage { t with breakState := .watching } p x raised := by
  unfold Te.breakStage Te.maxReached
  obtain state | ⟨state, reached⟩ := watches
  · simp only [state]
    rw [← state]
  · simp only [state, max, Option.any_some, decide_eq_true_eq, if_pos reached]

theorem Te.drops_iff {was : Te} : t.drops p x (was.raisesMax x) = true ↔ Te.dropsAt p x was m := by
  unfold Te.drops Te.dropsAt
  rw [← Te.raisesMax_iff, max]
  simp only [dropThreshold, Option.any_some, Bool.and_eq_true, Bool.not_eq_true', Bool.not_eq_true]
  exact and_congr_right fun _ => decide_eq_true_iff

variable {was : Te} (watches : t.watchesAt p m)
include watches

theorem Te.breakStage_keepsRun (stays : ¬ Te.dropsAt p x was m) :
    t.breakStage p x (was.raisesMax x) = { te := t.watched .watching 0 (some (samplePoint x)) } := by
  rw [Te.breakStage_watches max watches]
  exact if_neg fun drops => stays ((Te.drops_iff (t := { t with breakState := .watching }) max).1 drops)

theorem Te.breakStage_counts (drops : Te.dropsAt p x was m) (few : (t.run : Int) + 1 < p.breakConfirm) :
    t.breakStage p x (was.raisesMax x) = { te := t.watched .watching (t.run + 1) t.candidate } := by
  rw [Te.breakStage_watches max watches]
  refine (if_pos ((Te.drops_iff (t := { t with breakState := .watching }) max).2 drops)).trans (if_neg (not_le.2 ?_))
  push_cast
  exact few

theorem Te.breakStage_confirms (drops : Te.dropsAt p x was m) (enough : p.breakConfirm ≤ (t.run : Int) + 1) :
    t.breakStage p x (was.raisesMax x) = Te.confirmStage (t.watched .watching (t.run + 1) t.candidate) x := by
  rw [Te.breakStage_watches max watches]
  refine (if_pos ((Te.drops_iff (t := { t with breakState := .watching }) max).2 drops)).trans (if_pos ?_)
  push_cast
  exact enough

end

/-- TE with a break confirmed and what was open closed, before its record is formed (R131). -/
def Te.brokenOff : TeMade := Te.closes { t with breakConfirmed := true, breakState := .confirmed } (some x.number)

theorem Te.confirmStage_candidate {pre : Point} (candidate : t.candidate = some pre) :
    t.confirmStage x =
      { te := (t.brokenOff x).te.onWorking fun r => { r with brk := some (breakRecord (t.brokenOff x).te.working pre) }
        events := (t.brokenOff x).events ++ [.brk x.number (breakRecord (t.brokenOff x).te.working pre)]
        msgs := [.brk x.number]
        triggers := [.brk] } := by
  have kept : (t.brokenOff x).te.candidate = some pre := by
    rw [Te.brokenOff, Te.closes_eq]
    exact candidate
  obtain ⟨msgs, triggers⟩ := Te.closes_quiet { t with breakConfirmed := true, breakState := .confirmed } (some x.number)
  unfold Te.confirmStage
  change (match (t.brokenOff x).te.candidate with | none => _ | some pre => _) = _
  rw [kept]
  simp only
  change TeMade.mk _ _ ((t.brokenOff x).msgs ++ _) ((t.brokenOff x).triggers ++ _) = _
  rw [show (t.brokenOff x).msgs = [] from msgs, show (t.brokenOff x).triggers = [] from triggers]
  rfl

/-! ## Stages 6 and 7 -/

/-- The working record with its stresses (R133). -/
def Te.stressed : Results := t.working.withStresses t.s0

theorem Te.settle_eq (was : Results) : t.settle was = { t with
    working := t.stressed
    published := if t.stressed ≠ was ∧ t.hold = .free then t.stressed else t.published
    count := if t.stressed ≠ was ∧ t.hold = .free then countUp t.count else t.count } := by
  unfold Te.settle
  simp only [Te.publish_eq_ite]
  by_cases same : t.stressed = was
  · rw [if_pos (show (t.onWorking fun r => r.withStresses t.s0).working = was from same)]
    simp only [same, ne_eq, not_true_eq_false, false_and, if_false]
    rw [← same]
    rfl
  · rw [if_neg (show ¬ (t.onWorking fun r => r.withStresses t.s0).working = was from same)]
    simp only [same, ne_eq, not_false_eq_true, true_and]
    rfl

/-- R133, in full. -/
theorem stressOf_eq (f : Option Int) (s0 : Int) :
    stressOf f s0 = match f with | none => 0 | some f => clampTo (-2147483648) 2147483647 (roundDiv (1000 * f) s0) := by
  cases f <;> rfl

theorem Te.judged_setting : (t.judged p x).te.setting = t.setting := by
  have judged := TeDesk.judge_setting ⟨t, State.reset.paths⟩ p x
  rw [TeDesk.judge_eq] at judged
  exact judged

theorem Te.breakStage_fm (raised : Bool) : (t.breakStage p x raised).te.working.fm = t.working.fm := by
  have confirm : ∀ u : Te, (u.confirmStage x).te.working.fm = u.working.fm := fun u => by
    cases candidate : u.candidate with
    | some pre =>
      rw [u.confirmStage_candidate x candidate, Te.brokenOff, Te.closes_eq]
      rfl
    | none =>
      have kept : (u.brokenOff x).te.candidate = none := by
        rw [Te.brokenOff, Te.closes_eq]
        exact candidate
      have made : u.confirmStage x = u.brokenOff x := by
        unfold Te.confirmStage
        change (match (u.brokenOff x).te.candidate with | none => _ | some pre => _) = _
        rw [kept]
        rfl
      rw [made, Te.brokenOff, Te.closes_eq]
  have watch : ∀ u : Te, (u.watchStage p x raised).te.working.fm = u.working.fm := fun u => by
    unfold Te.watchStage
    split_ifs
    · exact confirm _
    · rfl
    · rfl
  unfold Te.breakStage
  cases t.breakState with
  | waiting =>
    simp only
    split
    · exact watch _
    · rfl
  | watching => exact watch _
  | confirmed => rfl

/-! ## What the sample leaves -/

/-- TE after a sample, while a detector works. -/
def Te.afterSample : Te := (t.judged p x).te.settle t.working

theorem Te.afterSample_working : (t.afterSample p x).working = (t.judged p x).te.stressed := by
  rw [Te.afterSample, Te.settle_eq]

theorem Te.afterSample_fm : (t.afterSample p x).working.fm = t.maxOn x := by
  obtain ⟨_, _, _, _, fm, _⟩ := t.detectorStages_kept p x
  rw [Te.afterSample_working]
  exact (Te.breakStage_fm _ p x _).trans fm

/-- What holds of every sample that TE judges (R129, R133, R139). -/
theorem Te.afterSample_stresses :
    (t.afterSample p x).working.sRm = stressOf ((t.afterSample p x).working.fm.map Point.force) t.s0 ∧
    (t.afterSample p x).working.sReH = stressOf ((t.afterSample p x).working.reH.map SourcePoint.force) t.s0 ∧
    (t.afterSample p x).working.sReL = stressOf ((t.afterSample p x).working.reL.map Point.force) t.s0 ∧
    (t.afterSample p x).working.sRp = stressOf ((t.afterSample p x).working.rp.map SourcePoint.force) t.s0 := by
  have copy : (t.judged p x).te.s0 = t.s0 := by
    have kept := t.judged_setting p x
    simp only [Te.setting, Prod.mk.injEq] at kept
    obtain ⟨⟨_, copy, _⟩, _⟩ := kept
    rw [Te.s0, copy, Te.s0]
  rw [Te.afterSample_working, Te.stressed, copy]
  exact ⟨rfl, rfl, rfl, rfl⟩

theorem Te.afterSample_published :
    if (t.afterSample p x).working ≠ t.working ∧ t.hold = .free then
      (t.afterSample p x).published = (t.afterSample p x).working ∧ (t.afterSample p x).count = (t.count + 1) % 4294967296
    else (t.afterSample p x).published = t.published ∧ (t.afterSample p x).count = t.count := by
  have kept := t.judged_setting p x
  simp only [Te.setting, Prod.mk.injEq] at kept
  obtain ⟨_, published, count, hold, _⟩ := kept
  rw [Te.afterSample, Te.settle_eq]
  simp only [hold, published, count]
  split_ifs
  · exact ⟨rfl, rfl⟩
  · exact ⟨rfl, rfl⟩

theorem Te.afterSample_kept :
    t.afterSample p x = { t.afterSample p x with
      loaded := t.loaded, copy := t.copy, params := t.params, tag := t.tag, testOpen := t.testOpen, hold := t.hold
      holdTimer := t.holdTimer, expired := t.expired } := by
  have kept := t.judged_setting p x
  rw [Te.afterSample, Te.settle_eq]
  simp only [Te.setting, Prod.mk.injEq] at kept
  obtain ⟨⟨loaded, copy, params, tag, testOpen⟩, _, _, hold, holdTimer, expired⟩ := kept
  rw [← loaded, ← copy, ← params, ← tag, ← testOpen, ← hold, ← holdTimer, ← expired]

/-- PAUSED freezes the detectors but those of the maximum force and the break (R119). -/
theorem Te.afterSample_frozen (paused : t.tag ≠ .running) (unconfirmed : (t.afterSample p x).breakConfirmed = false) :
    t.afterSample p x = { t with
        breakState := (t.afterSample p x).breakState, run := (t.afterSample p x).run
        candidate := (t.afterSample p x).candidate, published := (t.afterSample p x).published
        count := (t.afterSample p x).count
        working := { t.working with
          fm := (t.afterSample p x).working.fm, sRm := (t.afterSample p x).working.sRm
          sReH := (t.afterSample p x).working.sReH, sReL := (t.afterSample p x).working.sReL
          sRp := (t.afterSample p x).working.sRp } } ∧
      (t.judged p x).events = [] ∧ (t.judged p x).msgs = [] ∧ (t.judged p x).triggers = [] := by
  have unbroken : (t.judged p x).te.breakConfirmed = false := (Te.settle_confirmed _ _).symm.trans unconfirmed
  obtain ⟨state, run, candidate, watched⟩ := Te.breakStage_unconfirmed _ p x unbroken
  have judged : t.judged p x = { te := (t.maxed x).watched state run candidate } := by
    rw [Te.judged, TeMade.andThen, watched, t.detectorStages_frozen p x paused]
    rfl
  rw [Te.afterSample, judged, Te.settle_eq]
  exact ⟨rfl, rfl, rfl, rfl⟩

/-! ## The sample that the break detector judges -/

section
variable {t p x} {m : Point} (max : t.maxOn x = some m)
include max

theorem Te.judged_waits (state : t.breakState = .waiting) (low : m.force < p.breakMinForce) :
    t.judged p x = t.detectorStages p x := by
  obtain ⟨_, kept, _, _, fm, _⟩ := t.detectorStages_kept p x
  rw [Te.judged, TeMade.andThen, Te.breakStage_waits (fm.trans max) (kept.trans state) low]
  simp only [List.append_nil]

variable (watches : t.watchesAt p m)
include watches

theorem Te.detectorStages_watchesAt : (t.detectorStages p x).te.watchesAt p m := by
  obtain ⟨_, kept, _⟩ := t.detectorStages_kept p x
  unfold Te.watchesAt
  rw [kept]
  exact watches

theorem Te.judged_keepsRun (stays : ¬ Te.dropsAt p x t m) :
    t.judged p x =
      { t.detectorStages p x with te := (t.detectorStages p x).te.watched .watching 0 (some (samplePoint x)) } := by
  obtain ⟨_, _, _, _, fm, _⟩ := t.detectorStages_kept p x
  rw [Te.judged, TeMade.andThen, Te.breakStage_keepsRun (fm.trans max) (Te.detectorStages_watchesAt max watches) stays]
  simp only [List.append_nil]

theorem Te.judged_counts (drops : Te.dropsAt p x t m) (few : (t.run : Int) + 1 < p.breakConfirm) :
    t.judged p x =
      { t.detectorStages p x with te := (t.detectorStages p x).te.watched .watching (t.run + 1) t.candidate } := by
  obtain ⟨_, _, run, candidate, fm, _⟩ := t.detectorStages_kept p x
  rw [Te.judged, TeMade.andThen,
    Te.breakStage_counts (fm.trans max) (Te.detectorStages_watchesAt max watches) drops (run.symm ▸ few), run, candidate]
  simp only [List.append_nil]

theorem Te.judged_confirms (drops : Te.dropsAt p x t m) (enough : p.breakConfirm ≤ (t.run : Int) + 1) :
    t.judged p x =
      (t.detectorStages p x).andThen fun u => Te.confirmStage (u.watched .watching (t.run + 1) t.candidate) x := by
  obtain ⟨_, _, run, candidate, fm, _⟩ := t.detectorStages_kept p x
  rw [Te.judged, TeMade.andThen,
    Te.breakStage_confirms (fm.trans max) (Te.detectorStages_watchesAt max watches) drops (run.symm ▸ enough), run, candidate]
  rfl

/-- The same sample under a k_b that it does not reach. -/
theorem Te.judged_unreached (drops : Te.dropsAt p x t m) (o : Option EvalParams) :
    Te.judged { t with params := o } (confirmingAfter p (t.run + 2)) x =
      { t.detectorStages p x with
        te := { (t.detectorStages p x).te.watched .watching (t.run + 1) t.candidate with params := o } } := by
  have few : (t.run : Int) + 1 < (t.run : Int) + 2 := by omega
  refine (Te.judged_counts (t := { t with params := o }) (p := confirmingAfter p (t.run + 2)) (m := m) max watches drops few).trans ?_
  rw [t.detectorStages_withParams p x o (t.run + 2)]
  rfl

/-- The confirming sample, with what it closes and its record (R131). -/
theorem Te.judged_breaks (drops : Te.dropsAt p x t m) (enough : p.breakConfirm ≤ (t.run : Int) + 1) {pre : Point}
    (held : t.candidate = some pre) :
    t.judged p x =
      (t.detectorStages p x).andThen fun u =>
        let b := Te.brokenOff (u.watched .watching (t.run + 1) t.candidate) x
        { te := b.te.onWorking fun r => { r with brk := some (breakRecord b.te.working pre) }
          events := b.events ++ [.brk x.number (breakRecord b.te.working pre)]
          msgs := [.brk x.number]
          triggers := [.brk] } := by
  rw [Te.judged_confirms max watches drops enough]
  refine congrArg (TeMade.andThen _) (funext fun u => ?_)
  exact Te.confirmStage_candidate _ x held

end

end

end Sys2Proof.Machine

open Sys2Proof Sys2Proof.Machine

/-- Settles O49: the sample's stages (`Te.judged`), the break detector's part in each of its cases, and the stages before it
with a k_b that the sample does not reach (`Te.detectorStages_withParams`). -/
theorem teTracksMaximumAndBreak : Obligations.TeTracksMaximumAndBreak := by
  refine ⟨fun s x rest waiting idle => ?_, fun s x rest p waiting params testOpen before runs => ?_⟩
  · refine exec_conditionedSampleAtTe_of_not_works s waiting fun works => ?_
    obtain ⟨isOpen, unconfirmed, runs⟩ := (Te.works_iff _).1 works
    obtain closed | confirmed | ⟨notRunning, notPaused⟩ := idle
    · exact Bool.noConfusion (closed.symm.trans isOpen)
    · exact Bool.noConfusion (confirmed.symm.trans unconfirmed)
    · exact runs.elim notRunning notPaused
  · have works : s.te.works = true := (Te.works_iff _).2 ⟨testOpen, before, runs⟩
    have max : (s.te.afterSample p x).working.fm = s.te.maxOn x := s.te.afterSample_fm p x
    obtain ⟨sRm, sReH, sReL, sRp⟩ := s.te.afterSample_stresses p x
    obtain ⟨confirmed, state, run, candidate, _, _⟩ := s.te.detectorStages_kept p x
    refine ⟨_, (s.te.judged p x).events, (s.te.judged p x).msgs, (s.te.judged p x).triggers,
      exec_conditionedSampleAtTe_of_works s waiting params works, ?_, fun raised => ?_, fun stays => ?_,
      sRm.trans (stressOf_eq _ _), sReH.trans (stressOf_eq _ _), sReL.trans (stressOf_eq _ _), sRp.trans (stressOf_eq _ _),
      s.te.afterSample_published p x, fun paused unconfirmed => ?_, fun m found => ⟨fun waits low => ?waits,
        fun watches stays => ?stays, fun watches drops few => ?counts, fun pre watches drops enough held => ?confirms⟩⟩
    · have kept := s.te.afterSample_kept p x
      rw [testOpen] at kept
      exact congrArg (fun u => { s with te := u, paths := ((s.te.judged p x).on { s.paths with samplesTe := rest }).paths }) kept
    · exact max.trans (if_pos ((Te.raisesMax_iff _ _).2 raised))
    · exact max.trans (if_neg fun raises => stays ((Te.raisesMax_iff _ _).1 raises))
    · exact s.te.afterSample_frozen p x (by rw [paused]; decide) unconfirmed
    case waits =>
      have judged := Te.judged_waits (max.symm.trans found) waits low
      simp only [judged, Te.settle_eq]
      exact ⟨state.trans waits, run, candidate, confirmed.trans before⟩
    case stays =>
      have judged := Te.judged_keepsRun (max.symm.trans found) watches stays
      simp only [judged, Te.settle_eq]
      exact ⟨rfl, rfl, rfl, confirmed.trans before⟩
    case counts =>
      have judged := Te.judged_counts (max.symm.trans found) watches drops few
      simp only [judged, Te.settle_eq]
      exact ⟨rfl, rfl, rfl, confirmed.trans before⟩
    case confirms =>
      have judged := Te.judged_breaks (max.symm.trans found) watches drops enough held
      have unreached := Te.judged_unreached (max.symm.trans found) watches drops
        (some (confirmingAfter p (s.te.run + 2)))
      have other := exec_conditionedSampleAtTe_of_works
        { s with te := { s.te with params := some (confirmingAfter p (s.te.run + 2)) } } waiting rfl works
      rw [unreached, Te.settle_eq] at other
      generalize s.te.detectorStages p x = d at judged other confirmed
      simp only [TeMade.andThen, Te.brokenOff, Te.closes_eq] at judged
      rw [judged, Te.settle_eq]
      refine ⟨rfl, rfl, held, ?_, ?_, ?_, ?_, rfl, ?_, ?_, ?_, _, _, _, _, other, rfl, rfl, rfl, confirmed.trans before,
        rfl, rfl, rfl, rfl, rfl, rfl, rfl, rfl, rfl, rfl, rfl, rfl, rfl, ?_, rfl, rfl⟩
      · show (if d.te.working.fitStatus = .collecting then FitStatus.failed else d.te.working.fitStatus) ≠ .collecting
        split_ifs with collecting
        · decide
        · exact collecting
      · show (if d.te.working.fitStatus = .collecting ∨ d.te.proofState = .seeking ∨ d.te.proofState = .awaitingFit then ProofState.notFound
          else d.te.proofState) ≠ .seeking
        split_ifs with isOpen
        · decide
        · exact fun seeking => isOpen (.inr (.inl seeking))
      · show (if d.te.working.fitStatus = .collecting ∨ d.te.proofState = .seeking ∨ d.te.proofState = .awaitingFit then ProofState.notFound
          else d.te.proofState) ≠ .awaitingFit
        split_ifs with isOpen
        · decide
        · exact fun waits => isOpen (.inr (.inr waits))
      · show (if d.te.yieldState = .plateau then YieldState.done else d.te.yieldState) ≠ .plateau
        split_ifs with plateau
        · decide
        · exact plateau
      · exact (congrArg List.getLast? (List.append_assoc ..).symm).trans List.getLast?_concat
      · exact List.getLast?_concat
      · exact List.getLast?_concat
      · exact (List.append_assoc ..).symm
end

