-- ==== Sys2Proof/Proofs/ConversionStep.lean ====
section
/-! The step of a conversion: the sample's number, test time and delivery (R9), its force, and the faults it raises (R10 to
R12). -/

namespace Sys2Proof.Machine

/-! ## What MC sends -/

theorem Paths.sendMcReplies_eq (p : Paths) (l : List Reply) :
    p.sendMcReplies l = { p with replies := { p.replies with mc := p.replies.mc ++ l } } := by
  unfold Paths.sendMcReplies
  induction l generalizing p with
  | nil => simp only [List.foldl_nil, List.append_nil]
  | cons r rest ih =>
    rw [List.foldl_cons, ih]
    simp only [Paths.sendReply, PerBlock.push, PerBlock.set, PerBlock.get, List.append_assoc, List.singleton_append]

/-- Fault events of MC on the paths to MS, CP and CR. -/
def Paths.withMcFaults (p : Paths) (l : List (FaultKind × Event)) : Paths :=
  { p with
    mcFaults := p.mcFaults ++ l.map (·.1)
    events := { p.events with mc := p.events.mc ++ l.map (·.2) }
    triggers := { p.triggers with mc := p.triggers.mc ++ l.map fun e => Trigger.fault e.1 } }

theorem Paths.raiseFault_mc_if (p : Paths) (b : Bool) (k : FaultKind) (e : Event) :
    (if b then p.raiseFault .mc k e else p) = p.withMcFaults (if b then [(k, e)] else []) := by
  cases b
  · simp [Paths.withMcFaults]
  · rfl

theorem Paths.withMcFaults_append (p : Paths) (l l' : List (FaultKind × Event)) :
    (p.withMcFaults l).withMcFaults l' = p.withMcFaults (l ++ l') := by
  simp only [Paths.withMcFaults, List.map_append, List.append_assoc]

section
variable (m : Mc) (g : GoodFrame)

/-- The faults that a conversion raises (R10, R12). -/
def Mc.faultsOf : List (FaultKind × Event) :=
  (if m.raisesRangeInvalid (m.condition g).1 then [(.rangeInvalid, .rangeInvalid g.frame.range)] else []) ++
    (if m.raisesOverload (m.condition g).1 then [(.overload, .overload (m.condition g).1.sample.force g.frame.range)] else [])

theorem State.conversionDesk_paths (s : State) (rest : List GoodFrame) :
    (s.conversionDesk g rest).paths =
      ((Paths.sendMcReplies { s.paths with inletToMc := rest } (s.mc.zeroReplies .done)).withMcFaults (s.mc.faultsOf g)).deliver
        (s.mc.condition g).1.sample := by
  unfold State.conversionDesk McDesk.convert Mc.faultsOf
  simp only [Paths.raiseFault_mc_if, Paths.withMcFaults_append]

theorem State.conversionDesk_paths_eq (s : State) (rest : List GoodFrame) :
    (s.conversionDesk g rest).paths =
      { s.paths with
        inletToMc := rest
        samplesMs := s.paths.samplesMs ++ [(s.mc.condition g).1.sample]
        samplesEs := s.paths.samplesEs ++ [(s.mc.condition g).1.sample]
        samplesTe := s.paths.samplesTe ++ [(s.mc.condition g).1.sample]
        samplesCr := s.paths.samplesCr ++ [(s.mc.condition g).1.sample]
        samplesCp := s.paths.samplesCp ++ [(s.mc.condition g).1.sample]
        mcFaults := s.paths.mcFaults ++ (s.mc.faultsOf g).map (·.1)
        events := { s.paths.events with mc := s.paths.events.mc ++ (s.mc.faultsOf g).map (·.2) }
        triggers := { s.paths.triggers with mc := s.paths.triggers.mc ++ (s.mc.faultsOf g).map fun e => Trigger.fault e.1 }
        replies := { s.paths.replies with mc := s.paths.replies.mc ++ s.mc.zeroReplies .done } } := by
  rw [s.conversionDesk_paths g rest, Paths.sendMcReplies_eq]
  rfl

/-! ## Number and time -/

theorem MotionState.timed_iff (st : MotionState) : st.timed = true ↔ st = .running ∨ st = .paused ∨ st = .stopped := by
  cases st <;> decide

theorem Mc.nextNumber_eq :
    m.nextNumber g =
      match m.last with
      | none => 0
      | some l => min 4294967295 (l.sample.number + g.advance) := by
  unfold Mc.nextNumber
  cases m.last <;> rfl

theorem Mc.timeAfter_eq :
    m.timeAfter g =
      if m.tag.state = .running ∨ m.tag.state = .paused ∨ m.tag.state = .stopped then
        min 4294967295 (m.testTime + g.gap * g.frame.period.us)
      else m.testTime := by
  unfold Mc.timeAfter
  simp only [MotionState.timed_iff]
  rfl

/-! ## The force (R10, R11) -/

theorem CalSet.calibrated_eq_none {c : CalSet} {code : Nat}
    (out : c.range code = none ∨ ∃ f, c.frame = some f ∧ f.rangesInUse ≤ (code : Int)) : c.calibrated code = none := by
  unfold CalSet.calibrated
  obtain absent | ⟨f, frame, beyond⟩ := out
  · rw [absent]
  · cases table : c.range code with
    | none => rfl
    | some t => simp only [frame, if_neg (not_lt.2 beyond)]

theorem CalSet.calibrated_eq_some {c : CalSet} {code : Nat} {t : RangeTable} (table : c.range code = some t)
    (used : ∀ f, c.frame = some f → (code : Int) < f.rangesInUse) : c.calibrated code = some t := by
  unfold CalSet.calibrated
  cases frame : c.frame with
  | none => simp only [table]
  | some f => simp only [table, if_pos (used f frame)]

theorem List.getLastD_of_getLast? {α : Type} {p final : α} {ps : List α} (h : (p :: ps).getLast? = some final) :
    ps.getLastD p = final := by
  rw [List.getLast?_cons] at h
  rw [← Option.some.inj h, List.getLastD_eq_getLast?]

/-- R11 in the segment that a count falls in. -/
theorem rangeForce_eq {t : RangeTable} {i : Nat} {p q first final : Int × Int} {count : Int}
    (rising : t.points.Pairwise (fun a b => a.1 < b.1)) (here : t.points[i]? = some p) (next : t.points[i + 1]? = some q)
    (head : t.points.head? = some first) (last : t.points.getLast? = some final)
    (falls : (p.1 ≤ count - t.zeroOffset ∧ count - t.zeroOffset < q.1) ∨ (i = 0 ∧ count - t.zeroOffset < p.1) ∨
      (i + 2 = t.points.length ∧ q.1 ≤ count - t.zeroOffset)) :
    rangeForce t count =
      (p.2 + roundDiv ((count - t.zeroOffset - p.1) * (q.2 - p.2)) (q.1 - p.1),
        decide (count - t.zeroOffset < first.1) || decide (final.1 < count - t.zeroOffset)) := by
  unfold rangeForce
  cases points : t.points with
  | nil => exact absurd (points ▸ head) nofun
  | cons b bs =>
    rw [points] at rising here next head last falls
    obtain rfl : b = first := Option.some.inj head
    simp only [segmentFrom_eq _ b bs rising i p q here next falls, List.getLastD_of_getLast? last]

/-! ## The faults (R10, R12) -/

theorem overloaded_iff (c : CalSet) (overrange : Bool) (force : Int) :
    overloaded c overrange force = true ↔
      overrange = true ∨ ∃ f, c.frame = some f ∧ f.fMax < (force.natAbs : Int) := by
  unfold overloaded
  cases c.frame <;> simp

theorem Mc.raisesRangeInvalid_iff (x : LastSample) :
    m.raisesRangeInvalid x = true ↔ x.sample.held = true ∧
      ((m.tag.state ≠ .idle ∧ m.tag.state ≠ .faulted) ∨ ¬ ∃ l, m.last = some l ∧ l.sample.held = true) := by
  unfold Mc.raisesRangeInvalid
  rw [Bool.and_eq_true, Bool.or_eq_true, MotionState.active_iff]
  cases m.last <;> simp

theorem Mc.raisesOverload_iff (x : LastSample) :
    m.raisesOverload x = true ↔ x.overload = true ∧
      ((m.tag.state ≠ .idle ∧ m.tag.state ≠ .faulted) ∨ ¬ ∃ l, m.last = some l ∧ l.overload = true) := by
  unfold Mc.raisesOverload
  rw [Bool.and_eq_true, Bool.or_eq_true, MotionState.active_iff]
  cases m.last <;> simp

theorem Mc.mem_faultsOf (e : FaultKind × Event) :
    e ∈ m.faultsOf g ↔
      (m.raisesRangeInvalid (m.condition g).1 = true ∧ e = (.rangeInvalid, .rangeInvalid g.frame.range)) ∨
        (m.raisesOverload (m.condition g).1 = true ∧
          e = (.overload, .overload (m.condition g).1.sample.force g.frame.range)) := by
  unfold Mc.faultsOf
  rw [List.mem_append, List.mem_ite_nil_right, List.mem_ite_nil_right, List.mem_singleton, List.mem_singleton]

theorem Mc.faultsOf_nodup : (m.faultsOf g).Nodup := by
  unfold Mc.faultsOf
  split_ifs <;> simp

end

end Sys2Proof.Machine

open Sys2Proof Sys2Proof.Machine

/-- Settles O17: the desk of the conversion and its paths (`State.conversionDesk_paths_eq`). -/
theorem conversionNumbersTimesAndDeliversSample : Obligations.ConversionNumbersTimesAndDeliversSample := by
  intro s g rest waiting
  refine ⟨_, (s.mc.condition g).1, exec_conversion_of_waiting s g rest waiting, s.conversionDesk_last g rest,
    s.mc.nextNumber_eq g, s.mc.timeAfter_eq g, rfl, rfl, rfl, rfl, rfl, rfl, rfl, rfl, rfl, rfl, rfl, ?_, rfl⟩
  simp only [s.conversionDesk_paths_eq g rest]

/-- Settles O18: F_cal by the segment of the count (`rangeForce_eq`), which the zeros keep (`Mc.applyZeros_keeps`), and the
faults of the conversion (`Mc.mem_faultsOf`). -/
theorem conversionFormsForceAndItsEvents : Obligations.ConversionFormsForceAndItsEvents := by
  refine ⟨fun s g rest waiting => ?force, fun s g rest waiting => ?faults⟩
  case force =>
    obtain ⟨_, _, _, force, fCal, held, uncal⟩ := s.mc.applyZeros_keeps g.frame
    refine ⟨_, (s.mc.condition g).1, exec_conversion_of_waiting s g rest waiting, s.conversionDesk_last g rest,
      force.trans ?_, fun out => ?_, fun table i p q first final there used rising here next head last falls => ?_⟩
    · rfl
    · have formed : (s.mc.form g.frame).held = true ∧ (s.mc.form g.frame).uncal = false ∧
          (s.mc.form g.frame).fCal = s.mc.lastFCal := by
        unfold Mc.form
        rw [CalSet.calibrated_eq_none out]
        exact ⟨rfl, rfl, rfl⟩
      obtain ⟨uncalibrated, inside, value⟩ := formed
      exact ⟨held.trans uncalibrated, uncal.trans inside, fCal.trans value⟩
    · have formed : (s.mc.form g.frame).held = false ∧
          ((s.mc.form g.frame).fCal, (s.mc.form g.frame).uncal) = rangeForce table g.frame.load := by
        unfold Mc.form
        rw [CalSet.calibrated_eq_some there used]
        exact ⟨rfl, rfl⟩
      rw [rangeForce_eq rising here next head last falls, Prod.mk.injEq] at formed
      obtain ⟨calibrated, value, outside⟩ := formed
      refine ⟨held.trans calibrated, fCal.trans value, ?_⟩
      rw [show (s.mc.condition g).1.sample.uncal = _ from uncal.trans outside, Bool.or_eq_true, decide_eq_true_iff,
        decide_eq_true_iff]
  case faults =>
    refine ⟨_, (s.mc.condition g).1, exec_conversion_of_waiting s g rest waiting, s.conversionDesk_last g rest,
      overloaded_iff _ _ _, rfl, s.mc.faultsOf g, fun e => ?_, s.mc.faultsOf_nodup g, ?_, ?_, ?_⟩
    · rw [s.mc.mem_faultsOf, s.mc.raisesRangeInvalid_iff, s.mc.raisesOverload_iff, and_assoc, and_assoc]
      exact or_congr_right (and_congr_left fun _ => overloaded_iff _ _ _)
    · rw [s.conversionDesk_paths_eq g rest]
    · rw [s.conversionDesk_paths_eq g rest]
    · rw [s.conversionDesk_paths_eq g rest]
end

