-- ==== Sys2Proof/Proofs/SourceSelection.lean ====
section
/-! The source that a conversion selects, the permitted set that it leaves, and the offset of a switch (R16 to R18). -/

namespace Sys2Proof.Machine

section
variable (m : Mc) (f : SampleFrame) (raw : RawStrains)

/-- The source that a conversion selects. -/
def Mc.selectedOn : Source := selected m.permittedNow (m.validA f) (m.validB f)

theorem Mc.permittedNow_eq :
    m.permittedNow =
      if m.armingZeros ≠ none ∨ (m.pendZeroExt ≠ [] ∧ m.tag.state = .idle) then restored (m.program.map McProgram.fitted)
      else m.dropArms.foldl Permitted.drop m.permitted := by
  unfold Mc.permittedNow
  simp only [Bool.or_eq_true, Bool.and_eq_true, decide_eq_true_eq, Option.isSome_iff_ne_none]
  rfl

theorem selected_eq (p : Permitted) (a b : Bool) :
    selected p a b =
      if p.both ∧ a ∧ b then .both else if p.armA ∧ a then .armA else if p.armB ∧ b then .armB else .crosshead := by
  unfold selected usable
  simp only [Bool.and_eq_true, and_assoc]

theorem Permitted.prune_eq (p : Permitted) (a b : Bool) :
    p.prune a b = { both := p.both && a && b, armA := p.armA && a, armB := p.armB && b, crosshead := p.crosshead } := rfl

theorem MotionState.prunes_iff (st : MotionState) :
    st.prunes = true ↔ st = .armed ∨ st = .running ∨ st = .paused ∨ st = .stopped := by
  cases st <;> decide

/-! ## The choice in its cases -/

theorem Mc.choose_source : (m.choose f raw).source = m.selectedOn f := by
  unfold Mc.choose
  split
  · simp only
    split
    · next same => exact same.symm
    · rfl
  · rfl

/-- The first conversion (log entry 10). -/
theorem Mc.choose_first (first : m.source = none ∨ m.last = none) :
    m.choose f raw =
      { source := m.selectedOn f, switched := false, offset := m.offset, mark := m.offsetRezero, permitted := m.permittedNow } := by
  unfold Mc.choose
  simp only
  split
  · next source last =>
    obtain none | none := first
    · exact absurd (none.symm.trans source) nofun
    · exact absurd (none.symm.trans last) nofun
  · rfl

variable {m f} {cur : Source} {l : LastSample} (source : m.source = some cur) (last : m.last = some l)
include source last

theorem Mc.choose_stays (same : m.selectedOn f = cur) :
    m.choose f raw =
      { source := cur, switched := false, offset := (m.offsetNoSwitch cur (raw.get cur) l.sample.strain).1
        mark := (m.offsetNoSwitch cur (raw.get cur) l.sample.strain).2, permitted := m.permittedNow } := by
  unfold Mc.choose
  rw [source, last]
  exact if_pos same

theorem Mc.choose_switches (other : m.selectedOn f ≠ cur) :
    m.choose f raw =
      { source := m.selectedOn f, switched := true, offset := l.sample.strain - l.raw.get (m.selectedOn f)
        mark := m.offsetRezero || m.zeroesArms
        permitted :=
          if cur.code < (m.selectedOn f).code ∧ m.tag.state.prunes then m.permittedNow.prune (m.validA f) (m.validB f)
          else m.permittedNow } := by
  unfold Mc.choose
  rw [source, last]
  exact if_neg other

end

/-- The source and the outcome of stage 5 in the state that a conversion leaves. -/
theorem State.conversionDesk_choice (s : State) (g : GoodFrame) (rest : List GoodFrame) :
    ∃ raw, (s.mc.condition g).2.2 = s.mc.choose g.frame raw ∧ raw = (s.mc.condition g).1.raw ∧
      (s.mc.condition g).1.sample.source = (s.mc.choose g.frame raw).source ∧
      (s.mc.condition g).1.sample.sourceChanged = (s.mc.choose g.frame raw).switched ∧
      (s.mc.condition g).1.sample.strain =
        sat32 (raw.get (s.mc.choose g.frame raw).source + (s.mc.choose g.frame raw).offset) ∧
      (s.conversionDesk g rest).mc.source = some (s.mc.choose g.frame raw).source ∧
      (s.conversionDesk g rest).mc.permitted = (s.mc.choose g.frame raw).permitted ∧
      (s.conversionDesk g rest).mc.offset = (s.mc.choose g.frame raw).offset ∧
      (s.conversionDesk g rest).mc.offsetRezero = (s.mc.choose g.frame raw).mark :=
  ⟨_, rfl, rfl, rfl, rfl, rfl, rfl, rfl, rfl, rfl⟩

end Sys2Proof.Machine

open Sys2Proof Sys2Proof.Machine

/-- Settles O19: the choice of the conversion in its three cases (`Mc.choose_first`, `Mc.choose_stays`, `Mc.choose_switches`). -/
theorem conversionSelectsSourceWithContinuity : Obligations.ConversionSelectsSourceWithContinuity := by
  refine ⟨fun s g rest waiting together => ?selects, fun s g rest cur l waiting source last => ?continuous,
    fun p => ⟨rfl, rfl⟩, rfl, rfl, rfl, rfl, rfl⟩
  case selects =>
    obtain ⟨raw, -, -, chosen, changed, -, now, permitted, offset, -⟩ := s.conversionDesk_choice g rest
    have picks := s.mc.choose_source g.frame raw
    have selects : (s.mc.condition g).1.sample.source = s.mc.selectedOn g.frame := chosen.trans picks
    have began (cur : Source) (source : s.mc.source = some cur) : ∃ l, s.mc.last = some l := by
      rw [source] at together
      exact Option.isSome_iff_exists.1 together.symm
    refine ⟨_, (s.mc.condition g).1, exec_conversion_of_waiting s g rest waiting, s.conversionDesk_last g rest,
      ⟨?_, ?_, fun keeps => ?_⟩, rfl, ?_, now.trans (congrArg some chosen.symm), fun first => ?_⟩
    · rw [selects, Mc.selectedOn, selected_eq, Mc.permittedNow_eq]
      rfl
    · rintro ⟨⟨cur, source, lower⟩, prunes⟩
      obtain ⟨l, last⟩ := began cur source
      rw [selects] at lower
      have switches := Mc.choose_switches raw source last (f := g.frame) fun same => lt_irrefl _ (same ▸ lower)
      rw [permitted, switches]
      refine (if_pos ⟨lower, (MotionState.prunes_iff _).2 prunes⟩).trans ?_
      rw [Permitted.prune_eq, Mc.permittedNow_eq]
      rfl
    · rw [permitted, ← Mc.permittedNow_eq]
      cases source : s.mc.source with
      | none => rw [Mc.choose_first _ _ _ (.inl source)]
      | some cur =>
        obtain ⟨l, last⟩ := began cur source
        by_cases same : s.mc.selectedOn g.frame = cur
        · rw [Mc.choose_stays raw source last same]
        · rw [Mc.choose_switches raw source last same]
          refine if_neg fun both => keeps ⟨⟨cur, source, ?_⟩, (MotionState.prunes_iff _).1 both.2⟩
          rw [selects]
          exact both.1
    · rw [changed, selects]
      cases source : s.mc.source with
      | none => simp [Mc.choose_first _ _ _ (.inl source)]
      | some cur =>
        obtain ⟨l, last⟩ := began cur source
        by_cases same : s.mc.selectedOn g.frame = cur
        · simp [Mc.choose_stays raw source last same, same]
        · simp [Mc.choose_switches raw source last same, Ne.symm same]
    · rw [offset, Mc.choose_first _ _ _ (.inl first)]
  case continuous =>
    obtain ⟨raw, -, kept, chosen, changed, strain, now, permitted, offset, -⟩ := s.conversionDesk_choice g rest
    have picks := s.mc.choose_source g.frame raw
    refine ⟨_, (s.mc.condition g).1, exec_conversion_of_waiting s g rest waiting, s.conversionDesk_last g rest,
      now.trans (congrArg some chosen.symm), fun other => ?_, fun same => ?_⟩
    · have switches := Mc.choose_switches raw source last (f := g.frame) (by rwa [← picks, ← chosen])
      rw [chosen, changed, offset, strain, switches, ← kept]
      exact ⟨rfl, rfl, rfl⟩
    · rw [changed, Mc.choose_stays raw source last (by rwa [← picks, ← chosen])]
end

