-- ==== Sys2Proof/Proofs/ZerosApplied.lean ====
section
/-! The zeros that a conversion applies, and the offset with and without a switch (R20, R22). -/

namespace Sys2Proof.Machine

/-! ## The zeros -/

/-- The tare, the arm zeros and the position zero, each where it is asked for, in the order of R20. -/
def Forming.applied (c : CalSet) (f : SampleFrame) (tare arms position : Bool) (x : Forming) : Forming :=
  applyIf position Forming.applyPosition (applyIf arms (Forming.applyArms c f) (applyIf tare Forming.applyTare x))

theorem Forming.applied_none (c : CalSet) (f : SampleFrame) (x : Forming) : x.applied c f false false false = x := rfl

theorem Forming.applied_zero (c : CalSet) (f : SampleFrame) (tare arms position : Bool) (x : Forming) :
    (x.applied c f tare arms position).zero =
      { tare := if tare then x.fCal else x.zero.tare
        armA := if arms then f.countA else x.zero.armA
        armB := if arms then f.countB else x.zero.armB
        pZero := if position then (x.applied c f tare arms position).position else x.zero.pZero
        fZ := if position then (x.applied c f tare arms position).force else if tare then 0 else x.zero.fZ } := by
  cases tare
  · cases arms <;> cases position <;> rfl
  · cases arms <;> cases position <;> rfl

theorem Forming.applied_fCal (c : CalSet) (f : SampleFrame) (tare arms position : Bool) (x : Forming) :
    (x.applied c f tare arms position).fCal = x.fCal := by
  cases tare
  · cases arms <;> cases position <;> rfl
  · cases arms <;> cases position <;> rfl

section
variable (m : Mc) (f : SampleFrame)

theorem Mc.formed_requested (idle : m.armingZeros = none) :
    m.formed f = (m.form f).applied m.cal f (decide (m.pendTare ≠ [])) (decide (m.pendZeroExt ≠ []))
      (decide (m.pendZeroPosition ≠ [])) := by
  unfold Mc.formed Mc.applyZeros Forming.applied
  simp only [idle]
  rfl

theorem Mc.formed_arming {n : Nat} (arming : m.armingZeros = some n) (tare : m.pendTare = []) (ext : m.pendZeroExt = [])
    (position : m.pendZeroPosition = []) :
    m.formed f = (m.form f).applied m.cal f m.auto.1 m.auto.2.1 m.auto.2.2 := by
  unfold Mc.formed Mc.applyZeros Forming.applied
  simp only [arming, tare, ext, position, ne_eq, not_true_eq_false, decide_false, Option.isSome_some, Bool.true_and]
  rfl

theorem Mc.auto_eq :
    m.auto = ((m.program.map McProgram.autoTare).getD false, (m.program.map McProgram.autoArm).getD false,
      (m.program.map McProgram.autoPosition).getD false) := by
  unfold Mc.auto
  cases m.program <;> rfl

/-! ## The offset without a switch -/

theorem Source.isArm_iff (c : Source) : c.isArm = true ↔ c ≠ .crosshead := by cases c <;> decide

variable {m} (source : Source) (strain ePrev : Int)

theorem Mc.offsetNoSwitch_requested (unmarked : m.offsetRezero = false)
    (asked : m.pendTare ≠ [] ∨ m.pendZeroExt ≠ [] ∨ m.pendZeroPosition ≠ []) :
    m.offsetNoSwitch source strain ePrev =
      (if m.pendZeroExt ≠ [] ∧ source ≠ .crosshead then 0 else ePrev - strain, false) := by
  have some : ¬ (m.pendTare = [] ∧ m.pendZeroExt = [] ∧ m.pendZeroPosition = []) := by tauto
  unfold Mc.offsetNoSwitch
  simp only [unmarked, if_neg some, Bool.false_eq_true, if_false, Source.isArm_iff]

section
variable (none : ¬ (m.pendTare ≠ [] ∨ m.pendZeroExt ≠ [] ∨ m.pendZeroPosition ≠ []))
include none

theorem Mc.offsetNoSwitch_unasked (idle : m.armingZeros = .none) :
    m.offsetNoSwitch source strain ePrev =
      (if m.offsetRezero ∧ source ≠ .crosshead then 0 else m.offset, false) := by
  have empty : m.pendTare = [] ∧ m.pendZeroExt = [] ∧ m.pendZeroPosition = [] := by tauto
  unfold Mc.offsetNoSwitch
  simp only [idle, if_pos empty, Option.isSome_none, Bool.false_eq_true, if_false, Source.isArm_iff]
  split_ifs <;> simp_all

theorem Mc.offsetNoSwitch_arming {n : Nat} (arming : m.armingZeros = some n) (unmarked : m.offsetRezero = false) :
    m.offsetNoSwitch source strain ePrev = (if source = .crosshead then ePrev - strain else 0, false) := by
  have empty : m.pendTare = [] ∧ m.pendZeroExt = [] ∧ m.pendZeroPosition = [] := by tauto
  unfold Mc.offsetNoSwitch
  simp only [arming, unmarked, if_pos empty, Option.isSome_some, Bool.false_eq_true, if_false, if_true, Source.isArm_iff]
  rw [ite_not]

end

end

end Sys2Proof.Machine

open Sys2Proof Sys2Proof.Machine

/-- Settles O20: the zeros in their order (`Forming.applied_zero`) and the offset by the choice of the source
(`Mc.choose_stays`, `Mc.choose_switches`). -/
theorem conversionAppliesPendingZeros : Obligations.ConversionAppliesPendingZeros := by
  refine ⟨fun s g rest waiting idle => ?requested, fun s g rest cur l n waiting source last arming tag tare ext position unmarked => ?arming⟩
  case requested =>
    obtain ⟨raw, -, kept, chosen, changed, -, -, -, offset, mark⟩ := s.conversionDesk_choice g rest
    have selects := chosen.trans (s.mc.choose_source g.frame raw)
    have formed := s.mc.formed_requested g.frame idle
    have zero : (s.conversionDesk g rest).mc.zero = _ := (congrArg Forming.zero formed).trans (Forming.applied_zero ..)
    have fCal : (s.conversionDesk g rest).mc.lastFCal = _ := (congrArg Forming.fCal formed).trans (Forming.applied_fCal ..)
    rw [← formed, ← fCal] at zero
    simp only [decide_eq_true_eq] at zero
    refine ⟨_, (s.mc.condition g).1, exec_conversion_of_waiting s g rest waiting, s.conversionDesk_last g rest,
      congrArg ZeroRecord.tare zero, congrArg ZeroRecord.armA zero, congrArg ZeroRecord.armB zero, congrArg ZeroRecord.pZero zero,
      congrArg ZeroRecord.fZ zero, rfl, rfl, rfl, ⟨s.mc.zeroReplies .done, ?_, .refl _⟩, fun first => ?_,
      fun cur l source last => ⟨fun same unmarked asked => ?_, fun other => ?_, fun same marked none => ?_,
        fun same unmarked none => ?_⟩⟩
    · rw [s.conversionDesk_paths_eq g rest]
    · rw [offset, mark, changed, Mc.choose_first _ _ _ first]
      exact ⟨rfl, rfl, rfl⟩
    · rw [offset, mark, Mc.choose_stays raw source last (selects.symm.trans same), ← kept,
        Mc.offsetNoSwitch_requested cur _ _ unmarked asked]
      exact ⟨rfl, rfl⟩
    · rw [offset, mark, Mc.choose_switches raw source last (selects ▸ other), selects]
      refine ⟨rfl, ?_⟩
      simp [Mc.zeroesArms, idle, or_comm]
    · rw [offset, mark, Mc.choose_stays raw source last (selects.symm.trans same), Mc.offsetNoSwitch_unasked cur _ _ none idle]
      simp [marked]
    · rw [offset, mark, Mc.choose_stays raw source last (selects.symm.trans same), Mc.offsetNoSwitch_unasked cur _ _ none idle]
      simp [unmarked]
  case arming =>
    obtain ⟨raw, -, kept, chosen, changed, -, -, permitted, offset, mark⟩ := s.conversionDesk_choice g rest
    have selects := chosen.trans (s.mc.choose_source g.frame raw)
    have formed := s.mc.formed_arming g.frame arming tare ext position
    have zero : (s.conversionDesk g rest).mc.zero = _ := (congrArg Forming.zero formed).trans (Forming.applied_zero ..)
    have fCal : (s.conversionDesk g rest).mc.lastFCal = _ := (congrArg Forming.fCal formed).trans (Forming.applied_fCal ..)
    rw [← formed, ← fCal, s.mc.auto_eq] at zero
    have restores : s.mc.permittedNow = restored (s.mc.program.map McProgram.fitted) := by
      rw [Mc.permittedNow_eq, if_pos (.inl (by rw [arming]; nofun))]
    have none : ¬ (s.mc.pendTare ≠ [] ∨ s.mc.pendZeroExt ≠ [] ∨ s.mc.pendZeroPosition ≠ []) := by simp [tare, ext, position]
    refine ⟨_, (s.mc.condition g).1, exec_conversion_of_waiting s g rest waiting, s.conversionDesk_last g rest, arming, rfl,
      congrArg ZeroRecord.tare zero, congrArg ZeroRecord.armA zero, congrArg ZeroRecord.armB zero, congrArg ZeroRecord.pZero zero,
      congrArg ZeroRecord.fZ zero, ?_, fun same => ?_, fun other => ?_⟩
    · rw [permitted, ← restores]
      by_cases same : s.mc.selectedOn g.frame = cur
      · rw [Mc.choose_stays raw source last same]
      · rw [Mc.choose_switches raw source last same]
        refine if_neg fun both => ?_
        rw [tag] at both
        exact Bool.noConfusion both.2
    · rw [offset, mark, Mc.choose_stays raw source last (selects.symm.trans same), ← kept,
        Mc.offsetNoSwitch_arming cur _ _ none arming unmarked]
      exact ⟨rfl, rfl⟩
    · rw [offset, mark, Mc.choose_switches raw source last (selects ▸ other), selects]
      refine ⟨rfl, ?_⟩
      simp [Mc.zeroesArms, arming, unmarked, ext, s.mc.auto_eq]
end

