-- ==== Sys2Proof/Proofs/TagsAndZeroRequests.lean ====
section
/-! Zero requests, motion state tags, drop-arm requests and program notices at MC (R9, R18, R19, R21 to R23, R42). -/

namespace Sys2Proof.Machine

/-! ## Zero requests (R19) -/

theorem Mc.takesZero_iff (m : Mc) : m.takesZero = true ↔ m.tag.state = .idle ∨ m.tag.state = .armed := by
  simp [Mc.takesZero]

section
variable (s : State) (k : RequestKind) (tag : Tag) (pend : Mc → Mc) (ready : s.cp.store ≠ .loading)
include ready

theorem State.zeroRequest_pends (takes : s.mc.takesZero = true) :
    (s.request k tag fun s => s.onMc fun d => d.takeZero k tag pend) = { s with mc := pend s.mc } := by
  rw [State.request_ready s k tag _ ready]
  simp only [State.onMc, McDesk.takeZero, takes, if_true]

theorem State.zeroRequest_refused (refuses : ¬ s.mc.takesZero = true) :
    (s.request k tag fun s => s.onMc fun d => d.takeZero k tag pend) =
      { s with paths := s.paths.sendReply .mc (answer k tag .wrongState .none) } := by
  rw [State.request_ready s k tag _ ready]
  simp only [State.onMc, McDesk.takeZero, refuses, if_false, Bool.false_eq_true]

end

/-! ## The motion state tag (R9, R21 to R23) -/

/-- MC after a tag, but for what becomes of the zero requests. -/
theorem McDesk.takeTag_eq (d : McDesk) (m : MotionTag) :
    d.takeTag m =
      { mc := { d.mc with
          tag := m
          armingZeros := armingZerosOn m
          testTime := d.mc.timeOnTag m
          permitted := if m = .idle true then restored d.mc.fitted else d.mc.permitted
          offsetRezero := if m = .idle true then false else d.mc.offsetRezero
          pendTare := if m.state = .idle ∨ m.state = .armed then d.mc.pendTare else []
          pendZeroExt := if m.state = .idle ∨ m.state = .armed then d.mc.pendZeroExt else []
          pendZeroPosition := if m.state = .idle ∨ m.state = .armed then d.mc.pendZeroPosition else [] }
        paths := d.paths.sendMcReplies (if m.state = .idle ∨ m.state = .armed then [] else d.mc.zeroReplies .cancelled) } := by
  unfold McDesk.takeTag
  by_cases keeps : m.state = .idle ∨ m.state = .armed
  · simp only [if_pos keeps, Paths.sendMcReplies_eq, List.append_nil]
    by_cases resets : m = .idle true
    · simp only [if_pos resets]
    · simp only [if_neg resets]
  · have stays : m ≠ .idle true := fun h => keeps (.inl (h ▸ rfl))
    simp only [if_neg keeps, if_neg stays]
    rfl

theorem exec_mcStateTag_of_waiting (s : State) {m : MotionTag} {rest : List McMessage} (waiting : s.paths.msToMc = .tag m :: rest) :
    exec .mcStateTag s =
      .next { s with
        mc := (McDesk.takeTag ⟨s.mc, { s.paths with msToMc := rest }⟩ m).mc
        paths := (McDesk.takeTag ⟨s.mc, { s.paths with msToMc := rest }⟩ m).paths } := by
  show Host.Outcome.next (s.onMc _) = _
  simp only [State.onMc, waiting]

end Sys2Proof.Machine

open Sys2Proof Sys2Proof.Machine

/-- Settles O21: the zero requests by the tag that MC holds (`State.zeroRequest_pends`, `State.zeroRequest_refused`), and the
tag with its replies (`McDesk.takeTag_eq`). -/
theorem zeroRequestsPendAndMcTakesTagsAndNotices : Obligations.ZeroRequestsPendAndMcTakesTagsAndNotices := by
  refine ⟨fun s tag ready => ⟨fun takes => ?pends, fun notIdle notArmed => ?refused⟩, fun s m rest waiting => ?tag,
    fun s i rest waiting => ?dropArm, fun s n p rest waiting => ?notice⟩
  case pends =>
    have takes := (Mc.takesZero_iff _).2 takes
    exact ⟨congrArg Host.Outcome.next (s.zeroRequest_pends .tare tag _ ready takes),
      congrArg Host.Outcome.next (s.zeroRequest_pends .zeroExt tag _ ready takes),
      congrArg Host.Outcome.next (s.zeroRequest_pends .zeroPosition tag _ ready takes)⟩
  case refused =>
    have refuses : ¬ s.mc.takesZero = true := fun takes => ((Mc.takesZero_iff _).1 takes).elim notIdle notArmed
    exact ⟨congrArg Host.Outcome.next (s.zeroRequest_refused .tare tag _ ready refuses),
      congrArg Host.Outcome.next (s.zeroRequest_refused .zeroExt tag _ ready refuses),
      congrArg Host.Outcome.next (s.zeroRequest_refused .zeroPosition tag _ ready refuses)⟩
  case tag =>
    refine ⟨_, exec_mcStateTag_of_waiting s waiting, ?_,
      if m.state = .idle ∨ m.state = .armed then [] else s.mc.zeroReplies .cancelled, ?_, ?_⟩
    · simp only [McDesk.takeTag_eq, Paths.sendMcReplies_eq]
      rfl
    · simp only [McDesk.takeTag_eq, Paths.sendMcReplies_eq]
    · split_ifs <;> exact .refl _
  case dropArm =>
    show Host.Outcome.next (s.onMc _) = _
    simp only [State.onMc, waiting]
  case notice =>
    show Host.Outcome.next (s.onMc _) = _
    simp only [State.onMc, waiting]
end

