-- ==== Sys2Proof/Proofs/Receivers.lean ====
section
/-! The receivers of the links (R172, R173): what is found in characters arriving one after another is what is found in all of
them at once. -/

namespace Sys2Proof.Machine

/-! ## The receivers -/

/-- The part with other receivers. -/
def State.withRx (s : State) (r : Receivers) : State := { s with rx := r }

/-- What is done to the part neither reads nor changes its receivers. -/
def LeavesRx (f : State → State) : Prop := ∀ s r, f (s.withRx r) = (f s).withRx r

theorem LeavesRx.ite {a b : State → State} (ha : LeavesRx a) (hb : LeavesRx b) (c : State → Prop) [∀ s, Decidable (c s)]
    (same : ∀ s r, c (s.withRx r) = c s) : LeavesRx fun s => if c s then a s else b s := fun s r => by
  simp only [same s r]
  split
  · exact ha s r
  · exact hb s r

theorem State.request_leavesRx {k : RequestKind} {tag : Tag} {take : State → State} (h : LeavesRx take) :
    LeavesRx fun s => s.request k tag take :=
  LeavesRx.ite (fun _ _ => rfl) h (fun s => s.cp.store = .loading) fun _ _ => rfl

theorem takeLoadFrame_leavesRx (tag : Tag) (p : List Byte) : LeavesRx (takeLoadFrame tag p) := fun s r => by
  unfold takeLoadFrame
  simp only
  split
  · exact State.request_leavesRx (fun _ _ => rfl) s r
  · split
    · exact State.request_leavesRx (fun _ _ => rfl) s r
    · split
      · exact State.request_leavesRx (fun _ _ => rfl) s r
      · rfl

theorem takeReadbackFrame_leavesRx (tag : Tag) (p : List Byte) : LeavesRx (takeReadbackFrame tag p) := fun s r => by
  unfold takeReadbackFrame
  simp only
  split
  · exact State.request_leavesRx (fun _ _ => rfl) s r
  · split
    · exact State.request_leavesRx (fun _ _ => rfl) s r
    · exact State.request_leavesRx (fun _ _ => rfl) s r

theorem routeRequest_leavesRx (k : RequestKind) (tag : Tag) (p : List Byte) : LeavesRx (routeRequest k tag p) := by
  cases k
  case load =>
    intro s r
    unfold routeRequest
    simp only
    split
    · exact takeLoadFrame_leavesRx tag p s r
    · exact State.request_leavesRx (fun _ _ => rfl) s r
  case readback => exact takeReadbackFrame_leavesRx tag p
  case inquire => exact fun s r => rfl
  case status => exact fun s r => rfl
  case captureSet =>
    refine State.request_leavesRx fun s r => ?_
    cases triggerMask (BitVec.ofNat 8 (u8 p 3)) <;> rfl
  all_goals exact State.request_leavesRx fun _ _ => rfl

theorem takeRequest_leavesRx (kind : Byte) (tag : Tag) (p : List Byte) : LeavesRx (takeRequest kind tag p) := by
  refine LeavesRx.ite (fun _ _ => rfl) ?_
    (fun s => s.cp.store = .loading ∧ RequestKind.gated (RequestKind.ofCode kind.toNat) = true) fun _ _ => rfl
  cases RequestKind.ofCode kind.toNat with
  | none => exact fun _ _ => rfl
  | some k =>
    intro s r
    by_cases fits : k.lengthFits p = true
    · simp only [if_pos fits]
      exact routeRequest_leavesRx k tag p s r
    · simp only [if_neg fits]
      rfl

theorem State.lose_leavesRx (l : Link) : LeavesRx (State.lose · l) := by
  cases l
  · exact LeavesRx.ite (fun _ _ => rfl) (fun _ _ => rfl) (fun s => s.sp.state = .loading) fun _ _ => rfl
  · exact fun _ _ => rfl
  · exact fun _ _ => rfl

theorem State.handOn_leavesRx (l : Link) (bs : List Byte) : LeavesRx (State.handOn · l bs) := fun s r => by
  cases l
  · unfold State.handOn
    simp only
    cases readSampleFrame bs <;> rfl
  · unfold State.handOn
    simp only
    cases readDriveStatus bs <;> rfl
  · exact takeRequest_leavesRx _ _ _ s r

theorem State.takeItem_leavesRx (l : Link) (i : RxItem) : LeavesRx (State.takeItem · l i) := fun s r => by
  cases i with
  | lost => exact State.lose_leavesRx l s r
  | frame bs => exact State.handOn_leavesRx l bs s r
  | hold => rfl
  | go => rfl

/-- Items acted on one after another. -/
def State.takeItems (l : Link) (items : List RxItem) (s : State) : State := items.foldl (fun s i => s.takeItem l i) s

theorem State.takeItems_leavesRx (l : Link) (items : List RxItem) : LeavesRx (State.takeItems l items) := fun s r => by
  unfold State.takeItems
  induction items generalizing s with
  | nil => rfl
  | cons i rest ih =>
    rw [List.foldl_cons, List.foldl_cons, ← ih]
    exact congrArg (rest.foldl fun s i => s.takeItem l i) (State.takeItem_leavesRx l i s r)


/-! ## One character after another -/

/-- The bytes of a verdict that stand in the candidate. -/
theorem frameLength_append {bs : List Byte} (long : 3 ≤ bs.length) (more : List Byte) :
    frameLength (bs ++ more) = frameLength bs := by
  unfold frameLength u16 field
  rw [List.drop_append_of_le_length (by omega), List.take_append_of_le_length (by rw [List.length_drop]; omega)]

/-- A candidate judged is judged the same with more behind it. -/
theorem verdict_append {l : Link} {loading : Bool} {bs : List Byte} (judged : verdict l loading bs ≠ .incomplete) (more : List Byte) :
    verdict l loading (bs ++ more) = verdict l loading bs := by
  unfold verdict at judged ⊢
  have long : ¬ bs.length < 3 := fun short => judged (if_pos short)
  rw [if_neg long] at judged
  have same := frameLength_append (not_lt.1 long) more
  rw [if_neg long, if_neg (by rw [List.length_append]; omega), same]
  by_cases out : lengthInBound l (frameLength bs) = false
  · rw [if_pos out, if_pos out]
  · rw [if_neg out] at judged
    simp only at judged ⊢
    have complete : ¬ bs.length < 8 + frameLength bs := fun short => judged (if_pos short)
    rw [if_neg out, if_neg out, if_neg complete, if_neg (by rw [List.length_append]; omega),
      List.take_append_of_le_length (not_lt.1 complete)]

/-- A complete candidate lies in the bytes examined. -/
theorem verdict_length {l : Link} {loading : Bool} {bs : List Byte} {n : Nat}
    (judged : verdict l loading bs = .passes n ∨ verdict l loading bs = .discarded n) : n ≤ bs.length := by
  unfold verdict at judged
  simp only at judged
  split_ifs at judged <;> simp at judged <;> omega

section
variable {l : Link} {loading : Bool} {b : Byte} {bs : List Byte}

theorem scan_other (other : b ≠ 165) :
    scan l loading 0 (b :: bs) = (huntItem l b ++ (scan l loading 0 bs).1, (scan l loading 0 bs).2) := by
  rw [scan]
  exact if_neg other

theorem scan_incomplete (judged : verdict l loading (165 :: bs) = .incomplete) :
    scan l loading 0 (165 :: bs) = ([], 165 :: bs) := by
  rw [scan, judged]
  rfl

theorem scan_fails (judged : verdict l loading (165 :: bs) = .fails) :
    scan l loading 0 (165 :: bs) = (.lost :: (scan l loading 0 bs).1, (scan l loading 0 bs).2) := by
  rw [scan, judged]
  rfl

theorem scan_passes {n : Nat} (judged : verdict l loading (165 :: bs) = .passes n) :
    scan l loading 0 (165 :: bs) =
      (.frame ((165 :: bs).take n) :: (scan l loading (n - 1) bs).1, (scan l loading (n - 1) bs).2) := by
  rw [scan, judged]
  rfl

theorem scan_discarded {n : Nat} (judged : verdict l loading (165 :: bs) = .discarded n) :
    scan l loading 0 (165 :: bs) = scan l loading (n - 1) bs := by
  rw [scan, judged]
  rfl

end

theorem scan_append (l : Link) (loading : Bool) (k : Nat) (xs ys : List Byte) (fits : k ≤ xs.length) :
    scan l loading k (xs ++ ys) =
      ((scan l loading k xs).1 ++ (scan l loading 0 ((scan l loading k xs).2 ++ ys)).1,
        (scan l loading 0 ((scan l loading k xs).2 ++ ys)).2) := by
  induction xs generalizing k with
  | nil =>
    obtain rfl : k = 0 := Nat.le_zero.1 fits
    rfl
  | cons b bs ih =>
    cases k with
    | succ skip => exact ih skip (Nat.le_of_succ_le_succ fits)
    | zero =>
      by_cases start : b = 165
      · subst start
        have more (v : Verdict) (judged : verdict l loading (165 :: bs) = v) (decided : v ≠ .incomplete) :
            verdict l loading (165 :: (bs ++ ys)) = v :=
          (verdict_append (judged ▸ decided) ys).trans judged
        cases judged : verdict l loading (165 :: bs) with
        | incomplete => rw [scan_incomplete judged, List.nil_append]
        | fails =>
          rw [List.cons_append, scan_fails (more _ judged nofun), scan_fails judged, ih 0 (Nat.zero_le _)]
          rfl
        | passes n =>
          have inside := verdict_length (.inl judged)
          have skips : n - 1 ≤ bs.length := Nat.sub_le_of_le_add inside
          have same : (165 :: (bs ++ ys)).take n = (165 :: bs).take n :=
            List.take_append_of_le_length (l₁ := 165 :: bs) inside
          rw [List.cons_append, scan_passes (more _ judged nofun), scan_passes judged, ih _ skips, same]
          rfl
        | discarded n =>
          have skips : n - 1 ≤ bs.length := Nat.sub_le_of_le_add (verdict_length (.inr judged))
          rw [List.cons_append, scan_discarded (more _ judged nofun), scan_discarded judged, ih _ skips]
      · rw [List.cons_append, scan_other start, scan_other start, ih 0 (Nat.zero_le _), List.append_assoc]

/-- A candidate that is held is found again, and nothing else. -/
theorem scan_held (l : Link) (loading : Bool) (bs : List Byte) :
    scan l loading 0 (scan l loading 0 bs).2 = ([], (scan l loading 0 bs).2) := by
  have again := scan_append l loading 0 bs [] (Nat.zero_le _)
  rw [List.append_nil, List.append_nil] at again
  have held := congrArg Prod.snd again
  have items : (scan l loading 0 bs).1 ++ [] = (scan l loading 0 bs).1 ++ (scan l loading 0 (scan l loading 0 bs).2).1 := by
    rw [List.append_nil]
    exact congrArg Prod.fst again
  exact Prod.ext (List.append_cancel_left items).symm held.symm

/-- Only on FRONT does it matter that SP is in LOADING. -/
theorem scan_loading {l : Link} (other : l ≠ .front) (loading loading' : Bool) (k : Nat) (bs : List Byte) :
    scan l loading k bs = scan l loading' k bs := by
  have judged (bs : List Byte) : verdict l loading bs = verdict l loading' bs := by
    unfold verdict
    simp only [other, false_and, if_false]
  induction bs generalizing k with
  | nil => cases k <;> rfl
  | cons b bs ih =>
    cases k with
    | succ skip => exact ih skip
    | zero =>
      rw [scan, scan, judged]
      simp only [ih]

/-! ## The characters at a receiver -/

theorem State.receive_eq (s : State) (l : Link) (r : List RxItem × List Byte) :
    s.receive l r = (s.takeItems l r.1).withRx (s.rx.set l (receiverOf r.2)) :=
  State.takeItems_leavesRx l r.1 s (s.rx.set l (receiverOf r.2))

theorem State.receive_nothing (s : State) {l : Link} {held : List Byte} (here : s.rx.get l = receiverOf held) :
    s.receive l ([], held) = s := by
  rw [State.receive_eq, ← here, Receivers.set_get]
  rfl

theorem State.receive_receive (s : State) (l : Link) (r r' : List RxItem × List Byte) :
    (s.receive l r).receive l r' = s.receive l (r.1 ++ r'.1, r'.2) := by
  rw [State.receive_eq, State.receive_eq, State.receive_eq, State.takeItems_leavesRx]
  simp only [State.takeItems, List.foldl_append]
  exact congrArg (State.withRx _) (Receivers.set_set ..)

theorem State.takeItem_front_sp (s : State) (i : RxItem) : (s.takeItem .front i).sp = s.sp := by
  cases i with
  | lost =>
    unfold State.takeItem State.lose
    simp only
    split <;> rfl
  | frame bs =>
    unfold State.takeItem State.handOn
    simp only
    cases readSampleFrame bs <;> rfl
  | hold => rfl
  | go => rfl

theorem State.takeItems_front_sp (s : State) (items : List RxItem) : (s.takeItems .front items).sp = s.sp := by
  unfold State.takeItems
  induction items generalizing s with
  | nil => rfl
  | cons i rest ih => exact (ih _).trans (s.takeItem_front_sp i)

/-- What a receiver finds changes nothing of how it goes on. -/
theorem State.scan_receive (s : State) (l : Link) (r : List RxItem × List Byte) (k : Nat) (bs : List Byte) :
    scan l (s.receive l r).loading k bs = scan l s.loading k bs := by
  by_cases front : l = .front
  · subst front
    rw [State.receive_eq]
    exact congrArg (fun sp : Sp => scan .front (decide (sp.state = .loading)) k bs) (s.takeItems_front_sp r.1)
  · exact scan_loading front _ _ k bs

theorem held_receiverOf (held : List Byte) : (receiverOf held).held = held := by cases held <;> rfl

/-- Characters arriving one after another at a receiver (R172). -/
def State.characters (l : Link) (bs : List Byte) (s : State) : State := bs.foldl (fun s c => s.character l c) s

theorem State.characters_eq (l : Link) (bs : List Byte) (s : State) (held : List Byte) (here : s.rx.get l = receiverOf held)
    (incomplete : scan l s.loading 0 held = ([], held)) :
    s.characters l bs = s.receive l (scan l s.loading 0 (held ++ bs)) := by
  induction bs generalizing s held with
  | nil =>
    rw [List.append_nil, incomplete, s.receive_nothing here]
    rfl
  | cons c rest ih =>
    have first : s.character l c = s.receive l (scan l s.loading 0 (held ++ [c])) := by
      rw [State.character, here, held_receiverOf]
    have after := State.scan_receive s l (scan l s.loading 0 (held ++ [c]))
    have split := scan_append l s.loading 0 (held ++ [c]) rest (Nat.zero_le _)
    have next := ih (s.receive l (scan l s.loading 0 (held ++ [c]))) (scan l s.loading 0 (held ++ [c])).2
      (by rw [State.receive_eq]; exact Receivers.get_set ..) (by rw [after]; exact scan_held ..)
    rw [after, State.receive_receive] at next
    rw [List.append_assoc, List.singleton_append] at split
    rw [split, ← next, ← first]
    rfl

theorem execAll_startDelimiter (l : Link) (bs : List Byte) (s : State) :
    execAll (bs.map (Instr.startDelimiter l)) s = .next (s.characters l bs) := by
  induction bs generalizing s with
  | nil => rfl
  | cons c rest ih => exact ih (s.character l c)

theorem State.lose_eq (s : State) (l : Link) :
    s.lose l =
      match l with
      | .front =>
        if s.sp.state = .loading then s else { s with paths := { s.paths with frontErrors := s.paths.frontErrors + 1 } }
      | .drive => { s with paths := { s.paths with driveErrors := s.paths.driveErrors + 1 } }
      | .console => { s with cp := s.cp.linkErrorTaken .console } := by
  cases l
  · rfl
  · rfl
  · exact congrArg (fun c => { s with cp := c }) (s.cp.takeLinkError_eq .console)

theorem State.lose_loading (s : State) (l : Link) : (s.lose l).loading = s.loading := by
  cases l
  · unfold State.lose
    simp only
    split <;> rfl
  · rfl
  · rfl

/-- A candidate that fails, with the bytes behind its delimiter (R172). -/
theorem State.examinesAgain_eq (s : State) (l : Link) (bs : List Byte) :
    s.examinesAgain l bs = .next ((s.lose l).receive l (scan l s.loading 0 bs)) := by
  have lost : s.examinesAgain l bs = execAll (bs.map (Instr.startDelimiter l)) ((s.lose l).withRx ((s.lose l).rx.set l .hunt)) := by
    rw [State.lose_eq]
    cases l <;> rfl
  have found := State.characters_eq l bs ((s.lose l).withRx ((s.lose l).rx.set l .hunt)) [] (Receivers.get_set ..) rfl
  have loading : ((s.lose l).withRx ((s.lose l).rx.set l .hunt)).loading = s.loading := s.lose_loading l
  rw [lost, execAll_startDelimiter, found, List.nil_append, loading, State.receive_eq, State.receive_eq,
    State.takeItems_leavesRx]
  exact congrArg (fun r => Host.Outcome.next (State.withRx _ r)) (Receivers.set_set ..)

/-- A candidate lost before the rest of what is found. -/
theorem State.lose_receive (s : State) (l : Link) (items : List RxItem) (held : List Byte) :
    s.receive l (.lost :: items, held) = (s.lose l).receive l (items, held) := by
  have rx : (s.lose l).rx = s.rx := by
    have kept := congrArg State.rx (State.lose_leavesRx l s s.rx)
    exact kept
  rw [State.receive_eq, State.receive_eq, rx]
  rfl

/-! ## The judgement of a complete candidate -/

theorem lengthInBound_iff (l : Link) (n : Nat) : lengthInBound l n = true ↔ lengthAllowed l n := by
  cases l
  · exact decide_eq_true_iff
  · exact decide_eq_true_iff
  · exact decide_eq_true_iff

section
variable {l : Link} {loading : Bool} {bs : List Byte}

theorem verdict_incomplete
    (short : bs.length < 3 ∨ (3 ≤ bs.length ∧ lengthAllowed l (frameLength bs) ∧ bs.length < 8 + frameLength bs)) :
    verdict l loading bs = .incomplete := by
  unfold verdict
  obtain short | ⟨long, allowed, short⟩ := short
  · exact if_pos short
  · rw [if_neg (not_lt.2 long), (lengthInBound_iff l _).2 allowed]
    exact if_pos short

theorem verdict_badLength (long : 3 ≤ bs.length) (bad : ¬ lengthAllowed l (frameLength bs)) : verdict l loading bs = .fails := by
  unfold verdict
  rw [if_neg (not_lt.2 long), if_pos]
  exact Bool.eq_false_iff.2 fun inBound => bad ((lengthInBound_iff l _).1 inBound)

theorem verdict_complete (allowed : lengthAllowed l (frameLength bs)) (complete : bs.length = 8 + frameLength bs) :
    verdict l loading bs =
      if l = .front ∧ loading = true then .discarded bs.length
      else if candidatePasses l bs then .passes bs.length
      else .fails := by
  unfold verdict
  rw [if_neg (by omega), (lengthInBound_iff l _).2 allowed, if_neg Bool.noConfusion]
  simp only
  rw [if_neg (by omega), ← complete, List.take_length]

end

theorem scan_skip_all (l : Link) (loading : Bool) (bs : List Byte) : scan l loading bs.length bs = ([], []) := by
  induction bs with
  | nil => rfl
  | cons b rest ih => exact ih

theorem u8_framePayload {bs : List Byte} {i : Nat} (inside : i < frameLength bs) :
    u8 (framePayload bs) i = u8 bs (6 + i) := by
  unfold u8 framePayload field
  rw [List.drop_take, List.take_take, List.drop_drop, min_eq_left (by omega)]

theorem readSamplePayload_isSome (seq : Seq) (p : List Byte) : (readSamplePayload seq p).isSome = true ↔ u8 p 0 < 4 ∧ u8 p 1 < 4 := by
  have period (n : Nat) : (Period.ofCode n).isSome = true ↔ n < 4 := by
    match n with
    | 0 | 1 | 2 | 3 => decide
    | n + 4 => exact iff_of_false nofun (by omega)
  unfold readSamplePayload
  refine Iff.trans ?_ (and_congr_left' (period _))
  cases Period.ofCode (u8 p 0) with
  | none => simp
  | some code =>
    by_cases range : u8 p 1 < 4
    · simp [range]
    · simp [range]

theorem candidatePasses_iff (l : Link) (bs : List Byte) : candidatePasses l bs = true ↔ checksPass l bs := by
  unfold candidatePasses checksPass lengthAllowed
  cases l with
  | front =>
    simp only
    unfold readSampleFrame
    split_ifs with passes
    · obtain ⟨crc, kind, length⟩ := passes
      rw [readSamplePayload_isSome, u8_framePayload (by omega), u8_framePayload (by omega)]
      simp [crc, kind, length]
    · refine iff_of_false nofun fun ⟨crc, length, kind, _⟩ => passes ⟨crc, kind, length⟩
  | drive =>
    simp only
    unfold readDriveStatus
    split_ifs with passes
    · obtain ⟨crc, kind, length⟩ := passes
      exact iff_of_true rfl ⟨crc, length, kind⟩
    · exact iff_of_false nofun fun ⟨crc, length, kind⟩ => passes ⟨crc, kind, length⟩
  | console =>
    simp only [Bool.and_eq_true, decide_eq_true_iff, and_true]
    exact Iff.rfl

/-- The command of a complete candidate, outside LOADING on FRONT. -/
theorem exec_frameCommand {s : State} {l : Link} (bs : List Byte) (open_ : l ≠ .front ∨ s.sp.state ≠ .loading) :
    exec (frameCommand l bs) s = .next (s.candidate l bs) := by
  cases l with
  | front =>
    have ready : ¬ s.loading = true := fun loading => open_.elim (fun h => h rfl) fun h => h (decide_eq_true_iff.1 loading)
    exact congrArg Host.Outcome.next (if_neg ready)
  | drive => rfl
  | console => rfl

end Sys2Proof.Machine

open Sys2Proof Sys2Proof.Machine

/-- Settles O60: what is found in the characters one by one (`State.characters_eq`), by the verdict on the candidate held. -/
theorem receiversFindFrames : Obligations.ReceiversFindFrames := by
  intro s l
  have arrives (held bs : List Byte) (us : Nat) (c : Byte) (receiving : s.rx.get l = .receiving held us)
      (start : held.head? = some 165) (all : bs = held ++ [c]) :
      ∃ rest, bs = 165 :: rest ∧ exec (.startDelimiter l c) s = .next (s.receive l (scan l s.loading 0 bs)) := by
    obtain ⟨later, rfl⟩ := List.head?_eq_some_iff.1 start
    refine ⟨later ++ [c], all, ?_⟩
    show Host.Outcome.next (s.receive l _) = _
    rw [receiving, all]
    rfl
  refine ⟨fun hunts => ⟨?_, fun c other quiet => ?_, fun console => ?_⟩,
    fun held bs us c receiving start all => ⟨fun short => ?incomplete, fun long bad => ?badLength, fun allowed complete => ?complete⟩,
    fun held us receiving => ?expiry, fun bs start fails open_ => ?fails, fun bs loading => ?loading⟩
  · show Host.Outcome.next (s.receive l _) = _
    rw [hunts, show Receiver.held .hunt ++ [165] = [(165 : Byte)] from rfl, scan_incomplete (verdict_incomplete (.inl (by decide)))]
    rfl
  · show Host.Outcome.next (s.receive l _) = _
    have nothing : huntItem l c = [] := by
      cases l with
      | front => rfl
      | drive => rfl
      | console =>
        obtain ⟨hold, go⟩ := quiet.resolve_left (fun h => h rfl)
        exact (if_neg hold).trans (if_neg go)
    rw [hunts, show Receiver.held .hunt ++ [c] = [c] from rfl, scan_other other, nothing]
    exact congrArg Host.Outcome.next (s.receive_nothing hunts)
  · subst console
    have idle : ∀ t : State, t.rx.get .console = .hunt → t.withRx (t.rx.set .console .hunt) = t := fun t h => by
      rw [← h, Receivers.set_get]
      rfl
    have hears (c : Byte) (other : c ≠ 165) (i : RxItem) (item : huntItem .console c = [i]) :
        exec (.startDelimiter .console c) s = .next (s.takeItem .console i) := by
      show Host.Outcome.next (s.receive .console _) = _
      rw [hunts, show Receiver.held .hunt ++ [c] = [c] from rfl, scan_other other, item]
      exact congrArg (fun t => Host.Outcome.next (State.takeItem t .console i)) (idle s hunts)
    exact ⟨hears 204 (by decide) .hold rfl, hears 51 (by decide) .go rfl⟩
  case incomplete =>
    obtain ⟨rest, opens, char⟩ := arrives held bs us c receiving start all
    rw [char, opens, scan_incomplete (opens ▸ verdict_incomplete short)]
    rfl
  case badLength =>
    obtain ⟨rest, opens, char⟩ := arrives held bs us c receiving start all
    rw [char, s.examinesAgain_eq, opens, scan_fails (opens ▸ verdict_badLength long bad), List.tail_cons,
      s.lose_receive]
  case complete =>
    obtain ⟨rest, opens, char⟩ := arrives held bs us c receiving start all
    have judged := verdict_complete (loading := s.loading) allowed complete
    have rests : bs.length - 1 = rest.length := by rw [opens]; rfl
    by_cases discards : l = .front ∧ s.loading = true
    · obtain ⟨rfl, loading⟩ := discards
      rw [if_pos ⟨rfl, loading⟩, opens] at judged
      rw [char, opens, scan_discarded judged, ← opens, rests, scan_skip_all]
      exact (congrArg Host.Outcome.next (if_pos loading)).symm
    · have ready : l ≠ .front ∨ s.sp.state ≠ .loading := by
        by_contra both
        push Not at both
        exact discards ⟨both.1, decide_eq_true both.2⟩
      rw [if_neg discards] at judged
      rw [char, exec_frameCommand bs ready, State.candidate]
      by_cases passes : candidatePasses l bs = true
      · rw [if_pos passes, opens] at judged
        rw [if_pos passes, opens, scan_passes judged, List.take_length, ← opens, rests, scan_skip_all]
        rfl
      · rw [if_neg passes, opens] at judged
        rw [if_neg passes, opens, scan_fails judged, s.lose_receive]
        rfl
  case expiry =>
    rw [s.examinesAgain_eq]
    show Host.Outcome.next _ = _
    rw [receiving, ← List.drop_one]
    rfl
  case fails =>
    have refused : ¬ candidatePasses l bs = true := fun passes => fails ((candidatePasses_iff l bs).1 passes)
    rw [s.examinesAgain_eq, exec_frameCommand bs open_, State.candidate, if_neg refused, ← List.drop_one]
    rfl
  case loading => exact congrArg Host.Outcome.next (if_pos (decide_eq_true loading))
end

