-- ==== Sys2Proof/Proofs/InletFrames.lean ====
section
/-! The Inlet Port: frames by their raw gap, the faults of a frame, tags and the silence timer (R2 to R7). -/

namespace Sys2Proof.Machine

section
variable (i : Inlet) (f : SampleFrame)

/-- The raw gap of a frame (R3). -/
def Inlet.rawGap : Nat := (f.seq.toNat + 65536 - (i.lastSeq.getD 0).toNat) % 65536

/-- The frame has nothing before it that it could follow (R3). -/
def Inlet.First : Prop := i.rebase = true ∨ i.lastSeq = none

theorem Inlet.judge_first (first : i.First) : i.judge f = some (1, 1, false) := by
  unfold Inlet.judge
  obtain mark | fresh := first
  · rw [mark]
  · rw [fresh]
    cases i.rebase <;> rfl

theorem Inlet.judge_follows (follows : ¬ i.First) :
    i.judge f =
      if i.rawGap f = 0 then none
      else if i.rawGap f ≤ 8 then some (i.rawGap f, i.rawGap f, false)
      else if i.tag.state.active then some (8, i.rawGap f, true)
      else some (1, 1, false) := by
  obtain ⟨mark, known⟩ := not_or.1 follows
  obtain ⟨last, known⟩ := Option.ne_none_iff_exists'.1 known
  have raw : (f.seq - last).toNat = i.rawGap f := by
    rw [Inlet.rawGap, known, BitVec.toNat_sub, Option.getD_some]
    have := last.isLt
    congr 1
    omega
  unfold Inlet.judge
  rw [Bool.eq_false_iff.2 mark, known]
  simp only [raw]
  rfl

theorem Inlet.judge_duplicate (follows : ¬ i.First) (same : i.rawGap f = 0) : i.judge f = none := by
  rw [i.judge_follows f follows, if_pos same]

theorem Inlet.judge_taken (taken : i.First ∨ i.rawGap f ≠ 0) :
    i.judge f = some
      (if i.rebase = true ∨ i.lastSeq = none then 1 else if i.rawGap f ≤ 8 then i.rawGap f
        else if i.tag.state ≠ .idle ∧ i.tag.state ≠ .faulted then 8 else 1,
       if i.rebase = true ∨ i.lastSeq = none then 1
        else if i.rawGap f ≤ 8 ∨ (i.tag.state ≠ .idle ∧ i.tag.state ≠ .faulted) then i.rawGap f else 1,
       decide (¬ (i.rebase = true ∨ i.lastSeq = none) ∧ 9 ≤ i.rawGap f ∧ i.tag.state ≠ .idle ∧ i.tag.state ≠ .faulted)) := by
  by_cases first : i.rebase = true ∨ i.lastSeq = none
  · rw [i.judge_first f first]
    simp [first]
  · rw [i.judge_follows f first, if_neg (taken.resolve_left first)]
    simp only [MotionState.active_iff]
    by_cases near : i.rawGap f ≤ 8
    · have : ¬ 9 ≤ i.rawGap f := by omega
      simp [first, near, this]
    · have : 9 ≤ i.rawGap f := by omega
      by_cases active : i.tag.state ≠ .idle ∧ i.tag.state ≠ .faulted
      · simp [first, near, this, active]
      · simp [first, near, active]

end

/-- A frame of another wire sequence is no duplicate. -/
theorem Inlet.rawGap_ne_zero {i : Inlet} {f : SampleFrame} (other : i.rebase = true ∨ i.lastSeq ≠ some f.seq) :
    i.First ∨ i.rawGap f ≠ 0 := by
  obtain mark | other := other
  · exact .inl (.inl mark)
  · cases known : i.lastSeq with
    | none => exact .inl (.inr known)
    | some last =>
      refine .inr fun same => other (known.trans (congrArg some (BitVec.eq_of_toNat_eq ?_)))
      rw [Inlet.rawGap, known, Option.getD_some] at same
      have := last.isLt
      have := f.seq.isLt
      omega

/-! ## The faults of a frame (R4, R5) -/

/-- Fault events of the Inlet Port on the paths to MS, CP and CR. -/
def Paths.withInletFaults (p : Paths) (l : List (FaultKind × Event)) : Paths :=
  { p with
    inletFaults := p.inletFaults ++ l.map (·.1)
    events := { p.events with inlet := p.events.inlet ++ l.map (·.2) }
    triggers := { p.triggers with inlet := p.triggers.inlet ++ l.map fun e => Trigger.fault e.1 } }

theorem Paths.withInletFaults_nil (p : Paths) : p.withInletFaults [] = p := by simp [Paths.withInletFaults]

theorem Paths.raiseFault_inlet (p : Paths) (k : FaultKind) (e : Event) : p.raiseFault .inlet k e = p.withInletFaults [(k, e)] := rfl

theorem Paths.withInletFaults_append (p : Paths) (l l' : List (FaultKind × Event)) :
    (p.withInletFaults l).withInletFaults l' = p.withInletFaults (l ++ l') := by
  simp only [Paths.withInletFaults, List.map_append, List.append_assoc]

/-- What a frame raises, INLET_GAP first. -/
def Inlet.raised (i : Inlet) (f : SampleFrame) (far : Bool) (advance : Nat) : List (FaultKind × Event) :=
  (if far then [(.inletGap, .inletGap f.seq advance)] else []) ++
    ((i.periodEvent f).map fun was => (FaultKind.periodChanged, Event.periodChanged was f.period)).toList

theorem InletDesk.takeFrame_eq (d : InletDesk) (f : SampleFrame) {gap advance : Nat} {far : Bool}
    (judged : d.inlet.judge f = some (gap, advance, far)) :
    d.takeFrame f =
      { inlet := { d.inlet with
          lastSeq := some f.seq, period := some f.period, rebase := false, silence := d.inlet.silenceAfterFrame f.period }
        paths := { d.paths.withInletFaults (d.inlet.raised f far advance) with
          inletToMc := d.paths.inletToMc ++ [{ frame := f, gap := gap, advance := advance }] } } := by
  have gapRaised : (if far then d.paths.raiseFault .inlet .inletGap (.inletGap f.seq advance) else d.paths) =
      d.paths.withInletFaults (if far then [(.inletGap, .inletGap f.seq advance)] else []) := by
    cases far
    · exact (Paths.withInletFaults_nil _).symm
    · exact Paths.raiseFault_inlet _ _ _
  unfold InletDesk.takeFrame Inlet.raised
  simp only [judged, gapRaised]
  cases d.inlet.periodEvent f with
  | none =>
    simp only [Option.map_none, Option.toList_none, List.append_nil]
    rfl
  | some was =>
    simp only [Option.map_some, Option.toList_some, Paths.raiseFault_inlet, Paths.withInletFaults_append]
    rfl

theorem Inlet.periodEvent_eq_some (i : Inlet) (f : SampleFrame) (was : Period) :
    i.periodEvent f = some was ↔
      (i.tag.state ≠ .idle ∧ i.tag.state ≠ .faulted) ∧ i.period = some was ∧ was ≠ f.period := by
  unfold Inlet.periodEvent
  cases period : i.period with
  | none => simp
  | some p =>
    simp only
    by_cases changed : p ≠ f.period ∧ i.tag.state.active
    · rw [if_pos changed]
      rw [MotionState.active_iff] at changed
      constructor
      · rintro ⟨⟩
        exact ⟨changed.2, rfl, changed.1⟩
      · rintro ⟨_, same, _⟩
        exact same
    · rw [if_neg changed]
      rw [MotionState.active_iff] at changed
      refine iff_of_false nofun ?_
      rintro ⟨active, ⟨⟩, differs⟩
      exact changed ⟨differs, active⟩

theorem Inlet.mem_raised (i : Inlet) (f : SampleFrame) (far : Bool) (advance : Nat) (e : FaultKind × Event) :
    e ∈ i.raised f far advance ↔
      (far = true ∧ e = (.inletGap, .inletGap f.seq advance)) ∨
        ∃ was, i.periodEvent f = some was ∧ e = (.periodChanged, .periodChanged was f.period) := by
  unfold Inlet.raised
  rw [List.mem_append, List.mem_ite_nil_right, List.mem_singleton, Option.mem_toList,
    Option.map_eq_some_iff]
  exact or_congr_right (exists_congr fun was => and_congr_right fun _ => eq_comm)

theorem Inlet.raised_nodup (i : Inlet) (f : SampleFrame) (far : Bool) (advance : Nat) : (i.raised f far advance).Nodup := by
  unfold Inlet.raised
  cases far
  · cases i.periodEvent f <;> simp
  · cases i.periodEvent f <;> simp

/-! ## The steps -/

/-- A Sample Frame that passes, outside LOADING. -/
theorem exec_sampleFrame_of_passes (s : State) {bs : List Byte} {f : SampleFrame} (ready : s.sp.state ≠ .loading)
    (reads : readSampleFrame bs = some f) :
    exec (.sampleFrame bs) s = .next (State.onInlet { s with rx := { s.rx with front := .hunt } } fun d => d.takeFrame f) := by
  have passes : candidatePasses .front bs = true := by
    unfold candidatePasses
    rw [reads]
    rfl
  rw [show Instr.sampleFrame bs = frameCommand .front bs from rfl, exec_frameCommand bs (.inr ready), State.candidate,
    if_pos passes, State.handOn]
  simp only [reads]
  rfl

theorem exec_inletStateTag_of_waiting (s : State) {m : MotionTag} {rest : List MotionTag} (waiting : s.paths.msToInlet = m :: rest) :
    exec .inletStateTag s = .next { s with inlet := s.inlet.takeTag m, paths := { s.paths with msToInlet := rest } } := by
  show Host.Outcome.next (s.onInlet _) = _
  simp only [State.onInlet, waiting]

theorem Inlet.rebasesOn_iff (i : Inlet) (m : MotionTag) :
    i.rebasesOn m = true ↔ m = .idle true ∨ (m.state = .idle ∧ i.tag.state ≠ .idle) := by
  unfold Inlet.rebasesOn
  cases m with
  | idle byResetTest =>
    cases byResetTest
    · refine Iff.trans (decide_eq_true_iff (p := i.tag.state ≠ .idle)) ?_
      exact ⟨fun moves => .inr ⟨rfl, moves⟩, fun h => (h.resolve_left nofun).2⟩
    · exact iff_of_true rfl (.inl rfl)
  | _ => exact iff_of_false nofun fun h => h.elim nofun fun h => nomatch h.1

theorem Inlet.silenceAfterFrame_eq (i : Inlet) (p : Period) :
    i.silenceAfterFrame p = if i.tag.state = .idle ∨ i.tag.state = .faulted then i.silence else some (16 * p.us) := by
  unfold Inlet.silenceAfterFrame
  simp only [MotionState.active_iff, ← not_or, ite_not]
  rfl

theorem Inlet.silenceAfterTag_eq (i : Inlet) (m : MotionTag) :
    i.silenceAfterTag m =
      if m.state = .idle ∨ m.state = .faulted then none
      else if i.silence.isSome then i.silence
      else some (match i.period with | some p => 16 * p.us | none => 32000) := by
  unfold Inlet.silenceAfterTag
  by_cases active : m.state.active = true
  · have running : ¬ (m.state = .idle ∨ m.state = .faulted) := by
      rw [not_or]
      exact (MotionState.active_iff _).1 active
    rw [if_pos active, if_neg running]
    cases i.silence with
    | none => cases i.period <;> rfl
    | some d => rfl
  · have idle : m.state = .idle ∨ m.state = .faulted := by
      rw [MotionState.active_iff] at active
      tauto
    rw [if_neg active, if_pos idle]

/-- Without a delimiter nothing is found on FRONT. -/
theorem scan_quiet {bs : List Byte} (quiet : ∀ b ∈ bs, b ≠ 165) (loading : Bool) : scan .front loading 0 bs = ([], []) := by
  induction bs with
  | nil => rfl
  | cons b rest ih =>
    rw [scan_other (quiet b List.mem_cons_self), ih fun c h => quiet c (List.mem_cons_of_mem _ h)]
    rfl

end Sys2Proof.Machine

open Sys2Proof Sys2Proof.Machine

/-- Settles O22: a frame by the judgement of its raw gap (`Inlet.judge_taken`), with what it raises (`Inlet.mem_raised`). -/
theorem inletTakesFramesTagsAndSilence : Obligations.InletTakesFramesTagsAndSilence := by
  refine ⟨⟨fun s bs f ready reads => ?frame, fun s m rest waiting => ?mark, rfl⟩,
    ⟨fun s bs f ready reads taken => ?timer, fun s m rest waiting => ?tag, fun s n running => ?expires, fun s stopped => ?stopped⟩,
    fun s bs loading => ?loading, fun s bs ready fails quiet => ?fails⟩
  case frame =>
    refine ⟨_, exec_sampleFrame_of_passes s ready reads, fun duplicate => ?_, fun taken => ?_⟩
    · have judged := s.inlet.judge_duplicate f duplicate.1 duplicate.2
      simp only [State.onInlet, InletDesk.takeFrame, judged]
    · have made := InletDesk.takeFrame_eq ⟨s.inlet, s.paths⟩ f (s.inlet.judge_taken f taken)
      simp only [State.onInlet, made]
      refine ⟨rfl, s.inlet.raised f _ _, fun e => ?_, s.inlet.raised_nodup f _ _, rfl, rfl, rfl⟩
      rw [Inlet.mem_raised, decide_eq_true_iff]
      refine or_congr (and_congr_right fun far => ?_) ?_
      · rw [if_neg far.1, if_pos (.inr far.2.2)]
        rfl
      · simp only [Inlet.periodEvent_eq_some]
        constructor
        · rintro ⟨was, ⟨active, period, differs⟩, rfl⟩
          exact ⟨⟨active, was, period, differs⟩, was, period, rfl⟩
        · rintro ⟨⟨active, old, known, differs⟩, was, period, rfl⟩
          exact ⟨was, ⟨active, period, Option.some.inj (known.symm.trans period) ▸ differs⟩, rfl⟩
  case mark =>
    refine ⟨_, exec_inletStateTag_of_waiting s waiting, ?_⟩
    show (s.inlet.rebase || s.inlet.rebasesOn m) = true ↔ _
    rw [Bool.or_eq_true, Inlet.rebasesOn_iff]
  case timer =>
    have made := InletDesk.takeFrame_eq ⟨s.inlet, s.paths⟩ f (s.inlet.judge_taken f (Inlet.rawGap_ne_zero taken))
    refine ⟨_, exec_sampleFrame_of_passes s ready reads, ?_⟩
    simp only [State.onInlet, made]
    rw [Inlet.silenceAfterFrame_eq]
  case tag => exact ⟨_, exec_inletStateTag_of_waiting s waiting, rfl, s.inlet.silenceAfterTag_eq m⟩
  case expires =>
    show Host.Outcome.next (s.onInlet _) = _
    simp only [State.onInlet, InletDesk.takeSilence, running]
    rfl
  case stopped =>
    show Host.Outcome.next (s.onInlet _) = _
    simp only [State.onInlet, InletDesk.takeSilence, stopped]
  case loading => exact congrArg Host.Outcome.next (if_pos (decide_eq_true loading))
  case fails =>
    have refused : ¬ candidatePasses .front bs = true := by
      unfold candidatePasses
      rw [fails]
      exact Bool.false_ne_true
    rw [show Instr.sampleFrame bs = frameCommand .front bs from rfl, exec_frameCommand bs (.inr ready), State.candidate,
      if_neg refused, State.candidateFails, scan_quiet quiet, State.receive_eq, State.lose_eq]
    simp only [if_neg ready]
    rfl
end

