-- ==== Sys2Proof/Proofs/FrameFields.lean ====
section
/-! Fields read back as they were written (section 11.1), and the envelope (section 11.2). -/

namespace Sys2Proof.Machine

/-! ## Integers in bytes -/

theorem toNat_ofInt_byte (v : Int) : ((BitVec.ofInt 8 v).toNat : Int) = v % 256 := by
  rw [BitVec.toNat_ofInt]
  exact Int.toNat_of_nonneg (Int.emod_nonneg v (by decide))

theorem readNat_writeInt (n : Nat) (v : Int) : (readNat (writeInt n v) : Int) = v % 256 ^ n := by
  induction n generalizing v with
  | zero => exact (Int.emod_one v).symm
  | succ n ih =>
    have low := Int.emod_add_mul_ediv v 256
    have high := Int.emod_add_mul_ediv (v / 256) (256 ^ n)
    have whole := Int.emod_add_mul_ediv v (256 ^ (n + 1))
    have split : v / 256 ^ (n + 1) = v / 256 / 256 ^ n := by
      rw [Int.pow_succ', Int.ediv_ediv_of_nonneg (by decide)]
    rw [writeInt, readNat, Nat.cast_add, Nat.cast_mul, ih, toNat_ofInt_byte]
    rw [split, Int.pow_succ'] at whole
    rw [Int.pow_succ']
    push_cast
    linarith

/-- An unsigned field that holds its value. -/
theorem readNat_writeInt_of_lt {n : Nat} {v : Nat} (fits : v < 256 ^ n) : readNat (writeInt n v) = v := by
  have read := readNat_writeInt n v
  rw [Int.emod_eq_of_lt (Int.natCast_nonneg v) (by exact_mod_cast fits)] at read
  exact_mod_cast read

/-- A signed field that holds its value. -/
theorem readInt_writeInt {n : Nat} {v : Int} (low : -256 ^ n ≤ 2 * v) (high : 2 * v < 256 ^ n) : readInt (writeInt n v) = v := by
  have read := readNat_writeInt n v
  have positive : (0 : Int) < 256 ^ n := by positivity
  unfold readInt
  simp only [writeInt_length]
  by_cases sign : 0 ≤ v
  · rw [Int.emod_eq_of_lt sign (by omega)] at read
    rw [if_pos (by zify; rw [read]; exact high), read]
  · have wraps : v % 256 ^ n = v + 256 ^ n := by
      rw [← Int.add_emod_right, Int.emod_eq_of_lt (by omega) (by omega)]
    rw [wraps] at read
    rw [if_neg (by zify; rw [read]; omega), read]
    omega

/-! ## The envelope -/

theorem field_append_left {a b : List Byte} {start n : Nat} (inside : start + n ≤ a.length) : field (a ++ b) start n = field a start n := by
  unfold field
  rw [List.drop_append_of_le_length (by omega), List.take_append_of_le_length (by rw [List.length_drop]; omega)]

theorem field_append_right (a b : List Byte) (start n : Nat) : field (a ++ b) (a.length + start) n = field b start n := by
  unfold field
  rw [← List.drop_drop, List.drop_left]

theorem field_whole (a : List Byte) : field a 0 a.length = a := by
  unfold field
  rw [List.drop_zero, List.take_length]

section
variable (kind : Nat) (tag : Tag) (p : List Byte)

/-- What the CRC of a frame is formed over. -/
def frameBody : List Byte := writeInt 2 p.length ++ writeInt 1 kind ++ writeInt 2 tag.toNat ++ p

theorem envelope_eq : envelope kind tag p = [165] ++ (frameBody kind tag p ++ writeInt 2 (crc16 (frameBody kind tag p)).toNat) := rfl

theorem frameBody_length : (frameBody kind tag p).length = 5 + p.length := by
  unfold frameBody
  simp only [List.length_append, writeInt_length]

theorem envelope_length : (envelope kind tag p).length = 8 + p.length := by
  rw [envelope_eq]
  simp only [List.length_append, frameBody_length, writeInt_length, List.length_cons, List.length_nil]
  omega

theorem frameLength_envelope (short : p.length < 65536) : frameLength (envelope kind tag p) = p.length := by
  show readNat (writeInt 2 p.length) = p.length
  exact readNat_writeInt_of_lt short

theorem frameKind_envelope (byte : kind < 256) : frameKind (envelope kind tag p) = kind := by
  show readNat (writeInt 1 kind) = kind
  exact readNat_writeInt_of_lt byte

theorem frameTag_envelope : frameTag (envelope kind tag p) = tag := by
  show BitVec.ofNat 16 (readNat (writeInt 2 tag.toNat)) = tag
  rw [readNat_writeInt_of_lt tag.isLt, BitVec.ofNat_toNat, BitVec.setWidth_eq]

theorem framePayload_envelope (short : p.length < 65536) : framePayload (envelope kind tag p) = p := by
  unfold framePayload
  rw [frameLength_envelope kind tag p short]
  show field (p ++ writeInt 2 _) 0 p.length = p
  rw [field_append_left (by omega), field_whole]

theorem crcPasses_envelope (short : p.length < 65536) : crcPasses (envelope kind tag p) = true := by
  have body : field (envelope kind tag p) 1 (5 + p.length) = frameBody kind tag p := by
    rw [envelope_eq, ← frameBody_length kind tag p]
    refine (field_append_right [165] _ 0 _).trans ?_
    rw [field_append_left (by omega), field_whole]
  have crc : u16 (envelope kind tag p) (6 + p.length) = (crc16 (frameBody kind tag p)).toNat := by
    have last := field_append_right ([165] ++ frameBody kind tag p) (writeInt 2 (crc16 (frameBody kind tag p)).toNat) 0 2
    rw [List.length_append, frameBody_length, List.append_assoc, ← envelope_eq] at last
    have start : [(165 : Byte)].length + (5 + p.length) + 0 = 6 + p.length := by
      rw [List.length_singleton]
      omega
    rw [start] at last
    unfold u16
    rw [last]
    exact readNat_writeInt_of_lt (n := 2) (crc16 (frameBody kind tag p)).isLt
  unfold crcPasses
  rw [frameLength_envelope kind tag p short, body, crc, envelope_length]
  simp only [decide_true, Bool.and_true, decide_eq_true_eq]
  rfl

/-- A frame built in the envelope (sections 11.1 and 11.2). -/
theorem isFrame_envelope (byte : kind < 256) (short : p.length < 65536) : isFrame (envelope kind tag p) kind tag p :=
  ⟨envelope_length kind tag p, rfl, frameLength_envelope kind tag p short, frameKind_envelope kind tag p byte,
    frameTag_envelope kind tag p, framePayload_envelope kind tag p short, crcPasses_envelope kind tag p short⟩

end

end Sys2Proof.Machine
end

