-- ==== Sys2Proof/Proofs/FramesReadBack.lean ====
section
/-! Sample Frames and Drive Status Frames read back, and the bytes of the frames that the part sends (sections 11.4, 11.5). -/

namespace Sys2Proof.Machine

/-! ## Flags in a byte -/

theorem packBits_lt (l : List Bool) : packBits l < 2 ^ l.length := by
  induction l with
  | nil => decide
  | cons b rest ih =>
    rw [packBits, List.length_cons, pow_succ]
    split <;> omega

theorem packBits_testBit (l : List Bool) (i : Nat) : (packBits l).testBit i = l.getD i false := by
  induction l generalizing i with
  | nil => simp [packBits]
  | cons b rest ih =>
    cases i with
    | zero =>
      rw [packBits, Nat.testBit_zero]
      cases b <;> simp <;> omega
    | succ i =>
      have half : ((if b then 1 else 0) + 2 * packBits rest) / 2 = packBits rest := by
        split <;> omega
      rw [packBits, Nat.testBit_succ, half, ih]
      rfl

theorem bitAt_of_packed {p : List Byte} {at_ : Nat} {l : List Bool} (packed : u8 p at_ = packBits l) (i : Nat) :
    bitAt p at_ i = l.getD i false := by
  rw [bitAt, packed, packBits_testBit]

theorem Period.ofCode_code (p : Period) : Period.ofCode p.code = some p := by cases p <;> rfl

theorem Period.code_lt (p : Period) : p.code < 256 := by cases p <;> decide

/-! ## Frames of FRONT and DRIVE (section 11.4) -/

/-- The payload of a Sample Frame. -/
def SampleFrame.payload (f : SampleFrame) : List Byte :=
  writeInt 1 f.period.code ++ writeInt 1 f.range.val ++
    writeInt 1 (packBits [f.overrange, f.overA, f.overB, f.contactA, f.contactB]) ++
    writeInt 3 f.load ++ writeInt 3 f.countA ++ writeInt 3 f.countB ++ writeInt 4 f.crosshead

theorem readSampleFrame_writeSampleFrame (f : SampleFrame) (load : -8388608 ≤ f.load ∧ f.load ≤ 8388607)
    (countA : -8388608 ≤ f.countA ∧ f.countA ≤ 8388607) (countB : -8388608 ≤ f.countB ∧ f.countB ≤ 8388607)
    (crosshead : -2147483648 ≤ f.crosshead ∧ f.crosshead ≤ 2147483647) :
    (writeSampleFrame f).length = 24 ∧ readSampleFrame (writeSampleFrame f) = some f := by
  have length : (SampleFrame.payload f).length = 16 := by
    unfold SampleFrame.payload
    simp only [List.length_append, writeInt_length]
  have short : (SampleFrame.payload f).length < 65536 := by omega
  have frame : writeSampleFrame f = envelope 1 f.seq (SampleFrame.payload f) := rfl
  have period : u8 (SampleFrame.payload f) 0 = f.period.code := readNat_writeInt_of_lt (n := 1) f.period.code_lt
  have range : u8 (SampleFrame.payload f) 1 = f.range.val := readNat_writeInt_of_lt (n := 1) (by omega)
  have flags : u8 (SampleFrame.payload f) 2 = packBits [f.overrange, f.overA, f.overB, f.contactA, f.contactB] :=
    readNat_writeInt_of_lt (n := 1) ((packBits_lt _).trans (show 2 ^ 5 < 256 ^ 1 by decide))
  have loadRead : i24 (SampleFrame.payload f) 3 = f.load := readInt_writeInt (n := 3) (by omega) (by omega)
  have countARead : i24 (SampleFrame.payload f) 6 = f.countA := readInt_writeInt (n := 3) (by omega) (by omega)
  have countBRead : i24 (SampleFrame.payload f) 9 = f.countB := readInt_writeInt (n := 3) (by omega) (by omega)
  have crossheadRead : i32 (SampleFrame.payload f) 12 = f.crosshead := readInt_writeInt (n := 4) (by omega) (by omega)
  refine ⟨by rw [frame, envelope_length, length], ?_⟩
  unfold readSampleFrame
  rw [frame, crcPasses_envelope _ _ _ short, frameKind_envelope _ _ _ (by decide), frameLength_envelope _ _ _ short, length,
    if_pos ⟨rfl, rfl, rfl⟩, frameTag_envelope, framePayload_envelope _ _ _ short]
  unfold readSamplePayload
  simp only [bitAt_of_packed flags, period, range, loadRead, countARead, countBRead, crossheadRead, Period.ofCode_code, f.range.isLt,
    dite_true]
  rfl

theorem readDriveStatus_writeDriveStatus (d : DriveStatus) (code : d.code < 256) :
    (writeDriveStatus d).length = 10 ∧ readDriveStatus (writeDriveStatus d) = some d := by
  set p := writeInt 1 (packBits [d.ready, d.fault, d.endSwitch]) ++ writeInt 1 d.code with payload
  have length : p.length = 2 := rfl
  have short : p.length < 65536 := by omega
  have frame : writeDriveStatus d = envelope 3 d.echo p := rfl
  have flags : u8 p 0 = packBits [d.ready, d.fault, d.endSwitch] :=
    readNat_writeInt_of_lt (n := 1) ((packBits_lt _).trans (show 2 ^ 3 < 256 ^ 1 by decide))
  have codeRead : u8 p 1 = d.code := readNat_writeInt_of_lt (n := 1) code
  refine ⟨by rw [frame, envelope_length, length], ?_⟩
  unfold readDriveStatus
  rw [frame, crcPasses_envelope _ _ _ short, frameKind_envelope _ _ _ (by decide), frameLength_envelope _ _ _ short, length,
    if_pos ⟨rfl, rfl, rfl⟩, frameTag_envelope]
  simp only [framePayload_envelope _ _ _ short, bitAt_of_packed flags, codeRead]
  rfl

/-! ## The bytes of reports (section 11.5) -/

theorem Reason.bytes_length_le (r : Reason) : r.bytes.length ≤ 31 := by cases r <;> decide +kernel

theorem Conditioned.bytes_length (c : Conditioned) : (Conditioned.bytes c).length = 39 := by
  unfold Conditioned.bytes flagByte quantity c1 c2
  simp only [List.length_append, writeInt_length]

theorem c1_toNat (b : Byte) : c1 b.toNat = [b] := by
  show [BitVec.ofInt 8 (b.toNat : Int)] = [b]
  rw [BitVec.ofInt_natCast, BitVec.ofNat_toNat, BitVec.setWidth_eq]

theorem optCount_eq (n : Option Nat) : optCount n = present 4 (n.map Int.ofNat) := by
  unfold present
  rw [littleEndian_eq_writeInt]
  cases n <;> rfl

/-- The payload of an Event Report. -/
def Event.reportBytes (e : Event) (n : Option Nat) (loss : Bool) : List Byte :=
  littleEndian 1 e.code ++ [packed [loss, n.isSome]] ++ littleEndian 4 (n.getD 0) ++
    littleEndian 1 (listedFields e).length ++ listedFields e

theorem Event.reportBytes_isFrame (e : Event) (n : Option Nat) (loss : Bool) :
    isFrame (Report.frame (.event e n loss)) 65 0 (e.reportBytes n loss) := by
  have short : (e.reportBytes n loss).length < 65536 := by
    have := listedFields_length_le e
    unfold Event.reportBytes
    simp only [List.length_append, littleEndian_eq_writeInt, writeInt_length, List.length_singleton]
    omega
  have frame : Report.frame (.event e n loss) = envelope 65 0 (e.reportBytes n loss) := by
    unfold Report.frame Event.reportBytes
    simp only [littleEndian_eq_writeInt, ← flagByte_eq_packed, Event.fields_eq_listedFields]
    rfl
  rw [frame]
  exact isFrame_envelope 65 0 _ (by decide) short

/-- The payload of a Reply Report. -/
def Reply.reportBytes (r : Reply) : List Byte :=
  [r.kind] ++ littleEndian 1 r.status.code ++ littleEndian 1 ((r.reason.map Reason.bytes).getD []).length ++
    (r.reason.map Reason.bytes).getD [] ++ littleEndian 2 r.payload.bytes.length ++ r.payload.bytes

theorem Reply.reason_length_le (r : Reply) : ((r.reason.map Reason.bytes).getD []).length ≤ 31 := by
  cases r.reason with
  | none => exact Nat.zero_le _
  | some x => exact x.bytes_length_le

theorem Reply.reportBytes_isFrame (r : Reply) (payload : r.payload.bytes.length ≤ 1024) :
    isFrame (Report.frame (.reply r)) 66 r.tag r.reportBytes := by
  have short : r.reportBytes.length < 65536 := by
    have := r.reason_length_le
    unfold Reply.reportBytes
    simp only [List.length_append, littleEndian_eq_writeInt, writeInt_length, List.length_singleton]
    omega
  have frame : Report.frame (.reply r) = envelope 66 r.tag r.reportBytes := by
    unfold Report.frame Reply.reportBytes
    simp only [littleEndian_eq_writeInt, c1_toNat]
    rfl
  rw [frame]
  exact isFrame_envelope 66 r.tag _ (by decide) short

end Sys2Proof.Machine

open Sys2Proof Sys2Proof.Machine

/-- Settles O58: the envelope gives back its parts (`isFrame_envelope`), its fields read as written, and each layout is the one
that its section lists. -/
theorem framesReadBackAsBuilt : Obligations.FramesReadBackAsBuilt := by
  refine ⟨by decide +kernel, fun kind tag p byte short bs made => ?envelope, fun f load load' a a' b b' x x' => ?sampleFrame,
    fun d code => ?driveStatus, fun seq demand enable => ?driveFrame, fun x => ?sample, fun e n loss => ?event,
    fun r reason payload payloadIs short reasonIs => ?reply, fun c => ?record, fun c => ?capture⟩
  case envelope =>
    subst made
    exact ⟨envelope_length kind tag p, rfl, crcPasses_envelope kind tag p short, frameLength_envelope kind tag p short,
      frameKind_envelope kind tag p byte, frameTag_envelope kind tag p, framePayload_envelope kind tag p short⟩
  case sampleFrame => exact readSampleFrame_writeSampleFrame f ⟨load, load'⟩ ⟨a, a'⟩ ⟨b, b'⟩ ⟨x, x'⟩
  case driveStatus => exact readDriveStatus_writeDriveStatus d code
  case driveFrame =>
    have payload : littleEndian 4 demand ++ [if enable then 1 else 0] = writeInt 4 demand ++ writeInt 1 (packBits [enable]) := by
      rw [littleEndian_eq_writeInt]
      cases enable <;> rfl
    rw [payload]
    exact isFrame_envelope 2 seq _ (by decide) (by simp only [List.length_append, writeInt_length]; decide)
  case sample =>
    have frame := isFrame_envelope 64 0 x.toConditioned.bytes (by decide) (by rw [Conditioned.bytes_length]; decide)
    refine Eq.subst (motive := fun p => isFrame (Report.frame (.sample x.toConditioned)) 64 0 p) ?_ frame
    unfold Conditioned.bytes
    simp only [littleEndian_eq_writeInt, ← flagByte_eq_packed]
    cases x.period
    all_goals cases x.source <;> rfl
  case event => exact ⟨listedFields_length_le e, e.reportBytes_isFrame n loss⟩
  case reply =>
    have name : reason = (r.reason.map Reason.bytes).getD [] := by
      rw [reasonIs]
      cases r.reason <;> rfl
    rw [name]
    refine ⟨r.reason_length_le, ?_⟩
    subst payloadIs
    have frame := r.reportBytes_isFrame short
    unfold Reply.reportBytes at frame
    cases status : r.status
    all_goals rw [status] at frame; exact frame
  case record =>
    unfold CaptureRecord.bytes
    simp only [littleEndian_eq_writeInt, ← flagByte_eq_packed]
    cases c.source <;> rfl
  case capture =>
    unfold CapturePrefix.bytes
    rw [optCount_eq, littleEndian_eq_writeInt, littleEndian_eq_writeInt]
    cases c.state
    all_goals
      cases cause : c.cause with
      | none => rfl
      | some t => cases t <;> rfl
end

