-- ==== Sys2Proof/Proofs/TableBodies.lean ====
section
/-! The bodies of a LOAD and of a table record read back as they were written (sections 11.5 and 11.6). -/

namespace Sys2Proof.Machine

theorem fits32_iff (v : Int) : fits32 v = true ↔ -2147483648 ≤ v ∧ v ≤ 2147483647 := by
  simp [fits32]

theorem fits16_iff (v : Int) : fits16 v = true ↔ -32768 ≤ v ∧ v ≤ 32767 := by
  simp [fits16]

theorem fitsByte_iff (v : Int) : fitsByte v = true ↔ 0 ≤ v ∧ v ≤ 255 := by
  simp [fitsByte]

theorem fitsOpt_some {v : Int} (h : fitsOpt (some v) = true) : fits32 v = true := h

/-! ## Single fields -/

theorem readInt_quantity {v : Int} (fits : fits32 v = true) : readInt (quantity v) = v := by
  obtain ⟨low, high⟩ := (fits32_iff v).1 fits
  exact readInt_writeInt (n := 4) (by omega) (by omega)

theorem readInt_word {v : Int} (fits : fits16 v = true) : readInt (writeInt 2 v) = v := by
  obtain ⟨low, high⟩ := (fits16_iff v).1 fits
  exact readInt_writeInt (n := 2) (by omega) (by omega)

theorem readNat_c1 {n : Nat} (fits : n < 256) : readNat (c1 n) = n := readNat_writeInt_of_lt (n := 1) fits

theorem readNat_byte {v : Int} (fits : fitsByte v = true) : (readNat (writeInt 1 v) : Int) = v := by
  obtain ⟨low, high⟩ := (fitsByte_iff v).1 fits
  rw [readNat_writeInt, Int.emod_eq_of_lt low (by omega)]

theorem readNat_unsignedWord {v : Int} (low : 0 ≤ v) (high : v < 65536) : (readNat (writeInt 2 v) : Int) = v := by
  rw [readNat_writeInt, Int.emod_eq_of_lt low (by omega)]

theorem quantity_length (v : Int) : (quantity v).length = 4 := writeInt_length 4 v

theorem c1_length (n : Nat) : (c1 n).length = 1 := writeInt_length 1 n

/-! ## Calibration tables -/

theorem FrameTable.bytes_length (t : FrameTable) : (FrameTable.bytes t).length = 25 := by
  unfold FrameTable.bytes
  simp only [List.length_append, quantity_length, writeInt_length]

theorem readFrameTable_bytes {t : FrameTable} (wf : t.wf = true) : readFrameTable (FrameTable.bytes t) = t := by
  simp only [FrameTable.wf, Bool.and_eq_true] at wf
  obtain ⟨⟨⟨⟨⟨⟨fMax, vMax⟩, travelMin⟩, travelMax⟩, compliance⟩, ranges⟩, jog⟩ := wf
  have fMaxRead : i32 (FrameTable.bytes t) 0 = t.fMax := readInt_quantity fMax
  have vMaxRead : i32 (FrameTable.bytes t) 4 = t.vMax := readInt_quantity vMax
  have travelMinRead : i32 (FrameTable.bytes t) 8 = t.travelMin := readInt_quantity travelMin
  have travelMaxRead : i32 (FrameTable.bytes t) 12 = t.travelMax := readInt_quantity travelMax
  have complianceRead : i32 (FrameTable.bytes t) 16 = t.compliance := readInt_quantity compliance
  have rangesRead : (u8 (FrameTable.bytes t) 20 : Int) = t.rangesInUse := readNat_byte ranges
  have jogRead : i32 (FrameTable.bytes t) 21 = t.jogForceLimit := readInt_quantity jog
  unfold readFrameTable
  rw [fMaxRead, vMaxRead, travelMinRead, travelMaxRead, complianceRead, rangesRead, jogRead]

theorem pointsBytes_length (l : List (Int × Int)) : (pointsBytes l).length = 8 * l.length := by
  induction l with
  | nil => rfl
  | cons p rest ih =>
    rw [pointsBytes, List.flatMap_cons, List.length_append, ← pointsBytes, ih, List.length_append, quantity_length, quantity_length,
      List.length_cons]
    omega

theorem readPoints_pointsBytes {l : List (Int × Int)} (fits : ∀ p ∈ l, fits32 p.1 = true ∧ fits32 p.2 = true) :
    readPoints l.length (pointsBytes l) = l := by
  induction l with
  | nil => rfl
  | cons p rest ih =>
    obtain ⟨count, force⟩ := fits p List.mem_cons_self
    have countRead : i32 (pointsBytes (p :: rest)) 0 = p.1 := readInt_quantity count
    have forceRead : i32 (pointsBytes (p :: rest)) 4 = p.2 := readInt_quantity force
    have more : (pointsBytes (p :: rest)).drop 8 = pointsBytes rest := rfl
    rw [List.length_cons, readPoints, countRead, forceRead, more, ih fun q h => fits q (List.mem_cons_of_mem _ h)]

theorem RangeTable.bytes_length (t : RangeTable) : (RangeTable.bytes t).length = 5 + 8 * t.points.length := by
  unfold RangeTable.bytes
  simp only [List.length_append, quantity_length, c1_length, pointsBytes_length]

theorem RangeTable.bytes_count {t : RangeTable} (few : t.points.length < 256) : u8 (RangeTable.bytes t) 4 = t.points.length :=
  readNat_c1 few

theorem readRangeTable_bytes {t : RangeTable} (zero : fits32 t.zeroOffset = true) (few : t.points.length < 256)
    (fits : ∀ p ∈ t.points, fits32 p.1 = true ∧ fits32 p.2 = true) : readRangeTable (RangeTable.bytes t) = t := by
  have zeroRead : i32 (RangeTable.bytes t) 0 = t.zeroOffset := readInt_quantity zero
  have points : (RangeTable.bytes t).drop 5 = pointsBytes t.points := rfl
  unfold readRangeTable
  rw [zeroRead, RangeTable.bytes_count few, points, readPoints_pointsBytes fits]

theorem readGain {g : Int} (fits : fits32 g = true) : i32 (quantity g) 0 = g := readInt_quantity fits

/-! ## Test Programs -/

theorem optQuantity_read {v : Option Int} (fits : fitsOpt v = true) :
    (if readNat ((optQuantity v).take 1) = 0 then none else some (readInt ((optQuantity v).drop 1))) = v := by
  cases v with
  | none => rfl
  | some v => exact congrArg some (readInt_quantity (fitsOpt_some fits))

theorem RawSegment.bytes_length (g : RawSegment) : (RawSegment.bytes g).length = 22 := by
  unfold RawSegment.bytes
  simp only [List.length_append, quantity_length, c1_length, optQuantity_length]

theorem readSegment_bytes {g : RawSegment} (wf : g.wf = true) (more : List Byte) : readSegment (RawSegment.bytes g ++ more) = g := by
  simp only [RawSegment.wf, Bool.and_eq_true, decide_eq_true_eq] at wf
  obtain ⟨⟨⟨⟨⟨⟨⟨mode, endKind⟩, sense⟩, action⟩, rate⟩, endValue⟩, fallback⟩, gain⟩ := wf
  have modeRead : u8 (RawSegment.bytes g ++ more) 0 = g.mode := readNat_c1 mode
  have endKindRead : u8 (RawSegment.bytes g ++ more) 1 = g.endKind := readNat_c1 endKind
  have senseRead : u8 (RawSegment.bytes g ++ more) 2 = g.endSense := readNat_c1 sense
  have actionRead : u8 (RawSegment.bytes g ++ more) 3 = g.endAction := readNat_c1 action
  have rateRead : i32 (RawSegment.bytes g ++ more) 4 = g.rate := readInt_quantity rate
  have endValueRead : i32 (RawSegment.bytes g ++ more) 8 = g.endValue := readInt_quantity endValue
  have fallbackRead : optional32 (RawSegment.bytes g ++ more) 12 = g.fallback := by
    refine Eq.trans ?_ (optQuantity_read fallback)
    unfold RawSegment.bytes
    cases g.fallback <;> rfl
  have gainRead : optional32 (RawSegment.bytes g ++ more) 17 = g.gain := by
    refine Eq.trans ?_ (optQuantity_read gain)
    unfold RawSegment.bytes
    cases g.fallback
    all_goals cases g.gain <;> rfl
  unfold readSegment
  rw [modeRead, endKindRead, senseRead, actionRead, rateRead, endValueRead, fallbackRead, gainRead]

theorem segmentsBytes_length (l : List RawSegment) : (l.flatMap RawSegment.bytes).length = 22 * l.length := by
  induction l with
  | nil => rfl
  | cons g rest ih =>
    rw [List.flatMap_cons, List.length_append, RawSegment.bytes_length, ih, List.length_cons]
    omega

theorem readSegments_bytes {l : List RawSegment} (wf : ∀ g ∈ l, g.wf = true) :
    readSegments l.length (l.flatMap RawSegment.bytes) = l := by
  induction l with
  | nil => rfl
  | cons g rest ih =>
    rw [List.flatMap_cons, List.length_cons, readSegments, readSegment_bytes (wf g List.mem_cons_self),
      List.drop_left' (RawSegment.bytes_length g), ih fun q h => wf q (List.mem_cons_of_mem _ h)]

/-- The bytes of a program behind its label. -/
def bytesBehindLabel (p : RawProgram) : List Byte :=
  quantity p.l0 ++ (quantity p.lc ++ (quantity p.lp ++ (quantity p.s0 ++ (c1 p.fitted ++ (c1 p.autoTare ++ (c1 p.autoArm ++
    (c1 p.autoPosition ++ (quantity p.kStrain ++ (quantity p.kForce ++ (c1 p.criterion ++ (quantity p.removalStrain ++
    (writeInt 2 p.removalTimeout ++ (quantity p.slip ++ (c1 p.segments.length ++ p.segments.flatMap RawSegment.bytes))))))))))))))

theorem RawProgram.bytes_eq (p : RawProgram) : RawProgram.bytes p = (c1 p.labelLength ++ p.label) ++ bytesBehindLabel p := by
  unfold RawProgram.bytes bytesBehindLabel
  simp only [List.append_assoc]

section
variable {p : RawProgram} (label : p.label.length = 16)
include label

theorem RawProgram.bytes_length : (RawProgram.bytes p).length = 57 + 22 * p.segments.length := by
  unfold RawProgram.bytes
  simp only [List.length_append, quantity_length, c1_length, writeInt_length, segmentsBytes_length, label]

theorem RawProgram.field_behindLabel (start n : Nat) :
    field (RawProgram.bytes p) (17 + start) n = field (bytesBehindLabel p) start n := by
  have length : (c1 p.labelLength ++ p.label).length = 17 := by rw [List.length_append, c1_length, label]
  rw [RawProgram.bytes_eq, ← length]
  exact field_append_right _ _ _ _

theorem RawProgram.bytes_count (few : p.segments.length < 256) : u8 (RawProgram.bytes p) 56 = p.segments.length := by
  rw [u8, RawProgram.field_behindLabel label 39]
  exact readNat_c1 few

theorem RawProgram.bytes_segments : (RawProgram.bytes p).drop 57 = p.segments.flatMap RawSegment.bytes := by
  have length : (c1 p.labelLength ++ p.label).length = 17 := by rw [List.length_append, c1_length, label]
  rw [RawProgram.bytes_eq, show 57 = 17 + 40 from rfl, ← length, ← List.drop_drop, List.drop_left]
  rfl

end

theorem readProgram_bytes {p : RawProgram} (wf : p.wf = true) : readProgram (RawProgram.bytes p) = p := by
  simp only [RawProgram.wf, Bool.and_eq_true, decide_eq_true_eq, List.all_eq_true] at wf
  obtain ⟨⟨⟨⟨⟨⟨⟨⟨⟨⟨⟨⟨⟨⟨⟨⟨⟨⟨labelLength, label⟩, l0⟩, lc⟩, lp⟩, s0⟩, fitted⟩, autoTare⟩, autoArm⟩, autoPosition⟩, kStrain⟩,
    kForce⟩, criterion⟩, removalStrain⟩, timeoutLow⟩, timeoutHigh⟩, slip⟩, few⟩, segments⟩ := wf
  have behind := RawProgram.field_behindLabel label
  have labelLengthRead : u8 (RawProgram.bytes p) 0 = p.labelLength := by
    rw [RawProgram.bytes_eq]
    exact readNat_c1 labelLength
  have labelRead : field (RawProgram.bytes p) 1 16 = p.label := by
    rw [RawProgram.bytes_eq, ← label, List.append_assoc]
    refine (field_append_right (c1 p.labelLength) (p.label ++ bytesBehindLabel p) 0 _).trans ?_
    rw [field_append_left (by omega), field_whole]
  have l0Read : i32 (RawProgram.bytes p) 17 = p.l0 := (congrArg readInt (behind 0 4)).trans (readInt_quantity l0)
  have lcRead : i32 (RawProgram.bytes p) 21 = p.lc := (congrArg readInt (behind 4 4)).trans (readInt_quantity lc)
  have lpRead : i32 (RawProgram.bytes p) 25 = p.lp := (congrArg readInt (behind 8 4)).trans (readInt_quantity lp)
  have s0Read : i32 (RawProgram.bytes p) 29 = p.s0 := (congrArg readInt (behind 12 4)).trans (readInt_quantity s0)
  have fittedRead : u8 (RawProgram.bytes p) 33 = p.fitted := (congrArg readNat (behind 16 1)).trans (readNat_c1 fitted)
  have autoTareRead : u8 (RawProgram.bytes p) 34 = p.autoTare := (congrArg readNat (behind 17 1)).trans (readNat_c1 autoTare)
  have autoArmRead : u8 (RawProgram.bytes p) 35 = p.autoArm := (congrArg readNat (behind 18 1)).trans (readNat_c1 autoArm)
  have autoPositionRead : u8 (RawProgram.bytes p) 36 = p.autoPosition :=
    (congrArg readNat (behind 19 1)).trans (readNat_c1 autoPosition)
  have kStrainRead : i32 (RawProgram.bytes p) 37 = p.kStrain := (congrArg readInt (behind 20 4)).trans (readInt_quantity kStrain)
  have kForceRead : i32 (RawProgram.bytes p) 41 = p.kForce := (congrArg readInt (behind 24 4)).trans (readInt_quantity kForce)
  have criterionRead : u8 (RawProgram.bytes p) 45 = p.criterion := (congrArg readNat (behind 28 1)).trans (readNat_c1 criterion)
  have removalStrainRead : i32 (RawProgram.bytes p) 46 = p.removalStrain :=
    (congrArg readInt (behind 29 4)).trans (readInt_quantity removalStrain)
  have timeoutRead : (u16 (RawProgram.bytes p) 50 : Int) = p.removalTimeout :=
    (congrArg (fun f => (readNat f : Int)) (behind 33 2)).trans (readNat_unsignedWord timeoutLow timeoutHigh)
  have slipRead : i32 (RawProgram.bytes p) 52 = p.slip := (congrArg readInt (behind 35 4)).trans (readInt_quantity slip)
  unfold readProgram
  rw [labelLengthRead, labelRead, l0Read, lcRead, lpRead, s0Read, fittedRead, autoTareRead, autoArmRead, autoPositionRead,
    kStrainRead, kForceRead, criterionRead, removalStrainRead, timeoutRead, slipRead, RawProgram.bytes_count label (by omega),
    RawProgram.bytes_segments label, readSegments_bytes segments]

/-! ## Evaluation Parameters -/

theorem EvalParams.bytes_length (p : EvalParams) : (EvalParams.bytes p).length = 33 := by
  unfold EvalParams.bytes
  simp only [List.length_append, quantity_length, writeInt_length]

theorem readEvalParams_bytes {p : EvalParams} (wf : p.wf = true) : readEvalParams (EvalParams.bytes p) = p := by
  simp only [EvalParams.wf, Bool.and_eq_true] at wf
  obtain ⟨⟨⟨⟨⟨⟨⟨⟨⟨yieldDrop, yieldMinForce⟩, yieldWindowEnd⟩, transient⟩, fLo⟩, fHi⟩, offset⟩, breakDrop⟩, confirm⟩, breakMin⟩ := wf
  have yieldDropRead : i16 (EvalParams.bytes p) 0 = p.yieldDrop := readInt_word yieldDrop
  have yieldMinForceRead : i32 (EvalParams.bytes p) 2 = p.yieldMinForce := readInt_quantity yieldMinForce
  have yieldWindowEndRead : i32 (EvalParams.bytes p) 6 = p.yieldWindowEnd := readInt_quantity yieldWindowEnd
  have transientRead : i32 (EvalParams.bytes p) 10 = p.transient := readInt_quantity transient
  have fLoRead : i32 (EvalParams.bytes p) 14 = p.fLo := readInt_quantity fLo
  have fHiRead : i32 (EvalParams.bytes p) 18 = p.fHi := readInt_quantity fHi
  have offsetRead : i32 (EvalParams.bytes p) 22 = p.offsetStrain := readInt_quantity offset
  have breakDropRead : i16 (EvalParams.bytes p) 26 = p.breakDrop := readInt_word breakDrop
  have confirmRead : (u8 (EvalParams.bytes p) 28 : Int) = p.breakConfirm := readNat_byte confirm
  have breakMinRead : i32 (EvalParams.bytes p) 29 = p.breakMinForce := readInt_quantity breakMin
  unfold readEvalParams
  rw [yieldDropRead, yieldMinForceRead, yieldWindowEndRead, transientRead, fLoRead, fHiRead, offsetRead, breakDropRead, confirmRead,
    breakMinRead]

end Sys2Proof.Machine
end

