-- ==== Sys2Proof/Proofs/ManagementFrames.lean ====
section
/-! A Management Frame that passes the check acts as the command it carries (R156, R158, section 11.5). -/

namespace Sys2Proof.Machine

/-! ## Bytes -/

theorem u8_cons (b : Byte) (p : List Byte) : u8 (b :: p) 0 = b.toNat := by
  show b.toNat + 256 * 0 = b.toNat
  omega

theorem u8_cons_succ (b : Byte) (p : List Byte) (i : Nat) : u8 (b :: p) (i + 1) = u8 p i := rfl

theorem ofNat_toNat_byte (b : Byte) : BitVec.ofNat 8 b.toNat = b := by rw [BitVec.ofNat_toNat, BitVec.setWidth_eq]

theorem u16_c2 {n : Nat} (fits : n < 65536) : readNat (c2 n) = n := readNat_writeInt_of_lt (n := 2) fits

/-! ## A request on its frame -/

theorem RequestKind.ofCode_code (k : RequestKind) : RequestKind.ofCode k.code.toNat = some k := by cases k <;> rfl

/-- LOADING is answered by the kinds that R157 gates, whatever they carry. -/
theorem routeRequest_loading {s : State} (loading : s.cp.store = .loading) {k : RequestKind} (gated : RequestKind.gated (some k) = true)
    (tag : Tag) (p : List Byte) : routeRequest k tag p s = s.cpAnswer (notReady k.code tag) := by
  have answers (take : State → State) : s.request k tag take = s.cpAnswer (notReady k.code tag) :=
    State.request_loading s k tag take loading
  cases k
  case inquire => exact Bool.noConfusion gated
  case status => exact Bool.noConfusion gated
  case load =>
    unfold routeRequest takeLoadFrame
    simp only
    by_cases known : tableKnown (u8 p 0) (u8 p 1) = true
    · rw [if_pos known]
      by_cases program : u8 p 0 = 5
      · rw [if_pos program]
        exact answers _
      · rw [if_neg program]
        by_cases params : u8 p 0 = 6
        · rw [if_pos params]
          exact answers _
        · rw [if_neg params]
          cases table : tableRef (u8 p 0) (u8 p 1) with
          | some t => exact answers _
          | none => simp [tableKnown, table, program, params] at known
    · rw [if_neg known]
      exact answers _
  case readback =>
    unfold routeRequest takeReadbackFrame
    simp only
    split
    · exact answers _
    · split
      · exact answers _
      · exact answers _
  all_goals exact if_pos loading

theorem takeRequest_fits {k : RequestKind} {p : List Byte} (fits : k.lengthFits p = true) (tag : Tag) (s : State) :
    takeRequest k.code tag p s = routeRequest k tag p s := by
  unfold takeRequest
  simp only [RequestKind.ofCode_code]
  by_cases loading : s.cp.store = .loading ∧ RequestKind.gated (some k) = true
  · rw [if_pos loading, routeRequest_loading loading.1 loading.2]
  · rw [if_neg loading, if_pos fits]

/-- A Management Frame with its kind, tag and payload in the envelope. -/
theorem exec_consoleFrame (kind : Byte) (tag : Tag) {p : List Byte} (short : p.length ≤ 1024) (s : State) :
    exec (.consoleFrameError (envelope kind.toNat tag p)) s =
      .next (takeRequest kind tag p { s with rx := { s.rx with console := .hunt } }) := by
  have less : p.length < 65536 := by omega
  have passes : candidatePasses .console (envelope kind.toNat tag p) = true := by
    unfold candidatePasses
    rw [crcPasses_envelope _ _ _ less, frameLength_envelope _ _ _ less]
    exact decide_eq_true short
  refine congrArg Host.Outcome.next ((if_pos passes).trans ?_)
  show takeRequest (BitVec.ofNat 8 (frameKind _)) (frameTag _) (framePayload _) _ = _
  rw [frameKind_envelope _ _ _ kind.isLt, frameTag_envelope, framePayload_envelope _ _ _ less, ofNat_toNat_byte]
  rfl

/-! ## The command that a frame carries -/

/-- A payload of a fitting length that is routed as a command. -/
structure Carries (c : Instr) (k : RequestKind) (tag : Tag) (p : List Byte) : Prop where
  fits : k.lengthFits p = true
  routes : ∀ s, exec c s = .next (routeRequest k tag p s)

theorem RequestKind.length_of_fits {k : RequestKind} {p : List Byte} (fits : k.lengthFits p = true) : p.length ≤ 1024 := by
  unfold RequestKind.lengthFits at fits
  simp only [Bool.and_eq_true, decide_eq_true_eq] at fits
  obtain ⟨⟨_, high⟩, _⟩ := fits
  have : k.lengthBounds.2 ≤ 1024 := by cases k <;> decide
  omega

/-! ### LOAD -/

section
variable {kind index mark : Byte} {body : List Byte}

theorem load_kind : u8 ([kind, index, mark] ++ body) 0 = kind.toNat := u8_cons _ _

theorem load_index : u8 ([kind, index, mark] ++ body) 1 = index.toNat := u8_cons _ _

theorem load_mark : u8 ([kind, index, mark] ++ body) 2 = mark.toNat := u8_cons _ _

/-- The length of a LOAD with a body. -/
theorem load_fits (length : bodyLength kind.toNat body = some body.length) (known : 1 ≤ kind.toNat ∧ kind.toNat ≤ 6)
    (short : body.length ≤ 1021) : RequestKind.load.lengthFits ([kind, index, 0] ++ body) = true := by
  have total : ([kind, index, 0] ++ body).length = body.length + 3 := rfl
  have behind : ([kind, index, 0] ++ body).drop 3 = body := rfl
  unfold RequestKind.lengthFits
  rw [load_mark, load_kind, total, behind, Nat.add_sub_cancel, show (0 : Byte).toNat = 0 from rfl]
  obtain ⟨low, high⟩ := known
  generalize kind.toNat = n at low high length
  match n with
  | 0 => exact absurd low (by decide)
  | n + 1 =>
    have bounds : RequestKind.load.lengthBounds = (3, 1024) := rfl
    simp only [bounds, ne_eq, not_true_eq_false, if_false, if_neg (not_lt.2 high), length, decide_true, Bool.and_true,
      Bool.and_eq_true, decide_eq_true_eq]
    omega

theorem removal_fits : RequestKind.load.lengthFits [kind, index, 1] = true := rfl

variable (tag : Tag) (s : State)

theorem routeRequest_load (known : tableKnown kind.toNat index.toNat = true) :
    routeRequest .load tag ([kind, index, mark] ++ body) s = takeLoadFrame tag ([kind, index, mark] ++ body) s := by
  unfold routeRequest
  simp only
  rw [load_kind, load_index, if_pos known]

theorem takeLoadFrame_table {t : TableRef} (table : tableRef kind.toNat index.toNat = some t) :
    takeLoadFrame tag ([kind, index, mark] ++ body) s =
      reqLoadCalibration tag (if mark.toNat ≠ 0 then .remove t else readTable t body) s := by
  have other : kind.toNat ≠ 5 ∧ kind.toNat ≠ 6 := by
    unfold tableRef at table
    split_ifs at table <;> omega
  unfold takeLoadFrame
  simp only
  rw [load_kind, load_index, load_mark, if_neg other.1, if_neg other.2, table]
  simp only [decide_eq_true_eq]
  rfl

theorem takeLoadFrame_program :
    takeLoadFrame tag ([5, index, mark] ++ body) s =
      reqLoadProgram tag (if mark.toNat ≠ 0 then none else some (readProgram body)) s := by
  unfold takeLoadFrame
  simp only
  rw [load_kind, load_mark, if_pos (by decide)]
  simp only [decide_eq_true_eq]
  rfl

theorem takeLoadFrame_params :
    takeLoadFrame tag ([6, index, mark] ++ body) s =
      reqLoadEvaluationParameters tag (if mark.toNat ≠ 0 then none else some (readEvalParams body)) s := by
  unfold takeLoadFrame
  simp only
  rw [load_kind, load_mark, if_neg (by decide), if_pos (by decide)]
  simp only [decide_eq_true_eq]
  rfl

end

/-- A LOAD of a calibration table, or its removal. -/
theorem carries_table {tag : Tag} {kind index mark : Byte} {body : List Byte} {t : TableRef} {l : CalLoad}
    (table : tableRef kind.toNat index.toNat = some t) (fits : RequestKind.load.lengthFits ([kind, index, mark] ++ body) = true)
    (reads : (if mark.toNat ≠ 0 then .remove t else readTable t body) = l) :
    Carries (.loadCalibration tag l) .load tag ([kind, index, mark] ++ body) := by
  refine ⟨fits, fun s => ?_⟩
  have known : tableKnown kind.toNat index.toNat = true := by rw [tableKnown, table]; rfl
  rw [routeRequest_load tag s known, takeLoadFrame_table tag s table, reads]
  rfl

theorem tableRef_codes {t : TableRef} (wf : t.wf = true) :
    tableRef (BitVec.ofNat 8 (tableCodes t).1).toNat (BitVec.ofNat 8 (tableCodes t).2).toNat = some t := by
  cases t with
  | frame => rfl
  | crosshead => rfl
  | arm i => cases i <;> rfl
  | range code =>
    have small : (BitVec.ofNat 8 code).toNat = code := by
      rw [BitVec.toNat_ofNat]
      exact Nat.mod_eq_of_lt (decide_eq_true_iff.1 wf)
    show tableRef 4 (BitVec.ofNat 8 code).toNat = _
    rw [small]
    rfl

theorem carries_loadCalibration (tag : Tag) {l : CalLoad} (wf : l.wf = true) :
    Carries (.loadCalibration tag l) .load tag (loadPayload l) := by
  cases l with
  | frame t =>
    refine carries_table (t := .frame) rfl (load_fits ?_ (by decide) ?_) (congrArg CalLoad.frame (readFrameTable_bytes wf))
    · rw [FrameTable.bytes_length]
      rfl
    · rw [FrameTable.bytes_length]
      decide
  | crosshead g =>
    exact carries_table (t := .crosshead) rfl (load_fits rfl (by decide) (by rw [quantity_length]; decide))
      (congrArg CalLoad.crosshead (readGain wf))
  | arm i g =>
    refine carries_table (t := .arm i) (by cases i <;> rfl) (load_fits rfl (by decide) (by rw [quantity_length]; decide))
      (congrArg (CalLoad.arm i) (readGain wf))
  | range code t =>
    simp only [CalLoad.wf, RangeTable.wf, Bool.and_eq_true, decide_eq_true_eq, List.all_eq_true] at wf
    obtain ⟨small, ⟨zero, few⟩, points⟩ := wf
    refine carries_table (t := .range code) (tableRef_codes (t := .range code) (decide_eq_true small)) (load_fits ?_ (by decide) ?_)
      (congrArg (CalLoad.range code) (readRangeTable_bytes zero (by omega) fun p h => points p h))
    · show (if (RangeTable.bytes t).length < 5 then none else some (5 + 8 * u8 (RangeTable.bytes t) 4)) = _
      rw [RangeTable.bytes_count (by omega), RangeTable.bytes_length, if_neg (by omega)]
    · rw [RangeTable.bytes_length]
      omega
  | remove t => exact carries_table (tableRef_codes wf) removal_fits rfl

theorem carries_loadProgram (tag : Tag) {l : ProgramLoad} (wf : l.all RawProgram.wf = true) {p : List Byte}
    (payload : payloadOf (.loadProgram tag l) = some p) : Carries (.loadProgram tag l) .load tag p := by
  cases l with
  | none =>
    obtain rfl := Option.some.inj payload
    exact ⟨rfl, fun s => rfl⟩
  | some r =>
    obtain rfl := Option.some.inj payload
    have wf : r.wf = true := wf
    have bounds := wf
    simp only [RawProgram.wf, Bool.and_eq_true, decide_eq_true_eq] at bounds
    have label : r.label.length = 16 := by tauto
    have few : r.segments.length ≤ 43 := by tauto
    refine ⟨load_fits ?_ (by decide) ?_, fun s => ?_⟩
    · show (if (RawProgram.bytes r).length < 57 then none else some (57 + 22 * u8 (RawProgram.bytes r) 56)) = _
      rw [RawProgram.bytes_count label (by omega), RawProgram.bytes_length label, if_neg (by omega)]
    · rw [RawProgram.bytes_length label]
      omega
    · rw [routeRequest_load tag s rfl, takeLoadFrame_program, readProgram_bytes wf]
      rfl

theorem carries_loadEvaluationParameters (tag : Tag) {l : EvalLoad} (wf : l.all EvalParams.wf = true) {p : List Byte}
    (payload : payloadOf (.loadEvaluationParameters tag l) = some p) : Carries (.loadEvaluationParameters tag l) .load tag p := by
  cases l with
  | none =>
    obtain rfl := Option.some.inj payload
    exact ⟨rfl, fun s => rfl⟩
  | some r =>
    obtain rfl := Option.some.inj payload
    have wf : r.wf = true := wf
    refine ⟨load_fits ?_ (by decide) ?_, fun s => ?_⟩
    · rw [EvalParams.bytes_length]
      rfl
    · rw [EvalParams.bytes_length]
      decide
    · rw [routeRequest_load tag s rfl, takeLoadFrame_params, readEvalParams_bytes wf]
      rfl

/-! ### READBACK and the requests with operands -/

theorem carries_readbackCalibration (tag : Tag) {kind index pointer count : Byte}
    (calibration : ¬ ((kind = 5 ∨ kind = 6) ∧ index = 0)) :
    Carries (.readbackCalibration tag kind index pointer count) .readback tag [kind, index, pointer, count] := by
  refine ⟨rfl, fun s => ?_⟩
  have program : ¬ (kind.toNat = 5 ∧ index.toNat = 0) := fun ⟨five, zero⟩ =>
    calibration ⟨.inl (BitVec.eq_of_toNat_eq five), BitVec.eq_of_toNat_eq zero⟩
  have params : ¬ (kind.toNat = 6 ∧ index.toNat = 0) := fun ⟨six, zero⟩ =>
    calibration ⟨.inr (BitVec.eq_of_toNat_eq six), BitVec.eq_of_toNat_eq zero⟩
  unfold routeRequest takeReadbackFrame
  simp only [u8_cons, u8_cons_succ, if_neg program, if_neg params, ofNat_toNat_byte]
  rfl

theorem carries_request {c : Instr} {k : RequestKind} {tag : Tag} {p : List Byte} (request : requestOf c = some (k, tag))
    (payload : payloadOf c = some p) (wf : c.wf = true) : Carries c k tag p := by
  cases c
  case loadCalibration tag l =>
    cases request
    cases payload
    exact carries_loadCalibration tag wf
  case loadProgram tag l =>
    cases request
    exact carries_loadProgram tag wf payload
  case loadEvaluationParameters tag l =>
    cases request
    exact carries_loadEvaluationParameters tag wf payload
  case readbackCalibration tag kind index pointer count =>
    cases request
    rw [payloadOf] at payload
    split_ifs at payload with other
    cases payload
    exact carries_readbackCalibration tag other
  case readbackProgram tag pointer count =>
    cases request
    cases payload
    refine ⟨rfl, fun s => ?_⟩
    unfold routeRequest takeReadbackFrame
    simp only [u8_cons, u8_cons_succ, ofNat_toNat_byte]
    rfl
  case jog tag rate =>
    cases request
    cases payload
    refine ⟨rfl, fun s => ?_⟩
    have read : i32 (quantity rate) 0 = rate := readGain wf
    rw [routeRequest, read]
    rfl
  case readResults tag part =>
    cases request
    cases payload
    refine ⟨rfl, fun s => ?_⟩
    rw [routeRequest, u8_cons, ofNat_toNat_byte]
    rfl
  case captureSet tag enable post mask =>
    cases request
    cases payload
    have read : u16 (enable :: c2 post ++ [mask]) 1 = post := u16_c2 (decide_eq_true_iff.1 wf)
    have last : u8 (enable :: c2 post ++ [mask]) 3 = mask.toNat := u8_cons mask []
    refine ⟨rfl, fun s => ?_⟩
    rw [routeRequest, read, last, List.cons_append, u8_cons, ofNat_toNat_byte, ofNat_toNat_byte]
    rfl
  case captureDrain tag count =>
    cases request
    cases payload
    have read : u16 (c2 count) 0 = count := u16_c2 (decide_eq_true_iff.1 wf)
    refine ⟨rfl, fun s => ?_⟩
    rw [routeRequest, read]
    rfl
  case clear tag flags =>
    cases request
    cases payload
    have read : u16 (c2 flags.toNat) 0 = flags.toNat := u16_c2 flags.isLt
    refine ⟨rfl, fun s => ?_⟩
    rw [routeRequest, read, BitVec.ofNat_toNat, BitVec.setWidth_eq]
    rfl
  case maskSet tag flags =>
    cases request
    cases payload
    have read : u16 (c2 flags.toNat) 0 = flags.toNat := u16_c2 flags.isLt
    refine ⟨rfl, fun s => ?_⟩
    rw [routeRequest, read, BitVec.ofNat_toNat, BitVec.setWidth_eq]
    rfl
  case attnMode tag mode =>
    cases request
    cases payload
    refine ⟨rfl, fun s => ?_⟩
    rw [routeRequest, u8_cons, ofNat_toNat_byte]
    rfl
  case streamSet tag enable n =>
    cases request
    cases payload
    have read : u16 (enable :: c2 n) 1 = n := u16_c2 (decide_eq_true_iff.1 wf)
    refine ⟨rfl, fun s => ?_⟩
    rw [routeRequest, read, u8_cons, ofNat_toNat_byte]
    rfl
  all_goals cases request <;> cases payload <;> exact ⟨rfl, fun s => rfl⟩

end Sys2Proof.Machine

open Sys2Proof Sys2Proof.Machine

/-- Settles O59: the payload of each command is routed as that command (`carries_request`), in LOADING as well
(`routeRequest_loading`). -/
theorem managementFramesActAsTheirCommands : Obligations.ManagementFramesActAsTheirCommands := by
  refine ⟨fun c bs s wf frame => ?carried, fun kind tag p s unknown short => ?unknownKind,
    fun tag kind index p s wf head fits => ?unknownTable, fun kind tag p s low high short bad => ?badLength⟩
  case carried =>
    unfold managementFrame at frame
    cases request : requestOf c with
    | none => simp [request] at frame
    | some kt =>
      obtain ⟨k, tag⟩ := kt
      cases payload : payloadOf c with
      | none => simp [request, payload] at frame
      | some p =>
        simp only [request, payload, Option.some.injEq] at frame
        obtain ⟨fits, routes⟩ := carries_request request payload wf
        rw [← frame, exec_consoleFrame k.code tag (RequestKind.length_of_fits fits), takeRequest_fits fits, routes]
  case unknownKind =>
    have none : RequestKind.ofCode kind.toNat = none := (RequestKind.ofCode_eq_none_iff _).2 unknown
    rw [exec_consoleFrame kind tag short, exec_unknownKind_eq tag unknown]
    unfold takeRequest
    simp only [none, RequestKind.gated, and_true]
    split <;> rfl
  case unknownTable =>
    obtain ⟨rest, rfl⟩ : ∃ rest, p = kind :: index :: rest := by
      match p, head with
      | a :: b :: rest, h => exact ⟨rest, by simpa using h⟩
    have unknown : tableKnown kind.toNat index.toNat = false := (Bool.not_eq_true' _) ▸ wf
    have fits : RequestKind.load.lengthFits (kind :: index :: rest) = true := (lengthFits_iff_payloadFits 16 .load rfl _).2 fits
    have names : tableKnown (u8 (kind :: index :: rest) 0) (u8 (kind :: index :: rest) 1) = false := by
      rw [u8_cons, u8_cons_succ, u8_cons, unknown]
    rw [exec_unknownTable_eq tag unknown, show (16 : Nat) = RequestKind.load.code.toNat from rfl,
      exec_consoleFrame _ tag (RequestKind.length_of_fits fits), takeRequest_fits fits, routeRequest]
    rw [if_neg (by rw [names]; exact Bool.false_ne_true)]
  case badLength =>
    obtain ⟨k, named⟩ : ∃ k, RequestKind.ofCode kind.toNat = some k :=
      Option.ne_none_iff_exists'.1 fun none => by
        have := (RequestKind.ofCode_eq_none_iff _).1 none
        omega
    have code : kind = k.code := by
      have found := List.find?_some (p := fun k : RequestKind => decide (k.code.toNat = kind.toNat)) named
      exact BitVec.eq_of_toNat_eq (of_decide_eq_true found).symm
    have unfit : ¬ k.lengthFits p = true := fun fits => bad ((lengthFits_iff_payloadFits _ k named p).1 fits)
    have judged := exec_consoleFrame kind tag short s
    unfold takeRequest at judged
    simp only [named, if_neg unfit] at judged
    refine ⟨fun open_ => ?_, fun loading notInquire notStatus => ?_⟩
    · have ungated : ¬ (s.cp.store = .loading ∧ RequestKind.gated (some k) = true) := by
        rintro ⟨loading, gated⟩
        obtain ready | inquire | status := open_
        · exact ready loading
        · rw [inquire] at named
          cases named
          exact Bool.noConfusion gated
        · rw [status] at named
          cases named
          exact Bool.noConfusion gated
      rw [judged, if_neg ungated, State.cpAnswer_eq]
      rfl
    · have gated : RequestKind.gated (some k) = true := by
        cases k
        case inquire => exact absurd code notInquire
        case status => exact absurd code notStatus
        all_goals rfl
      rw [judged, if_pos ⟨loading, gated⟩, State.cpAnswer_eq]
      rfl
end

