-- ==== Sys2Proof/Proofs/CalibrationLoads.lean ====
section
/-! Loads and removals of calibration tables at MC, READBACK and INQUIRE (R25 to R31, R40). -/

namespace Sys2Proof.Machine

/-! ## A load at MC -/

/-- The command with which MC takes a load. -/
def loadCommand : CalLoad → Instr
  | .frame _ => .loadFrameTable
  | .crosshead _ => .loadCrossheadTable
  | .arm _ _ => .loadArmTable
  | .range _ _ => .loadRangeTable
  | .remove _ => .removeCalibrationTable

section
variable (s : State) {tag : Tag} {l : CalLoad} {rest : List McMessage} (waiting : s.paths.msToMc = .load tag l :: rest)
include waiting

theorem exec_load_of_waiting :
    exec (loadCommand l) s = .next { s with
      mc := (McDesk.takeLoad ⟨s.mc, { s.paths with msToMc := rest }⟩ tag l).mc
      paths := (McDesk.takeLoad ⟨s.mc, { s.paths with msToMc := rest }⟩ tag l).paths } := by
  have takes (kind : CalLoad → Bool) (accepts : kind l = true) :
      s.onMc (fun d => d.takeLoadIf kind) = { s with
        mc := (McDesk.takeLoad ⟨s.mc, { s.paths with msToMc := rest }⟩ tag l).mc
        paths := (McDesk.takeLoad ⟨s.mc, { s.paths with msToMc := rest }⟩ tag l).paths } := by
    simp only [State.onMc, McDesk.takeLoadIf, waiting, accepts, if_true]
  cases l
  all_goals exact congrArg Host.Outcome.next (takes _ rfl)

/-- While a STORE is in flight (R29). -/
theorem exec_load_storing (storing : s.mc.storeInFlight = true) :
    exec (loadCommand l) s = .next { s with
      paths := s.paths.mcAnswersLoad rest (answer .load tag .notReady .none) .notReady [] } := by
  rw [exec_load_of_waiting s waiting, McDesk.takeLoad_eq]
  simp only [storing, if_true]
  rfl

variable (free : s.mc.storeInFlight = false)
include free

theorem exec_load_fault {f : TableFault} (fault : s.mc.cal.load l = .error f) :
    exec (loadCommand l) s = .next { s with
      paths := s.paths.mcAnswersLoad rest (refuse .load tag .badTable f.reason (.entryIndex f.index)) .badTable [] } := by
  rw [exec_load_of_waiting s waiting, McDesk.takeLoad_eq]
  simp only [free, fault, Bool.false_eq_true, if_false]
  rfl

theorem exec_load_installs {cal : CalSet} {n : Nat} (passes : s.mc.cal.load l = .ok (cal, n)) :
    exec (loadCommand l) s = .next { s with
      mc := { s.mc with cal := cal }
      paths := s.paths.mcAnswersLoad rest (answer .load tag .done (.clampCount n)) .done [cal.summary] } := by
  rw [exec_load_of_waiting s waiting, McDesk.takeLoad_eq]
  simp only [free, passes, Bool.false_eq_true, if_false]
  rfl

end

/-! ## The checks (R25 to R27) -/

section
variable (c : CalSet)

/-- A Frame Table with its fields clamped (R25). -/
def clampedFrame (t : FrameTable) : FrameTable :=
  { fMax := clampTo 1 2147483647 t.fMax, vMax := clampTo 1 1000000 t.vMax, travelMin := t.travelMin
    travelMax := t.travelMax, compliance := clampTo 0 65536000 t.compliance, rangesInUse := clampTo 1 4 t.rangesInUse
    jogForceLimit := clampTo 1 (clampTo 1 2147483647 t.fMax) t.jogForceLimit }

theorem CalSet.load_frame {t : FrameTable} (travel : t.travelMin < t.travelMax) :
    c.load (.frame t) =
      .ok ({ c with frame := some (clampedFrame t) },
        clampCounts 1 2147483647 t.fMax + clampCounts 1 1000000 t.vMax + clampCounts 0 65536000 t.compliance +
          clampCounts 1 4 t.rangesInUse + clampCounts 1 (clampTo 1 2147483647 t.fMax) t.jogForceLimit) := by
  have positive : 1 ≤ clampTo 1 2147483647 t.fMax := by
    unfold clampTo
    omega
  unfold CalSet.load checkFrameTable
  simp only [clampField_eq 1 2147483647 _ (by decide), clampField_eq 1 1000000 _ (by decide), clampField_eq 0 65536000 _ (by decide),
    clampField_eq 1 4 _ (by decide), clampField_eq 1 _ _ positive, if_pos travel]
  rfl

theorem CalSet.load_frame_fault {t : FrameTable} (travel : t.travelMax ≤ t.travelMin) :
    c.load (.frame t) = .error ⟨.travelOrder, 0⟩ := by
  unfold CalSet.load checkFrameTable
  simp only [if_neg (not_lt.2 travel)]
  rfl

theorem checkGain_zero : checkGain 0 = .error ⟨.zeroGain, 0⟩ := rfl

theorem checkGain_passes {g : Int} (gain : g ≠ 0) : checkGain g = .ok (g, 0) := if_neg gain

variable {code : Nat} {t : RangeTable}

/-- The first fault of a Range Table (R27). -/
theorem checkRangeTable_fault {r : Reason} {i : Nat}
    (fault : (3 < code ∧ r = .unknownCode ∧ i = 0) ∨
      (code ≤ 3 ∧ (t.points.length < 2 ∨ 16 < t.points.length) ∧ r = .breakpointCount ∧ i = 0) ∨
      (code ≤ 3 ∧ 2 ≤ t.points.length ∧ t.points.length ≤ 16 ∧
        ∃ j, FirstNotRising (t.points.map (·.1)) j ∧ r = .countOrder ∧ i = j + 1) ∨
      (code ≤ 3 ∧ 2 ≤ t.points.length ∧ t.points.length ≤ 16 ∧ (t.points.map (·.1)).Pairwise (· < ·) ∧
        ∃ j, FirstNotRising (t.points.map (·.2)) j ∧ r = .forceOrder ∧ i = j + 1)) :
    checkRangeTable code t = .error ⟨r, i⟩ := by
  unfold checkRangeTable
  obtain ⟨beyond, rfl, rfl⟩ | ⟨known, length, rfl, rfl⟩ | ⟨known, low, high, j, falls, rfl, rfl⟩ |
    ⟨known, low, high, rising, j, falls, rfl, rfl⟩ := fault
  · rw [if_pos beyond]
  · rw [if_neg (by omega), if_pos length]
  · rw [if_neg (by omega), if_neg (by omega), notRising_of_first _ _ falls]
  · rw [if_neg (by omega), if_neg (by omega), notRising_none _ rising, notRising_of_first _ _ falls]

theorem checkRangeTable_passes (known : code ≤ 3) (low : 2 ≤ t.points.length) (high : t.points.length ≤ 16)
    (counts : (t.points.map (·.1)).Pairwise (· < ·)) (forces : (t.points.map (·.2)).Pairwise (· < ·)) :
    checkRangeTable code t =
      .ok ({ t with zeroOffset := clampTo (-8388608) 8388607 t.zeroOffset }, clampCounts (-8388608) 8388607 t.zeroOffset) := by
  unfold checkRangeTable
  rw [if_neg (by omega), if_neg (by omega), notRising_none _ counts, notRising_none _ forces]
  simp only
  rw [clampField_eq _ _ _ (by decide)]

/-- A Range Table set, and the tables that stay. -/
theorem CalSet.setRange_spec (known : code ≤ 3) (r : Option RangeTable) :
    (c.setRange code r).range code = r ∧ (∀ i, i ≠ code → (c.setRange code r).range i = c.range i) ∧
      (c.setRange code r).frame = c.frame ∧ (c.setRange code r).crosshead = c.crosshead ∧
      (c.setRange code r).armA = c.armA ∧ (c.setRange code r).armB = c.armB := by
  have others (i : Nat) (differs : i ≠ code) : (c.setRange code r).range i = c.range i := by
    match code, i with
    | 0, 0 | 1, 1 | 2, 2 | 3, 3 => exact absurd rfl differs
    | 0, 1 | 0, 2 | 0, 3 | 0, _ + 4 | 1, 0 | 1, 2 | 1, 3 | 1, _ + 4 | 2, 0 | 2, 1 | 2, 3 | 2, _ + 4 | 3, 0 | 3, 1 | 3, 2
    | 3, _ + 4 => rfl
    | _ + 4, _ => omega
  match code with
  | 0 | 1 | 2 | 3 => exact ⟨rfl, others, rfl, rfl, rfl, rfl⟩
  | _ + 4 => omega

theorem CalSet.remove_eq {r : TableRef} (known : ∀ code, r = .range code → code ≤ 3) :
    c.remove r =
      .ok ({ frame := if r = .frame then none else c.frame
             crosshead := if r = .crosshead then none else c.crosshead
             armA := if r = .arm .a then none else c.armA
             armB := if r = .arm .b then none else c.armB
             range0 := if r = .range 0 then none else c.range0
             range1 := if r = .range 1 then none else c.range1
             range2 := if r = .range 2 then none else c.range2
             range3 := if r = .range 3 then none else c.range3 }, 0) := by
  cases r with
  | frame => rfl
  | crosshead => rfl
  | arm i => cases i <;> rfl
  | range code =>
    have small := known code rfl
    match code with
    | 0 | 1 | 2 | 3 => rfl
    | _ + 4 => omega

/-- The calibration complete mark (R30). -/
theorem CalSet.complete_iff :
    c.complete = true ↔
      ∃ f, c.frame = some f ∧ ∀ code : Nat, code ≤ 3 → (code : Int) < f.rangesInUse → (c.range code).isSome = true := by
  unfold CalSet.complete
  cases c.frame with
  | none => simp
  | some f =>
    simp only [List.all_eq_true, List.mem_range, Bool.or_eq_true, decide_eq_true_eq, Option.some.injEq, exists_eq_left']
    refine forall_congr' fun code => ⟨fun all small used => ?_, fun all small => ?_⟩
    · exact (all (by omega)).resolve_left (not_le.2 used)
    · by_cases used : (code : Int) < f.rangesInUse
      · exact .inr (all (by omega) used)
      · exact .inl (not_lt.1 used)

/-! ## READBACK (R31) -/

variable (tag : Tag) (pointer count : Byte)

theorem wholeTable_address (p : Option Payload) :
    (wholeTable tag pointer p).tag = tag ∧ (wholeTable tag pointer p).kind = 17 := by
  cases p <;> exact ⟨rfl, rfl⟩

theorem CalSet.readback_address (kind index : Byte) :
    (c.readback tag kind index pointer count).tag = tag ∧ (c.readback tag kind index pointer count).kind = 17 := by
  unfold CalSet.readback
  cases tableRef kind.toNat index.toNat with
  | none => exact ⟨rfl, rfl⟩
  | some t =>
    cases t with
    | frame => exact wholeTable_address tag pointer _
    | crosshead => exact wholeTable_address tag pointer _
    | arm i => exact wholeTable_address tag pointer _
    | range code =>
      simp only
      split
      · exact ⟨rfl, rfl⟩
      · cases c.range code <;> exact ⟨rfl, rfl⟩

/-- A kind and index that name no calibration table, or a Range code above 3. -/
theorem CalSet.readback_unknown {kind index : Byte}
    (unknown : (kind = 4 ∧ 3 < index.toNat) ∨ (kind = 3 ∧ 1 < index.toNat) ∨ ((kind = 1 ∨ kind = 2) ∧ index ≠ 0) ∨
      ((kind = 5 ∨ kind = 6) ∧ index ≠ 0) ∨ kind = 0 ∨ 6 < kind.toNat) :
    c.readback tag kind index pointer count = refuse .readback tag .badTable .unknownCode .none := by
  have nonzero (h : index ≠ 0) : index.toNat ≠ 0 := fun zero => h (BitVec.eq_of_toNat_eq zero)
  have none (h : tableRef kind.toNat index.toNat = none) :
      c.readback tag kind index pointer count = refuse .readback tag .badTable .unknownCode .none := by
    rw [CalSet.readback, h]
  have noTable (h : ∀ n, kind.toNat = n → n ≠ 4 ∧ (n = 1 → index.toNat ≠ 0) ∧ (n = 2 → index.toNat ≠ 0) ∧ (n = 3 → 1 < index.toNat)) :
      tableRef kind.toNat index.toNat = Option.none := by
    have := h _ rfl
    unfold tableRef
    repeat rw [if_neg (by omega)]
  obtain ⟨rfl, beyond⟩ | ⟨rfl, beyond⟩ | ⟨rfl | rfl, other⟩ | ⟨rfl | rfl, other⟩ | rfl | beyond := unknown
  · exact if_pos beyond
  · exact none (noTable fun n h => by subst h; exact ⟨by decide, nofun, nofun, fun _ => beyond⟩)
  · exact none (noTable fun n h => by subst h; exact ⟨by decide, fun _ => nonzero other, nofun, nofun⟩)
  · exact none (noTable fun n h => by subst h; exact ⟨by decide, nofun, fun _ => nonzero other, nofun⟩)
  · exact none (noTable fun n h => by subst h; exact ⟨by decide, nofun, nofun, nofun⟩)
  · exact none (noTable fun n h => by subst h; exact ⟨by decide, nofun, nofun, nofun⟩)
  · exact none (noTable fun n h => by subst h; exact ⟨by decide, nofun, nofun, nofun⟩)
  · exact none (noTable fun n h => by omega)

end

end Sys2Proof.Machine

open Sys2Proof Sys2Proof.Machine

/-- Settles O23: each load by its check, with MC's answer (`exec_load_installs`, `exec_load_fault`). -/
theorem calibrationTablesCheckedAndClamped : Obligations.CalibrationTablesCheckedAndClamped := by
  intro s tag rest free
  refine ⟨fun t waiting => ⟨fun travel => ?_, fun travel => ?_⟩, fun g waiting => ?_, fun i g waiting => ?_,
    fun code t waiting => ⟨fun r i fault => ?_, fun known low high counts forces => ?_⟩⟩
  · exact exec_load_installs s waiting free (CalSet.load_frame _ travel)
  · exact exec_load_fault s waiting free (CalSet.load_frame_fault _ travel)
  · by_cases zero : g = 0
    · subst zero
      exact exec_load_fault s waiting free rfl
    · rw [if_neg zero]
      exact exec_load_installs s waiting free (congrArg (Except.map _) (checkGain_passes zero))
  · by_cases zero : g = 0
    · subst zero
      exact exec_load_fault s waiting free rfl
    · rw [if_neg zero]
      have passes : s.mc.cal.load (.arm i g) = .ok (s.mc.cal.setArm i (some g), 0) := congrArg (Except.map _) (checkGain_passes zero)
      cases i
      · exact exec_load_installs s waiting free passes
      · exact exec_load_installs s waiting free passes
  · exact exec_load_fault s waiting free (congrArg (Except.map _) (checkRangeTable_fault fault))
  · obtain ⟨here, others, frame, crosshead, armA, armB⟩ := s.mc.cal.setRange_spec known
      (some { t with zeroOffset := clampTo (-8388608) 8388607 t.zeroOffset })
    exact ⟨_, here, others, frame, crosshead, armA, armB,
      exec_load_installs s waiting free (congrArg (Except.map _) (checkRangeTable_passes known low high counts forces))⟩

/-- Settles O24: removals and loads under a STORE at MC, the summary, READBACK by the table named, and the capability record. -/
theorem mcAnswersRemovalsReadbackAndInquire : Obligations.McAnswersRemovalsReadbackAndInquire := by
  refine ⟨⟨fun s tag r rest free waiting => ⟨fun known cal removed => ?_, fun code named beyond => ?_⟩,
    fun s tag l rest storing waiting => ?_, fun c => ⟨rfl, rfl, rfl, rfl, rfl, rfl, rfl, rfl, c.complete_iff⟩⟩,
    fun s tag kind index pointer count ready => ?readback, fun s tag => ?inquire⟩
  · exact exec_load_installs s waiting free (removed ▸ CalSet.remove_eq _ known)
  · subst named
    exact exec_load_fault s waiting free (if_pos beyond)
  · have refused := exec_load_storing s waiting storing
    cases l <;> exact refused
  case readback =>
    refine ⟨s.mc.cal.readback tag kind index pointer count, ?_, ?_⟩
    · exact congrArg Host.Outcome.next (State.request_ready s .readback tag _ ready)
    obtain ⟨tagged, kinded⟩ := s.mc.cal.readback_address tag pointer count kind index
    refine ⟨tagged, kinded, ?_, ?_, ?_, ?_, ?_, fun unknown => ?_⟩
    · rintro rfl rfl
      rw [show s.mc.cal.readback tag 1 0 pointer count = wholeTable tag pointer (s.mc.cal.frame.map Payload.frameTable) from rfl]
      cases s.mc.cal.frame <;> exact ⟨rfl, rfl, rfl⟩
    · rintro rfl rfl
      rw [show s.mc.cal.readback tag 2 0 pointer count = wholeTable tag pointer (s.mc.cal.crosshead.map Payload.gain) from rfl]
      cases s.mc.cal.crosshead <;> exact ⟨rfl, rfl, rfl⟩
    · rintro rfl rfl
      rw [show s.mc.cal.readback tag 3 0 pointer count = wholeTable tag pointer (s.mc.cal.armA.map Payload.gain) from rfl]
      cases s.mc.cal.armA <;> exact ⟨rfl, rfl, rfl⟩
    · rintro rfl rfl
      rw [show s.mc.cal.readback tag 3 1 pointer count = wholeTable tag pointer (s.mc.cal.armB.map Payload.gain) from rfl]
      cases s.mc.cal.armB <;> exact ⟨rfl, rfl, rfl⟩
    · rintro rfl known
      have reads : s.mc.cal.readback tag 4 index pointer count =
          match s.mc.cal.range index.toNat with
          | none => answer .readback tag .absent .none
          | some t =>
            answer .readback tag .done
              (.rangePart t.zeroOffset t.points.length pointer.toNat ((t.points.drop pointer.toNat).take count.toNat)) :=
        if_neg (not_lt.2 known)
      rw [reads]
      cases s.mc.cal.range index.toNat <;> exact ⟨rfl, rfl, rfl⟩
    · rw [s.mc.cal.readback_unknown tag pointer count unknown]
      exact ⟨rfl, rfl, rfl⟩
  case inquire =>
    refine congrArg (fun c => Host.Outcome.next { s with paths := s.paths.sendReply .mc (answer .inquire tag .done (.capability c)) }) ?_
    unfold Mc.capability Mc.lp
    cases s.mc.cal.frame with
    | none => rfl
    | some f => cases s.mc.program <;> rfl
end

