-- ==== Sys2Proof/Proofs/ProgramCheck.lean ====
section
/-! The check of a Test Program: its faults in their order, the fields clamped and counted (R43 to R45). -/

namespace Sys2Proof.Machine

/-! ## Codes -/

theorem SegmentMode.ofCode_code (m : SegmentMode) : SegmentMode.ofCode m.code = some m := by cases m <;> rfl
theorem EndKind.ofCode_code (k : EndKind) : EndKind.ofCode k.code = some k := by cases k <;> rfl
theorem EndSense.ofCode_code (x : EndSense) : EndSense.ofCode x.code = some x := by cases x <;> rfl
theorem EndAction.ofCode_code (a : EndAction) : EndAction.ofCode a.code = some a := by cases a <;> rfl
theorem Fitted.ofCode_code (f : Fitted) : Fitted.ofCode f.code = some f := by cases f <;> rfl
theorem Criterion.ofCode_code (c : Criterion) : Criterion.ofCode c.code = some c := by cases c <;> rfl

theorem SegmentMode.exists_code {n : Nat} (known : n ≤ 3) : ∃ m : SegmentMode, n = m.code := by
  match n with
  | 0 => exact ⟨.position, rfl⟩
  | 1 => exact ⟨.strain, rfl⟩
  | 2 => exact ⟨.force, rfl⟩
  | 3 => exact ⟨.hold, rfl⟩
  | _ + 4 => omega

theorem EndKind.exists_code {n : Nat} (known : n ≤ 7) : ∃ k : EndKind, n = k.code := by
  match n with
  | 0 => exact ⟨.strainReached, rfl⟩
  | 1 => exact ⟨.forceReached, rfl⟩
  | 2 => exact ⟨.positionReached, rfl⟩
  | 3 => exact ⟨.timeElapsed, rfl⟩
  | 4 => exact ⟨.extReleased, rfl⟩
  | 5 => exact ⟨.yieldDone, rfl⟩
  | 6 => exact ⟨.proofDone, rfl⟩
  | 7 => exact ⟨.none, rfl⟩
  | _ + 8 => omega

theorem EndSense.exists_code {n : Nat} (known : n ≤ 1) : ∃ x : EndSense, n = x.code := by
  match n with
  | 0 => exact ⟨.atOrAbove, rfl⟩
  | 1 => exact ⟨.atOrBelow, rfl⟩
  | _ + 2 => omega

theorem EndAction.exists_code {n : Nat} (known : n ≤ 1) : ∃ a : EndAction, n = a.code := by
  match n with
  | 0 => exact ⟨.next, rfl⟩
  | 1 => exact ⟨.finish, rfl⟩
  | _ + 2 => omega

theorem Fitted.exists_code {n : Nat} (known : n ≤ 3) : ∃ f : Fitted, n = f.code := by
  match n with
  | 0 => exact ⟨.none, rfl⟩
  | 1 => exact ⟨.both, rfl⟩
  | 2 => exact ⟨.armA, rfl⟩
  | 3 => exact ⟨.armB, rfl⟩
  | _ + 4 => omega

theorem Criterion.exists_code {n : Nat} (known : n ≤ 4) : ∃ c : Criterion, n = c.code := by
  match n with
  | 0 => exact ⟨.none, rfl⟩
  | 1 => exact ⟨.atStrain, rfl⟩
  | 2 => exact ⟨.afterYield, rfl⟩
  | 3 => exact ⟨.afterProof, rfl⟩
  | 4 => exact ⟨.manual, rfl⟩
  | _ + 5 => omega

theorem SegmentMode.ofCode_unknown {n : Nat} (unknown : 3 < n) : SegmentMode.ofCode n = none := by
  match n with
  | 0 | 1 | 2 | 3 => omega
  | _ + 4 => rfl

theorem EndKind.ofCode_unknown {n : Nat} (unknown : 7 < n) : EndKind.ofCode n = Option.none := by
  match n with
  | 0 | 1 | 2 | 3 | 4 | 5 | 6 | 7 => omega
  | _ + 8 => rfl

theorem EndSense.ofCode_unknown {n : Nat} (unknown : 1 < n) : EndSense.ofCode n = none := by
  match n with
  | 0 | 1 => omega
  | _ + 2 => rfl

theorem EndAction.ofCode_unknown {n : Nat} (unknown : 1 < n) : EndAction.ofCode n = none := by
  match n with
  | 0 | 1 => omega
  | _ + 2 => rfl

theorem Fitted.ofCode_unknown {n : Nat} (unknown : 3 < n) : Fitted.ofCode n = Option.none := by
  match n with
  | 0 | 1 | 2 | 3 => omega
  | _ + 4 => rfl

theorem Criterion.ofCode_unknown {n : Nat} (unknown : 4 < n) : Criterion.ofCode n = Option.none := by
  match n with
  | 0 | 1 | 2 | 3 | 4 => omega
  | _ + 5 => rfl

theorem SegmentMode.code_iff (m : SegmentMode) :
    (m.code = 3 ↔ m = .hold) ∧ (m.code = 0 ↔ m = .position) ∧ (m.code = 1 ↔ m = .strain) := by
  cases m <;> decide

theorem endKindAllowed_iff (k : EndKind) (m : SegmentMode) :
    endKindAllowed k m = false ↔ m.code = 3 ∧ (k.code = 2 ∨ k.code = 5 ∨ k.code = 6) := by
  cases m
  case hold => cases k <;> decide
  all_goals exact iff_of_false nofun fun h => absurd h.1 (by decide)

theorem Criterion.code_eq_zero (c : Criterion) : c.code = 0 ↔ c = .none := by cases c <;> decide

theorem EndKind.code_eq_four (k : EndKind) : k.code = 4 ↔ k = .extReleased := by cases k <;> decide

/-! ## Clamps (R45) -/

theorem clampSigned_eq (top v : Int) (positive : 1 ≤ top) :
    clampSigned top v =
      (if 0 ≤ v then clampTo 1 top v else clampTo (-top) (-1) v,
        if 1 ≤ v.natAbs ∧ (v.natAbs : Int) ≤ top then 0 else 1) := by
  unfold clampSigned
  by_cases sign : 0 ≤ v
  · rw [if_pos sign, if_pos sign, clampField_eq 1 top v positive, clampCounts]
    refine congrArg (Prod.mk _) ?_
    split_ifs <;> omega
  · rw [if_neg sign, if_neg sign, clampField_eq (-top) (-1) v (by omega), clampCounts]
    refine congrArg (Prod.mk _) ?_
    split_ifs <;> omega

theorem clampOpt_eq (lo hi : Int) (v : Option Int) (order : lo ≤ hi) :
    clampOpt lo hi v = (v.map (clampTo lo hi), match v with | none => 0 | some v => clampCounts lo hi v) := by
  cases v with
  | none => rfl
  | some v =>
    unfold clampOpt
    simp only [clampField_eq lo hi v order]
    rfl

/-- A segment as it is stored, from the codes of its LOAD. -/
def storedSegment (r : RawSegment) (m : SegmentMode) (k : EndKind) (sense : EndSense) (action : EndAction) : Segment :=
  { mode := m, rate := (clampRate m r.rate).1, endKind := k, endValue := (clampEndValue k r.endValue).1
    sense := storedSense k sense, action := action, fallback := r.fallback.map (clampTo 1 1000000)
    gain := r.gain.map (clampTo 0 65536000) }

/-- The codes of a segment. -/
structure Codes (r : RawSegment) (m : SegmentMode) (k : EndKind) (sense : EndSense) (action : EndAction) : Prop where
  mode : r.mode = m.code
  endKind : r.endKind = k.code
  sense : r.endSense = sense.code
  action : r.endAction = action.code

theorem Codes.exists {r : RawSegment} (known : ¬ (3 < r.mode ∨ 7 < r.endKind ∨ 1 < r.endSense ∨ 1 < r.endAction)) :
    ∃ m k sense action, Codes r m k sense action := by
  obtain ⟨m, mode⟩ := SegmentMode.exists_code (n := r.mode) (by omega)
  obtain ⟨k, endKind⟩ := EndKind.exists_code (n := r.endKind) (by omega)
  obtain ⟨x, sense⟩ := EndSense.exists_code (n := r.endSense) (by omega)
  obtain ⟨a, action⟩ := EndAction.exists_code (n := r.endAction) (by omega)
  exact ⟨m, k, x, a, mode, endKind, sense, action⟩

section
variable {r : RawSegment} {m : SegmentMode} {k : EndKind} {sense : EndSense} {action : EndAction} (codes : Codes r m k sense action)
include codes

theorem segmentClamps_eq :
    segmentClamps r =
      (clampRate m r.rate).2 + (clampEndValue k r.endValue).2 + (clampOpt 1 1000000 r.fallback).2 + (clampOpt 0 65536000 r.gain).2 := by
  have rate : (match r.mode with
      | 0 => if 1 ≤ r.rate.natAbs ∧ r.rate.natAbs ≤ 1000000 then 0 else 1
      | 1 => clampCounts 1 1000000 r.rate
      | 2 => if 1 ≤ r.rate.natAbs ∧ r.rate.natAbs ≤ 100000000 then 0 else 1
      | _ => if r.rate = 0 then 0 else 1) = (clampRate m r.rate).2 := by
    rw [codes.mode]
    cases m with
    | position =>
      rw [clampRate, clampSigned_eq _ _ (by decide)]
      show (if _ then _ else _) = (if _ then _ else _)
      split_ifs <;> omega
    | strain => rw [clampRate, clampField_eq _ _ _ (by decide)]; rfl
    | force =>
      rw [clampRate, clampSigned_eq _ _ (by decide)]
      show (if _ then _ else _) = (if _ then _ else _)
      split_ifs <;> omega
    | hold =>
      rw [clampRate, clampField_eq _ _ _ (by decide), clampCounts]
      show (if _ then _ else _) = (if _ then _ else _)
      split_ifs <;> omega
  have value : (if r.endKind = 3 then clampCounts 1 4294967 r.endValue else 0) = (clampEndValue k r.endValue).2 := by
    rw [codes.endKind]
    cases k
    case timeElapsed => rw [clampEndValue, clampField_eq _ _ _ (by decide)]; rfl
    all_goals rfl
  have fallback := congrArg Prod.snd (clampOpt_eq 1 1000000 r.fallback (by decide))
  have gain := congrArg Prod.snd (clampOpt_eq 0 65536000 r.gain (by decide))
  exact congrArg₂ (· + ·) (congrArg₂ (· + ·) (congrArg₂ (· + ·) rate value) fallback.symm) gain.symm

theorem Codes.known : ¬ (3 < r.mode ∨ 7 < r.endKind ∨ 1 < r.endSense ∨ 1 < r.endAction) := by
  have mode : m.code ≤ 3 := by cases m <;> decide
  have kind : k.code ≤ 7 := by cases k <;> decide
  have way : sense.code ≤ 1 := by cases sense <;> decide
  have act : action.code ≤ 1 := by cases action <;> decide
  obtain ⟨modeIs, kindIs, wayIs, actIs⟩ := codes
  omega

theorem checkSegment_of_codes (removal : Criterion) :
    checkSegment removal r =
      match segmentFault removal.code r with
      | some reason => .error reason
      | none => .ok (storedSegment r m k sense action, segmentClamps r) := by
  obtain ⟨hold, position, strain⟩ := SegmentMode.code_iff m
  unfold checkSegment segmentFault
  rw [if_neg codes.known, segmentClamps_eq codes]
  simp only [codes.mode, codes.endKind, codes.sense, codes.action, SegmentMode.ofCode_code, EndKind.ofCode_code,
    EndSense.ofCode_code, EndAction.ofCode_code, endKindAllowed_iff, EndKind.code_eq_four, Criterion.code_eq_zero, ne_eq,
    position, strain, hold]
  have fallback := congrArg Prod.fst (clampOpt_eq 1 1000000 r.fallback (by decide))
  have gain := congrArg Prod.fst (clampOpt_eq 0 65536000 r.gain (by decide))
  rw [fallback, gain]
  split_ifs <;> rfl

end

theorem checkSegment_fault {removal : Criterion} {r : RawSegment} {reason : Reason}
    (fault : segmentFault removal.code r = some reason) : checkSegment removal r = .error reason := by
  by_cases known : 3 < r.mode ∨ 7 < r.endKind ∨ 1 < r.endSense ∨ 1 < r.endAction
  · have unknown : segmentFault removal.code r = some .unknownCode := if_pos known
    obtain rfl : Reason.unknownCode = reason := Option.some.inj (unknown.symm.trans fault)
    unfold checkSegment
    rcases known with mode | kind | way | act
    · rw [SegmentMode.ofCode_unknown mode]
    · rw [EndKind.ofCode_unknown kind]
      cases SegmentMode.ofCode r.mode <;> rfl
    · rw [EndSense.ofCode_unknown way]
      cases SegmentMode.ofCode r.mode <;> cases EndKind.ofCode r.endKind <;> rfl
    · rw [EndAction.ofCode_unknown act]
      cases SegmentMode.ofCode r.mode <;> cases EndKind.ofCode r.endKind <;> cases EndSense.ofCode r.endSense <;> rfl
  · obtain ⟨m, k, sense, action, codes⟩ := Codes.exists known
    rw [checkSegment_of_codes codes, fault]

theorem checkSegment_passes {removal : Criterion} {r : RawSegment} (sound : segmentFault removal.code r = none) :
    ∃ m k sense action, Codes r m k sense action ∧
      checkSegment removal r = .ok (storedSegment r m k sense action, segmentClamps r) := by
  have known : ¬ (3 < r.mode ∨ 7 < r.endKind ∨ 1 < r.endSense ∨ 1 < r.endAction) := by
    intro unknown
    exact Option.some_ne_none _ ((if_pos unknown).symm.trans sound)
  obtain ⟨m, k, sense, action, codes⟩ := Codes.exists known
  exact ⟨m, k, sense, action, codes, by rw [checkSegment_of_codes codes, sound]⟩

/-! ## The segments in index order (R44) -/

theorem checkSegments_fault {removal : Criterion} {reason : Reason} (rs : List RawSegment) (start i : Nat) {raw : RawSegment}
    (at_i : rs[i]? = some raw) (fault : segmentFault removal.code raw = some reason)
    (before : ∀ j raw', j < i → rs[j]? = some raw' → segmentFault removal.code raw' = none) :
    checkSegments removal start rs = .error ⟨reason, start + i⟩ := by
  induction rs generalizing start i with
  | nil => exact nomatch at_i
  | cons r rs ih =>
    unfold checkSegments
    cases i with
    | zero =>
      obtain rfl : r = raw := Option.some.inj at_i
      rw [checkSegment_fault fault]
      rfl
    | succ i =>
      obtain ⟨m, k, sense, action, -, passes⟩ := checkSegment_passes (before 0 r (Nat.succ_pos i) rfl)
      rw [passes, ih (start + 1) i at_i fun j raw' below => before (j + 1) raw' (Nat.succ_lt_succ below)]
      exact congrArg (fun n => (Except.error (TableFault.mk reason n) : Except TableFault (List Segment × Nat))) (by omega)

/-- A segment of a program is that of its LOAD as it is stored. -/
def StoredAs (raw : RawSegment) (g : Segment) : Prop :=
  ∃ m k sense action, Codes raw m k sense action ∧ g = storedSegment raw m k sense action

theorem checkSegments_passes {removal : Criterion} (rs : List RawSegment) (start : Nat)
    (sound : ∀ raw ∈ rs, segmentFault removal.code raw = none) :
    ∃ gs, checkSegments removal start rs = .ok (gs, (rs.map segmentClamps).sum) ∧ List.Forall₂ StoredAs rs gs := by
  induction rs generalizing start with
  | nil => exact ⟨[], rfl, .nil⟩
  | cons r rs ih =>
    obtain ⟨m, k, sense, action, codes, passes⟩ := checkSegment_passes (sound r List.mem_cons_self)
    obtain ⟨gs, rest, stored⟩ := ih (start + 1) fun raw mem => sound raw (List.mem_cons_of_mem r mem)
    refine ⟨storedSegment r m k sense action :: gs, ?_, .cons ⟨m, k, sense, action, codes, rfl⟩ stored⟩
    unfold checkSegments
    rw [passes, rest]
    rfl

theorem StoredAs.mode_table {raw : RawSegment} {g : Segment} (stored : StoredAs raw g) :
    [SegmentMode.position, .strain, .force, .hold][raw.mode]? = some g.mode := by
  obtain ⟨m, k, sense, action, codes, rfl⟩ := stored
  rw [codes.mode]
  cases m <;> rfl

theorem StoredAs.endKind_table {raw : RawSegment} {g : Segment} (stored : StoredAs raw g) :
    [EndKind.strainReached, .forceReached, .positionReached, .timeElapsed, .extReleased, .yieldDone, .proofDone,
      .none][raw.endKind]? = some g.endKind := by
  obtain ⟨m, k, sense, action, codes, rfl⟩ := stored
  rw [codes.endKind]
  cases k <;> rfl

theorem StoredAs.action_table {raw : RawSegment} {g : Segment} (stored : StoredAs raw g) :
    [EndAction.next, .finish][raw.endAction]? = some g.action := by
  obtain ⟨m, k, sense, action, codes, rfl⟩ := stored
  rw [codes.action]
  cases action <;> rfl

theorem StoredAs.sense_spec {raw : RawSegment} {g : Segment} (stored : StoredAs raw g) :
    if raw.endKind ≤ 3 then [EndSense.atOrAbove, .atOrBelow][raw.endSense]? = some g.sense
    else g.sense = .atOrAbove := by
  obtain ⟨m, k, sense, action, codes, rfl⟩ := stored
  have table : [EndSense.atOrAbove, .atOrBelow][raw.endSense]? = some sense := by
    rw [codes.sense]
    cases sense <;> rfl
  rw [codes.endKind]
  cases k
  case strainReached | forceReached | positionReached | timeElapsed => exact table
  all_goals rfl

theorem StoredAs.endValue_eq {raw : RawSegment} {g : Segment} (stored : StoredAs raw g) :
    g.endValue =
      if raw.endKind ≤ 2 then raw.endValue
      else if raw.endKind = 3 then clampTo 1 4294967 raw.endValue else 0 := by
  obtain ⟨m, k, sense, action, codes, rfl⟩ := stored
  rw [codes.endKind]
  cases k
  case timeElapsed => exact congrArg Prod.fst (clampField_eq 1 4294967 raw.endValue (by decide))
  all_goals rfl

theorem clampTo_zero (v : Int) : clampTo 0 0 v = 0 := by unfold clampTo; omega

theorem storedRate_eq (m : SegmentMode) (v : Int) :
    (clampRate m v).1 = match m with
      | .position => if 0 ≤ v then clampTo 1 1000000 v else clampTo (-1000000) (-1) v
      | .strain => clampTo 1 1000000 v
      | .force => if 0 ≤ v then clampTo 1 100000000 v else clampTo (-100000000) (-1) v
      | .hold => 0 := by
  cases m with
  | position => exact congrArg Prod.fst (clampSigned_eq 1000000 v (by decide))
  | strain => exact congrArg Prod.fst (clampField_eq 1 1000000 v (by decide))
  | force => exact congrArg Prod.fst (clampSigned_eq 100000000 v (by decide))
  | hold => exact (congrArg Prod.fst (clampField_eq 0 0 v (by decide))).trans (clampTo_zero v)

/-! ## The header (R43) -/

theorem storedRemovalStrain_eq (c : Criterion) (v : Int) :
    storedRemovalStrain c v =
      (if c.code = 1 then clampTo 1 2147483647 v else 0, if c.code = 1 then clampCounts 1 2147483647 v else 0) := by
  cases c
  case atStrain => exact clampField_eq 1 2147483647 v (by decide)
  all_goals rfl

/-- A program as it is stored, from its LOAD, its two codes and its stored segments. -/
def storedProgram (r : RawProgram) (fitted : Fitted) (criterion : Criterion) (segments : List Segment) : Program :=
  { label := storedLabel r, l0 := clampTo 1000 2000000 r.l0, lc := clampTo 1000 2000000 r.lc
    lp := clampTo 1000 2000000 r.lp, s0 := clampTo 1 10000000 r.s0, fitted := fitted
    autoTare := decide (r.autoTare ≠ 0), autoArm := decide (r.autoArm ≠ 0), autoPosition := decide (r.autoPosition ≠ 0)
    kStrain := clampTo 0 65536000 r.kStrain, kForce := clampTo 0 65536000 r.kForce, criterion := criterion
    removalStrain := if criterion.code = 1 then clampTo 1 2147483647 r.removalStrain else 0
    removalTimeout := clampTo 5 600 r.removalTimeout, slip := clampTo 1 10000000 r.slip, segments := segments }

/-- What the header adds to the clamp count. -/
def headerClamps (r : RawProgram) (criterion : Nat) : Nat :=
  clampCounts 1000 2000000 r.l0 + clampCounts 1000 2000000 r.lc + clampCounts 1000 2000000 r.lp +
    clampCounts 1 10000000 r.s0 + clampCounts 0 65536000 r.kStrain + clampCounts 0 65536000 r.kForce +
    (if criterion = 1 then clampCounts 1 2147483647 r.removalStrain else 0) +
    clampCounts 5 600 r.removalTimeout + clampCounts 1 10000000 r.slip

theorem checkProgram_of_codes {r : RawProgram} {fitted : Fitted} {criterion : Criterion} (label : r.labelLength ≤ 16)
    (fits : r.fitted = fitted.code) (removes : r.criterion = criterion.code) :
    checkProgram r =
      if criterion ≠ .none ∧ fitted = .none then .error ⟨.removalWithoutExtensometer, 32⟩
      else if r.segments.length = 0 ∨ 32 < r.segments.length then .error ⟨.segmentCount, 32⟩
      else (checkSegments criterion 0 r.segments).map fun segs =>
        (storedProgram r fitted criterion segs.1, headerClamps r criterion.code + segs.2) := by
  unfold checkProgram
  rw [if_neg (Nat.not_lt.mpr label), fits, removes, Fitted.ofCode_code, Criterion.ofCode_code]
  simp only [storedRemovalStrain_eq criterion r.removalStrain, clampField_eq 1000 2000000 r.l0 (by decide),
    clampField_eq 1000 2000000 r.lc (by decide), clampField_eq 1000 2000000 r.lp (by decide),
    clampField_eq 1 10000000 r.s0 (by decide), clampField_eq 0 65536000 r.kStrain (by decide),
    clampField_eq 0 65536000 r.kForce (by decide), clampField_eq 5 600 r.removalTimeout (by decide),
    clampField_eq 1 10000000 r.slip (by decide)]
  rfl

theorem checkProgram_longLabel {r : RawProgram} (long : 16 < r.labelLength) :
    checkProgram r = .error ⟨.labelLength, 32⟩ := by
  unfold checkProgram
  rw [if_pos long]
  rfl

theorem checkProgram_unknownCode {r : RawProgram} (label : r.labelLength ≤ 16)
    (unknown : ¬ (r.fitted ≤ 3 ∧ r.criterion ≤ 4)) : checkProgram r = .error ⟨.unknownCode, 32⟩ := by
  unfold checkProgram
  rw [if_neg (Nat.not_lt.mpr label)]
  rcases not_and_or.mp unknown with fitted | criterion
  · rw [Fitted.ofCode_unknown (Nat.not_le.mp fitted)]
    rfl
  · rw [Criterion.ofCode_unknown (Nat.not_le.mp criterion)]
    cases Fitted.ofCode r.fitted <;> rfl

theorem Fitted.code_eq_zero (f : Fitted) : f.code = 0 ↔ f = .none := by cases f <;> decide

theorem bare_iff {r : RawProgram} {fitted : Fitted} {criterion : Criterion} (fits : r.fitted = fitted.code)
    (removes : r.criterion = criterion.code) :
    (r.criterion ≠ 0 ∧ r.fitted = 0) ↔ (criterion ≠ .none ∧ fitted = .none) := by
  rw [fits, removes, Ne, Criterion.code_eq_zero, Fitted.code_eq_zero]

end Sys2Proof.Machine

open Sys2Proof Sys2Proof.Machine

/-- Settles O30: the header's checks one after another, then the segments by induction on their list; each stored field is
read off `storedProgram` and `storedSegment`. -/
theorem programCheckedAndClamped : Obligations.ProgramCheckedAndClamped := by
  unfold Obligations.ProgramCheckedAndClamped
  intro r
  refine ⟨checkProgram_longLabel, checkProgram_unknownCode, ?_, ?_, ?_⟩
  · intro label ⟨fittedKnown, criterionKnown⟩ bare
    obtain ⟨fitted, fits⟩ := Fitted.exists_code fittedKnown
    obtain ⟨criterion, removes⟩ := Criterion.exists_code criterionKnown
    rw [checkProgram_of_codes label fits removes, if_pos ((bare_iff fits removes).mp bare)]
  · intro label ⟨fittedKnown, criterionKnown⟩ equipped counted
    obtain ⟨fitted, fits⟩ := Fitted.exists_code fittedKnown
    obtain ⟨criterion, removes⟩ := Criterion.exists_code criterionKnown
    rw [checkProgram_of_codes label fits removes, if_neg (mt (bare_iff fits removes).mpr equipped),
      if_pos (by omega)]
  · intro label ⟨fittedKnown, criterionKnown⟩ equipped counted
    obtain ⟨fitted, fits⟩ := Fitted.exists_code fittedKnown
    obtain ⟨criterion, removes⟩ := Criterion.exists_code criterionKnown
    have header : checkProgram r = (checkSegments criterion 0 r.segments).map fun segs =>
        (storedProgram r fitted criterion segs.1, headerClamps r criterion.code + segs.2) := by
      rw [checkProgram_of_codes label fits removes, if_neg (mt (bare_iff fits removes).mpr equipped),
        if_neg (by omega)]
    rw [header, removes]
    refine ⟨fun i raw reason at_i fault before => ?_, fun sound => ?_⟩
    · rw [checkSegments_fault r.segments 0 i at_i fault before, Nat.zero_add]
      rfl
    · obtain ⟨gs, passes, stored⟩ := checkSegments_passes r.segments 0 sound
      rw [passes]
      refine ⟨storedProgram r fitted criterion gs, rfl, rfl, ?_, ?_, rfl, rfl, rfl, rfl, rfl, rfl, rfl, rfl, rfl,
        decide_eq_true_iff, decide_eq_true_iff, decide_eq_true_iff, stored.length_eq.symm, fun i raw at_i => ?_⟩
      · rw [fits]
        cases fitted <;> rfl
      · cases criterion <;> rfl
      · obtain ⟨below, is_raw⟩ := List.getElem?_eq_some_iff.mp at_i
        have below' : i < gs.length := stored.length_eq ▸ below
        have seg : StoredAs raw gs[i] := is_raw ▸ stored.get below below'
        refine ⟨gs[i], List.getElem?_eq_getElem below', seg.mode_table, seg.endKind_table, seg.sense_spec, seg.action_table,
          ?_, seg.endValue_eq, ?_, ?_⟩
        · obtain ⟨m, k, sense, action, codes, is_stored⟩ := seg
          rw [is_stored]
          exact storedRate_eq m raw.rate
        · obtain ⟨m, k, sense, action, codes, is_stored⟩ := seg
          rw [is_stored]
          rfl
        · obtain ⟨m, k, sense, action, codes, is_stored⟩ := seg
          rw [is_stored]
          rfl

end

