-- ==== Sys2Proof/Proofs/StoreRuns.lean ====
section
/-! STORE from MC's taking it to its end, and the notice that clears MC's mark (R37, R38). -/

namespace Sys2Proof.Machine

/-- MC with SP and the paths, as a step of the store sees them. -/
def State.storeDesk (s : State) : StoreDesk := ⟨s.mc, s.sp, s.paths⟩

theorem StoreDesk.takeStore_eq (d : StoreDesk) (tag : Tag) :
    d.takeStore tag =
      if d.mc.storeInFlight then { d with paths := d.paths.sendReply .mc (answer .store tag .notReady .none) }
      else
        { mc := { d.mc with storeInFlight := true }
          sp := { state := .writing, timer := some 50000, image := storeImage d.mc.cal d.mc.identity, tag := some tag }
          paths := { d.paths with storeStates := d.paths.storeStates ++ [.writing] } } := rfl

theorem exec_storeAtMc {s : State} {tag : Tag} {rest : List McMessage} (waiting : s.paths.msToMc = .store tag :: rest) :
    exec .storeAtMc s =
      .next (s.onStore fun _ => StoreDesk.takeStore { s.storeDesk with paths := { s.paths with msToMc := rest } } tag) := by
  have taken : (match s.storeDesk.paths.msToMc with
      | .store tag :: rest => StoreDesk.takeStore { s.storeDesk with paths := { s.paths with msToMc := rest } } tag
      | _ => s.storeDesk) = StoreDesk.takeStore { s.storeDesk with paths := { s.paths with msToMc := rest } } tag := by
    rw [show s.storeDesk.paths.msToMc = .store tag :: rest from waiting]
  exact congrArg (fun d => Host.Outcome.next (s.onStore fun _ => d)) taken

theorem exec_writeComplete {s : State} (writing : s.sp.state = .writing) :
    exec .writeComplete s = .next { s with
      sp := { s.sp with state := .verifying, timer := some 50000 }
      paths := { s.paths with storeStates := s.paths.storeStates ++ [.verifying] } } :=
  congrArg (fun d => Host.Outcome.next (s.onStore fun _ => d)) (if_pos writing)

theorem exec_storeDoneNotice {s : State} (waiting : 0 < s.paths.storeDone) :
    exec .storeDoneNotice s = .next { s with
      mc := { s.mc with storeInFlight := false }
      paths := { s.paths with storeDone := s.paths.storeDone - 1 } } :=
  congrArg (fun d => Host.Outcome.next (s.onMc fun _ => d)) (if_neg (Nat.pos_iff_ne_zero.mp waiting))

/-- The state after the STORE under `tag` has ended with a reply and events of SP. -/
def State.storeEnds (s : State) (r : Reply) (events : List Event) : State :=
  { s with
    sp := { state := .ready, timer := none, image := [], tag := none }
    paths := { s.paths with
      replies := { s.paths.replies with sp := s.paths.replies.sp ++ [r] }
      events := { s.paths.events with sp := s.paths.events.sp ++ events }
      storeStates := s.paths.storeStates ++ [.ready]
      storeDone := s.paths.storeDone + 1 } }

section
variable {s : State} {tag : Tag} (held : s.sp.tag = some tag)
include held

theorem State.answerStore_of_tag (r : Tag → Reply) :
    s.storeDesk.answerStore r = { s.storeDesk with paths := s.paths.sendReply .sp (r tag) } := by
  unfold StoreDesk.answerStore
  rw [show s.storeDesk.sp.tag = some tag from held]
  rfl

theorem State.finishStore_of_tag (r : Tag → Reply) :
    (s.onStore fun _ => (s.storeDesk.answerStore r).finish) = s.storeEnds (r tag) [] := by
  rw [State.answerStore_of_tag held, State.storeEnds, List.append_nil]
  rfl

theorem State.failStore_of_tag (reason : Reason) (e : StoreReason) :
    (s.onStore fun _ => s.storeDesk.failStore reason e) =
      s.storeEnds (refuse .store tag .storeFailed reason .none) [.storeError e] := by
  unfold StoreDesk.failStore
  rw [State.answerStore_of_tag held]
  unfold State.onStore StoreDesk.finish State.storeEnds Paths.sendEvent Paths.sendReply Paths.sendStoreState
  rfl

theorem exec_readBackComplete (bytes : List Byte) (verifying : s.sp.state = .verifying) :
    exec (.readBackComplete bytes) s = .next
      (if bytes = s.sp.image then s.storeEnds (answer .store tag .done .none) []
       else s.storeEnds (refuse .store tag .storeFailed .verifyMismatch .none) [.storeError .verifyMismatch]) := by
  by_cases same : bytes = s.sp.image
  · rw [if_pos same, ← State.finishStore_of_tag held fun tag => answer .store tag .done .none]
    exact congrArg (fun d => Host.Outcome.next (s.onStore fun _ => d)) ((if_pos verifying).trans (if_pos same))
  · rw [if_neg same, ← State.failStore_of_tag held]
    exact congrArg (fun d => Host.Outcome.next (s.onStore fun _ => d)) ((if_pos verifying).trans (if_neg same))

theorem exec_storeWriteError (storing : s.sp.storing = true) :
    exec .storeWriteError s =
      .next (s.storeEnds (refuse .store tag .storeFailed .writeError .none) [.storeError .writeError]) := by
  rw [← State.failStore_of_tag held]
  exact congrArg (fun d => Host.Outcome.next (s.onStore fun _ => d)) (if_pos storing)

theorem exec_storeSilent (storing : s.sp.storing = true) {n : Nat} (running : s.sp.timer = some n) :
    exec .storeSilent s = .next (s.storeEnds (refuse .store tag .storeFailed .silent .none) [.storeError .silent]) := by
  have expires : (s.sp.storing && s.sp.timer.isSome) = true := by
    rw [storing, running]
    rfl
  rw [← State.failStore_of_tag held]
  exact congrArg (fun d => Host.Outcome.next (s.onStore fun _ => d)) (if_pos expires)

end

theorem Sp.storing_iff (p : Sp) : p.storing = true ↔ p.state = .writing ∨ p.state = .verifying := by
  simp [Sp.storing]

end Sys2Proof.Machine

open Sys2Proof Sys2Proof.Machine

/-- Settles O27: each step of a STORE by the lemma of its command; the ends share `State.storeEnds`. -/
theorem storeRunsToItsOutcome : Obligations.StoreRunsToItsOutcome := by
  unfold Obligations.StoreRunsToItsOutcome
  refine ⟨fun s tag rest waiting => ?_, fun s writing => exec_writeComplete writing, fun s tag held => ?_,
    fun s waiting => exec_storeDoneNotice waiting⟩
  · rw [exec_storeAtMc waiting, StoreDesk.takeStore_eq]
    cases inFlight : s.mc.storeInFlight with
    | true => exact congrArg (fun d => Host.Outcome.next (s.onStore fun _ => d)) (if_pos inFlight)
    | false =>
      exact congrArg (fun d => Host.Outcome.next (s.onStore fun _ => d)) (if_neg (Bool.eq_false_iff.mp inFlight))
  · refine ⟨fun bytes verifying => exec_readBackComplete held bytes verifying, fun busy => ?_⟩
    have storing := (Sp.storing_iff s.sp).mpr busy
    exact ⟨exec_storeWriteError held storing, fun n running => exec_storeSilent held storing running⟩

end

