-- ==== Sys2Proof/Proofs/AutoloadEnds.lean ====
section
/-! The ends of autoload: the header's checks, the CRC and the records of an image, a memory error, silence (R33 to R36). -/

namespace Sys2Proof.Machine

/-! ## The header (R33) -/

theorem u8_eq_iff {h : List Byte} {i : Nat} (inside : i < h.length) (b : Byte) : u8 h i = b.toNat ↔ h[i]? = some b := by
  have read : u8 h i = (h[i]).toNat := by
    unfold u8 field
    rw [List.drop_eq_getElem_cons inside]
    exact Nat.add_zero _
  rw [read, List.getElem?_eq_getElem inside, Option.some_inj]
  exact ⟨BitVec.eq_of_toNat_eq, congrArg BitVec.toNat⟩

theorem headerFault_eq {h : List Byte} (whole : h.length = 11) :
    headerFault h =
      if h.take 2 ≠ [178, 41] then some .badSignature
      else if h[2]? ≠ some 1 then some .badRevision
      else if u16 h 3 < 15 ∨ 1024 < u16 h 3 then some .badLength
      else none := by
  have revision : u8 h 2 ≠ 1 ↔ h[2]? ≠ some 1 := not_congr (u8_eq_iff (by omega) 1)
  unfold headerFault
  simp only [revision]
  rfl

/-! ## The records of an image (R174) -/

theorem length_filter_id (l : List Bool) : (l.filter id).length = (l.map Bool.toNat).sum := by
  induction l with
  | nil => rfl
  | cons b l ih => cases b <;> simp [ih]; omega

theorem CalSet.count_eq (c : CalSet) :
    c.count = c.frame.isSome.toNat + c.crosshead.isSome.toNat + c.armA.isSome.toNat + c.armB.isSome.toNat +
      c.range0.isSome.toNat + c.range1.isSome.toNat + c.range2.isSome.toNat + c.range3.isSome.toNat := by
  unfold CalSet.count
  rw [length_filter_id]
  simp only [List.map_cons, List.map_nil, List.sum_cons, List.sum_nil]
  omega

theorem count_installIn {c : CalSet} {r : TableRecord} (good : r.good) (fresh : ∀ t, r.table = some t → c.has t = false) :
    (r.installIn c).count = c.count + 1 := by
  obtain ⟨-, t, table, passes⟩ := good
  have absent := fresh t table
  unfold TableRecord.installIn
  rw [table, CalSet.count_eq, CalSet.count_eq]
  cases t with
  | frame =>
    have none : c.frame.isSome = false := absent
    simp [readTable, CalSet.installed, none]; omega
  | crosshead =>
    have none : c.crosshead.isSome = false := absent
    simp [readTable, CalSet.installed, none]; omega
  | arm x =>
    cases x with
    | a =>
      have none : c.armA.isSome = false := absent
      simp [readTable, CalSet.installed, none]; omega
    | b =>
      have none : c.armB.isSome = false := absent
      simp [readTable, CalSet.installed, none]; omega
  | range code =>
    have known : code ≤ 3 := passes.1
    match code with
    | 0 =>
      have none : c.range0.isSome = false := absent
      simp [readTable, CalSet.installed, none]; omega
    | 1 =>
      have none : c.range1.isSome = false := absent
      simp [readTable, CalSet.installed, none]; omega
    | 2 =>
      have none : c.range2.isSome = false := absent
      simp [readTable, CalSet.installed, none]; omega
    | 3 =>
      have none : c.range3.isSome = false := absent
      simp [readTable, CalSet.installed, none]
    | _ + 4 => omega

theorem count_foldl_installIn (records : List TableRecord) (c : CalSet) (good : ∀ r ∈ records, r.good)
    (different : (records.map TableRecord.table).Nodup) (fresh : ∀ r ∈ records, ∀ t, r.table = some t → c.has t = false) :
    (records.foldl TableRecord.installIn c).count = c.count + records.length := by
  induction records generalizing c with
  | nil => rfl
  | cons r rs ih =>
    have goodHead := good r List.mem_cons_self
    obtain ⟨notAgain, different⟩ := List.nodup_cons.mp different
    have freshRest : ∀ x ∈ rs, ∀ t, x.table = some t → (r.installIn c).has t = false := by
      intro x mem t table
      rw [Bool.eq_false_iff, Ne, has_installIn c r goodHead]
      rintro (there | same)
      · exact Bool.eq_false_iff.mp (fresh x (List.mem_cons_of_mem r mem) t table) there
      · exact notAgain (List.mem_map.mpr ⟨x, mem, table.trans same.symm⟩)
    rw [List.foldl_cons, ih _ (fun x mem => good x (List.mem_cons_of_mem r mem)) different freshRest,
      count_installIn goodHead (fresh r List.mem_cons_self), List.length_cons]
    omega

theorem empty_has (t : TableRef) : CalSet.empty.has t = false := by
  cases t with
  | frame => rfl
  | crosshead => rfl
  | arm x => cases x <;> rfl
  | range code =>
    match code with
    | 0 | 1 | 2 | 3 => rfl
    | _ + 4 => rfl

section
variable {records : List TableRecord} (good : ∀ r ∈ records, r.good) (different : (records.map TableRecord.table).Nodup)
include good different

theorem takeRecords_all {fuel : Nat} (enough : (records.flatMap TableRecord.bytes).length ≤ fuel) :
    takeRecords fuel .empty (records.flatMap TableRecord.bytes) = some (records.foldl TableRecord.installIn .empty) := by
  obtain ⟨m, -, taken⟩ := takeRecords_append records [] fuel .empty (by rwa [List.append_nil]) good different
    fun _ _ t _ => empty_has t
  rw [List.append_nil] at taken
  rw [taken]
  unfold takeRecords
  rfl

/-- What ends the records of an image with BAD_TABLE, behind those that passed. -/
def EndsRecords (records : List TableRecord) (left : List Byte) : Prop :=
  left.length = 1 ∨
    (∃ (kind index : Byte) (body : List Byte), left = kind :: index :: body ∧
      (kind.toNat = 0 ∨ 4 < kind.toNat ∨ (kind.toNat = 3 ∧ 1 < index.toNat) ∨ body.length < recordLength kind.toNat body)) ∨
    (∃ (r : TableRecord) (more : List Byte), left = r.bytes ++ more ∧ r.fits ∧ r.table.isSome = true ∧
      (r.table ∈ records.map TableRecord.table ∨ ¬ r.good))

theorem takeRecord_ended {left : List Byte} (ended : EndsRecords records left) :
    takeRecord (records.foldl TableRecord.installIn .empty) left = none := by
  refine takeRecord_bad _ left ?_
  rcases ended with one | unreadable | ⟨r, more, is_left, fits, named, refused⟩
  · exact .inl one
  · exact .inr (.inl unreadable)
  · obtain ⟨t, table⟩ := Option.isSome_iff_exists.mp named
    refine .inr (.inr ⟨r, more, t, is_left, fits, table, ?_⟩)
    rcases refused with again | faulty
    · exact .inl ((has_foldl_installIn records good .empty t).mpr (.inr (table ▸ again)))
    · exact .inr faulty

theorem takeRecords_ended {left : List Byte} (ended : EndsRecords records left) {fuel : Nat}
    (enough : (records.flatMap TableRecord.bytes ++ left).length ≤ fuel) :
    takeRecords fuel .empty (records.flatMap TableRecord.bytes ++ left) = none := by
  obtain ⟨m, more, taken⟩ := takeRecords_append records left fuel .empty enough good different fun _ _ t _ => empty_has t
  have refused := takeRecord_ended good different ended
  rw [taken]
  cases left with
  | nil =>
    rcases ended with one | ⟨_, _, _, is_left, _⟩ | ⟨_, _, is_left, _⟩
    · exact nomatch one
    · exact nomatch is_left
    · exact nomatch is_left
  | cons b bs =>
    cases m with
    | zero => exact absurd more (by simp)
    | succ m =>
      unfold takeRecords
      rw [refused]

end

/-! ## The image (R34) -/

section
variable {image : List Byte}

theorem judgeImage_badCheck (wrong : (crc32 (image.take (image.length - 4))).toNat ≠ u32 image (image.length - 4)) :
    judgeImage image = .error .badCheck :=
  if_pos (decide_eq_false wrong)

theorem judgeImage_of_check (right : (crc32 (image.take (image.length - 4))).toNat = u32 image (image.length - 4)) :
    judgeImage image =
      match takeRecords (recordBytes image).length .empty (recordBytes image) with
      | some c => .ok c
      | none => .error .badTable :=
  if_neg (ne_of_eq_of_ne (decide_eq_true right) (by decide))

variable (right : (crc32 (image.take (image.length - 4))).toNat = u32 image (image.length - 4))
  {records : List TableRecord} (good : ∀ r ∈ records, r.good) (different : (records.map TableRecord.table).Nodup)
include right good different

theorem judgeImage_passes (bytes : (image.take (image.length - 4)).drop 11 = records.flatMap TableRecord.bytes) :
    judgeImage image = .ok (records.foldl TableRecord.installIn .empty) := by
  have inImage : recordBytes image = records.flatMap TableRecord.bytes := bytes
  rw [judgeImage_of_check right, inImage, takeRecords_all good different le_rfl]

theorem judgeImage_badTable {left : List Byte} (ended : EndsRecords records left)
    (bytes : (image.take (image.length - 4)).drop 11 = records.flatMap TableRecord.bytes ++ left) :
    judgeImage image = .error .badTable := by
  have inImage : recordBytes image = records.flatMap TableRecord.bytes ++ left := bytes
  rw [judgeImage_of_check right, inImage, takeRecords_ended good different ended le_rfl]

end

/-! ## The steps of autoload -/

/-- The state after autoload has ended with a set, an identity and an event. -/
def State.autoloadEnds (s : State) (cal : CalSet) (i : Identity) (e : Event) : State :=
  { s with
    mc := { s.mc with cal := cal, identity := i }
    sp := { s.sp with state := .ready, timer := none, image := [] }
    paths := { s.paths with
      events := { s.paths.events with sp := s.paths.events.sp ++ [e] }
      storeStates := s.paths.storeStates ++ [.ready]
      mcToMs := s.paths.mcToMs ++ [.summary cal.summary] } }

section
variable {s : State}

theorem State.onStore_endAutoload (cal : CalSet) (i : Identity) (e : Event) :
    (s.onStore fun _ => s.storeDesk.endAutoload cal i e) = s.autoloadEnds cal i e := rfl

theorem State.onStore_failAutoload (r : StoreReason) :
    (s.onStore fun _ => s.storeDesk.failAutoload r) = s.autoloadEnds .empty .zero (.storeError r) := rfl

variable (loading : s.sp.state = .loading)
include loading

theorem exec_autoloadHeaderRead {h : List Byte} (first : s.sp.image = []) (whole : h.length = 11) :
    exec (.autoloadHeaderRead h) s = .next
      (match headerFault h with
       | some r => s.autoloadEnds .empty .zero (.storeError r)
       | none => { s with sp := { s.sp with image := h, timer := some 50000 } }) := by
  refine (congrArg (fun d => Host.Outcome.next (s.onStore fun _ => d)) (if_pos ⟨loading, first, whole⟩)).trans ?_
  cases headerFault h <;> rfl

theorem exec_autoloadImageRead {rest : List Byte} (started : s.sp.image ≠ []) (whole : rest.length + 11 = u16 s.sp.image 3) :
    exec (.autoloadImageRead rest) s = .next
      (match judgeImage (s.sp.image ++ rest) with
       | .error r => s.autoloadEnds .empty .zero (.storeError r)
       | .ok cal => s.autoloadEnds cal (imageIdentity s.sp.image) (.autoloadDone cal.count)) := by
  refine (congrArg (fun d => Host.Outcome.next (s.onStore fun _ => d)) (if_pos ⟨loading, started, whole⟩)).trans ?_
  cases judgeImage (s.sp.image ++ rest) <;> rfl

theorem exec_autoloadReadError :
    exec .autoloadReadError s = .next (s.autoloadEnds .empty .zero (.storeError .readError)) :=
  congrArg (fun d => Host.Outcome.next (s.onStore fun _ => d)) (if_pos loading)

theorem exec_autoloadSilent {n : Nat} (running : s.sp.timer = some n) :
    exec .autoloadSilent s = .next (s.autoloadEnds .empty .zero (.storeError .silent)) :=
  congrArg (fun d => Host.Outcome.next (s.onStore fun _ => d)) (if_pos ⟨loading, running ▸ rfl⟩)

end

end Sys2Proof.Machine

open Sys2Proof Sys2Proof.Machine

/-- Settles O25: the header by `headerFault_eq`, the image by its judgement, whose records are taken one after another. -/
theorem autoloadEndsInItsOutcomes : Obligations.AutoloadEndsInItsOutcomes := by
  unfold Obligations.AutoloadEndsInItsOutcomes
  intro s loading
  refine ⟨fun h first whole => ?_, fun rest started whole => ⟨fun wrong => ?_, fun right records good different =>
    ⟨fun bytes => ?_, fun left bytes ended => ?_⟩⟩, exec_autoloadReadError loading, fun n running =>
      exec_autoloadSilent loading running⟩
  · rw [exec_autoloadHeaderRead loading first whole, headerFault_eq whole]
    split_ifs <;> rfl
  · rw [exec_autoloadImageRead loading started whole, judgeImage_badCheck wrong]
    rfl
  · have counted : (records.foldl TableRecord.installIn .empty).count = records.length :=
      (count_foldl_installIn records .empty good different fun _ _ t _ => empty_has t).trans (Nat.zero_add _)
    rw [exec_autoloadImageRead loading started whole, judgeImage_passes right good different bytes]
    exact congrArg (fun n => Host.Outcome.next (s.autoloadEnds _ _ (.autoloadDone n))) counted
  · rw [exec_autoloadImageRead loading started whole, judgeImage_badTable right good different ended bytes]
    rfl

end

