-- ==== Sys2Proof/Proofs/ImageLoadsBack.lean ====
section
/-! The image built for STORE as a list of table records, and what autoload makes of it (R34, R37, R174). -/

namespace Sys2Proof.Machine

/-! ## One table of a set as a record -/

/-- The record of a table with a given body. -/
def recordFor (t : TableRef) (body : List Byte) : TableRecord :=
  { kind := BitVec.ofNat 8 (tableCodes t).1, index := BitVec.ofNat 8 (tableCodes t).2, body := body }

/-- The tables of an image in the order of R37. -/
def imageTables : List TableRef :=
  [.frame, .crosshead, .arm .a, .arm .b, .range 0, .range 1, .range 2, .range 3]

theorem recordFor_table {t : TableRef} (listed : t ∈ imageTables) (body : List Byte) : (recordFor t body).table = some t := by
  simp only [imageTables, List.mem_cons, List.not_mem_nil, or_false] at listed
  rcases listed with rfl | rfl | rfl | rfl | rfl | rfl | rfl | rfl <;> rfl

theorem recordFor_bytes {t : TableRef} (listed : t ∈ imageTables) (body : List Byte) :
    (recordFor t body).bytes = tableRecord t body := by
  simp only [imageTables, List.mem_cons, List.not_mem_nil, or_false] at listed
  rcases listed with rfl | rfl | rfl | rfl | rfl | rfl | rfl | rfl <;> rfl

/-- A table whose record in an image loads back: what the record puts into a set. -/
structure LoadsBack (t : TableRef) (body : List Byte) (put : CalSet → CalSet) : Prop where
  listed : t ∈ imageTables
  fits : (recordFor t body).fits
  loads : ∀ c : CalSet, c.load (readTable t body) = .ok (put c, 0)

section
variable {t : TableRef} {body : List Byte} {put : CalSet → CalSet} (back : LoadsBack t body put)
include back

theorem LoadsBack.passes : tablePasses (readTable t body) := by
  by_contra fails
  obtain ⟨f, refused⟩ := load_of_not_passes .empty t body fails
  exact nomatch (back.loads .empty).symm.trans refused

theorem LoadsBack.good : (recordFor t body).good := ⟨back.fits, t, recordFor_table back.listed body, back.passes⟩

theorem LoadsBack.installIn_eq (c : CalSet) : (recordFor t body).installIn c = put c := by
  obtain ⟨n, loaded⟩ := load_of_passes c _ back.passes
  have same : (c.installed (readTable t body), n) = (put c, 0) := Except.ok.inj (loaded.symm.trans (back.loads c))
  unfold TableRecord.installIn
  rw [recordFor_table back.listed]
  exact congrArg Prod.fst same

end

theorem loadsBack_frame {t : FrameTable} (wf : t.wf = true) (checked : checkFrameTable t = .ok (t, 0)) :
    LoadsBack .frame (FrameTable.bytes t) fun c => { c with frame := some t } where
  listed := by decide
  fits := FrameTable.bytes_length t
  loads c := by
    unfold readTable CalSet.load
    simp only [readFrameTable_bytes wf, checked]
    rfl

theorem loadsBack_crosshead {g : Int} (fits : fits32 g = true) (passes : g ≠ 0) :
    LoadsBack .crosshead (quantity g) fun c => { c with crosshead := some g } where
  listed := by decide
  fits := quantity_length g
  loads c := by
    unfold readTable CalSet.load
    simp only [readGain fits, checkGain_passes passes]
    rfl

theorem loadsBack_armA {g : Int} (fits : fits32 g = true) (passes : g ≠ 0) :
    LoadsBack (.arm .a) (quantity g) fun c => { c with armA := some g } where
  listed := by decide
  fits := quantity_length g
  loads c := by
    unfold readTable CalSet.load
    simp only [readGain fits, checkGain_passes passes]
    rfl

theorem loadsBack_armB {g : Int} (fits : fits32 g = true) (passes : g ≠ 0) :
    LoadsBack (.arm .b) (quantity g) fun c => { c with armB := some g } where
  listed := by decide
  fits := quantity_length g
  loads c := by
    unfold readTable CalSet.load
    simp only [readGain fits, checkGain_passes passes]
    rfl

theorem loadsBack_range {code : Nat} {t : RangeTable} (known : code ≤ 3) (wf : t.wf = true)
    (checked : checkRangeTable code t = .ok (t, 0)) :
    LoadsBack (.range code) (RangeTable.bytes t) fun c => c.setRange code (some t) := by
  simp only [RangeTable.wf, Bool.and_eq_true, decide_eq_true_eq, List.all_eq_true] at wf
  obtain ⟨⟨zero, few⟩, points⟩ := wf
  refine ⟨?_, ?_, fun c => ?_⟩
  · match code with
    | 0 | 1 | 2 | 3 => decide
    | _ + 4 => omega
  · have length := RangeTable.bytes_length t
    have enough : ¬ (RangeTable.bytes t).length < 5 := by omega
    have stated : recordLength 4 (RangeTable.bytes t) = 5 + 8 * t.points.length := by
      unfold recordLength
      simp only [if_neg enough, RangeTable.bytes_count (show t.points.length < 256 by omega)]
    exact length.trans stated.symm
  · unfold readTable CalSet.load
    simp only [readRangeTable_bytes zero (by omega) points, checked]
    rfl

/-! ## The records of a set -/

/-- The record of a table where it is present. -/
def presentRecord (t : TableRef) (body : Option (List Byte)) : List TableRecord := (body.map (recordFor t)).toList

theorem presentRecord_bytes {t : TableRef} (listed : t ∈ imageTables) (body : Option (List Byte)) :
    (presentRecord t body).flatMap TableRecord.bytes = optRecord t body := by
  cases body with
  | none => rfl
  | some b => exact (List.append_nil _).trans (recordFor_bytes listed b)

theorem presentRecord_tables {t : TableRef} (listed : t ∈ imageTables) (body : Option (List Byte)) :
    ((presentRecord t body).map TableRecord.table).Sublist [some t] := by
  cases body with
  | none => exact List.nil_sublist _
  | some b =>
    have table : (presentRecord t (some b)).map TableRecord.table = [some t] := congrArg (· :: []) (recordFor_table listed b)
    rw [table]

section
variable {α : Type} {t : TableRef} {bytes : α → List Byte} {set : CalSet → Option α → CalSet} {o : Option α}
  (back : ∀ v, o = some v → LoadsBack t (bytes v) fun c => set c (some v))
include back

theorem presentRecord_good : ∀ r ∈ presentRecord t (o.map bytes), r.good := by
  intro r mem
  cases o with
  | none => exact nomatch mem
  | some v =>
    obtain rfl : r = recordFor t (bytes v) := List.mem_singleton.mp mem
    exact (back v rfl).good

theorem foldl_presentRecord {c : CalSet} (fresh : set c none = c) :
    (presentRecord t (o.map bytes)).foldl TableRecord.installIn c = set c o := by
  cases o with
  | none => exact fresh.symm
  | some v => exact (back v rfl).installIn_eq c

end

/-- The table records of a set, in the order of R37. -/
def storedRecords (c : CalSet) : List TableRecord :=
  presentRecord .frame (c.frame.map FrameTable.bytes) ++ presentRecord .crosshead (c.crosshead.map quantity) ++
    presentRecord (.arm .a) (c.armA.map quantity) ++ presentRecord (.arm .b) (c.armB.map quantity) ++
    presentRecord (.range 0) (c.range0.map RangeTable.bytes) ++ presentRecord (.range 1) (c.range1.map RangeTable.bytes) ++
    presentRecord (.range 2) (c.range2.map RangeTable.bytes) ++ presentRecord (.range 3) (c.range3.map RangeTable.bytes)

theorem storedRecords_bytes (c : CalSet) : (storedRecords c).flatMap TableRecord.bytes = c.records := by
  unfold storedRecords CalSet.records
  simp only [List.flatMap_append]
  rw [presentRecord_bytes (t := .frame) (by decide), presentRecord_bytes (t := .crosshead) (by decide),
    presentRecord_bytes (t := .arm .a) (by decide), presentRecord_bytes (t := .arm .b) (by decide),
    presentRecord_bytes (t := .range 0) (by decide), presentRecord_bytes (t := .range 1) (by decide),
    presentRecord_bytes (t := .range 2) (by decide), presentRecord_bytes (t := .range 3) (by decide)]

theorem storedRecords_different (c : CalSet) : ((storedRecords c).map TableRecord.table).Nodup := by
  have all : (imageTables.map some).Nodup := by decide
  refine List.Nodup.sublist ?_ all
  unfold storedRecords
  simp only [List.map_append]
  have listedOnce (t : TableRef) (listed : t ∈ imageTables) := presentRecord_tables listed
  exact ((((((((listedOnce .frame (by decide) _).append (listedOnce .crosshead (by decide) _)).append
    (listedOnce (.arm .a) (by decide) _)).append (listedOnce (.arm .b) (by decide) _)).append
    (listedOnce (.range 0) (by decide) _)).append (listedOnce (.range 1) (by decide) _)).append
    (listedOnce (.range 2) (by decide) _)).append (listedOnce (.range 3) (by decide) _))

/-- A set whose tables have passed their checks and fit their fields. -/
structure CalSet.Storable (c : CalSet) : Prop where
  frame : ∀ t, c.frame = some t → t.wf = true ∧ checkFrameTable t = .ok (t, 0)
  crosshead : ∀ g, c.crosshead = some g → fits32 g = true ∧ g ≠ 0
  armA : ∀ g, c.armA = some g → fits32 g = true ∧ g ≠ 0
  armB : ∀ g, c.armB = some g → fits32 g = true ∧ g ≠ 0
  range : ∀ code t, c.range code = some t → t.wf = true ∧ checkRangeTable code t = .ok (t, 0)

section
variable {c : CalSet} (storable : c.Storable)
include storable

theorem CalSet.Storable.frame_back (t) (held : c.frame = some t) :
    LoadsBack .frame (FrameTable.bytes t) fun c => { c with frame := some t } :=
  loadsBack_frame (storable.frame t held).1 (storable.frame t held).2

theorem CalSet.Storable.crosshead_back (g) (held : c.crosshead = some g) :
    LoadsBack .crosshead (quantity g) fun c => { c with crosshead := some g } :=
  loadsBack_crosshead (storable.crosshead g held).1 (storable.crosshead g held).2

theorem CalSet.Storable.armA_back (g) (held : c.armA = some g) :
    LoadsBack (.arm .a) (quantity g) fun c => { c with armA := some g } :=
  loadsBack_armA (storable.armA g held).1 (storable.armA g held).2

theorem CalSet.Storable.armB_back (g) (held : c.armB = some g) :
    LoadsBack (.arm .b) (quantity g) fun c => { c with armB := some g } :=
  loadsBack_armB (storable.armB g held).1 (storable.armB g held).2

theorem CalSet.Storable.range_back {code : Nat} (known : code ≤ 3) (t) (held : c.range code = some t) :
    LoadsBack (.range code) (RangeTable.bytes t) fun c => c.setRange code (some t) :=
  loadsBack_range known (storable.range code t held).1 (storable.range code t held).2

theorem CalSet.Storable.records_good : ∀ r ∈ storedRecords c, r.good := by
  have range (code : Nat) (known : code ≤ 3) :=
    presentRecord_good (set := fun c r => c.setRange code r) (storable.range_back known)
  unfold storedRecords
  simp only [List.forall_mem_append]
  exact ⟨⟨⟨⟨⟨⟨⟨presentRecord_good (set := fun c t => { c with frame := t }) storable.frame_back,
    presentRecord_good (set := fun c g => { c with crosshead := g }) storable.crosshead_back⟩,
    presentRecord_good (set := fun c g => { c with armA := g }) storable.armA_back⟩,
    presentRecord_good (set := fun c g => { c with armB := g }) storable.armB_back⟩,
    range 0 (by decide)⟩, range 1 (by decide)⟩, range 2 (by decide)⟩, range 3 (by decide)⟩

theorem CalSet.Storable.records_install : (storedRecords c).foldl TableRecord.installIn .empty = c := by
  have range (code : Nat) (known : code ≤ 3) {c' : CalSet} (fresh : c'.setRange code none = c') :=
    foldl_presentRecord (set := fun c r => c.setRange code r) (storable.range_back known) fresh
  unfold storedRecords
  simp only [List.foldl_append]
  rw [foldl_presentRecord (set := fun c t => { c with frame := t }) storable.frame_back rfl,
    foldl_presentRecord (set := fun c g => { c with crosshead := g }) storable.crosshead_back rfl,
    foldl_presentRecord (set := fun c g => { c with armA := g }) storable.armA_back rfl,
    foldl_presentRecord (set := fun c g => { c with armB := g }) storable.armB_back rfl]
  refine (congrArg (fun d => List.foldl _ (List.foldl _ (List.foldl _ d _) _) _) (range 0 (by decide) rfl)).trans ?_
  refine (congrArg (fun d => List.foldl _ (List.foldl _ d _) _) (range 1 (by decide) rfl)).trans ?_
  refine (congrArg (fun d => List.foldl _ d _) (range 2 (by decide) rfl)).trans ?_
  exact range 3 (by decide) rfl

theorem CalSet.Storable.rangeBytes_length (code : Nat) (known : code ≤ 3) (b : List Byte)
    (held : (c.range code).map RangeTable.bytes = some b) : b.length ≤ 133 := by
  obtain ⟨t, there, rfl⟩ := Option.map_eq_some_iff.mp held
  have passes := (storable.range_back known t there).passes
  obtain ⟨wf, -⟩ := storable.range code t there
  simp only [RangeTable.wf, Bool.and_eq_true, decide_eq_true_eq, List.all_eq_true] at wf
  obtain ⟨⟨zero, few⟩, points⟩ := wf
  rw [readTable, readRangeTable_bytes zero (by omega) points] at passes
  obtain ⟨-, -, high, -, -⟩ := passes
  rw [RangeTable.bytes_length]
  omega

end

theorem optRecord_length_le {t : TableRef} {body : Option (List Byte)} {n : Nat} (bound : ∀ b, body = some b → b.length ≤ n) :
    (optRecord t body).length ≤ 2 + n := by
  cases body with
  | none => exact Nat.zero_le _
  | some b =>
    have length := bound b rfl
    rw [optRecord, tableRecord, List.length_append, List.length_append, c1_length, c1_length]
    omega

theorem gainBytes_length (g : Option Int) (b : List Byte) (held : g.map quantity = some b) : b.length ≤ 4 := by
  obtain ⟨v, -, rfl⟩ := Option.map_eq_some_iff.mp held
  exact (quantity_length v).le

theorem CalSet.Storable.records_length {c : CalSet} (storable : c.Storable) : c.records.length ≤ 585 := by
  have frame : (optRecord .frame (c.frame.map FrameTable.bytes)).length ≤ 27 := by
    refine optRecord_length_le (n := 25) fun b held => ?_
    obtain ⟨t, -, rfl⟩ := Option.map_eq_some_iff.mp held
    exact (FrameTable.bytes_length t).le
  have crosshead := optRecord_length_le (t := .crosshead) (gainBytes_length c.crosshead)
  have armA := optRecord_length_le (t := .arm .a) (gainBytes_length c.armA)
  have armB := optRecord_length_le (t := .arm .b) (gainBytes_length c.armB)
  have range0 := optRecord_length_le (t := .range 0) (body := c.range0.map RangeTable.bytes)
    (storable.rangeBytes_length 0 (by decide))
  have range1 := optRecord_length_le (t := .range 1) (body := c.range1.map RangeTable.bytes)
    (storable.rangeBytes_length 1 (by decide))
  have range2 := optRecord_length_le (t := .range 2) (body := c.range2.map RangeTable.bytes)
    (storable.rangeBytes_length 2 (by decide))
  have range3 := optRecord_length_le (t := .range 3) (body := c.range3.map RangeTable.bytes)
    (storable.rangeBytes_length 3 (by decide))
  unfold CalSet.records
  simp only [List.length_append]
  omega

/-! ## The image -/

/-- The header of the image of a set. -/
def storedHeader (c : CalSet) (i : Identity) : List Byte :=
  [178, 41, 1] ++ (c2 (15 + c.records.length) ++ (flagByte [i.present] ++ (quantity i.serial ++ c1 i.capacity)))

section
variable (c : CalSet) (i : Identity)

theorem storedHeader_length : (storedHeader c i).length = 11 := by
  unfold storedHeader flagByte c2
  simp only [List.length_append, quantity_length, c1_length, writeInt_length]
  rfl

theorem storeImage_eq :
    storeImage c i = (storedHeader c i ++ c.records) ++ quantity (crc32 (storedHeader c i ++ c.records)).toNat := by
  unfold storeImage storedHeader
  simp only [List.append_assoc]

theorem storeImage_length : (storeImage c i).length = 15 + c.records.length := by
  rw [storeImage_eq, List.length_append, List.length_append, storedHeader_length, quantity_length]
  omega

theorem storeImage_header : (storeImage c i).take 11 = storedHeader c i := by
  rw [storeImage_eq, List.append_assoc]
  exact List.take_left' (storedHeader_length c i)

theorem storeImage_checked : (storeImage c i).take ((storeImage c i).length - 4) = storedHeader c i ++ c.records := by
  have length : (storeImage c i).length - 4 = (storedHeader c i ++ c.records).length := by
    rw [storeImage_length, List.length_append, storedHeader_length]
    omega
  rw [length, storeImage_eq]
  exact List.take_left

theorem storeImage_crc :
    (crc32 ((storeImage c i).take ((storeImage c i).length - 4))).toNat =
      u32 (storeImage c i) ((storeImage c i).length - 4) := by
  have length : (storeImage c i).length - 4 = (storedHeader c i ++ c.records).length + 0 := by
    rw [storeImage_length, List.length_append, storedHeader_length]
    omega
  have stored := congrArg readNat (field_append_right (storedHeader c i ++ c.records)
    (quantity (crc32 (storedHeader c i ++ c.records)).toNat) 0 4)
  rw [storeImage_checked, length, u32, storeImage_eq, stored]
  exact (readNat_writeInt_of_lt (n := 4) (BitVec.isLt _)).symm

theorem storedHeader_length_read (short : c.records.length ≤ 585) : u16 (storedHeader c i) 3 = 15 + c.records.length :=
  readNat_writeInt_of_lt (n := 2) (by omega)

theorem storedHeader_passes (short : c.records.length ≤ 585) : headerFault (storedHeader c i) = none := by
  have signature : (storedHeader c i).take 2 = [178, 41] := rfl
  have revision : (storedHeader c i)[2]? = some 1 := rfl
  rw [headerFault_eq (storedHeader_length c i), if_neg (not_not.mpr signature), if_neg (not_not.mpr revision),
    storedHeader_length_read c i short, if_neg (by omega)]

theorem storedHeader_identity (serial : i.serial < 4294967296) (capacity : i.capacity < 256)
    (absent : i.present = false → i = .zero) : imageIdentity (storedHeader c i) = i := by
  have serialRead : u32 (storedHeader c i) 6 = i.serial := readNat_writeInt_of_lt (n := 4) serial
  have capacityRead : u8 (storedHeader c i) 10 = i.capacity := readNat_c1 capacity
  have flagRead : u8 (storedHeader c i) 5 = packBits [i.present] := readNat_c1 (by cases i.present <;> decide)
  unfold imageIdentity
  rw [serialRead, capacityRead, flagRead]
  cases flag : i.present with
  | false => exact (absent flag).symm
  | true => exact congrArg (fun p => Identity.mk p i.serial i.capacity) flag.symm

end

end Sys2Proof.Machine

open Sys2Proof Sys2Proof.Machine

/-- Settles O26: the image is a header, `storedRecords` and the CRC-32; its records are good, of different tables, and install
the set they came from. -/
theorem storedImageLoadsBack : Obligations.StoredImageLoadsBack := by
  unfold Obligations.StoredImageLoadsBack
  intro c i frame crosshead armA armB range serial capacity absent
  have storable : c.Storable := ⟨frame, crosshead, armA, armB, range⟩
  have short := storable.records_length
  rw [storeImage_header]
  refine ⟨storedHeader_passes c i short, ?_, ?_, storedHeader_identity c i serial capacity absent⟩
  · rw [storeImage_length]
    exact storedHeader_length_read c i short
  · have records : ((storeImage c i).take ((storeImage c i).length - 4)).drop 11 =
        (storedRecords c).flatMap TableRecord.bytes := by
      rw [storeImage_checked, storedRecords_bytes]
      exact List.drop_left' (storedHeader_length c i)
    rw [judgeImage_passes (storeImage_crc c i) storable.records_good (storedRecords_different c) records,
      storable.records_install]

end
